-- ==== Sys2Proof/Word.lean ====
section
/-! DEFINITION. Word types of the Lomino W1 (R11, R12, R33). -/

namespace Sys2Proof

/-- A byte of SRAM, DRAM or host memory (R7). -/
abbrev Byte := BitVec 8

/-- A 32-bit scalar register or accumulator element (R11, R16). -/
abbrev Word := BitVec 32

/-- A 128-bit vector register or one 16-byte line of SRAM (R11, R33). -/
abbrev Line := BitVec 128

/-- A 64-bit value held in a register pair or a wide special register (R23, R193). -/
abbrev DWord := BitVec 64

end Sys2Proof
end

