-- ==== Sys2Proof/Machine/Map.lean ====
section
/-! DEFINITION. Sparse finite maps as sorted association lists in one canonical form:
keys strictly rising and no entry that holds the default value. Every register file and
every memory of the model is such a map, so equal contents are equal lists. -/

namespace Sys2Proof

/-- A sparse map from natural numbers. -/
abbrev SMap (β : Type) := List (Nat × β)

namespace Machine

/-- The entry at a key, if one is listed. -/
def mfind {β : Type} (m : SMap β) (k : Nat) : Option β :=
  match m with
  | [] => none
  | (a, b) :: r => if a = k then some b else if k < a then none else mfind r k

/-- The value at a key; an unlisted key reads as the default `d`. -/
def mget {β : Type} (d : β) (m : SMap β) (k : Nat) : β :=
  (mfind m k).getD d

/-- Put an entry, keeping the keys strictly rising. -/
def mput {β : Type} (m : SMap β) (k : Nat) (v : β) : SMap β :=
  match m with
  | [] => [(k, v)]
  | (a, b) :: r => if a = k then (k, v) :: r else if k < a then (k, v) :: (a, b) :: r else (a, b) :: mput r k v

/-- Remove the entry at a key. -/
def merase {β : Type} (m : SMap β) (k : Nat) : SMap β :=
  match m with
  | [] => []
  | (a, b) :: r => if a = k then r else if k < a then (a, b) :: r else (a, b) :: merase r k

/-- Write a value at a key: writing the default removes the entry. -/
def mset {β : Type} [DecidableEq β] (d : β) (m : SMap β) (k : Nat) (v : β) : SMap β :=
  if v = d then merase m k else mput m k v

/-- Change the entry at a key where one is listed. -/
def mmodify {β : Type} (m : SMap β) (k : Nat) (f : β → β) : SMap β :=
  match m with
  | [] => []
  | (a, b) :: r => if a = k then (a, f b) :: r else if k < a then (a, b) :: r else (a, b) :: mmodify r k f

/-- Keys strictly rise from above `lo`. -/
def mrising {β : Type} (lo : Nat) (m : SMap β) : Bool :=
  match m with
  | [] => true
  | (a, _) :: r => decide (lo < a) && mrising a r

/-- The canonical form: keys strictly rising. -/
def msorted {β : Type} (m : SMap β) : Bool :=
  match m with
  | [] => true
  | (a, _) :: r => mrising a r

/-- The canonical form of a map with default `d`. -/
def mwf {β : Type} [DecidableEq β] (d : β) (m : SMap β) : Bool :=
  msorted m && m.all (fun e => decide (e.2 ≠ d))

/-- Insert a number into a strictly rising list of numbers. -/
def sinsert (l : List Nat) (k : Nat) : List Nat :=
  match l with
  | [] => [k]
  | a :: r => if a = k then a :: r else if k < a then k :: a :: r else a :: sinsert r k

/-- Remove a number from a list of numbers. -/
def sremove (l : List Nat) (k : Nat) : List Nat :=
  l.filter (fun a => a != k)

/-- Membership in a list of numbers. -/
def smem (l : List Nat) (k : Nat) : Bool :=
  l.any (fun a => a == k)

/-- Fold a function over 0, 1, … n − 1 in order. -/
def forN {α : Type} (n : Nat) (f : Nat → α → α) (a : α) : α :=
  match n with
  | 0 => a
  | k + 1 => f k (forN k f a)

/-- The list 0, 1, … n − 1. -/
def upto (n : Nat) : List Nat := List.range n

end Machine
end Sys2Proof
end

