-- ==== Sys2Proof/Machine/Bits.lean ====
section
/-! DEFINITION. Bit-field, sign-extension and byte-order helpers (R7, R12). -/

namespace Sys2Proof.Machine

/-- The field of `x` from bit `lo` up, `w` bits wide, as a number. -/
def field (x lo w : Nat) : Nat := (x >>> lo) % 2 ^ w

/-- Bit `i` of a number. -/
def bitN (x i : Nat) : Bool := x.testBit i

/-- One bit as a number. -/
def b2n (b : Bool) : Nat := if b then 1 else 0

/-- The two's-complement reading of the low `w` bits of `x`. -/
def sgn (w x : Nat) : Int :=
  let v := x % 2 ^ w
  if v < 2 ^ (w - 1) then (v : Int) else (v : Int) - (2 ^ w : Nat)

/-- The low `w` bits of an integer as a number. -/
def wrapN (w : Nat) (x : Int) : Nat := (x % ((2 ^ w : Nat) : Int)).toNat

/-- Sign-extend a bit vector to 32 bits. -/
def sext32 {w : Nat} (x : BitVec w) : Word := x.signExtend 32

/-- Element `i` of width `w` of a 128-bit vector, as a number (R12). -/
def elem (w : Nat) (x : Line) (i : Nat) : Nat := field x.toNat (w * i) w

/-- Build a number from elements of width `w`, element 0 lowest (R12). -/
def packElems (w : Nat) (es : List Nat) : Nat :=
  match es with
  | [] => 0
  | e :: r => e % 2 ^ w + 2 ^ w * packElems w r

/-- A 128-bit vector from its elements of width `w`. -/
def lineOf (w : Nat) (es : List Nat) : Line := BitVec.ofNat 128 (packElems w es)

/-- The elements of width `w` of a 128-bit vector, in order. -/
def elems (w : Nat) (x : Line) : List Nat := (upto (128 / w)).map (elem w x)

/-- The bytes of a number, `n` of them, least significant first (R7). -/
def bytesOf (n x : Nat) : List Byte := (upto n).map (fun i => BitVec.ofNat 8 (x >>> (8 * i)))

/-- The number that bytes spell, least significant first (R7). -/
def ofBytes (bs : List Byte) : Nat :=
  match bs with
  | [] => 0
  | b :: r => b.toNat + 256 * ofBytes r

/-- Count of one bits among the low `w` bits. -/
def popcount (w x : Nat) : Nat := forN w (fun i n => n + b2n (bitN x i)) 0

/-- Count of leading zero bits of a `w`-bit number. -/
def clzN (w x : Nat) : Nat :=
  match w with
  | 0 => 0
  | k + 1 => if bitN x k then 0 else 1 + clzN k x

/-- Ceiling of a quotient. -/
def cdiv (a b : Nat) : Nat := (a + b - 1) / b

/-- Clear the low `k` bits. -/
def alignDown (k a : Nat) : Nat := (a >>> k) <<< k

/-- Replace `n` elements from index `i` of a list by those of another. -/
def splice {α : Type} (l : List α) (i : Nat) (r : List α) : List α :=
  l.take i ++ r ++ l.drop (i + r.length)

/-- Update one element of a list. -/
def lset {α : Type} (l : List α) (i : Nat) (a : α) : List α := l.set i a

/-- The least of two, the greater of two: plain names for Nat. -/
def minN (a b : Nat) : Nat := if a ≤ b then a else b
def maxN (a b : Nat) : Nat := if a ≤ b then b else a

/-- Stable insertion sort by a Boolean order test (`le a b`: a may stand before b). -/
def insertBy {α : Type} (le : α → α → Bool) (a : α) (l : List α) : List α :=
  match l with
  | [] => [a]
  | b :: r => if le a b then a :: b :: r else b :: insertBy le a r

/-- Stable sort. -/
def sortBy {α : Type} (le : α → α → Bool) (l : List α) : List α :=
  match l with
  | [] => []
  | a :: r => insertBy le a (sortBy le r)

end Sys2Proof.Machine
end

