-- ==== Sys2Proof/Machine/Fp.lean ====
section
/-! DEFINITION. Number formats, exact values and rounding (R38 to R58). -/

namespace Sys2Proof.Machine

/-- FLG bits (R26, R54). -/
abbrev Flags := BitVec 6

def fInvalid : Flags := 0x01
def fDivZero : Flags := 0x02
def fOverflow : Flags := 0x04
def fUnderflow : Flags := 0x08
def fInexact : Flags := 0x10
def fNpv : Flags := 0x20
def fNone : Flags := 0x00

/-- A flag when a condition holds. -/
def flagIf (c : Bool) (f : Flags) : Flags := if c then f else fNone

/-- Rounding modes (R45). -/
inductive Rnd where
  | rne | rtz | rup | rdn | sr
  deriving DecidableEq, Repr

/-- The element formats of R93, in the order of their codes 0 to 12. -/
inductive Ty where
  | i4 | n4 | i8 | n8 | i16 | n16 | i32 | n32 | e4 | e5 | f16 | bf16 | f32
  deriving DecidableEq, Repr

/-- The format a type code names; codes 13 to 15 name none (R93). -/
def tyOf (c : Nat) : Option Ty :=
  match c with
  | 0 => some .i4 | 1 => some .n4 | 2 => some .i8 | 3 => some .n8 | 4 => some .i16 | 5 => some .n16
  | 6 => some .i32 | 7 => some .n32 | 8 => some .e4 | 9 => some .e5 | 10 => some .f16 | 11 => some .bf16
  | 12 => some .f32 | _ => none

/-- Width in bits (R38, R41). -/
def Ty.width (t : Ty) : Nat :=
  match t with
  | .i4 => 4 | .n4 => 4 | .i8 => 8 | .n8 => 8 | .i16 => 16 | .n16 => 16 | .i32 => 32 | .n32 => 32
  | .e4 => 8 | .e5 => 8 | .f16 => 16 | .bf16 => 16 | .f32 => 32

/-- The signed integer types (R41). -/
def Ty.signed (t : Ty) : Bool :=
  match t with
  | .i4 => true | .i8 => true | .i16 => true | .i32 => true
  | .n4 => false | .n8 => false | .n16 => false | .n32 => false
  | .e4 => false | .e5 => false | .f16 => false | .bf16 => false | .f32 => false

/-- The integer types, codes 0 to 7 (R98). -/
def Ty.isInt (t : Ty) : Bool :=
  match t with
  | .i4 => true | .i8 => true | .i16 => true | .i32 => true
  | .n4 => true | .n8 => true | .n16 => true | .n32 => true
  | .e4 => false | .e5 => false | .f16 => false | .bf16 => false | .f32 => false

/-- A floating-point format: exponent bits, mantissa bits, bias, and whether it is E4M3 (R38). -/
structure Fmt where
  eb : Nat
  mb : Nat
  bias : Nat
  isE4 : Bool
  deriving DecidableEq, Repr

/-- The floating-point layout of a type (R38); the integer types borrow that of f32. -/
def Ty.fmt (t : Ty) : Fmt :=
  match t with
  | .f32 => ⟨8, 23, 127, false⟩
  | .f16 => ⟨5, 10, 15, false⟩
  | .bf16 => ⟨8, 7, 127, false⟩
  | .e5 => ⟨5, 2, 15, false⟩
  | .e4 => ⟨4, 3, 7, true⟩
  | .i4 | .n4 | .i8 | .n8 | .i16 | .n16 | .i32 | .n32 => ⟨8, 23, 127, false⟩

/-- Element value of an integer type read from its bits (R41). -/
def Ty.intVal (t : Ty) (x : Nat) : Int :=
  if t.signed then sgn t.width x else ((x % 2 ^ t.width : Nat) : Int)

/-- Least value of an integer type (R41). -/
def Ty.minVal (t : Ty) : Int := if t.signed then -((2 ^ (t.width - 1) : Nat) : Int) else 0

/-- Greatest value of an integer type (R41). -/
def Ty.maxVal (t : Ty) : Int :=
  if t.signed then ((2 ^ (t.width - 1) : Nat) : Int) - 1 else ((2 ^ t.width : Nat) : Int) - 1

/-- Saturate to a type's range (R134, R152). -/
def Ty.saturate (t : Ty) (x : Int) : Int :=
  if x < t.minVal then t.minVal else if t.maxVal < x then t.maxVal else x

/-- What an encoding stands for (R39, R40). A finite value is `m * 2 ^ e` with `m` positive. -/
inductive FVal where
  | nan (signalling : Bool)
  | inf (neg : Bool)
  | zero (neg : Bool)
  | fin (neg : Bool) (m : Nat) (e : Int)
  deriving DecidableEq, Repr

/-- The value of an encoding (R39). -/
def fdecode (f : Fmt) (x : Nat) : FVal :=
  let m := field x 0 f.mb
  let e := field x f.mb f.eb
  let s := bitN x (f.mb + f.eb)
  let emax := 2 ^ f.eb - 1
  let eq : Int := (1 : Int) - (f.bias : Int) - (f.mb : Int)
  if e = 0 then
    if m = 0 then .zero s else .fin s m eq
  else if e = emax && f.isE4 = false then
    if m = 0 then .inf s else .nan (bitN m (f.mb - 1) = false)
  else if e = emax && m = 2 ^ f.mb - 1 then .nan false
  else .fin s (2 ^ f.mb + m) ((e : Int) - 1 + eq)

/-- Sign bit in place (R38). -/
def fsign (f : Fmt) (neg : Bool) : Nat := if neg then 2 ^ (f.mb + f.eb) else 0

/-- Canonical NaN of a format (R40). -/
def fnan (f : Fmt) : Nat :=
  if f.isE4 then 0x7F else (2 ^ f.eb - 1) * 2 ^ f.mb + 2 ^ (f.mb - 1)

/-- Infinity of a format (R38); E4M3 has none, so its canonical NaN stands there (R51). -/
def finf (f : Fmt) (neg : Bool) : Nat :=
  if f.isE4 then 0x7F else (2 ^ f.eb - 1) * 2 ^ f.mb + fsign f neg

/-- Greatest finite magnitude of a format, as an encoding without sign (R38). -/
def fmaxMag (f : Fmt) : Nat :=
  if f.isE4 then 0x7E else (2 ^ f.eb - 1) * 2 ^ f.mb - 1

/-- Signed zero (R43). -/
def fzero (f : Fmt) (neg : Bool) : Nat := fsign f neg

/-- A positive magnitude: `n * 2 ^ e`, or strictly between it and `(n + 1) * 2 ^ e` when `sticky`. -/
structure Mag where
  n : Nat
  e : Int
  sticky : Bool
  deriving DecidableEq, Repr

/-- Round a magnitude to a whole number of units `2 ^ k`: the count, and whether it was exact.
`lf` is the LFSR state after its advance (R49); it is read in mode `.sr` only. -/
def roundUnits (mode : Rnd) (neg : Bool) (lf : Nat) (g : Mag) (k : Int) : Nat × Bool :=
  if k ≤ g.e then (g.n * 2 ^ (g.e - k).toNat, g.sticky = false)
  else
    let d := (k - g.e).toNat
    let q := g.n >>> d
    let r := g.n % 2 ^ d
    let exact := r = 0 && g.sticky = false
    let half := 2 ^ (d - 1)
    let up : Bool :=
      match mode with
      | .rne => half < r || (r = half && (g.sticky || q % 2 = 1))
      | .rtz => false
      | .rup => !neg && !exact
      | .rdn => neg && !exact
      | .sr => 2 ^ 32 ≤ (r * 2 ^ 32) >>> d + lf
    (if up then q + 1 else q, exact)

/-- What a result above the greatest finite magnitude becomes (R46). -/
def foverflow (f : Fmt) (mode : Rnd) (neg : Bool) : Nat :=
  if f.isE4 then fmaxMag f + fsign f neg
  else
    match mode with
    | .rne => finf f neg
    | .sr => finf f neg
    | .rtz => fmaxMag f + fsign f neg
    | .rup => if neg then fmaxMag f + fsign f neg else finf f neg
    | .rdn => if neg then finf f neg else fmaxMag f + fsign f neg

/-- Round a nonzero magnitude to a format (R46, R47, R49): the encoding and its flags. -/
def froundMag (f : Fmt) (mode : Rnd) (lf : Nat) (neg : Bool) (g : Mag) : Nat × Flags :=
  let emin : Int := (1 : Int) - (f.bias : Int)
  let top : Int := g.e + (Nat.log2 g.n : Int)
  let lo : Int := emin - (f.mb : Int)
  let k : Int := (if top < emin then emin else top) - (f.mb : Int)
  let (q, exact) := roundUnits mode neg lf g k
  let code := (k - lo).toNat * 2 ^ f.mb + q
  if fmaxMag f < code then (foverflow f mode neg, fOverflow ||| fInexact)
  else
    (code + fsign f neg,
      flagIf (!exact) fInexact ||| flagIf (!exact && decide (top < emin)) fUnderflow)

/-- An exact result before rounding. A finite one is `m * 2 ^ e`, `m` not zero. -/
inductive Ex where
  | nan
  | inf (neg : Bool)
  | zero (neg : Bool)
  | fin (m : Int) (e : Int)
  deriving DecidableEq, Repr

/-- The exact value an encoding stands for. -/
def FVal.ex (v : FVal) : Ex :=
  match v with
  | .nan _ => .nan
  | .inf s => .inf s
  | .zero s => .zero s
  | .fin s m e => .fin (if s then -(m : Int) else (m : Int)) e

/-- Whether a value is a NaN, and whether it is a signalling one (R40). -/
def FVal.isNan (v : FVal) : Bool := match v with | .nan _ => true | .inf _ => false | .zero _ => false | .fin _ _ _ => false
def FVal.isSnan (v : FVal) : Bool := match v with | .nan s => s | .inf _ => false | .zero _ => false | .fin _ _ _ => false

/-- Sign of an exact value. -/
def Ex.neg (x : Ex) : Bool :=
  match x with
  | .nan => false
  | .inf s => s
  | .zero s => s
  | .fin m _ => decide (m < 0)

/-- Negate an exact value. -/
def Ex.negate (x : Ex) : Ex :=
  match x with
  | .nan => .nan
  | .inf s => .inf (!s)
  | .zero s => .zero (!s)
  | .fin m e => .fin (-m) e

/-- Exact product; the second component says the operation is invalid (0 × ∞, R42). -/
def Ex.mul (a b : Ex) : Ex × Bool :=
  match a, b with
  | .nan, .nan => (.nan, false)
  | .nan, .inf _ => (.nan, false)
  | .nan, .zero _ => (.nan, false)
  | .nan, .fin _ _ => (.nan, false)
  | .inf _, .nan => (.nan, false)
  | .zero _, .nan => (.nan, false)
  | .fin _ _, .nan => (.nan, false)
  | .inf _, .zero _ => (.nan, true)
  | .zero _, .inf _ => (.nan, true)
  | .inf s, .inf t => (.inf (s != t), false)
  | .inf s, .fin m e => (.inf (s != (Ex.fin m e).neg), false)
  | .fin m e, .inf t => (.inf ((Ex.fin m e).neg != t), false)
  | .zero s, .zero t => (.zero (s != t), false)
  | .zero s, .fin m e => (.zero (s != (Ex.fin m e).neg), false)
  | .fin m e, .zero t => (.zero ((Ex.fin m e).neg != t), false)
  | .fin m e, .fin n f => (.fin (m * n) (e + f), false)

/-- Exact sum of two dyadic numbers `m * 2 ^ e`. -/
def dyAdd (a b : Int × Int) : Int × Int :=
  if a.2 ≤ b.2 then (a.1 + b.1 * ((2 ^ (b.2 - a.2).toNat : Nat) : Int), a.2)
  else (a.1 * ((2 ^ (a.2 - b.2).toNat : Nat) : Int) + b.1, b.2)

/-- Running totals of an exact sum: the finite part, what infinities, NaNs and zeros were met. -/
structure Acc where
  m : Int
  e : Int
  nan : Bool
  pinf : Bool
  ninf : Bool
  pos0 : Bool      -- some term was not −0
  neg0 : Bool      -- some term was not +0
  deriving DecidableEq, Repr

/-- Add one exact term to a running sum. -/
def accAdd (s : Acc) (x : Ex) : Acc :=
  match x with
  | .nan => { s with nan := true }
  | .inf t => if t then { s with ninf := true } else { s with pinf := true }
  | .zero t => if t then { s with neg0 := true } else { s with pos0 := true }
  | .fin m e =>
    let d := dyAdd (s.m, s.e) (m, e)
    { s with m := d.1, e := d.2, pos0 := true, neg0 := true }

/-- Exact sum of a list of terms with the zero sign of R43 (`rdn`: the mode is `.rdn`); the second
component says the sum is invalid (∞ − ∞, R42). -/
def exSum (rdn : Bool) (ts : List Ex) : Ex × Bool :=
  let s := ts.foldl accAdd ⟨0, 0, false, false, false, false, false⟩
  if s.nan then (.nan, s.pinf && s.ninf)
  else if s.pinf && s.ninf then (.nan, true)
  else if s.pinf then (.inf false, false)
  else if s.ninf then (.inf true, false)
  else if s.m = 0 then
    if s.pos0 && s.neg0 then (.zero rdn, false) else (.zero s.neg0, false)
  else (.fin s.m s.e, false)

/-- Round an exact result to a format. -/
def fround (f : Fmt) (mode : Rnd) (lf : Nat) (x : Ex) : Nat × Flags :=
  match x with
  | .nan => (fnan f, fNone)
  | .inf s => (finf f s, flagIf f.isE4 fInvalid)
  | .zero s => (fzero f s, fNone)
  | .fin m e => froundMag f mode lf (decide (m < 0)) ⟨m.natAbs, e, false⟩

/-- One advance of an LFSR (R48). -/
def lfsrAdvance (s : Word) : Word :=
  if s.getLsbD 0 then (s >>> 1) ^^^ 0x80200003#32 else s >>> 1

/-- Signalling-NaN flag over operands (R42). -/
def snanFlag (vs : List FVal) : Flags := flagIf (vs.any FVal.isSnan) fInvalid

/-- Addition and subtraction of exact values with NaN rules (R42, R43, R146). -/
def fAddV (f : Fmt) (mode : Rnd) (lf : Nat) (a b : FVal) : Nat × Flags :=
  let (s, inv) := exSum (mode = .rdn) [a.ex, b.ex]
  let (r, fl) := fround f mode lf s
  if a.isNan || b.isNan then (fnan f, snanFlag [a, b])
  else (r, fl ||| flagIf inv fInvalid)

/-- Negate a value's sign. -/
def FVal.negate (v : FVal) : FVal :=
  match v with
  | .nan s => .nan s
  | .inf s => .inf (!s)
  | .zero s => .zero (!s)
  | .fin s m e => .fin (!s) m e

/-- Product, rounded once (R146). -/
def fMulV (f : Fmt) (mode : Rnd) (lf : Nat) (a b : FVal) : Nat × Flags :=
  let (p, inv) := a.ex.mul b.ex
  let (r, fl) := fround f mode lf p
  if a.isNan || b.isNan then (fnan f, snanFlag [a, b])
  else (r, fl ||| flagIf inv fInvalid)

/-- Fused form `±a·b ± c`, rounded once; 0 × ∞ is invalid whatever c is (R146). -/
def fFmaV (f : Fmt) (mode : Rnd) (lf : Nat) (negP negC : Bool) (a b c : FVal) : Nat × Flags :=
  let (p, invP) := a.ex.mul b.ex
  let p' := if negP then p.negate else p
  let c' := if negC then c.ex.negate else c.ex
  let (s, invS) := exSum (mode = .rdn) [p', c']
  let (r, fl) := fround f mode lf s
  if invP then (fnan f, fInvalid)
  else if a.isNan || b.isNan || c.isNan then (fnan f, snanFlag [a, b, c])
  else (r, fl ||| flagIf invS fInvalid)

/-- Integer square root, the greatest `r` with `r * r ≤ n`, for `n < 4 ^ (k + 1)`. -/
def isqrtGo (n k r : Nat) : Nat :=
  match k with
  | 0 => if (r + 1) * (r + 1) ≤ n then r + 1 else r
  | j + 1 =>
    let t := r + 2 ^ (j + 1)
    isqrtGo n j (if t * t ≤ n then t else r)

def isqrt (n : Nat) : Nat := isqrtGo n (Nat.log2 n / 2) 0

/-- Quotient of two positive magnitudes, with 96 further bits (R149). -/
def magDiv (m1 : Nat) (e1 : Int) (m2 : Nat) (e2 : Int) : Mag :=
  let n := m1 * 2 ^ 96
  ⟨n / m2, e1 - e2 - 96, decide (n % m2 ≠ 0)⟩

/-- Square root of a positive magnitude (R149). -/
def magSqrt (m : Nat) (e : Int) : Mag :=
  let (m', e') := if e % 2 = 0 then (m, e) else (2 * m, e - 1)
  let n := m' * 4 ^ 80
  let r := isqrt n
  ⟨r, e' / 2 - 80, decide (r * r ≠ n)⟩

/-- Reciprocal square root of a positive magnitude (R149). -/
def magRsqrt (m : Nat) (e : Int) : Mag :=
  let (m', e') := if e % 2 = 0 then (m, e) else (2 * m, e - 1)
  let r := isqrt (4 ^ 120 / m')
  ⟨r, -(e' / 2) - 120, decide (r * r * m' ≠ 4 ^ 120)⟩

/-- Division (R149, R42). -/
def fDivV (f : Fmt) (mode : Rnd) (lf : Nat) (a b : FVal) : Nat × Flags :=
  if a.isNan || b.isNan then (fnan f, snanFlag [a, b])
  else
    let s := a.ex.neg != b.ex.neg
    match a, b with
    | .inf _, .inf _ => (fnan f, fInvalid)
    | .zero _, .zero _ => (fnan f, fInvalid)
    | .inf _, _ => (finf f s, fNone)
    | .zero _, _ => (fzero f s, fNone)
    | .fin _ _ _, .zero _ => (finf f s, fDivZero)
    | .fin _ _ _, .inf _ => (fzero f s, fNone)
    | .fin _ m1 e1, .fin _ m2 e2 => froundMag f mode lf s (magDiv m1 e1 m2 e2)
    | .fin _ _ _, .nan _ => (fnan f, fNone)
    | .nan _, _ => (fnan f, fNone)

/-- Reciprocal (R149): ±0 gives ±∞ and div_zero, ±∞ gives ±0. -/
def fRcpV (f : Fmt) (mode : Rnd) (lf : Nat) (a : FVal) : Nat × Flags :=
  match a with
  | .nan s => (fnan f, flagIf s fInvalid)
  | .inf s => (fzero f s, fNone)
  | .zero s => (finf f s, fDivZero)
  | .fin s m e => froundMag f mode lf s (magDiv 1 0 m e)

/-- Square root (R55, R149). -/
def fSqrtV (f : Fmt) (mode : Rnd) (lf : Nat) (a : FVal) : Nat × Flags :=
  match a with
  | .nan s => (fnan f, fNpv ||| flagIf s fInvalid)
  | .inf s => if s then (fnan f, fNpv ||| fInvalid) else (finf f false, fNone)
  | .zero s => (fzero f s, fNpv)
  | .fin s m e => if s then (fnan f, fNpv ||| fInvalid) else froundMag f mode lf false (magSqrt m e)

/-- Reciprocal square root (R55, R149). -/
def fRsqV (f : Fmt) (mode : Rnd) (lf : Nat) (a : FVal) : Nat × Flags :=
  match a with
  | .nan s => (fnan f, fNpv ||| flagIf s fInvalid)
  | .inf s => if s then (fnan f, fNpv ||| fInvalid) else (fzero f false, fNone)
  | .zero s => (finf f s, fNpv ||| fDivZero)
  | .fin s m e => if s then (fnan f, fNpv ||| fInvalid) else froundMag f mode lf false (magRsqrt m e)

/-- Order of two exact values that are not NaN: −1, 0 or 1 (−0 equals +0). -/
def exCmp (a b : Ex) : Int :=
  match a, b with
  | .inf s, .inf t => if s = t then 0 else if s then -1 else 1
  | .inf s, _ => if s then -1 else 1
  | _, .inf t => if t then 1 else -1
  | _, _ =>
    let x : Int × Int := match a with | .fin m e => (m, e) | .zero _ => (0, 0) | .nan => (0, 0) | .inf _ => (0, 0)
    let y : Int × Int := match b with | .fin m e => (m, e) | .zero _ => (0, 0) | .nan => (0, 0) | .inf _ => (0, 0)
    let d := (dyAdd x (-y.1, y.2)).1
    if d < 0 then -1 else if 0 < d then 1 else 0

/-- Minimum and maximum of encodings, −0 below +0, NaN canonical (R42, R147). -/
def fMinMax (f : Fmt) (isMax : Bool) (x y : Nat) : Nat × Flags :=
  let a := fdecode f x
  let b := fdecode f y
  if a.isNan || b.isNan then (fnan f, snanFlag [a, b])
  else
    let c := exCmp a.ex b.ex
    let less : Bool := decide (c < 0) || (decide (c = 0) && a.ex.neg && !b.ex.neg)
    (if less != isMax then x else y, fNone)

/-- Relation of two encodings: none when unordered (R148). -/
def fRel (f : Fmt) (x y : Nat) : Option Int × Flags :=
  let a := fdecode f x
  let b := fdecode f y
  if a.isNan || b.isNan then (none, snanFlag [a, b]) else (some (exCmp a.ex b.ex), fNone)

/-- Class code of an encoding (R150). -/
def fClass (f : Fmt) (x : Nat) : Nat :=
  match fdecode f x with
  | .nan s => if s then 8 else 9
  | .inf s => if s then 0 else 7
  | .zero s => if s then 3 else 4
  | .fin s _ _ =>
    if field x f.mb f.eb = 0 then (if s then 2 else 5) else (if s then 1 else 6)

/-- Scale by a power of two (R151). -/
def fScale (f : Fmt) (mode : Rnd) (lf : Nat) (x : Nat) (n : Int) : Nat × Flags :=
  match fdecode f x with
  | .nan s => (fnan f, flagIf s fInvalid)
  | .inf s => (finf f s, fNone)
  | .zero s => (fzero f s, fNone)
  | .fin s m e => froundMag f mode lf s ⟨m, e + n, false⟩

/-- Float to float (R51). -/
def cvtFF (src dst : Fmt) (mode : Rnd) (lf : Nat) (x : Nat) : Nat × Flags :=
  let v := fdecode src x
  match v with
  | .nan s => (fnan dst, flagIf s fInvalid)
  | .inf _ | .zero _ | .fin _ _ _ => fround dst mode lf v.ex

/-- Float to integer (R52). -/
def cvtFI (src : Fmt) (dst : Ty) (mode : Rnd) (lf : Nat) (x : Nat) : Nat × Flags :=
  match fdecode src x with
  | .nan _ => (0, fInvalid)
  | .inf s => (wrapN dst.width (if s then dst.minVal else dst.maxVal), fInvalid)
  | .zero _ => (0, fNone)
  | .fin s m e =>
    let (q, exact) := roundUnits mode s lf ⟨m, e, false⟩ 0
    let v : Int := if s then -(q : Int) else (q : Int)
    if v < dst.minVal then (wrapN dst.width dst.minVal, fInvalid)
    else if dst.maxVal < v then (wrapN dst.width dst.maxVal, fInvalid)
    else (wrapN dst.width v, flagIf (!exact) fInexact)

/-- Integer to float (R53). -/
def cvtIF (src : Ty) (dst : Fmt) (mode : Rnd) (lf : Nat) (x : Nat) : Nat × Flags :=
  let v := src.intVal x
  if v = 0 then (fzero dst false, fNone)
  else froundMag dst mode lf (decide (v < 0)) ⟨v.natAbs, 0, false⟩

/-- Integer to integer, saturated (R152). -/
def cvtII (src dst : Ty) (x : Nat) : Nat := wrapN dst.width (dst.saturate (src.intVal x))

/-- One conversion of VCVT and ZST between any two types (R152). -/
def cvt (src dst : Ty) (mode : Rnd) (lf : Nat) (x : Nat) : Nat × Flags :=
  if src.isInt then
    if dst.isInt then (cvtII src dst x, fNone) else cvtIF src dst.fmt mode lf x
  else
    if dst.isInt then cvtFI src.fmt dst mode lf x else cvtFF src.fmt dst.fmt mode lf x

/-- The rounding of a matrix step: nearest even, subnormal results flushed to signed zero (R56). -/
def froundFlush (x : Ex) : Nat × Flags :=
  match x with
  | .nan => (fnan Ty.f32.fmt, fNone)
  | .inf s => (finf Ty.f32.fmt s, fNone)
  | .zero s => (fzero Ty.f32.fmt s, fNone)
  | .fin m e =>
    let neg := decide (m < 0)
    -- r: rounded to 24 bits with the exponent unbounded
    let n := m.natAbs
    let top : Int := e + (Nat.log2 n : Int)
    let (q, _) := roundUnits .rne neg 0 ⟨n, e, false⟩ (top - 23)
    let rtop : Int := top - 23 + (Nat.log2 q : Int)
    if rtop < -126 then (fzero Ty.f32.fmt neg, fUnderflow ||| fInexact)
    else
      -- at or above the least normal the bounded rounding agrees with the unbounded one
      let k : Int := top - 23
      let code := (k + 149).toNat * 2 ^ 23 + q
      if top < -126 then (0x00800000 + fsign Ty.f32.fmt neg, fInexact ||| fUnderflow)
      else if fmaxMag Ty.f32.fmt < code then (finf Ty.f32.fmt neg, fOverflow ||| fInexact)
      else
        let exact := (roundUnits .rne neg 0 ⟨n, e, false⟩ k).2
        (code + fsign Ty.f32.fmt neg, flagIf (!exact) fInexact)

/-- One floating-point matrix step: z plus exact products, rounded once (R56). `ps` are the operand
pairs already decoded.
Log entry 75 (DESIGN CHOICE). -/
def stepF32 (z : Nat) (ps : List (FVal × FVal)) : Nat × Flags :=
  let zv := fdecode Ty.f32.fmt z
  let prods := ps.map (fun p => p.1.ex.mul p.2.ex)
  let inv := prods.any (fun p => p.2)
  let (s, invS) := exSum false (zv.ex :: prods.map (fun p => p.1))
  let anyNan := zv.isNan || ps.any (fun p => p.1.isNan || p.2.isNan)
  let sn := snanFlag (zv :: (ps.map (fun p => p.1) ++ ps.map (fun p => p.2)))
  if anyNan || inv || invS then
    (fnan Ty.f32.fmt, sn ||| flagIf (inv || (invS && !anyNan)) fInvalid)
  else froundFlush s

end Sys2Proof.Machine
end

