-- ==== Sys2Proof/Syntax.lean ====
section
/-! DEFINITION. The instruction set: one constructor per row of the opcode table, 165 slot
instructions (R94 to R106) and 86 steps of the hardware, the hub and the host. -/

namespace Sys2Proof

/-- The eight slots of a bundle, numbered as EPC.slot numbers them (R26, R89). -/
inductive Slot where
  | s | va | vb | mx | ld | st | cp | sy
  deriving DecidableEq, Repr

/-- The two vector slots (R97). -/
inductive VSlot where
  | va | vb
  deriving DecidableEq, Repr

/-- A guard field (R92). -/
structure Guard where
  neg : Bool
  kind : Bool
  idx : BitVec 4
  deriving DecidableEq, Repr

/-- A tile: the first sheet column of its band, and 1024·TY + TX; pool tiles (R279) are numbered
from 2^20. -/
structure Loc where
  band : Nat
  idx : Nat
  deriving DecidableEq, Repr

/-- The part of a rank term or dense line a step performs: its list line, its operand reads, or
the change itself (R187, R188). -/
inductive TermPhase where
  | list | read | perform
  deriving DecidableEq, Repr

/-- What a message that arrives at a fabric port is (R218, R219). -/
inductive InKind where
  | put                     -- bytes of an LNKP of another launch or of this module
  | getReply (id : Nat)     -- bytes for the LNKG with this number
  | getRequest              -- a remote LNKG asks for bytes
  | host                    -- a host write into tile SRAM (R307)
  deriving DecidableEq, Repr

/-- A transfer, or some blocks of one, as it arrives at a port (R219, R220). -/
structure Inbound where
  kind : InKind
  src : Nat                 -- module that sent it
  xid : Nat                 -- the sender's number for the transfer
  asid : BitVec 14
  cls : BitVec 2
  pa : BitVec 64            -- link physical address (R219)
  n : Nat                   -- bytes of the transfer
  issued : Nat              -- edge of WALL at which the sender issued it (R220)
  blocks : List (Nat × List Byte)   -- 512-byte blocks that arrived intact
  trailer : Bool            -- the transfer's trailer arrives with them (R220)
  deriving DecidableEq, Repr

/-- A collective step as it arrives at a port (R223, R368, R369). -/
structure ChunkIn where
  src : Nat
  asid : BitVec 14
  cls : BitVec 2
  ordinal : Nat             -- the port's collective number (R216)
  step : Nat
  off : Nat
  last : Bool
  nblk : Nat                -- blocks of the chunk
  blocks : List (Nat × List Byte × Word)   -- block, bytes, contributor word
  trailer : Bool
  deriving DecidableEq, Repr

/-- Why a cycle-armed stop is armed (R359, R395). -/
inductive StopWhy where
  | preempt | cycleBreak
  deriving DecidableEq, Repr

/-- An uncorrectable granule met by a restore (R364). -/
structure SaveFault where
  part : Nat                -- row of R360, from 0
  tx : Nat
  ty : Nat
  discardable : Bool        -- in a discardable line of a saved burst
  deriving DecidableEq, Repr

/-- What a bring-up stage meets outside the part's registers (R409). -/
structure BringUp where
  railsOk : Bool
  tileFail : List Nat       -- columns with a failing logical tile
  poolFail : List Nat       -- pool tiles that fail
  stackFail : List Nat      -- columns whose stacks fail training
  portFail : List Nat       -- fabric ports that fail training: 4 · sheet column + port
  deriving DecidableEq, Repr

/-- A start of a loading launch, with the copies of GCYC that the alignment exchange finds wrong (R290). -/
structure StartTest where
  token : BitVec 64
  skews : List (Nat × Int) := []      -- tile of the band, by how much its copy differs
  deriving DecidableEq, Repr

/-- What a restore meets (R325, R364). -/
structure RestoreScan where
  bad : Option SaveFault := none
  moved : List (Nat × Nat) := []      -- pages moved while the context was swapped: virtual, new physical address
  deriving DecidableEq, Repr

/-- What the retraining of a column finds (R409, R414). -/
structure Retrained where
  stacksOk : Bool := true
  portFail : List Nat := []           -- fabric ports that fail training: 4 · sheet column + port
  deriving DecidableEq, Repr

/-- One step of the machine: a slot operation of a bundle, or a step of the hardware around it. -/
inductive Instr where
  | add (gu : Guard) (gd ga gb : BitVec 5)
  | sub (gu : Guard) (gd ga gb : BitVec 5)
  | and_ (gu : Guard) (gd ga gb : BitVec 5)
  | or_ (gu : Guard) (gd ga gb : BitVec 5)
  | xor_ (gu : Guard) (gd ga gb : BitVec 5)
  | shl (gu : Guard) (gd ga gb : BitVec 5)
  | shr (gu : Guard) (gd ga gb : BitVec 5)
  | sar (gu : Guard) (gd ga gb : BitVec 5)
  | mul (gu : Guard) (gd ga gb : BitVec 5)
  | mulh (gu : Guard) (gd ga gb : BitVec 5)
  | mulhn (gu : Guard) (gd ga gb : BitVec 5)
  | min (gu : Guard) (gd ga gb : BitVec 5)
  | max (gu : Guard) (gd ga gb : BitVec 5)
  | minn (gu : Guard) (gd ga gb : BitVec 5)
  | maxn (gu : Guard) (gd ga gb : BitVec 5)
  | clz (gu : Guard) (gd ga : BitVec 5)
  | popc (gu : Guard) (gd ga : BitVec 5)
  | addi (gu : Guard) (gd ga : BitVec 5) (imm : BitVec 24)
  | andi (gu : Guard) (gd ga : BitVec 5) (imm : BitVec 24)
  | ori (gu : Guard) (gd ga : BitVec 5) (imm : BitVec 24)
  | xori (gu : Guard) (gd ga : BitVec 5) (imm : BitVec 24)
  | shli (gu : Guard) (gd ga sh : BitVec 5)
  | shri (gu : Guard) (gd ga sh : BitVec 5)
  | sari (gu : Guard) (gd ga sh : BitVec 5)
  | li (gu : Guard) (gd : BitVec 5) (imm : BitVec 24)
  | lih (gu : Guard) (gd : BitVec 5) (imm : BitVec 16)
  | sel (gu : Guard) (gd ga gb : BitVec 5) (qs : BitVec 4)
  | cmpReg (gu : Guard) (qd cc : BitVec 4) (ga gb : BitVec 5)
  | cmpImm (gu : Guard) (qd cc : BitVec 4) (ga : BitVec 5) (imm : BitVec 20)
  | qand (gu : Guard) (qd qa qb : BitVec 4)
  | qor (gu : Guard) (qd qa qb : BitVec 4)
  | qnot (gu : Guard) (qd qa : BitVec 4)
  | rds (gu : Guard) (g : BitVec 5) (sidx : BitVec 8)
  | wrs (gu : Guard) (g : BitVec 5) (sidx : BitVec 8)
  | rdcyc (gu : Guard) (g : BitVec 5)
  | br (gu : Guard) (target : BitVec 13)
  | brq (gu : Guard) (target : BitVec 13) (qa : BitVec 4) (nq : Bool)
  | call (gu : Guard) (target : BitVec 13)
  | ret (gu : Guard) (ga : BitVec 5)
  | jmpg (gu : Guard) (ga : BitVec 5)
  | loop (gu : Guard) (end_ : BitVec 13) (rp rv : Bool) (wsz : BitVec 3) (ga : BitVec 5)
  | loopi (gu : Guard) (end_ : BitVec 13) (rp rv : Bool) (wsz : BitVec 3) (count : BitVec 16)
  | emptyBundle (fold : BitVec 12) (le tt : Bool)
  | vadd (sl : VSlot) (gu : Guard) (ty : BitVec 4) (rnd : BitVec 3) (d a b : BitVec 11)
  | vsub (sl : VSlot) (gu : Guard) (ty : BitVec 4) (rnd : BitVec 3) (d a b : BitVec 11)
  | vmul (sl : VSlot) (gu : Guard) (ty : BitVec 4) (rnd : BitVec 3) (d a b : BitVec 11)
  | vmulh (sl : VSlot) (gu : Guard) (ty : BitVec 4) (rnd : BitVec 3) (d a b : BitVec 11)
  | vmac (sl : VSlot) (gu : Guard) (ty : BitVec 4) (rnd : BitVec 3) (d a b c : BitVec 11)
  | vmin (sl : VSlot) (gu : Guard) (ty : BitVec 4) (rnd : BitVec 3) (d a b : BitVec 11)
  | vmax (sl : VSlot) (gu : Guard) (ty : BitVec 4) (rnd : BitVec 3) (d a b : BitVec 11)
  | vabs (sl : VSlot) (gu : Guard) (ty : BitVec 4) (rnd : BitVec 3) (d a : BitVec 11)
  | vneg (sl : VSlot) (gu : Guard) (ty : BitVec 4) (rnd : BitVec 3) (d a : BitVec 11)
  | vadds (sl : VSlot) (gu : Guard) (ty : BitVec 4) (rnd : BitVec 3) (d a b : BitVec 11)
  | vsubs (sl : VSlot) (gu : Guard) (ty : BitVec 4) (rnd : BitVec 3) (d a b : BitVec 11)
  | vshl (sl : VSlot) (gu : Guard) (ty : BitVec 4) (rnd : BitVec 3) (d a n : BitVec 11)
  | vshr (sl : VSlot) (gu : Guard) (ty : BitVec 4) (rnd : BitVec 3) (d a n : BitVec 11)
  | vsar (sl : VSlot) (gu : Guard) (ty : BitVec 4) (rnd : BitVec 3) (d a n : BitVec 11)
  | vand (sl : VSlot) (gu : Guard) (ty : BitVec 4) (rnd : BitVec 3) (d a b : BitVec 11)
  | vor (sl : VSlot) (gu : Guard) (ty : BitVec 4) (rnd : BitVec 3) (d a b : BitVec 11)
  | vxor (sl : VSlot) (gu : Guard) (ty : BitVec 4) (rnd : BitVec 3) (d a b : BitVec 11)
  | vnot (sl : VSlot) (gu : Guard) (ty : BitVec 4) (rnd : BitVec 3) (d a : BitVec 11)
  | vcmp (sl : VSlot) (gu : Guard) (ty : BitVec 4) (rnd md : BitVec 3) (a b : BitVec 11) (cc : BitVec 4)
  | vsel (sl : VSlot) (gu : Guard) (ty : BitVec 4) (rnd : BitVec 3) (d a b : BitVec 11) (m : BitVec 3)
  | vbcastScalar (sl : VSlot) (gu : Guard) (ty : BitVec 4) (rnd : BitVec 3) (d : BitVec 11) (ga : BitVec 5)
  | vbcastVector (sl : VSlot) (gu : Guard) (ty : BitVec 4) (rnd : BitVec 3) (d a : BitVec 11) (lane : BitVec 5)
  | vext (sl : VSlot) (gu : Guard) (ty : BitVec 4) (rnd : BitVec 3) (gd : BitVec 5) (a : BitVec 11) (lane : BitVec 5)
  | vins (sl : VSlot) (gu : Guard) (ty : BitVec 4) (rnd : BitVec 3) (d : BitVec 11) (ga lane : BitVec 5)
  | vshuf (sl : VSlot) (gu : Guard) (ty : BitVec 4) (rnd : BitVec 3) (d a b c : BitVec 11)
  | vrot (sl : VSlot) (gu : Guard) (ty : BitVec 4) (rnd : BitVec 3) (d a n : BitVec 11)
  | vzip (sl : VSlot) (gu : Guard) (ty : BitVec 4) (rnd : BitVec 3) (d a b : BitVec 11) (h : Bool)
  | vunzip (sl : VSlot) (gu : Guard) (ty : BitVec 4) (rnd : BitVec 3) (d a b : BitVec 11) (h : Bool)
  | vpart (sl : VSlot) (gu : Guard) (ty : BitVec 4) (rnd : BitVec 3) (d a : BitVec 11) (m : BitVec 3)
  | vcnt (sl : VSlot) (gu : Guard) (ty : BitVec 4) (rnd : BitVec 3) (d a : BitVec 11)
  | vmov (sl : VSlot) (gu : Guard) (ty : BitVec 4) (rnd : BitVec 3) (d a : BitVec 11)
  | vli (sl : VSlot) (gu : Guard) (ty : BitVec 4) (rnd : BitVec 3) (d : BitVec 11) (imm : BitVec 22)
  | vfadd (sl : VSlot) (gu : Guard) (ty : BitVec 4) (rnd : BitVec 3) (d a b : BitVec 11)
  | vfsub (sl : VSlot) (gu : Guard) (ty : BitVec 4) (rnd : BitVec 3) (d a b : BitVec 11)
  | vfmul (sl : VSlot) (gu : Guard) (ty : BitVec 4) (rnd : BitVec 3) (d a b : BitVec 11)
  | vfma (sl : VSlot) (gu : Guard) (ty : BitVec 4) (rnd : BitVec 3) (d a b c : BitVec 11)
  | vfms (sl : VSlot) (gu : Guard) (ty : BitVec 4) (rnd : BitVec 3) (d a b c : BitVec 11)
  | vfnma (sl : VSlot) (gu : Guard) (ty : BitVec 4) (rnd : BitVec 3) (d a b c : BitVec 11)
  | vfmin (sl : VSlot) (gu : Guard) (ty : BitVec 4) (rnd : BitVec 3) (d a b : BitVec 11)
  | vfmax (sl : VSlot) (gu : Guard) (ty : BitVec 4) (rnd : BitVec 3) (d a b : BitVec 11)
  | vfabs (sl : VSlot) (gu : Guard) (ty : BitVec 4) (rnd : BitVec 3) (d a : BitVec 11)
  | vfneg (sl : VSlot) (gu : Guard) (ty : BitVec 4) (rnd : BitVec 3) (d a : BitVec 11)
  | vfcmp (sl : VSlot) (gu : Guard) (ty : BitVec 4) (rnd md : BitVec 3) (a b : BitVec 11) (cc : BitVec 4)
  | vfdiv (sl : VSlot) (gu : Guard) (ty : BitVec 4) (rnd : BitVec 3) (d a b : BitVec 11)
  | vfsqrt (sl : VSlot) (gu : Guard) (ty : BitVec 4) (rnd : BitVec 3) (d a : BitVec 11)
  | vfrsq (sl : VSlot) (gu : Guard) (ty : BitVec 4) (rnd : BitVec 3) (d a : BitVec 11)
  | vfrcp (sl : VSlot) (gu : Guard) (ty : BitVec 4) (rnd : BitVec 3) (d a : BitVec 11)
  | vfclass (sl : VSlot) (gu : Guard) (ty : BitVec 4) (rnd : BitVec 3) (d a : BitVec 11)
  | vfscl (sl : VSlot) (gu : Guard) (ty : BitVec 4) (rnd : BitVec 3) (d a b : BitVec 11)
  | vcvt (sl : VSlot) (gu : Guard) (ty : BitVec 4) (rnd : BitVec 3) (d a : BitVec 11) (st : BitVec 4)
  | vhsum (sl : VSlot) (gu : Guard) (ty : BitVec 4) (rnd : BitVec 3) (d a : BitVec 11)
  | vmeanm (sl : VSlot) (gu : Guard) (ty : BitVec 4) (rnd : BitVec 3) (d a b : BitVec 11)
  | vbini (sl : VSlot) (gu : Guard) (ty : BitVec 4) (rnd : BitVec 3) (d : BitVec 11) (anchor : BitVec 8)
  | vbinaddValue (sl : VSlot) (gu : Guard) (ty : BitVec 4) (rnd : BitVec 3) (d a b : BitVec 11)
  | vbinaddMerge (sl : VSlot) (gu : Guard) (ty : BitVec 4) (rnd : BitVec 3) (d a b : BitVec 11)
  | vbincvt (sl : VSlot) (gu : Guard) (ty : BitVec 4) (rnd : BitVec 3) (d a : BitVec 11)
  | ldv (gu : Guard) (d : BitVec 11) (gB : BitVec 5) (off : BitVec 18)
  | ldvsStrided (gu : Guard) (d : BitVec 11) (gB : BitVec 5) (off : BitVec 18) (gs : BitVec 5) (esz : BitVec 2)
  | ldvsGathered (gu : Guard) (d : BitVec 11) (gB : BitVec 5) (off : BitVec 18) (vi : BitVec 11)
  | ldg (gu : Guard) (gd gB : BitVec 5) (off : BitVec 18)
  | ldb (gu : Guard) (d : BitVec 11) (gB : BitVec 5) (off : BitVec 18) (esz : BitVec 2)
  | ldq (gu : Guard) (qd : BitVec 4) (gB : BitVec 5) (off : BitVec 18)
  | ldm (gu : Guard) (md : BitVec 3) (gB : BitVec 5) (off : BitVec 18)
  | stvOffset (gu : Guard) (vs : BitVec 11) (gB : BitVec 5) (off : BitVec 18)
  | stvScatter (gu : Guard) (vs : BitVec 11) (gB : BitVec 5) (vi : BitVec 11)
  | stvmOffset (gu : Guard) (vs : BitVec 11) (gB : BitVec 5) (off : BitVec 18) (m : BitVec 3)
  | stvmScatter (gu : Guard) (vs : BitVec 11) (gB : BitVec 5) (vi : BitVec 11) (m : BitVec 3)
  | stg (gu : Guard) (gs gB : BitVec 5) (off : BitVec 18)
  | stq (gu : Guard) (qs : BitVec 4) (gB : BitVec 5) (off : BitVec 18)
  | resultLanding (l : Loc)
  | mma (gu : Guard) (z maa mab : BitVec 2) (ta tb : BitVec 4) (shape : BitVec 2)
  | mmaq (gu : Guard) (z maa mab : BitVec 2) (ta tb : BitVec 4) (shape glen : BitVec 2) (gza gzb grp : BitVec 5)
  | scalc (gu : Guard) (z shape : BitVec 2) (gsa gsb grp : BitVec 5)
  | zclr (gu : Guard) (z what : BitVec 2)
  | zld (gu : Guard) (z : BitVec 2) (gB : BitVec 5) (off : BitVec 18)
  | zst (gu : Guard) (z : BitVec 2) (t : BitVec 4) (rnd : BitVec 3) (gB : BitVec 5) (off : BitVec 18)
  | mxagReg (gu : Guard) (ma : BitVec 2) (fld : BitVec 3) (ga : BitVec 5)
  | mxagImm (gu : Guard) (ma : BitVec 2) (fld : BitVec 3) (imm : BitVec 18)
  | attld (gu : Guard) (first cnt : BitVec 8) (gB : BitVec 5) (off : BitVec 18)
  | rank (gu : Guard) (t : BitVec 4) (n k : BitVec 10) (ga gb : BitVec 5)
  | rankThreshold (gu : Guard) (t : BitVec 4) (n k : BitVec 10) (gt ga gb : BitVec 5)
  | rkacc (gu : Guard) (z : BitVec 2) (row t : BitVec 4) (n : BitVec 10) (ga gb : BitVec 5)
  | unrank (gu : Guard) (t : BitVec 4) (n len : BitVec 10) (ga gb : BitVec 5)
  | accumulatorChange (l : Loc) (id : Nat) (read : Bool)
  | zldRowPair (l : Loc) (id c : Nat) (write : Bool)
  | zstRowPair (l : Loc) (id c : Nat) (write : Bool)
  | attldEntryLand (l : Loc) (id : Nat) (line : Option Nat)
  | rankBlockRead (l : Loc) (id j : Nat)
  | rankListWrite (l : Loc) (id i : Nat)
  | rkaccTerm (l : Loc) (id k : Nat) (ph : TermPhase)
  | unrankLineWrite (l : Loc) (id i : Nat) (ph : TermPhase)
  | send (gu : Guard) (dop : BitVec 3) (dx dy : BitVec 11) (w : Bool) (gS gD gK : BitVec 5)
  | sendNb (gu : Guard) (dop : BitVec 3) (dx dy : BitVec 11) (w : Bool) (gS gD : BitVec 5)
  | sendv (gu : Guard) (dop : BitVec 3) (dx dy : BitVec 11) (w : Bool) (gD gK : BitVec 5) (vs : BitVec 11)
  | sendvNb (gu : Guard) (dop : BitVec 3) (dx dy : BitVec 11) (w : Bool) (gD : BitVec 5) (vs : BitVec 11)
  | cpy (gu : Guard) (gS gK : BitVec 5)
  | cpg (gu : Guard) (gS gD gK gi n5 : BitVec 5) (rlen : BitVec 8)
  | rksend (gu : Guard) (dx dy : BitVec 11) (nb : Bool) (gS gD gK : BitVec 5) (n10 : BitVec 10)
  | dact (gu : Guard) (gp : BitVec 4)
  | drd (gu : Guard) (gp : BitVec 4) (gS gK : BitVec 5)
  | dwr (gu : Guard) (gp : BitVec 4) (gS : BitVec 5)
  | dpre (gu : Guard) (gp : BitVec 4)
  | dprea (gu : Guard)
  | dref (gu : Guard)
  | drefb (gu : Guard) (bank : BitVec 6)
  | lnkp (gu : Guard) (port cls : BitVec 2) (gp : BitVec 4) (gS gn : BitVec 5)
  | lnkg (gu : Guard) (port cls : BitVec 2) (gp : BitVec 4) (gD gK gn : BitVec 5)
  | coll (gu : Guard) (gS gK : BitVec 5)
  | flitHop (band fid : Nat)
  | depositWrite (band fid : Nat)
  | copyUnit (l : Loc) (u : Nat)
  | cpgLine (l : Loc) (n : Nat) (write : Bool)
  | rksendFlit (l : Loc) (f : Nat)
  | drdWindow (l : Loc) (id : Nat)
  | dwrRead (l : Loc) (id : Nat)
  | refreshTick (band : Nat)
  | engineSelfRefresh (band eng bank : Nat)
  | refreshGuard (band : Nat)
  | lnkpSourceRead (l : Loc) (id line : Nat)
  | lnkgServeRead (port : Nat)
  | inboundTransferArrival (port : Nat) (x : Inbound)
  | noModuleReport (l : Loc) (id : Nat) (step : Option Nat)
  | transferClose (port id : Nat)
  | class0CloseTimeout (port id : Nat)
  | putAcknowledge (l : Loc) (id : Nat)
  | barrierlessLandingWrite (port : Nat)
  | raceBoundLandingWrite (port : Nat)
  | collSnapshotRead (l : Loc) (id line : Nat)
  | collStepSend (port id : Nat)
  | collChunkReceive (port : Nat) (x : ChunkIn)
  | collStepCloseTimeout (port id : Nat)
  | collStepAck (port id step : Nat)
  | collStepFail (port id step : Nat)
  | waitcImm (imm : BitVec 26)
  | waitcReg (gp : BitVec 4)
  | waitbImm (gk : BitVec 5) (ph : Bool) (n : BitVec 20)
  | waitbReg (gk : BitVec 5) (ph : Bool) (gp : BitVec 4)
  | bariImm (gk : BitVec 5) (n : BitVec 21)
  | bariReg (gk gn : BitVec 5)
  | barx (gk : BitVec 5)
  | drainImm (n : BitVec 20)
  | drainReg (gp : BitVec 4)
  | realign (qd : BitVec 4)
  | cropen (handler : BitVec 13) (budget : BitVec 8)
  | audo (ga : BitVec 5) (uid : BitVec 16)
  | audc (uid : BitVec 16)
  | trap (code : BitVec 16)
  | bkpt (code : BitVec 16)
  | evt (code : BitVec 16)
  | tmark (code : BitVec 16)
  | dscrd (ga gn : BitVec 5)
  | landingSlotCheck (l : Loc) (id : Nat)
  | drainCheck (l : Loc) (id : Nat)
  | landingWindow (l : Loc) (id : Nat)
  | heldRecordWriteback (l : Loc) (addr : Nat)
  | holdRelease (band : Nat)
  | freezeTimeout (l : Loc) (id : Nat)
  | freezePulse (band blocks : Nat)
  | cadenceChange (band : Nat)
  | governorEvaluation (band : Nat)
  | estimatorUpdate (band : Nat)
  | stitchAlignmentCheck (band : Nat)
  | evtDrain (band : Nat)
  | traceDrain (band : Nat)
  | traceSample (band : Nat)
  | replayLogDrain (band : Nat)
  | stopCycle (band : Nat)
  | unwind (band : Nat)
  | cycleArmedStop (band : Nat)
  | resumption (band : Nat)
  | preemptArm (band s : Nat) (why : StopWhy)
  | contextSave (band : Nat)
  | bandRelease (band : Nat)
  | contextRestore (token : BitVec 64) (scan : RestoreScan)
  | contextResume (band : Nat)
  | auditCopy (band : Nat)
  | auditReplayBundle (band : Nat)
  | auditCompare (band : Nat)
  | kick (q : BitVec 12)
  | kickService (q : BitVec 12)
  | quantumExpiry (band : Nat)
  | launchStart (test : StartTest)
  | launchCompletion (band : Nat)
  | launchCancel (token : BitVec 64)
  | hubStopRequest (band : Nat) (cause : BitVec 8) (detail : BitVec 16) (loc : Nat)
  | attestationReport (token nonce : BitVec 64)
  | bringUp (r : BringUp)
  | budgetWrite (x : Word)
  | moduleIdWrite (x : Word)
  | bandFaultWrite (x : Word)
  | bandRetrainEnd (col : Nat) (found : Retrained)
  | queueEnergyRead (q : BitVec 12)
  | debugUnwind (asid : BitVec 14)
  | debugFail (asid : BitVec 14)
  | debugResume (asid : BitVec 14)
  | errorInjection (band : Nat)
  | registerWrite (off bytes : Nat) (x : BitVec 64)
  | freezeBegin (band : Nat)
  | hubHold (band s : Nat) (on : Bool)
  | drdBurstHeld (l : Loc) (id : Nat) (bad : List Nat)
  | unassignedOpcode (sl : Slot) (op : BitVec 8)
  | crclose
  | crabort
  | halt
  | scrub
  | placementPass
  | completionRecordWrite
  | coreTakeover
  deriving DecidableEq, Repr

end Sys2Proof
end

