-- ==== Sys2Proof/Machine/Checks.lean ====
section
/-! DEFINITION. The issue checks that use the encoding alone: details 0x0008 to 0x000B of R108,
in the order of R109, for every instruction that a slot can hold. -/

namespace Sys2Proof.Machine

/-- The first check that fails, in the order given. -/
def firstFault (cs : List (Bool × Nat)) : Option Nat :=
  match cs with
  | [] => none
  | (c, d) :: r => if c then some d else firstFault r

/-- Detail 0x0009: guard kind 1 with index bit 3 set (R92). -/
def guardBad (g : Guard) : Bool := g.kind && bitN g.idx.toNat 3

/-- Detail 0x0009: a vector register number of 1536 or more (R93). -/
def vregBad (v : BitVec 11) : Bool := decide (1536 ≤ v.toNat)

/-- Detail 0x000B: a vector source in the other cluster (R13). -/
def clusterBad (sl : VSlot) (v : BitVec 11) : Bool :=
  match sl with
  | .va => decide (768 ≤ v.toNat)
  | .vb => decide (v.toNat < 768)

/-- The element types an opcode admits (R98). -/
inductive TySet where
  | int | sint | fp | any | cls | part | none
  deriving DecidableEq, Repr

/-- Whether a type code belongs to a set of R98. -/
def TySet.has (s : TySet) (t : Nat) : Bool :=
  match s with
  | .int => decide (t ≤ 7)
  | .sint => decide (t ≤ 6) && decide (t % 2 = 0)
  | .fp => decide (10 ≤ t) && decide (t ≤ 12)
  | .any => decide (t ≤ 12)
  | .cls => decide (8 ≤ t) && decide (t ≤ 12)
  | .part => decide (2 ≤ t) && decide (t ≤ 7)
  | .none => decide (t = 0)

/-- The rounding field an opcode admits (R93, R98, R157). -/
inductive RndSet where
  | none | all | two
  deriving DecidableEq, Repr

/-- Whether a rounding code belongs to a set. -/
def RndSet.has (s : RndSet) (r : Nat) : Bool :=
  match s with
  | .none => decide (r = 0)
  | .all => decide (r ≤ 5)
  | .two => decide (r ≤ 1)

/-- Width of the elements of a type code; 32 for the codes that name no type. -/
def tyWidth (t : Nat) : Nat :=
  match tyOf t with
  | some ty => ty.width
  | .none => 32

/-- Elements of a type code in a vector register (R12). -/
def tyCount (t : Nat) : Nat := 128 / tyWidth t

/-- The checks of a vector slot (R158): the type and rounding sets, the destination and source
vector registers, and the opcode's own reserved-bit and field-value conditions. -/
def vecFault (sl : VSlot) (gu : Guard) (ty : BitVec 4) (rnd : BitVec 3) (ts : TySet) (rs : RndSet)
    (dests srcs : List (BitVec 11)) (bad8 badA : Bool) : Option Nat :=
  firstFault [
    ((ts == .none && ty.toNat != 0) || bad8, 0x0008),
    (guardBad gu || dests.any vregBad || srcs.any vregBad, 0x0009),
    ((ts != .none && !ts.has ty.toNat) || !rs.has rnd.toNat || badA, 0x000A),
    (srcs.any (clusterBad sl), 0x000B)]

/-- VLI: bits above the element's immediate (R98, R158). -/
def vliBits (t imm : Nat) : Bool :=
  if t ≤ 5 then decide (2 ^ tyWidth t ≤ imm)
  else if t = 8 ∨ t = 9 then decide (2 ^ 8 ≤ imm)
  else if t = 10 ∨ t = 11 then decide (2 ^ 16 ≤ imm)
  else false

/-- MMA's legal operand pairings (R101). -/
def mmaPair (ta tb : Nat) : Bool :=
  (ta == 10 && tb == 10) || (ta == 11 && tb == 11) ||
  ((ta == 8 || ta == 9) && (tb == 8 || tb == 9)) ||
  ((ta == 2 || ta == 3) && (tb == 2 || tb == 3)) ||
  ((ta == 0 || ta == 1) && (tb == 0 || tb == 1))

/-- Types ZST stores (R101). -/
def zstTy (t : Nat) : Bool := t == 6 || (8 ≤ t && t ≤ 12)

/-- The checks of a slot with a guard and vector registers in either cluster. -/
def plainFault (gu : Guard) (vs : List (BitVec 11)) (bad8 badA : Bool) : Option Nat :=
  firstFault [(bad8, 0x0008), (guardBad gu || vs.any vregBad, 0x0009), (badA, 0x000A)]

/-- LOOP and LOOPI: wsz 7, or nonzero with rv 0 (R94, R122). -/
def wszBad (rv : Bool) (wsz : BitVec 3) : Bool := wsz.toNat == 7 || (!rv && wsz.toNat != 0)

/-- The first issue check that an instruction's encoding fails, if any (R109). -/
def encFault (i : Instr) : Option Nat :=
  match i with
  | .add gu _ _ _ | .sub gu _ _ _ | .and_ gu _ _ _ | .or_ gu _ _ _ | .xor_ gu _ _ _ | .shl gu _ _ _
  | .shr gu _ _ _ | .sar gu _ _ _ | .mul gu _ _ _ | .mulh gu _ _ _ | .mulhn gu _ _ _ | .min gu _ _ _
  | .max gu _ _ _ | .minn gu _ _ _ | .maxn gu _ _ _ | .clz gu _ _ | .popc gu _ _ | .addi gu _ _ _
  | .andi gu _ _ _ | .ori gu _ _ _ | .xori gu _ _ _ | .shli gu _ _ _ | .shri gu _ _ _ | .sari gu _ _ _
  | .li gu _ _ | .lih gu _ _ | .sel gu _ _ _ _ | .qand gu _ _ _ | .qor gu _ _ _ | .qnot gu _ _
  | .rds gu _ _ | .wrs gu _ _ | .br gu _ | .brq gu _ _ _ | .call gu _ | .ret gu _ | .jmpg gu _ =>
    plainFault gu [] false false
  | .cmpReg gu _ cc _ _ => plainFault gu [] false (decide (9 < cc.toNat))
  | .cmpImm gu _ cc _ _ => plainFault gu [] false (decide (9 < cc.toNat))
  | .rdcyc gu g => plainFault gu [] false (bitN g.toNat 0)
  | .loop gu _ _ rv wsz _ => plainFault gu [] false (wszBad rv wsz)
  | .loopi gu _ _ rv wsz _ => plainFault gu [] false (wszBad rv wsz)
  | .emptyBundle _ _ _ => none
  | .vadd sl gu ty rnd d a b | .vsub sl gu ty rnd d a b | .vmul sl gu ty rnd d a b
  | .vmulh sl gu ty rnd d a b | .vmin sl gu ty rnd d a b | .vmax sl gu ty rnd d a b
  | .vadds sl gu ty rnd d a b | .vsubs sl gu ty rnd d a b =>
    vecFault sl gu ty rnd .int .none [d] [a, b] false false
  | .vmac sl gu ty rnd d a b c => vecFault sl gu ty rnd .int .none [d] [a, b, c] false false
  | .vabs sl gu ty rnd d a | .vneg sl gu ty rnd d a => vecFault sl gu ty rnd .sint .none [d] [a] false false
  | .vshl sl gu ty rnd d a n | .vshr sl gu ty rnd d a n | .vsar sl gu ty rnd d a n =>
    vecFault sl gu ty rnd .int .none [d] [a] false (decide (tyWidth ty.toNat ≤ n.toNat))
  | .vand sl gu ty rnd d a b | .vor sl gu ty rnd d a b | .vxor sl gu ty rnd d a b =>
    vecFault sl gu ty rnd .none .none [d] [a, b] false false
  | .vnot sl gu ty rnd d a | .vmov sl gu ty rnd d a => vecFault sl gu ty rnd .none .none [d] [a] false false
  | .vcmp sl gu ty rnd _ a b cc => vecFault sl gu ty rnd .int .none [] [a, b] false (decide (5 < cc.toNat))
  | .vsel sl gu ty rnd d a b _ => vecFault sl gu ty rnd .none .none [d] [a, b] false false
  | .vbcastScalar sl gu ty rnd d _ => vecFault sl gu ty rnd .any .none [d] [] false false
  | .vbcastVector sl gu ty rnd d a lane =>
    vecFault sl gu ty rnd .any .none [d] [a] false (decide (tyCount ty.toNat ≤ lane.toNat))
  | .vext sl gu ty rnd _ a lane =>
    vecFault sl gu ty rnd .any .none [] [a] false (decide (tyCount ty.toNat ≤ lane.toNat))
  | .vins sl gu ty rnd d _ lane =>
    vecFault sl gu ty rnd .any .none [d] [d] false (decide (tyCount ty.toNat ≤ lane.toNat))
  | .vshuf sl gu ty rnd d a b c => vecFault sl gu ty rnd .none .none [d] [a, b, c] false false
  | .vrot sl gu ty rnd d a n =>
    vecFault sl gu ty rnd .any .none [d] [a] false (decide (tyCount ty.toNat ≤ n.toNat))
  | .vzip sl gu ty rnd d a b _ | .vunzip sl gu ty rnd d a b _ =>
    vecFault sl gu ty rnd .any .none [d] [a, b] false false
  | .vpart sl gu ty rnd d a _ => vecFault sl gu ty rnd .part .none [d] [a] false false
  | .vcnt sl gu ty rnd d a => vecFault sl gu ty rnd .int .none [d] [a] false false
  | .vli sl gu ty rnd d imm => vecFault sl gu ty rnd .any .none [d] [] (vliBits ty.toNat imm.toNat) false
  | .vfadd sl gu ty rnd d a b | .vfsub sl gu ty rnd d a b | .vfmul sl gu ty rnd d a b
  | .vfdiv sl gu ty rnd d a b | .vmeanm sl gu ty rnd d a b | .vfscl sl gu ty rnd d a b =>
    vecFault sl gu ty rnd .fp .all [d] [a, b] false false
  | .vfma sl gu ty rnd d a b c | .vfms sl gu ty rnd d a b c | .vfnma sl gu ty rnd d a b c =>
    vecFault sl gu ty rnd .fp .all [d] [a, b, c] false false
  | .vfmin sl gu ty rnd d a b | .vfmax sl gu ty rnd d a b =>
    vecFault sl gu ty rnd .fp .none [d] [a, b] false false
  | .vfabs sl gu ty rnd d a | .vfneg sl gu ty rnd d a => vecFault sl gu ty rnd .fp .none [d] [a] false false
  | .vfcmp sl gu ty rnd _ a b cc => vecFault sl gu ty rnd .fp .none [] [a, b] false (decide (6 < cc.toNat))
  | .vfsqrt sl gu ty rnd d a | .vfrsq sl gu ty rnd d a | .vfrcp sl gu ty rnd d a | .vhsum sl gu ty rnd d a =>
    vecFault sl gu ty rnd .fp .all [d] [a] false false
  | .vfclass sl gu ty rnd d a => vecFault sl gu ty rnd .cls .none [d] [a] false false
  | .vcvt sl gu ty rnd d a st =>
    vecFault sl gu ty rnd .any .all [d] [a] false
      (decide (12 < st.toNat) || st == ty || (decide (st.toNat < 8) && decide (ty.toNat < 8) && rnd != 0))
  | .vbini sl gu ty rnd d _ => vecFault sl gu ty rnd .none .none [d] [] false false
  | .vbinaddValue sl gu ty rnd d a b => vecFault sl gu ty rnd .fp .none [d] [a, b] false false
  | .vbinaddMerge sl gu ty rnd d a b => vecFault sl gu ty rnd .none .none [d] [a, b] false false
  | .vbincvt sl gu ty rnd d a => vecFault sl gu ty rnd .fp .two [d] [a] false false
  | .ldv gu d _ _ | .ldvsStrided gu d _ _ _ _ | .ldb gu d _ _ _ => plainFault gu [d] false false
  | .ldvsGathered gu d _ _ vi => plainFault gu [d, vi] false false
  | .ldg gu _ _ _ | .ldq gu _ _ _ | .ldm gu _ _ _ => plainFault gu [] false false
  | .stvOffset gu vs _ _ | .stvmOffset gu vs _ _ _ => plainFault gu [vs] false false
  | .stvScatter gu vs _ vi | .stvmScatter gu vs _ vi _ => plainFault gu [vs, vi] false false
  | .stg gu _ _ _ | .stq gu _ _ _ => plainFault gu [] false false
  | .mma gu _ _ _ ta tb _ => plainFault gu [] false (!mmaPair ta.toNat tb.toNat)
  | .mmaq gu _ _ _ ta tb _ glen _ _ _ =>
    plainFault gu [] false (decide (3 < ta.toNat) || decide (3 < tb.toNat) || glen.toNat == 3)
  | .scalc gu _ _ _ _ _ => plainFault gu [] false false
  | .zclr gu _ what => plainFault gu [] false (what.toNat == 0)
  | .zld gu _ _ _ => plainFault gu [] false false
  | .zst gu _ t rnd _ _ =>
    plainFault gu [] false (!zstTy t.toNat || decide (5 < rnd.toNat) ||
      ((t.toNat == 6 || t.toNat == 12) && rnd.toNat != 0))
  | .mxagReg gu _ fld _ => plainFault gu [] false (fld.toNat == 7)
  | .mxagImm gu _ fld _ => plainFault gu [] false (fld.toNat == 7)
  | .attld gu first cnt _ _ => plainFault gu [] false (decide (255 < first.toNat + cnt.toNat))
  | .rank gu t _ _ _ _ => plainFault gu [] false (!(t.toNat == 12 || t.toNat == 11))
  | .rankThreshold gu t _ _ _ _ _ => plainFault gu [] false (!(t.toNat == 12 || t.toNat == 11))
  | .rkacc gu _ _ t _ _ _ => plainFault gu [] false (!(10 ≤ t.toNat && t.toNat ≤ 12))
  | .unrank gu t _ _ _ _ => plainFault gu [] false (!(t.toNat == 12 || t.toNat == 11))
  | .send gu dop _ _ _ _ _ _ => plainFault gu [] false (decide (5 < dop.toNat))
  | .sendNb gu dop _ _ _ _ _ => plainFault gu [] false (decide (5 < dop.toNat))
  | .sendv gu dop _ _ _ _ _ vs => plainFault gu [vs] false (decide (5 < dop.toNat))
  | .sendvNb gu dop _ _ _ _ vs => plainFault gu [vs] false (decide (5 < dop.toNat))
  | .cpy gu _ _ => plainFault gu [] false false
  | .cpg gu _ _ _ gi n5 _ => plainFault gu [] false (decide (31 < gi.toNat + n5.toNat))
  | .rksend gu _ _ nb _ _ gK _ => plainFault gu [] (nb && gK.toNat != 0) false
  | .dact gu _ | .drd gu _ _ _ | .dwr gu _ _ | .dpre gu _ | .dprea gu | .dref gu | .drefb gu _ =>
    plainFault gu [] false false
  | .lnkp gu _ cls _ _ _ => plainFault gu [] false (cls.toNat == 3)
  | .lnkg gu _ cls _ _ _ _ => plainFault gu [] false (cls.toNat == 3)
  | .coll gu _ _ => plainFault gu [] false false
  | .unassignedOpcode _ _ => some 0x0007
  | _ => none

/-- A slot's width in bits (R91). -/
def slotWidth (sl : Slot) : Nat :=
  match sl with
  | .s => 48 | .va => 64 | .vb => 64 | .mx => 80 | .ld => 64 | .st => 48 | .cp => 80 | .sy => 32

/-- A slot's opcode width in bits (R94 to R106). -/
def slotOpWidth (sl : Slot) : Nat :=
  match sl with
  | .s => 8 | .va => 7 | .vb => 7 | .mx => 6 | .ld => 4 | .st => 4 | .cp => 5 | .sy => 5

/-- A slot's number (R26, R89). -/
def slotNum (sl : Slot) : Nat :=
  match sl with
  | .s => 0 | .va => 1 | .vb => 2 | .mx => 3 | .ld => 4 | .st => 5 | .cp => 6 | .sy => 7

/-- The vector slots among the slots. -/
def vslot (v : VSlot) : Slot :=
  match v with
  | .va => .va
  | .vb => .vb

/-- Free codes of every opcode map (R95, R98, R101, R102, R103, R105, R106, R107). -/
def freeOp (sl : Slot) (op : Nat) : Bool :=
  match sl with
  | .s => op == 0 || (0x13 ≤ op && op ≤ 0x1F) || op == 0x27 || (0x2A ≤ op && op ≤ 0x2F) ||
      (0x34 ≤ op && op ≤ 0x3F) || (0x45 ≤ op && op ≤ 0x47) || (0x4A ≤ op && op ≤ 0x4F) || (0x53 ≤ op && op ≤ 0xFF)
  | .va | .vb => op == 0 || (0x15 ≤ op && op ≤ 0x1F) || (0x2B ≤ op && op ≤ 0x3F) ||
      (0x54 ≤ op && op ≤ 0x5F) || (0x63 ≤ op && op ≤ 0x7F)
  | .mx => op == 0 || (0x04 ≤ op && op ≤ 0x07) || (0x0B ≤ op && op ≤ 0x0F) || (0x11 ≤ op && op ≤ 0x17) ||
      (0x1C ≤ op && op ≤ 0x3F)
  | .ld => op == 0 || (7 ≤ op && op ≤ 15)
  | .st => op == 0 || (5 ≤ op && op ≤ 15)
  | .cp => op == 0 || op == 3 || op == 7 || op == 0xF || (0x13 ≤ op && op ≤ 0x1F)
  | .sy => op == 0 || op == 7 || op == 0xB || op == 0xE || op == 0xF || (0x16 ≤ op && op ≤ 0x1F)

end Sys2Proof.Machine
end

