-- ==== Sys2Proof/WellFormed.lean ====
section
/-! DEFINITION. Which terms of the instruction type an encoding can carry without an
illegal-instruction detail of the encoding (R107 to R109). -/

namespace Sys2Proof

/-- A term is well formed when the checks that use the encoding alone pass (details 0x0008 to
0x000B); a free code is well formed when R95 to R106 list it as free; a step of the hardware is
always well formed. -/
def wellFormed (i : Instr) : Bool :=
  match i with
  | .unassignedOpcode sl op => Machine.freeOp sl op.toNat
  | i => (Machine.encFault i).isNone

/-- `wellFormed` as a proposition. -/
abbrev WellFormed (i : Instr) : Prop := wellFormed i = true

end Sys2Proof
end

