-- ==== Sys2Proof/Decode.lean ====
section
/-! DEFINITION. From bits to instructions: the bundle header (R89, R90), the slot stream (R91), the
fields of every slot (R92 to R106), and the encoder written from the same tables. Decoding is total:
an encoding that no instruction has is rejected by its detail of R108. -/

namespace Sys2Proof

open Machine

/-- The sum of field widths. -/
def widthSum (ws : List Nat) : Nat :=
  match ws with
  | [] => 0
  | w :: r => w + widthSum r

/-- Split a number into fields, the first most significant. -/
def splitF (ws : List Nat) (x : Nat) : List Nat :=
  match ws with
  | [] => []
  | w :: r => field x (widthSum r) w :: splitF r x

/-- Join fields (width, value) into a number, the first most significant. -/
def packF (fs : List (Nat × Nat)) : Nat :=
  match fs with
  | [] => 0
  | (w, v) :: r => (v % 2 ^ w) * 2 ^ widthSum (r.map Prod.fst) + packF r

/-- The guard a 6-bit field stands for (R92). -/
def guardOf (n : Nat) : Guard :=
  { neg := bitN n 5, kind := bitN n 4, idx := BitVec.ofNat 4 n }

/-- The 6-bit field of a guard (R92). -/
def guardNat (g : Guard) : Nat := b2n g.neg * 32 + b2n g.kind * 16 + g.idx.toNat

/-- The end of decoding a slot: reserved bits must be 0 (0x0008), then the encoding's own checks
in the order of R109. -/
def checked (reserved : List Nat) (i : Instr) : Except Nat Instr :=
  if reserved.any (fun r => r != 0) then .error 0x0008
  else
    match encFault i with
    | some d => .error d
    | none => .ok i

/-- S slot words (R94 to R106): the opcode, then the fields in order from the most significant. -/
def dec_add (x : Nat) : Except Nat Instr :=
  match splitF [8, 6, 5, 5, 5, 19] x with
  | [_, gu_, gd_, ga_, gb_, r1_] => checked [r1_] (.add (guardOf gu_) (BitVec.ofNat 5 gd_) (BitVec.ofNat 5 ga_) (BitVec.ofNat 5 gb_))
  | _ => .error 0x0007

def dec_sub (x : Nat) : Except Nat Instr :=
  match splitF [8, 6, 5, 5, 5, 19] x with
  | [_, gu_, gd_, ga_, gb_, r1_] => checked [r1_] (.sub (guardOf gu_) (BitVec.ofNat 5 gd_) (BitVec.ofNat 5 ga_) (BitVec.ofNat 5 gb_))
  | _ => .error 0x0007

def dec_and_ (x : Nat) : Except Nat Instr :=
  match splitF [8, 6, 5, 5, 5, 19] x with
  | [_, gu_, gd_, ga_, gb_, r1_] => checked [r1_] (.and_ (guardOf gu_) (BitVec.ofNat 5 gd_) (BitVec.ofNat 5 ga_) (BitVec.ofNat 5 gb_))
  | _ => .error 0x0007

def dec_or_ (x : Nat) : Except Nat Instr :=
  match splitF [8, 6, 5, 5, 5, 19] x with
  | [_, gu_, gd_, ga_, gb_, r1_] => checked [r1_] (.or_ (guardOf gu_) (BitVec.ofNat 5 gd_) (BitVec.ofNat 5 ga_) (BitVec.ofNat 5 gb_))
  | _ => .error 0x0007

def dec_xor_ (x : Nat) : Except Nat Instr :=
  match splitF [8, 6, 5, 5, 5, 19] x with
  | [_, gu_, gd_, ga_, gb_, r1_] => checked [r1_] (.xor_ (guardOf gu_) (BitVec.ofNat 5 gd_) (BitVec.ofNat 5 ga_) (BitVec.ofNat 5 gb_))
  | _ => .error 0x0007

def dec_shl (x : Nat) : Except Nat Instr :=
  match splitF [8, 6, 5, 5, 5, 19] x with
  | [_, gu_, gd_, ga_, gb_, r1_] => checked [r1_] (.shl (guardOf gu_) (BitVec.ofNat 5 gd_) (BitVec.ofNat 5 ga_) (BitVec.ofNat 5 gb_))
  | _ => .error 0x0007

def dec_shr (x : Nat) : Except Nat Instr :=
  match splitF [8, 6, 5, 5, 5, 19] x with
  | [_, gu_, gd_, ga_, gb_, r1_] => checked [r1_] (.shr (guardOf gu_) (BitVec.ofNat 5 gd_) (BitVec.ofNat 5 ga_) (BitVec.ofNat 5 gb_))
  | _ => .error 0x0007

def dec_sar (x : Nat) : Except Nat Instr :=
  match splitF [8, 6, 5, 5, 5, 19] x with
  | [_, gu_, gd_, ga_, gb_, r1_] => checked [r1_] (.sar (guardOf gu_) (BitVec.ofNat 5 gd_) (BitVec.ofNat 5 ga_) (BitVec.ofNat 5 gb_))
  | _ => .error 0x0007

def dec_mul (x : Nat) : Except Nat Instr :=
  match splitF [8, 6, 5, 5, 5, 19] x with
  | [_, gu_, gd_, ga_, gb_, r1_] => checked [r1_] (.mul (guardOf gu_) (BitVec.ofNat 5 gd_) (BitVec.ofNat 5 ga_) (BitVec.ofNat 5 gb_))
  | _ => .error 0x0007

def dec_mulh (x : Nat) : Except Nat Instr :=
  match splitF [8, 6, 5, 5, 5, 19] x with
  | [_, gu_, gd_, ga_, gb_, r1_] => checked [r1_] (.mulh (guardOf gu_) (BitVec.ofNat 5 gd_) (BitVec.ofNat 5 ga_) (BitVec.ofNat 5 gb_))
  | _ => .error 0x0007

def dec_mulhn (x : Nat) : Except Nat Instr :=
  match splitF [8, 6, 5, 5, 5, 19] x with
  | [_, gu_, gd_, ga_, gb_, r1_] => checked [r1_] (.mulhn (guardOf gu_) (BitVec.ofNat 5 gd_) (BitVec.ofNat 5 ga_) (BitVec.ofNat 5 gb_))
  | _ => .error 0x0007

def dec_min (x : Nat) : Except Nat Instr :=
  match splitF [8, 6, 5, 5, 5, 19] x with
  | [_, gu_, gd_, ga_, gb_, r1_] => checked [r1_] (.min (guardOf gu_) (BitVec.ofNat 5 gd_) (BitVec.ofNat 5 ga_) (BitVec.ofNat 5 gb_))
  | _ => .error 0x0007

def dec_max (x : Nat) : Except Nat Instr :=
  match splitF [8, 6, 5, 5, 5, 19] x with
  | [_, gu_, gd_, ga_, gb_, r1_] => checked [r1_] (.max (guardOf gu_) (BitVec.ofNat 5 gd_) (BitVec.ofNat 5 ga_) (BitVec.ofNat 5 gb_))
  | _ => .error 0x0007

def dec_minn (x : Nat) : Except Nat Instr :=
  match splitF [8, 6, 5, 5, 5, 19] x with
  | [_, gu_, gd_, ga_, gb_, r1_] => checked [r1_] (.minn (guardOf gu_) (BitVec.ofNat 5 gd_) (BitVec.ofNat 5 ga_) (BitVec.ofNat 5 gb_))
  | _ => .error 0x0007

def dec_maxn (x : Nat) : Except Nat Instr :=
  match splitF [8, 6, 5, 5, 5, 19] x with
  | [_, gu_, gd_, ga_, gb_, r1_] => checked [r1_] (.maxn (guardOf gu_) (BitVec.ofNat 5 gd_) (BitVec.ofNat 5 ga_) (BitVec.ofNat 5 gb_))
  | _ => .error 0x0007

def dec_clz (x : Nat) : Except Nat Instr :=
  match splitF [8, 6, 5, 5, 24] x with
  | [_, gu_, gd_, ga_, r1_] => checked [r1_] (.clz (guardOf gu_) (BitVec.ofNat 5 gd_) (BitVec.ofNat 5 ga_))
  | _ => .error 0x0007

def dec_popc (x : Nat) : Except Nat Instr :=
  match splitF [8, 6, 5, 5, 24] x with
  | [_, gu_, gd_, ga_, r1_] => checked [r1_] (.popc (guardOf gu_) (BitVec.ofNat 5 gd_) (BitVec.ofNat 5 ga_))
  | _ => .error 0x0007

def dec_sel (x : Nat) : Except Nat Instr :=
  match splitF [8, 6, 5, 5, 5, 4, 15] x with
  | [_, gu_, gd_, ga_, gb_, qs_, r1_] => checked [r1_] (.sel (guardOf gu_) (BitVec.ofNat 5 gd_) (BitVec.ofNat 5 ga_) (BitVec.ofNat 5 gb_) (BitVec.ofNat 4 qs_))
  | _ => .error 0x0007

def dec_addi (x : Nat) : Except Nat Instr :=
  match splitF [8, 6, 5, 5, 24] x with
  | [_, gu_, gd_, ga_, imm_] => checked [] (.addi (guardOf gu_) (BitVec.ofNat 5 gd_) (BitVec.ofNat 5 ga_) (BitVec.ofNat 24 imm_))
  | _ => .error 0x0007

def dec_andi (x : Nat) : Except Nat Instr :=
  match splitF [8, 6, 5, 5, 24] x with
  | [_, gu_, gd_, ga_, imm_] => checked [] (.andi (guardOf gu_) (BitVec.ofNat 5 gd_) (BitVec.ofNat 5 ga_) (BitVec.ofNat 24 imm_))
  | _ => .error 0x0007

def dec_ori (x : Nat) : Except Nat Instr :=
  match splitF [8, 6, 5, 5, 24] x with
  | [_, gu_, gd_, ga_, imm_] => checked [] (.ori (guardOf gu_) (BitVec.ofNat 5 gd_) (BitVec.ofNat 5 ga_) (BitVec.ofNat 24 imm_))
  | _ => .error 0x0007

def dec_xori (x : Nat) : Except Nat Instr :=
  match splitF [8, 6, 5, 5, 24] x with
  | [_, gu_, gd_, ga_, imm_] => checked [] (.xori (guardOf gu_) (BitVec.ofNat 5 gd_) (BitVec.ofNat 5 ga_) (BitVec.ofNat 24 imm_))
  | _ => .error 0x0007

def dec_shli (x : Nat) : Except Nat Instr :=
  match splitF [8, 6, 5, 5, 19, 5] x with
  | [_, gu_, gd_, ga_, r1_, sh_] => checked [r1_] (.shli (guardOf gu_) (BitVec.ofNat 5 gd_) (BitVec.ofNat 5 ga_) (BitVec.ofNat 5 sh_))
  | _ => .error 0x0007

def dec_shri (x : Nat) : Except Nat Instr :=
  match splitF [8, 6, 5, 5, 19, 5] x with
  | [_, gu_, gd_, ga_, r1_, sh_] => checked [r1_] (.shri (guardOf gu_) (BitVec.ofNat 5 gd_) (BitVec.ofNat 5 ga_) (BitVec.ofNat 5 sh_))
  | _ => .error 0x0007

def dec_sari (x : Nat) : Except Nat Instr :=
  match splitF [8, 6, 5, 5, 19, 5] x with
  | [_, gu_, gd_, ga_, r1_, sh_] => checked [r1_] (.sari (guardOf gu_) (BitVec.ofNat 5 gd_) (BitVec.ofNat 5 ga_) (BitVec.ofNat 5 sh_))
  | _ => .error 0x0007

def dec_li (x : Nat) : Except Nat Instr :=
  match splitF [8, 6, 5, 5, 24] x with
  | [_, gu_, gd_, r1_, imm_] => checked [r1_] (.li (guardOf gu_) (BitVec.ofNat 5 gd_) (BitVec.ofNat 24 imm_))
  | _ => .error 0x0007

def dec_lih (x : Nat) : Except Nat Instr :=
  match splitF [8, 6, 5, 5, 8, 16] x with
  | [_, gu_, gd_, r1_, r2_, imm_] => checked [r1_, r2_] (.lih (guardOf gu_) (BitVec.ofNat 5 gd_) (BitVec.ofNat 16 imm_))
  | _ => .error 0x0007

def dec_cmpReg (x : Nat) : Except Nat Instr :=
  match splitF [8, 6, 4, 4, 5, 1, 5, 15] x with
  | [_, gu_, qd_, cc_, ga_, _, gb_, r1_] => checked [r1_] (.cmpReg (guardOf gu_) (BitVec.ofNat 4 qd_) (BitVec.ofNat 4 cc_) (BitVec.ofNat 5 ga_) (BitVec.ofNat 5 gb_))
  | _ => .error 0x0007

def dec_cmpImm (x : Nat) : Except Nat Instr :=
  match splitF [8, 6, 4, 4, 5, 1, 20] x with
  | [_, gu_, qd_, cc_, ga_, _, imm_] => checked [] (.cmpImm (guardOf gu_) (BitVec.ofNat 4 qd_) (BitVec.ofNat 4 cc_) (BitVec.ofNat 5 ga_) (BitVec.ofNat 20 imm_))
  | _ => .error 0x0007

def dec_qand (x : Nat) : Except Nat Instr :=
  match splitF [8, 6, 4, 4, 4, 22] x with
  | [_, gu_, qd_, qa_, qb_, r1_] => checked [r1_] (.qand (guardOf gu_) (BitVec.ofNat 4 qd_) (BitVec.ofNat 4 qa_) (BitVec.ofNat 4 qb_))
  | _ => .error 0x0007

def dec_qor (x : Nat) : Except Nat Instr :=
  match splitF [8, 6, 4, 4, 4, 22] x with
  | [_, gu_, qd_, qa_, qb_, r1_] => checked [r1_] (.qor (guardOf gu_) (BitVec.ofNat 4 qd_) (BitVec.ofNat 4 qa_) (BitVec.ofNat 4 qb_))
  | _ => .error 0x0007

def dec_qnot (x : Nat) : Except Nat Instr :=
  match splitF [8, 6, 4, 4, 26] x with
  | [_, gu_, qd_, qa_, r1_] => checked [r1_] (.qnot (guardOf gu_) (BitVec.ofNat 4 qd_) (BitVec.ofNat 4 qa_))
  | _ => .error 0x0007

def dec_br (x : Nat) : Except Nat Instr :=
  match splitF [8, 6, 13, 21] x with
  | [_, gu_, target_, r1_] => checked [r1_] (.br (guardOf gu_) (BitVec.ofNat 13 target_))
  | _ => .error 0x0007

def dec_brq (x : Nat) : Except Nat Instr :=
  match splitF [8, 6, 13, 4, 1, 16] x with
  | [_, gu_, target_, qa_, nq_, r1_] => checked [r1_] (.brq (guardOf gu_) (BitVec.ofNat 13 target_) (BitVec.ofNat 4 qa_) (nq_ == 1))
  | _ => .error 0x0007

def dec_call (x : Nat) : Except Nat Instr :=
  match splitF [8, 6, 13, 21] x with
  | [_, gu_, target_, r1_] => checked [r1_] (.call (guardOf gu_) (BitVec.ofNat 13 target_))
  | _ => .error 0x0007

def dec_ret (x : Nat) : Except Nat Instr :=
  match splitF [8, 6, 5, 5, 24] x with
  | [_, gu_, r1_, ga_, r2_] => checked [r1_, r2_] (.ret (guardOf gu_) (BitVec.ofNat 5 ga_))
  | _ => .error 0x0007

def dec_jmpg (x : Nat) : Except Nat Instr :=
  match splitF [8, 6, 5, 5, 24] x with
  | [_, gu_, r1_, ga_, r2_] => checked [r1_, r2_] (.jmpg (guardOf gu_) (BitVec.ofNat 5 ga_))
  | _ => .error 0x0007

def dec_loop (x : Nat) : Except Nat Instr :=
  match splitF [8, 6, 13, 1, 1, 3, 5, 11] x with
  | [_, gu_, end__, rp_, rv_, wsz_, ga_, r1_] => checked [r1_] (.loop (guardOf gu_) (BitVec.ofNat 13 end__) (rp_ == 1) (rv_ == 1) (BitVec.ofNat 3 wsz_) (BitVec.ofNat 5 ga_))
  | _ => .error 0x0007

def dec_loopi (x : Nat) : Except Nat Instr :=
  match splitF [8, 6, 13, 1, 1, 3, 16] x with
  | [_, gu_, end__, rp_, rv_, wsz_, count_] => checked [] (.loopi (guardOf gu_) (BitVec.ofNat 13 end__) (rp_ == 1) (rv_ == 1) (BitVec.ofNat 3 wsz_) (BitVec.ofNat 16 count_))
  | _ => .error 0x0007

def dec_rds (x : Nat) : Except Nat Instr :=
  match splitF [8, 6, 5, 8, 21] x with
  | [_, gu_, g_, sidx_, r1_] => checked [r1_] (.rds (guardOf gu_) (BitVec.ofNat 5 g_) (BitVec.ofNat 8 sidx_))
  | _ => .error 0x0007

def dec_wrs (x : Nat) : Except Nat Instr :=
  match splitF [8, 6, 5, 8, 21] x with
  | [_, gu_, g_, sidx_, r1_] => checked [r1_] (.wrs (guardOf gu_) (BitVec.ofNat 5 g_) (BitVec.ofNat 8 sidx_))
  | _ => .error 0x0007

def dec_rdcyc (x : Nat) : Except Nat Instr :=
  match splitF [8, 6, 5, 8, 21] x with
  | [_, gu_, g_, r1_, r2_] => checked [r1_, r2_] (.rdcyc (guardOf gu_) (BitVec.ofNat 5 g_))
  | _ => .error 0x0007

def decodeS (x : Nat) : Except Nat Instr :=
  match field x 40 8 with
  | 1 => dec_add x
  | 2 => dec_sub x
  | 3 => dec_and_ x
  | 4 => dec_or_ x
  | 5 => dec_xor_ x
  | 6 => dec_shl x
  | 7 => dec_shr x
  | 8 => dec_sar x
  | 9 => dec_mul x
  | 10 => dec_mulh x
  | 11 => dec_mulhn x
  | 12 => dec_min x
  | 13 => dec_max x
  | 14 => dec_minn x
  | 15 => dec_maxn x
  | 16 => dec_clz x
  | 17 => dec_popc x
  | 18 => dec_sel x
  | 32 => dec_addi x
  | 33 => dec_andi x
  | 34 => dec_ori x
  | 35 => dec_xori x
  | 36 => dec_shli x
  | 37 => dec_shri x
  | 38 => dec_sari x
  | 40 => dec_li x
  | 41 => dec_lih x
  | 48 => if bitN x 20 then dec_cmpImm x else dec_cmpReg x
  | 49 => dec_qand x
  | 50 => dec_qor x
  | 51 => dec_qnot x
  | 64 => dec_br x
  | 65 => dec_brq x
  | 66 => dec_call x
  | 67 => dec_ret x
  | 68 => dec_jmpg x
  | 72 => dec_loop x
  | 73 => dec_loopi x
  | 80 => dec_rds x
  | 81 => dec_wrs x
  | 82 => dec_rdcyc x
  | op => .ok (.unassignedOpcode .s (BitVec.ofNat 8 op))

/-- V slot words (R94 to R106): the opcode, then the fields in order from the most significant. -/
def dec_vadd (sl : VSlot) (x : Nat) : Except Nat Instr :=
  match splitF [7, 6, 4, 3, 11, 11, 11, 11] x with
  | [_, gu_, ty_, rnd_, d_, a_, b_, r1_] => checked [r1_] (.vadd sl (guardOf gu_) (BitVec.ofNat 4 ty_) (BitVec.ofNat 3 rnd_) (BitVec.ofNat 11 d_) (BitVec.ofNat 11 a_) (BitVec.ofNat 11 b_))
  | _ => .error 0x0007

def dec_vsub (sl : VSlot) (x : Nat) : Except Nat Instr :=
  match splitF [7, 6, 4, 3, 11, 11, 11, 11] x with
  | [_, gu_, ty_, rnd_, d_, a_, b_, r1_] => checked [r1_] (.vsub sl (guardOf gu_) (BitVec.ofNat 4 ty_) (BitVec.ofNat 3 rnd_) (BitVec.ofNat 11 d_) (BitVec.ofNat 11 a_) (BitVec.ofNat 11 b_))
  | _ => .error 0x0007

def dec_vmul (sl : VSlot) (x : Nat) : Except Nat Instr :=
  match splitF [7, 6, 4, 3, 11, 11, 11, 11] x with
  | [_, gu_, ty_, rnd_, d_, a_, b_, r1_] => checked [r1_] (.vmul sl (guardOf gu_) (BitVec.ofNat 4 ty_) (BitVec.ofNat 3 rnd_) (BitVec.ofNat 11 d_) (BitVec.ofNat 11 a_) (BitVec.ofNat 11 b_))
  | _ => .error 0x0007

def dec_vmulh (sl : VSlot) (x : Nat) : Except Nat Instr :=
  match splitF [7, 6, 4, 3, 11, 11, 11, 11] x with
  | [_, gu_, ty_, rnd_, d_, a_, b_, r1_] => checked [r1_] (.vmulh sl (guardOf gu_) (BitVec.ofNat 4 ty_) (BitVec.ofNat 3 rnd_) (BitVec.ofNat 11 d_) (BitVec.ofNat 11 a_) (BitVec.ofNat 11 b_))
  | _ => .error 0x0007

def dec_vmac (sl : VSlot) (x : Nat) : Except Nat Instr :=
  match splitF [7, 6, 4, 3, 11, 11, 11, 11] x with
  | [_, gu_, ty_, rnd_, d_, a_, b_, c_] => checked [] (.vmac sl (guardOf gu_) (BitVec.ofNat 4 ty_) (BitVec.ofNat 3 rnd_) (BitVec.ofNat 11 d_) (BitVec.ofNat 11 a_) (BitVec.ofNat 11 b_) (BitVec.ofNat 11 c_))
  | _ => .error 0x0007

def dec_vmin (sl : VSlot) (x : Nat) : Except Nat Instr :=
  match splitF [7, 6, 4, 3, 11, 11, 11, 11] x with
  | [_, gu_, ty_, rnd_, d_, a_, b_, r1_] => checked [r1_] (.vmin sl (guardOf gu_) (BitVec.ofNat 4 ty_) (BitVec.ofNat 3 rnd_) (BitVec.ofNat 11 d_) (BitVec.ofNat 11 a_) (BitVec.ofNat 11 b_))
  | _ => .error 0x0007

def dec_vmax (sl : VSlot) (x : Nat) : Except Nat Instr :=
  match splitF [7, 6, 4, 3, 11, 11, 11, 11] x with
  | [_, gu_, ty_, rnd_, d_, a_, b_, r1_] => checked [r1_] (.vmax sl (guardOf gu_) (BitVec.ofNat 4 ty_) (BitVec.ofNat 3 rnd_) (BitVec.ofNat 11 d_) (BitVec.ofNat 11 a_) (BitVec.ofNat 11 b_))
  | _ => .error 0x0007

def dec_vabs (sl : VSlot) (x : Nat) : Except Nat Instr :=
  match splitF [7, 6, 4, 3, 11, 11, 11, 11] x with
  | [_, gu_, ty_, rnd_, d_, a_, r1_, r2_] => checked [r1_, r2_] (.vabs sl (guardOf gu_) (BitVec.ofNat 4 ty_) (BitVec.ofNat 3 rnd_) (BitVec.ofNat 11 d_) (BitVec.ofNat 11 a_))
  | _ => .error 0x0007

def dec_vneg (sl : VSlot) (x : Nat) : Except Nat Instr :=
  match splitF [7, 6, 4, 3, 11, 11, 11, 11] x with
  | [_, gu_, ty_, rnd_, d_, a_, r1_, r2_] => checked [r1_, r2_] (.vneg sl (guardOf gu_) (BitVec.ofNat 4 ty_) (BitVec.ofNat 3 rnd_) (BitVec.ofNat 11 d_) (BitVec.ofNat 11 a_))
  | _ => .error 0x0007

def dec_vadds (sl : VSlot) (x : Nat) : Except Nat Instr :=
  match splitF [7, 6, 4, 3, 11, 11, 11, 11] x with
  | [_, gu_, ty_, rnd_, d_, a_, b_, r1_] => checked [r1_] (.vadds sl (guardOf gu_) (BitVec.ofNat 4 ty_) (BitVec.ofNat 3 rnd_) (BitVec.ofNat 11 d_) (BitVec.ofNat 11 a_) (BitVec.ofNat 11 b_))
  | _ => .error 0x0007

def dec_vsubs (sl : VSlot) (x : Nat) : Except Nat Instr :=
  match splitF [7, 6, 4, 3, 11, 11, 11, 11] x with
  | [_, gu_, ty_, rnd_, d_, a_, b_, r1_] => checked [r1_] (.vsubs sl (guardOf gu_) (BitVec.ofNat 4 ty_) (BitVec.ofNat 3 rnd_) (BitVec.ofNat 11 d_) (BitVec.ofNat 11 a_) (BitVec.ofNat 11 b_))
  | _ => .error 0x0007

def dec_vshl (sl : VSlot) (x : Nat) : Except Nat Instr :=
  match splitF [7, 6, 4, 3, 11, 11, 11, 11] x with
  | [_, gu_, ty_, rnd_, d_, a_, n_, r1_] => checked [r1_] (.vshl sl (guardOf gu_) (BitVec.ofNat 4 ty_) (BitVec.ofNat 3 rnd_) (BitVec.ofNat 11 d_) (BitVec.ofNat 11 a_) (BitVec.ofNat 11 n_))
  | _ => .error 0x0007

def dec_vshr (sl : VSlot) (x : Nat) : Except Nat Instr :=
  match splitF [7, 6, 4, 3, 11, 11, 11, 11] x with
  | [_, gu_, ty_, rnd_, d_, a_, n_, r1_] => checked [r1_] (.vshr sl (guardOf gu_) (BitVec.ofNat 4 ty_) (BitVec.ofNat 3 rnd_) (BitVec.ofNat 11 d_) (BitVec.ofNat 11 a_) (BitVec.ofNat 11 n_))
  | _ => .error 0x0007

def dec_vsar (sl : VSlot) (x : Nat) : Except Nat Instr :=
  match splitF [7, 6, 4, 3, 11, 11, 11, 11] x with
  | [_, gu_, ty_, rnd_, d_, a_, n_, r1_] => checked [r1_] (.vsar sl (guardOf gu_) (BitVec.ofNat 4 ty_) (BitVec.ofNat 3 rnd_) (BitVec.ofNat 11 d_) (BitVec.ofNat 11 a_) (BitVec.ofNat 11 n_))
  | _ => .error 0x0007

def dec_vand (sl : VSlot) (x : Nat) : Except Nat Instr :=
  match splitF [7, 6, 4, 3, 11, 11, 11, 11] x with
  | [_, gu_, ty_, rnd_, d_, a_, b_, r1_] => checked [r1_] (.vand sl (guardOf gu_) (BitVec.ofNat 4 ty_) (BitVec.ofNat 3 rnd_) (BitVec.ofNat 11 d_) (BitVec.ofNat 11 a_) (BitVec.ofNat 11 b_))
  | _ => .error 0x0007

def dec_vor (sl : VSlot) (x : Nat) : Except Nat Instr :=
  match splitF [7, 6, 4, 3, 11, 11, 11, 11] x with
  | [_, gu_, ty_, rnd_, d_, a_, b_, r1_] => checked [r1_] (.vor sl (guardOf gu_) (BitVec.ofNat 4 ty_) (BitVec.ofNat 3 rnd_) (BitVec.ofNat 11 d_) (BitVec.ofNat 11 a_) (BitVec.ofNat 11 b_))
  | _ => .error 0x0007

def dec_vxor (sl : VSlot) (x : Nat) : Except Nat Instr :=
  match splitF [7, 6, 4, 3, 11, 11, 11, 11] x with
  | [_, gu_, ty_, rnd_, d_, a_, b_, r1_] => checked [r1_] (.vxor sl (guardOf gu_) (BitVec.ofNat 4 ty_) (BitVec.ofNat 3 rnd_) (BitVec.ofNat 11 d_) (BitVec.ofNat 11 a_) (BitVec.ofNat 11 b_))
  | _ => .error 0x0007

def dec_vnot (sl : VSlot) (x : Nat) : Except Nat Instr :=
  match splitF [7, 6, 4, 3, 11, 11, 11, 11] x with
  | [_, gu_, ty_, rnd_, d_, a_, r1_, r2_] => checked [r1_, r2_] (.vnot sl (guardOf gu_) (BitVec.ofNat 4 ty_) (BitVec.ofNat 3 rnd_) (BitVec.ofNat 11 d_) (BitVec.ofNat 11 a_))
  | _ => .error 0x0007

def dec_vcmp (sl : VSlot) (x : Nat) : Except Nat Instr :=
  match splitF [7, 6, 4, 3, 8, 3, 11, 11, 7, 4] x with
  | [_, gu_, ty_, rnd_, r1_, md_, a_, b_, r2_, cc_] => checked [r1_, r2_] (.vcmp sl (guardOf gu_) (BitVec.ofNat 4 ty_) (BitVec.ofNat 3 rnd_) (BitVec.ofNat 3 md_) (BitVec.ofNat 11 a_) (BitVec.ofNat 11 b_) (BitVec.ofNat 4 cc_))
  | _ => .error 0x0007

def dec_vsel (sl : VSlot) (x : Nat) : Except Nat Instr :=
  match splitF [7, 6, 4, 3, 11, 11, 11, 8, 3] x with
  | [_, gu_, ty_, rnd_, d_, a_, b_, r1_, m_] => checked [r1_] (.vsel sl (guardOf gu_) (BitVec.ofNat 4 ty_) (BitVec.ofNat 3 rnd_) (BitVec.ofNat 11 d_) (BitVec.ofNat 11 a_) (BitVec.ofNat 11 b_) (BitVec.ofNat 3 m_))
  | _ => .error 0x0007

def dec_vbcastScalar (sl : VSlot) (x : Nat) : Except Nat Instr :=
  match splitF [7, 6, 4, 3, 11, 6, 5, 11, 1, 10] x with
  | [_, gu_, ty_, rnd_, d_, r1_, ga_, r2_, _, r3_] => checked [r1_, r2_, r3_] (.vbcastScalar sl (guardOf gu_) (BitVec.ofNat 4 ty_) (BitVec.ofNat 3 rnd_) (BitVec.ofNat 11 d_) (BitVec.ofNat 5 ga_))
  | _ => .error 0x0007

def dec_vbcastVector (sl : VSlot) (x : Nat) : Except Nat Instr :=
  match splitF [7, 6, 4, 3, 11, 11, 11, 1, 5, 5] x with
  | [_, gu_, ty_, rnd_, d_, a_, r1_, _, r2_, lane_] => checked [r1_, r2_] (.vbcastVector sl (guardOf gu_) (BitVec.ofNat 4 ty_) (BitVec.ofNat 3 rnd_) (BitVec.ofNat 11 d_) (BitVec.ofNat 11 a_) (BitVec.ofNat 5 lane_))
  | _ => .error 0x0007

def dec_vext (sl : VSlot) (x : Nat) : Except Nat Instr :=
  match splitF [7, 6, 4, 3, 6, 5, 11, 11, 6, 5] x with
  | [_, gu_, ty_, rnd_, r1_, gd_, a_, r2_, r3_, lane_] => checked [r1_, r2_, r3_] (.vext sl (guardOf gu_) (BitVec.ofNat 4 ty_) (BitVec.ofNat 3 rnd_) (BitVec.ofNat 5 gd_) (BitVec.ofNat 11 a_) (BitVec.ofNat 5 lane_))
  | _ => .error 0x0007

def dec_vins (sl : VSlot) (x : Nat) : Except Nat Instr :=
  match splitF [7, 6, 4, 3, 11, 6, 5, 11, 6, 5] x with
  | [_, gu_, ty_, rnd_, d_, r1_, ga_, r2_, r3_, lane_] => checked [r1_, r2_, r3_] (.vins sl (guardOf gu_) (BitVec.ofNat 4 ty_) (BitVec.ofNat 3 rnd_) (BitVec.ofNat 11 d_) (BitVec.ofNat 5 ga_) (BitVec.ofNat 5 lane_))
  | _ => .error 0x0007

def dec_vshuf (sl : VSlot) (x : Nat) : Except Nat Instr :=
  match splitF [7, 6, 4, 3, 11, 11, 11, 11] x with
  | [_, gu_, ty_, rnd_, d_, a_, b_, c_] => checked [] (.vshuf sl (guardOf gu_) (BitVec.ofNat 4 ty_) (BitVec.ofNat 3 rnd_) (BitVec.ofNat 11 d_) (BitVec.ofNat 11 a_) (BitVec.ofNat 11 b_) (BitVec.ofNat 11 c_))
  | _ => .error 0x0007

def dec_vrot (sl : VSlot) (x : Nat) : Except Nat Instr :=
  match splitF [7, 6, 4, 3, 11, 11, 11, 11] x with
  | [_, gu_, ty_, rnd_, d_, a_, r1_, n_] => checked [r1_] (.vrot sl (guardOf gu_) (BitVec.ofNat 4 ty_) (BitVec.ofNat 3 rnd_) (BitVec.ofNat 11 d_) (BitVec.ofNat 11 a_) (BitVec.ofNat 11 n_))
  | _ => .error 0x0007

def dec_vzip (sl : VSlot) (x : Nat) : Except Nat Instr :=
  match splitF [7, 6, 4, 3, 11, 11, 11, 10, 1] x with
  | [_, gu_, ty_, rnd_, d_, a_, b_, r1_, h_] => checked [r1_] (.vzip sl (guardOf gu_) (BitVec.ofNat 4 ty_) (BitVec.ofNat 3 rnd_) (BitVec.ofNat 11 d_) (BitVec.ofNat 11 a_) (BitVec.ofNat 11 b_) (h_ == 1))
  | _ => .error 0x0007

def dec_vunzip (sl : VSlot) (x : Nat) : Except Nat Instr :=
  match splitF [7, 6, 4, 3, 11, 11, 11, 10, 1] x with
  | [_, gu_, ty_, rnd_, d_, a_, b_, r1_, h_] => checked [r1_] (.vunzip sl (guardOf gu_) (BitVec.ofNat 4 ty_) (BitVec.ofNat 3 rnd_) (BitVec.ofNat 11 d_) (BitVec.ofNat 11 a_) (BitVec.ofNat 11 b_) (h_ == 1))
  | _ => .error 0x0007

def dec_vpart (sl : VSlot) (x : Nat) : Except Nat Instr :=
  match splitF [7, 6, 4, 3, 11, 11, 11, 8, 3] x with
  | [_, gu_, ty_, rnd_, d_, a_, r1_, r2_, m_] => checked [r1_, r2_] (.vpart sl (guardOf gu_) (BitVec.ofNat 4 ty_) (BitVec.ofNat 3 rnd_) (BitVec.ofNat 11 d_) (BitVec.ofNat 11 a_) (BitVec.ofNat 3 m_))
  | _ => .error 0x0007

def dec_vcnt (sl : VSlot) (x : Nat) : Except Nat Instr :=
  match splitF [7, 6, 4, 3, 11, 11, 11, 11] x with
  | [_, gu_, ty_, rnd_, d_, a_, r1_, r2_] => checked [r1_, r2_] (.vcnt sl (guardOf gu_) (BitVec.ofNat 4 ty_) (BitVec.ofNat 3 rnd_) (BitVec.ofNat 11 d_) (BitVec.ofNat 11 a_))
  | _ => .error 0x0007

def dec_vmov (sl : VSlot) (x : Nat) : Except Nat Instr :=
  match splitF [7, 6, 4, 3, 11, 11, 11, 11] x with
  | [_, gu_, ty_, rnd_, d_, a_, r1_, r2_] => checked [r1_, r2_] (.vmov sl (guardOf gu_) (BitVec.ofNat 4 ty_) (BitVec.ofNat 3 rnd_) (BitVec.ofNat 11 d_) (BitVec.ofNat 11 a_))
  | _ => .error 0x0007

def dec_vli (sl : VSlot) (x : Nat) : Except Nat Instr :=
  match splitF [7, 6, 4, 3, 11, 11, 22] x with
  | [_, gu_, ty_, rnd_, d_, r1_, imm_] => checked [r1_] (.vli sl (guardOf gu_) (BitVec.ofNat 4 ty_) (BitVec.ofNat 3 rnd_) (BitVec.ofNat 11 d_) (BitVec.ofNat 22 imm_))
  | _ => .error 0x0007

def dec_vfadd (sl : VSlot) (x : Nat) : Except Nat Instr :=
  match splitF [7, 6, 4, 3, 11, 11, 11, 11] x with
  | [_, gu_, ty_, rnd_, d_, a_, b_, r1_] => checked [r1_] (.vfadd sl (guardOf gu_) (BitVec.ofNat 4 ty_) (BitVec.ofNat 3 rnd_) (BitVec.ofNat 11 d_) (BitVec.ofNat 11 a_) (BitVec.ofNat 11 b_))
  | _ => .error 0x0007

def dec_vfsub (sl : VSlot) (x : Nat) : Except Nat Instr :=
  match splitF [7, 6, 4, 3, 11, 11, 11, 11] x with
  | [_, gu_, ty_, rnd_, d_, a_, b_, r1_] => checked [r1_] (.vfsub sl (guardOf gu_) (BitVec.ofNat 4 ty_) (BitVec.ofNat 3 rnd_) (BitVec.ofNat 11 d_) (BitVec.ofNat 11 a_) (BitVec.ofNat 11 b_))
  | _ => .error 0x0007

def dec_vfmul (sl : VSlot) (x : Nat) : Except Nat Instr :=
  match splitF [7, 6, 4, 3, 11, 11, 11, 11] x with
  | [_, gu_, ty_, rnd_, d_, a_, b_, r1_] => checked [r1_] (.vfmul sl (guardOf gu_) (BitVec.ofNat 4 ty_) (BitVec.ofNat 3 rnd_) (BitVec.ofNat 11 d_) (BitVec.ofNat 11 a_) (BitVec.ofNat 11 b_))
  | _ => .error 0x0007

def dec_vfma (sl : VSlot) (x : Nat) : Except Nat Instr :=
  match splitF [7, 6, 4, 3, 11, 11, 11, 11] x with
  | [_, gu_, ty_, rnd_, d_, a_, b_, c_] => checked [] (.vfma sl (guardOf gu_) (BitVec.ofNat 4 ty_) (BitVec.ofNat 3 rnd_) (BitVec.ofNat 11 d_) (BitVec.ofNat 11 a_) (BitVec.ofNat 11 b_) (BitVec.ofNat 11 c_))
  | _ => .error 0x0007

def dec_vfms (sl : VSlot) (x : Nat) : Except Nat Instr :=
  match splitF [7, 6, 4, 3, 11, 11, 11, 11] x with
  | [_, gu_, ty_, rnd_, d_, a_, b_, c_] => checked [] (.vfms sl (guardOf gu_) (BitVec.ofNat 4 ty_) (BitVec.ofNat 3 rnd_) (BitVec.ofNat 11 d_) (BitVec.ofNat 11 a_) (BitVec.ofNat 11 b_) (BitVec.ofNat 11 c_))
  | _ => .error 0x0007

def dec_vfnma (sl : VSlot) (x : Nat) : Except Nat Instr :=
  match splitF [7, 6, 4, 3, 11, 11, 11, 11] x with
  | [_, gu_, ty_, rnd_, d_, a_, b_, c_] => checked [] (.vfnma sl (guardOf gu_) (BitVec.ofNat 4 ty_) (BitVec.ofNat 3 rnd_) (BitVec.ofNat 11 d_) (BitVec.ofNat 11 a_) (BitVec.ofNat 11 b_) (BitVec.ofNat 11 c_))
  | _ => .error 0x0007

def dec_vfmin (sl : VSlot) (x : Nat) : Except Nat Instr :=
  match splitF [7, 6, 4, 3, 11, 11, 11, 11] x with
  | [_, gu_, ty_, rnd_, d_, a_, b_, r1_] => checked [r1_] (.vfmin sl (guardOf gu_) (BitVec.ofNat 4 ty_) (BitVec.ofNat 3 rnd_) (BitVec.ofNat 11 d_) (BitVec.ofNat 11 a_) (BitVec.ofNat 11 b_))
  | _ => .error 0x0007

def dec_vfmax (sl : VSlot) (x : Nat) : Except Nat Instr :=
  match splitF [7, 6, 4, 3, 11, 11, 11, 11] x with
  | [_, gu_, ty_, rnd_, d_, a_, b_, r1_] => checked [r1_] (.vfmax sl (guardOf gu_) (BitVec.ofNat 4 ty_) (BitVec.ofNat 3 rnd_) (BitVec.ofNat 11 d_) (BitVec.ofNat 11 a_) (BitVec.ofNat 11 b_))
  | _ => .error 0x0007

def dec_vfabs (sl : VSlot) (x : Nat) : Except Nat Instr :=
  match splitF [7, 6, 4, 3, 11, 11, 11, 11] x with
  | [_, gu_, ty_, rnd_, d_, a_, r1_, r2_] => checked [r1_, r2_] (.vfabs sl (guardOf gu_) (BitVec.ofNat 4 ty_) (BitVec.ofNat 3 rnd_) (BitVec.ofNat 11 d_) (BitVec.ofNat 11 a_))
  | _ => .error 0x0007

def dec_vfneg (sl : VSlot) (x : Nat) : Except Nat Instr :=
  match splitF [7, 6, 4, 3, 11, 11, 11, 11] x with
  | [_, gu_, ty_, rnd_, d_, a_, r1_, r2_] => checked [r1_, r2_] (.vfneg sl (guardOf gu_) (BitVec.ofNat 4 ty_) (BitVec.ofNat 3 rnd_) (BitVec.ofNat 11 d_) (BitVec.ofNat 11 a_))
  | _ => .error 0x0007

def dec_vfcmp (sl : VSlot) (x : Nat) : Except Nat Instr :=
  match splitF [7, 6, 4, 3, 8, 3, 11, 11, 7, 4] x with
  | [_, gu_, ty_, rnd_, r1_, md_, a_, b_, r2_, cc_] => checked [r1_, r2_] (.vfcmp sl (guardOf gu_) (BitVec.ofNat 4 ty_) (BitVec.ofNat 3 rnd_) (BitVec.ofNat 3 md_) (BitVec.ofNat 11 a_) (BitVec.ofNat 11 b_) (BitVec.ofNat 4 cc_))
  | _ => .error 0x0007

def dec_vfdiv (sl : VSlot) (x : Nat) : Except Nat Instr :=
  match splitF [7, 6, 4, 3, 11, 11, 11, 11] x with
  | [_, gu_, ty_, rnd_, d_, a_, b_, r1_] => checked [r1_] (.vfdiv sl (guardOf gu_) (BitVec.ofNat 4 ty_) (BitVec.ofNat 3 rnd_) (BitVec.ofNat 11 d_) (BitVec.ofNat 11 a_) (BitVec.ofNat 11 b_))
  | _ => .error 0x0007

def dec_vfsqrt (sl : VSlot) (x : Nat) : Except Nat Instr :=
  match splitF [7, 6, 4, 3, 11, 11, 11, 11] x with
  | [_, gu_, ty_, rnd_, d_, a_, r1_, r2_] => checked [r1_, r2_] (.vfsqrt sl (guardOf gu_) (BitVec.ofNat 4 ty_) (BitVec.ofNat 3 rnd_) (BitVec.ofNat 11 d_) (BitVec.ofNat 11 a_))
  | _ => .error 0x0007

def dec_vfrsq (sl : VSlot) (x : Nat) : Except Nat Instr :=
  match splitF [7, 6, 4, 3, 11, 11, 11, 11] x with
  | [_, gu_, ty_, rnd_, d_, a_, r1_, r2_] => checked [r1_, r2_] (.vfrsq sl (guardOf gu_) (BitVec.ofNat 4 ty_) (BitVec.ofNat 3 rnd_) (BitVec.ofNat 11 d_) (BitVec.ofNat 11 a_))
  | _ => .error 0x0007

def dec_vfrcp (sl : VSlot) (x : Nat) : Except Nat Instr :=
  match splitF [7, 6, 4, 3, 11, 11, 11, 11] x with
  | [_, gu_, ty_, rnd_, d_, a_, r1_, r2_] => checked [r1_, r2_] (.vfrcp sl (guardOf gu_) (BitVec.ofNat 4 ty_) (BitVec.ofNat 3 rnd_) (BitVec.ofNat 11 d_) (BitVec.ofNat 11 a_))
  | _ => .error 0x0007

def dec_vfclass (sl : VSlot) (x : Nat) : Except Nat Instr :=
  match splitF [7, 6, 4, 3, 11, 11, 11, 11] x with
  | [_, gu_, ty_, rnd_, d_, a_, r1_, r2_] => checked [r1_, r2_] (.vfclass sl (guardOf gu_) (BitVec.ofNat 4 ty_) (BitVec.ofNat 3 rnd_) (BitVec.ofNat 11 d_) (BitVec.ofNat 11 a_))
  | _ => .error 0x0007

def dec_vcvt (sl : VSlot) (x : Nat) : Except Nat Instr :=
  match splitF [7, 6, 4, 3, 11, 11, 11, 7, 4] x with
  | [_, gu_, ty_, rnd_, d_, a_, r1_, r2_, st_] => checked [r1_, r2_] (.vcvt sl (guardOf gu_) (BitVec.ofNat 4 ty_) (BitVec.ofNat 3 rnd_) (BitVec.ofNat 11 d_) (BitVec.ofNat 11 a_) (BitVec.ofNat 4 st_))
  | _ => .error 0x0007

def dec_vhsum (sl : VSlot) (x : Nat) : Except Nat Instr :=
  match splitF [7, 6, 4, 3, 11, 11, 11, 11] x with
  | [_, gu_, ty_, rnd_, d_, a_, r1_, r2_] => checked [r1_, r2_] (.vhsum sl (guardOf gu_) (BitVec.ofNat 4 ty_) (BitVec.ofNat 3 rnd_) (BitVec.ofNat 11 d_) (BitVec.ofNat 11 a_))
  | _ => .error 0x0007

def dec_vmeanm (sl : VSlot) (x : Nat) : Except Nat Instr :=
  match splitF [7, 6, 4, 3, 11, 11, 11, 11] x with
  | [_, gu_, ty_, rnd_, d_, a_, b_, r1_] => checked [r1_] (.vmeanm sl (guardOf gu_) (BitVec.ofNat 4 ty_) (BitVec.ofNat 3 rnd_) (BitVec.ofNat 11 d_) (BitVec.ofNat 11 a_) (BitVec.ofNat 11 b_))
  | _ => .error 0x0007

def dec_vfscl (sl : VSlot) (x : Nat) : Except Nat Instr :=
  match splitF [7, 6, 4, 3, 11, 11, 11, 11] x with
  | [_, gu_, ty_, rnd_, d_, a_, b_, r1_] => checked [r1_] (.vfscl sl (guardOf gu_) (BitVec.ofNat 4 ty_) (BitVec.ofNat 3 rnd_) (BitVec.ofNat 11 d_) (BitVec.ofNat 11 a_) (BitVec.ofNat 11 b_))
  | _ => .error 0x0007

def dec_vbini (sl : VSlot) (x : Nat) : Except Nat Instr :=
  match splitF [7, 6, 4, 3, 11, 11, 11, 3, 8] x with
  | [_, gu_, ty_, rnd_, d_, r1_, r2_, r3_, anchor_] => checked [r1_, r2_, r3_] (.vbini sl (guardOf gu_) (BitVec.ofNat 4 ty_) (BitVec.ofNat 3 rnd_) (BitVec.ofNat 11 d_) (BitVec.ofNat 8 anchor_))
  | _ => .error 0x0007

def dec_vbinaddValue (sl : VSlot) (x : Nat) : Except Nat Instr :=
  match splitF [7, 6, 4, 3, 11, 11, 11, 10, 1] x with
  | [_, gu_, ty_, rnd_, d_, a_, b_, r1_, _] => checked [r1_] (.vbinaddValue sl (guardOf gu_) (BitVec.ofNat 4 ty_) (BitVec.ofNat 3 rnd_) (BitVec.ofNat 11 d_) (BitVec.ofNat 11 a_) (BitVec.ofNat 11 b_))
  | _ => .error 0x0007

def dec_vbinaddMerge (sl : VSlot) (x : Nat) : Except Nat Instr :=
  match splitF [7, 6, 4, 3, 11, 11, 11, 10, 1] x with
  | [_, gu_, ty_, rnd_, d_, a_, b_, r1_, _] => checked [r1_] (.vbinaddMerge sl (guardOf gu_) (BitVec.ofNat 4 ty_) (BitVec.ofNat 3 rnd_) (BitVec.ofNat 11 d_) (BitVec.ofNat 11 a_) (BitVec.ofNat 11 b_))
  | _ => .error 0x0007

def dec_vbincvt (sl : VSlot) (x : Nat) : Except Nat Instr :=
  match splitF [7, 6, 4, 3, 11, 11, 11, 11] x with
  | [_, gu_, ty_, rnd_, d_, a_, r1_, r2_] => checked [r1_, r2_] (.vbincvt sl (guardOf gu_) (BitVec.ofNat 4 ty_) (BitVec.ofNat 3 rnd_) (BitVec.ofNat 11 d_) (BitVec.ofNat 11 a_))
  | _ => .error 0x0007

def decodeV (sl : VSlot) (x : Nat) : Except Nat Instr :=
  match field x 57 7 with
  | 1 => dec_vadd sl x
  | 2 => dec_vsub sl x
  | 3 => dec_vmul sl x
  | 4 => dec_vmulh sl x
  | 5 => dec_vmac sl x
  | 6 => dec_vmin sl x
  | 7 => dec_vmax sl x
  | 8 => dec_vabs sl x
  | 9 => dec_vneg sl x
  | 10 => dec_vadds sl x
  | 11 => dec_vsubs sl x
  | 12 => dec_vshl sl x
  | 13 => dec_vshr sl x
  | 14 => dec_vsar sl x
  | 15 => dec_vand sl x
  | 16 => dec_vor sl x
  | 17 => dec_vxor sl x
  | 18 => dec_vnot sl x
  | 19 => dec_vcmp sl x
  | 20 => dec_vsel sl x
  | 32 => if bitN x 10 then dec_vbcastVector sl x else dec_vbcastScalar sl x
  | 33 => dec_vext sl x
  | 34 => dec_vins sl x
  | 35 => dec_vshuf sl x
  | 36 => dec_vrot sl x
  | 37 => dec_vzip sl x
  | 38 => dec_vunzip sl x
  | 39 => dec_vpart sl x
  | 40 => dec_vcnt sl x
  | 41 => dec_vmov sl x
  | 42 => dec_vli sl x
  | 64 => dec_vfadd sl x
  | 65 => dec_vfsub sl x
  | 66 => dec_vfmul sl x
  | 67 => dec_vfma sl x
  | 68 => dec_vfms sl x
  | 69 => dec_vfnma sl x
  | 70 => dec_vfmin sl x
  | 71 => dec_vfmax sl x
  | 72 => dec_vfabs sl x
  | 73 => dec_vfneg sl x
  | 74 => dec_vfcmp sl x
  | 75 => dec_vfdiv sl x
  | 76 => dec_vfsqrt sl x
  | 77 => dec_vfrsq sl x
  | 78 => dec_vfrcp sl x
  | 79 => dec_vfclass sl x
  | 80 => dec_vcvt sl x
  | 81 => dec_vhsum sl x
  | 82 => dec_vmeanm sl x
  | 83 => dec_vfscl sl x
  | 96 => dec_vbini sl x
  | 97 => if bitN x 0 then dec_vbinaddMerge sl x else dec_vbinaddValue sl x
  | 98 => dec_vbincvt sl x
  | op => .ok (.unassignedOpcode (Machine.vslot sl) (BitVec.ofNat 8 op))

/-- Mx slot words (R94 to R106): the opcode, then the fields in order from the most significant. -/
def dec_mma (x : Nat) : Except Nat Instr :=
  match splitF [6, 6, 2, 2, 2, 4, 4, 2, 52] x with
  | [_, gu_, z_, maa_, mab_, ta_, tb_, shape_, r1_] => checked [r1_] (.mma (guardOf gu_) (BitVec.ofNat 2 z_) (BitVec.ofNat 2 maa_) (BitVec.ofNat 2 mab_) (BitVec.ofNat 4 ta_) (BitVec.ofNat 4 tb_) (BitVec.ofNat 2 shape_))
  | _ => .error 0x0007

def dec_mmaq (x : Nat) : Except Nat Instr :=
  match splitF [6, 6, 2, 2, 2, 4, 4, 2, 2, 5, 5, 5, 35] x with
  | [_, gu_, z_, maa_, mab_, ta_, tb_, shape_, glen_, gza_, gzb_, grp_, r1_] => checked [r1_] (.mmaq (guardOf gu_) (BitVec.ofNat 2 z_) (BitVec.ofNat 2 maa_) (BitVec.ofNat 2 mab_) (BitVec.ofNat 4 ta_) (BitVec.ofNat 4 tb_) (BitVec.ofNat 2 shape_) (BitVec.ofNat 2 glen_) (BitVec.ofNat 5 gza_) (BitVec.ofNat 5 gzb_) (BitVec.ofNat 5 grp_))
  | _ => .error 0x0007

def dec_scalc (x : Nat) : Except Nat Instr :=
  match splitF [6, 6, 2, 12, 2, 2, 5, 5, 5, 35] x with
  | [_, gu_, z_, r1_, shape_, r2_, gsa_, gsb_, grp_, r3_] => checked [r1_, r2_, r3_] (.scalc (guardOf gu_) (BitVec.ofNat 2 z_) (BitVec.ofNat 2 shape_) (BitVec.ofNat 5 gsa_) (BitVec.ofNat 5 gsb_) (BitVec.ofNat 5 grp_))
  | _ => .error 0x0007

def dec_zclr (x : Nat) : Except Nat Instr :=
  match splitF [6, 6, 2, 2, 64] x with
  | [_, gu_, z_, what_, r1_] => checked [r1_] (.zclr (guardOf gu_) (BitVec.ofNat 2 z_) (BitVec.ofNat 2 what_))
  | _ => .error 0x0007

def dec_zld (x : Nat) : Except Nat Instr :=
  match splitF [6, 6, 2, 43, 5, 18] x with
  | [_, gu_, z_, r1_, gB_, off_] => checked [r1_] (.zld (guardOf gu_) (BitVec.ofNat 2 z_) (BitVec.ofNat 5 gB_) (BitVec.ofNat 18 off_))
  | _ => .error 0x0007

def dec_zst (x : Nat) : Except Nat Instr :=
  match splitF [6, 6, 2, 4, 4, 3, 32, 5, 18] x with
  | [_, gu_, z_, r1_, t_, rnd_, r2_, gB_, off_] => checked [r1_, r2_] (.zst (guardOf gu_) (BitVec.ofNat 2 z_) (BitVec.ofNat 4 t_) (BitVec.ofNat 3 rnd_) (BitVec.ofNat 5 gB_) (BitVec.ofNat 18 off_))
  | _ => .error 0x0007

def dec_mxagReg (x : Nat) : Except Nat Instr :=
  match splitF [6, 6, 2, 3, 1, 5, 18, 39] x with
  | [_, gu_, ma_, fld_, _, ga_, r1_, r2_] => checked [r1_, r2_] (.mxagReg (guardOf gu_) (BitVec.ofNat 2 ma_) (BitVec.ofNat 3 fld_) (BitVec.ofNat 5 ga_))
  | _ => .error 0x0007

def dec_mxagImm (x : Nat) : Except Nat Instr :=
  match splitF [6, 6, 2, 3, 1, 5, 18, 39] x with
  | [_, gu_, ma_, fld_, _, r1_, imm_, r2_] => checked [r1_, r2_] (.mxagImm (guardOf gu_) (BitVec.ofNat 2 ma_) (BitVec.ofNat 3 fld_) (BitVec.ofNat 18 imm_))
  | _ => .error 0x0007

def dec_attld (x : Nat) : Except Nat Instr :=
  match splitF [6, 6, 2, 8, 8, 27, 5, 18] x with
  | [_, gu_, r1_, first_, cnt_, r2_, gB_, off_] => checked [r1_, r2_] (.attld (guardOf gu_) (BitVec.ofNat 8 first_) (BitVec.ofNat 8 cnt_) (BitVec.ofNat 5 gB_) (BitVec.ofNat 18 off_))
  | _ => .error 0x0007

def dec_rank (x : Nat) : Except Nat Instr :=
  match splitF [6, 6, 6, 4, 10, 10, 1, 5, 5, 5, 22] x with
  | [_, gu_, r1_, t_, n_, k_, _, r2_, ga_, gb_, r3_] => checked [r1_, r2_, r3_] (.rank (guardOf gu_) (BitVec.ofNat 4 t_) (BitVec.ofNat 10 n_) (BitVec.ofNat 10 k_) (BitVec.ofNat 5 ga_) (BitVec.ofNat 5 gb_))
  | _ => .error 0x0007

def dec_rankThreshold (x : Nat) : Except Nat Instr :=
  match splitF [6, 6, 6, 4, 10, 10, 1, 5, 5, 5, 22] x with
  | [_, gu_, r1_, t_, n_, k_, _, gt_, ga_, gb_, r2_] => checked [r1_, r2_] (.rankThreshold (guardOf gu_) (BitVec.ofNat 4 t_) (BitVec.ofNat 10 n_) (BitVec.ofNat 10 k_) (BitVec.ofNat 5 gt_) (BitVec.ofNat 5 ga_) (BitVec.ofNat 5 gb_))
  | _ => .error 0x0007

def dec_rkacc (x : Nat) : Except Nat Instr :=
  match splitF [6, 6, 2, 4, 4, 10, 16, 5, 5, 22] x with
  | [_, gu_, z_, row_, t_, n_, r1_, ga_, gb_, r2_] => checked [r1_, r2_] (.rkacc (guardOf gu_) (BitVec.ofNat 2 z_) (BitVec.ofNat 4 row_) (BitVec.ofNat 4 t_) (BitVec.ofNat 10 n_) (BitVec.ofNat 5 ga_) (BitVec.ofNat 5 gb_))
  | _ => .error 0x0007

def dec_unrank (x : Nat) : Except Nat Instr :=
  match splitF [6, 6, 6, 4, 10, 10, 6, 5, 5, 22] x with
  | [_, gu_, r1_, t_, n_, len_, r2_, ga_, gb_, r3_] => checked [r1_, r2_, r3_] (.unrank (guardOf gu_) (BitVec.ofNat 4 t_) (BitVec.ofNat 10 n_) (BitVec.ofNat 10 len_) (BitVec.ofNat 5 ga_) (BitVec.ofNat 5 gb_))
  | _ => .error 0x0007

def decodeMx (x : Nat) : Except Nat Instr :=
  match field x 74 6 with
  | 1 => dec_mma x
  | 2 => dec_mmaq x
  | 3 => dec_scalc x
  | 8 => dec_zclr x
  | 9 => dec_zld x
  | 10 => dec_zst x
  | 16 => if bitN x 62 then dec_mxagImm x else dec_mxagReg x
  | 24 => dec_attld x
  | 25 => if bitN x 37 then dec_rankThreshold x else dec_rank x
  | 26 => dec_rkacc x
  | 27 => dec_unrank x
  | op => .ok (.unassignedOpcode .mx (BitVec.ofNat 8 op))

/-- Ld slot words (R94 to R106): the opcode, then the fields in order from the most significant. -/
def dec_ldv (x : Nat) : Except Nat Instr :=
  match splitF [4, 6, 11, 5, 18, 20] x with
  | [_, gu_, d_, gB_, off_, r1_] => checked [r1_] (.ldv (guardOf gu_) (BitVec.ofNat 11 d_) (BitVec.ofNat 5 gB_) (BitVec.ofNat 18 off_))
  | _ => .error 0x0007

def dec_ldvsStrided (x : Nat) : Except Nat Instr :=
  match splitF [4, 6, 11, 5, 18, 1, 5, 2, 12] x with
  | [_, gu_, d_, gB_, off_, _, gs_, esz_, r1_] => checked [r1_] (.ldvsStrided (guardOf gu_) (BitVec.ofNat 11 d_) (BitVec.ofNat 5 gB_) (BitVec.ofNat 18 off_) (BitVec.ofNat 5 gs_) (BitVec.ofNat 2 esz_))
  | _ => .error 0x0007

def dec_ldvsGathered (x : Nat) : Except Nat Instr :=
  match splitF [4, 6, 11, 5, 18, 1, 11, 8] x with
  | [_, gu_, d_, gB_, off_, _, vi_, r1_] => checked [r1_] (.ldvsGathered (guardOf gu_) (BitVec.ofNat 11 d_) (BitVec.ofNat 5 gB_) (BitVec.ofNat 18 off_) (BitVec.ofNat 11 vi_))
  | _ => .error 0x0007

def dec_ldg (x : Nat) : Except Nat Instr :=
  match splitF [4, 6, 6, 5, 5, 18, 20] x with
  | [_, gu_, r1_, gd_, gB_, off_, r2_] => checked [r1_, r2_] (.ldg (guardOf gu_) (BitVec.ofNat 5 gd_) (BitVec.ofNat 5 gB_) (BitVec.ofNat 18 off_))
  | _ => .error 0x0007

def dec_ldb (x : Nat) : Except Nat Instr :=
  match splitF [4, 6, 11, 5, 18, 6, 2, 12] x with
  | [_, gu_, d_, gB_, off_, r1_, esz_, r2_] => checked [r1_, r2_] (.ldb (guardOf gu_) (BitVec.ofNat 11 d_) (BitVec.ofNat 5 gB_) (BitVec.ofNat 18 off_) (BitVec.ofNat 2 esz_))
  | _ => .error 0x0007

def dec_ldq (x : Nat) : Except Nat Instr :=
  match splitF [4, 6, 7, 4, 5, 18, 20] x with
  | [_, gu_, r1_, qd_, gB_, off_, r2_] => checked [r1_, r2_] (.ldq (guardOf gu_) (BitVec.ofNat 4 qd_) (BitVec.ofNat 5 gB_) (BitVec.ofNat 18 off_))
  | _ => .error 0x0007

def dec_ldm (x : Nat) : Except Nat Instr :=
  match splitF [4, 6, 8, 3, 5, 18, 20] x with
  | [_, gu_, r1_, md_, gB_, off_, r2_] => checked [r1_, r2_] (.ldm (guardOf gu_) (BitVec.ofNat 3 md_) (BitVec.ofNat 5 gB_) (BitVec.ofNat 18 off_))
  | _ => .error 0x0007

def decodeLd (x : Nat) : Except Nat Instr :=
  match field x 60 4 with
  | 1 => dec_ldv x
  | 2 => if bitN x 19 then dec_ldvsGathered x else dec_ldvsStrided x
  | 3 => dec_ldg x
  | 4 => dec_ldb x
  | 5 => dec_ldq x
  | 6 => dec_ldm x
  | op => .ok (.unassignedOpcode .ld (BitVec.ofNat 8 op))

/-- St slot words (R94 to R106): the opcode, then the fields in order from the most significant. -/
def dec_stvOffset (x : Nat) : Except Nat Instr :=
  match splitF [4, 6, 11, 5, 1, 18, 3] x with
  | [_, gu_, vs_, gB_, _, off_, r1_] => checked [r1_] (.stvOffset (guardOf gu_) (BitVec.ofNat 11 vs_) (BitVec.ofNat 5 gB_) (BitVec.ofNat 18 off_))
  | _ => .error 0x0007

def dec_stvScatter (x : Nat) : Except Nat Instr :=
  match splitF [4, 6, 11, 5, 1, 11, 10] x with
  | [_, gu_, vs_, gB_, _, vi_, r1_] => checked [r1_] (.stvScatter (guardOf gu_) (BitVec.ofNat 11 vs_) (BitVec.ofNat 5 gB_) (BitVec.ofNat 11 vi_))
  | _ => .error 0x0007

def dec_stvmOffset (x : Nat) : Except Nat Instr :=
  match splitF [4, 6, 11, 5, 1, 18, 3] x with
  | [_, gu_, vs_, gB_, _, off_, m_] => checked [] (.stvmOffset (guardOf gu_) (BitVec.ofNat 11 vs_) (BitVec.ofNat 5 gB_) (BitVec.ofNat 18 off_) (BitVec.ofNat 3 m_))
  | _ => .error 0x0007

def dec_stvmScatter (x : Nat) : Except Nat Instr :=
  match splitF [4, 6, 11, 5, 1, 11, 7, 3] x with
  | [_, gu_, vs_, gB_, _, vi_, r1_, m_] => checked [r1_] (.stvmScatter (guardOf gu_) (BitVec.ofNat 11 vs_) (BitVec.ofNat 5 gB_) (BitVec.ofNat 11 vi_) (BitVec.ofNat 3 m_))
  | _ => .error 0x0007

def dec_stg (x : Nat) : Except Nat Instr :=
  match splitF [4, 6, 6, 5, 5, 1, 18, 3] x with
  | [_, gu_, r1_, gs_, gB_, r2_, off_, r3_] => checked [r1_, r2_, r3_] (.stg (guardOf gu_) (BitVec.ofNat 5 gs_) (BitVec.ofNat 5 gB_) (BitVec.ofNat 18 off_))
  | _ => .error 0x0007

def dec_stq (x : Nat) : Except Nat Instr :=
  match splitF [4, 6, 7, 4, 5, 1, 18, 3] x with
  | [_, gu_, r1_, qs_, gB_, r2_, off_, r3_] => checked [r1_, r2_, r3_] (.stq (guardOf gu_) (BitVec.ofNat 4 qs_) (BitVec.ofNat 5 gB_) (BitVec.ofNat 18 off_))
  | _ => .error 0x0007

def decodeSt (x : Nat) : Except Nat Instr :=
  match field x 44 4 with
  | 1 => if bitN x 21 then dec_stvScatter x else dec_stvOffset x
  | 2 => if bitN x 21 then dec_stvmScatter x else dec_stvmOffset x
  | 3 => dec_stg x
  | 4 => dec_stq x
  | op => .ok (.unassignedOpcode .st (BitVec.ofNat 8 op))

/-- Cp slot words (R94 to R106): the opcode, then the fields in order from the most significant. -/
def dec_send (x : Nat) : Except Nat Instr :=
  match splitF [5, 6, 3, 11, 11, 1, 1, 5, 5, 5, 27] x with
  | [_, gu_, dop_, dx_, dy_, w_, _, gS_, gD_, gK_, r1_] => checked [r1_] (.send (guardOf gu_) (BitVec.ofNat 3 dop_) (BitVec.ofNat 11 dx_) (BitVec.ofNat 11 dy_) (w_ == 1) (BitVec.ofNat 5 gS_) (BitVec.ofNat 5 gD_) (BitVec.ofNat 5 gK_))
  | _ => .error 0x0007

def dec_sendNb (x : Nat) : Except Nat Instr :=
  match splitF [5, 6, 3, 11, 11, 1, 1, 5, 5, 5, 27] x with
  | [_, gu_, dop_, dx_, dy_, w_, _, gS_, gD_, r1_, r2_] => checked [r1_, r2_] (.sendNb (guardOf gu_) (BitVec.ofNat 3 dop_) (BitVec.ofNat 11 dx_) (BitVec.ofNat 11 dy_) (w_ == 1) (BitVec.ofNat 5 gS_) (BitVec.ofNat 5 gD_))
  | _ => .error 0x0007

def dec_sendv (x : Nat) : Except Nat Instr :=
  match splitF [5, 6, 3, 11, 11, 1, 1, 5, 5, 5, 11, 16] x with
  | [_, gu_, dop_, dx_, dy_, w_, _, r1_, gD_, gK_, vs_, r2_] => checked [r1_, r2_] (.sendv (guardOf gu_) (BitVec.ofNat 3 dop_) (BitVec.ofNat 11 dx_) (BitVec.ofNat 11 dy_) (w_ == 1) (BitVec.ofNat 5 gD_) (BitVec.ofNat 5 gK_) (BitVec.ofNat 11 vs_))
  | _ => .error 0x0007

def dec_sendvNb (x : Nat) : Except Nat Instr :=
  match splitF [5, 6, 3, 11, 11, 1, 1, 5, 5, 5, 11, 16] x with
  | [_, gu_, dop_, dx_, dy_, w_, _, r1_, gD_, r2_, vs_, r3_] => checked [r1_, r2_, r3_] (.sendvNb (guardOf gu_) (BitVec.ofNat 3 dop_) (BitVec.ofNat 11 dx_) (BitVec.ofNat 11 dy_) (w_ == 1) (BitVec.ofNat 5 gD_) (BitVec.ofNat 11 vs_))
  | _ => .error 0x0007

def dec_cpy (x : Nat) : Except Nat Instr :=
  match splitF [5, 6, 27, 5, 5, 5, 27] x with
  | [_, gu_, r1_, gS_, r2_, gK_, r3_] => checked [r1_, r2_, r3_] (.cpy (guardOf gu_) (BitVec.ofNat 5 gS_) (BitVec.ofNat 5 gK_))
  | _ => .error 0x0007

def dec_cpg (x : Nat) : Except Nat Instr :=
  match splitF [5, 6, 27, 5, 5, 5, 5, 5, 8, 9] x with
  | [_, gu_, r1_, gS_, gD_, gK_, gi_, n5_, rlen_, r2_] => checked [r1_, r2_] (.cpg (guardOf gu_) (BitVec.ofNat 5 gS_) (BitVec.ofNat 5 gD_) (BitVec.ofNat 5 gK_) (BitVec.ofNat 5 gi_) (BitVec.ofNat 5 n5_) (BitVec.ofNat 8 rlen_))
  | _ => .error 0x0007

def dec_rksend (x : Nat) : Except Nat Instr :=
  match splitF [5, 6, 3, 11, 11, 1, 1, 5, 5, 5, 10, 17] x with
  | [_, gu_, r1_, dx_, dy_, r2_, nb_, gS_, gD_, gK_, n10_, r3_] => checked [r1_, r2_, r3_] (.rksend (guardOf gu_) (BitVec.ofNat 11 dx_) (BitVec.ofNat 11 dy_) (nb_ == 1) (BitVec.ofNat 5 gS_) (BitVec.ofNat 5 gD_) (BitVec.ofNat 5 gK_) (BitVec.ofNat 10 n10_))
  | _ => .error 0x0007

def dec_dact (x : Nat) : Except Nat Instr :=
  match splitF [5, 6, 4, 65] x with
  | [_, gu_, gp_, r1_] => checked [r1_] (.dact (guardOf gu_) (BitVec.ofNat 4 gp_))
  | _ => .error 0x0007

def dec_drd (x : Nat) : Except Nat Instr :=
  match splitF [5, 6, 4, 23, 5, 5, 5, 27] x with
  | [_, gu_, gp_, r1_, gS_, r2_, gK_, r3_] => checked [r1_, r2_, r3_] (.drd (guardOf gu_) (BitVec.ofNat 4 gp_) (BitVec.ofNat 5 gS_) (BitVec.ofNat 5 gK_))
  | _ => .error 0x0007

def dec_dwr (x : Nat) : Except Nat Instr :=
  match splitF [5, 6, 4, 23, 5, 37] x with
  | [_, gu_, gp_, r1_, gS_, r2_] => checked [r1_, r2_] (.dwr (guardOf gu_) (BitVec.ofNat 4 gp_) (BitVec.ofNat 5 gS_))
  | _ => .error 0x0007

def dec_dpre (x : Nat) : Except Nat Instr :=
  match splitF [5, 6, 4, 65] x with
  | [_, gu_, gp_, r1_] => checked [r1_] (.dpre (guardOf gu_) (BitVec.ofNat 4 gp_))
  | _ => .error 0x0007

def dec_dprea (x : Nat) : Except Nat Instr :=
  match splitF [5, 6, 69] x with
  | [_, gu_, r1_] => checked [r1_] (.dprea (guardOf gu_))
  | _ => .error 0x0007

def dec_dref (x : Nat) : Except Nat Instr :=
  match splitF [5, 6, 69] x with
  | [_, gu_, r1_] => checked [r1_] (.dref (guardOf gu_))
  | _ => .error 0x0007

def dec_drefb (x : Nat) : Except Nat Instr :=
  match splitF [5, 6, 6, 63] x with
  | [_, gu_, bank_, r1_] => checked [r1_] (.drefb (guardOf gu_) (BitVec.ofNat 6 bank_))
  | _ => .error 0x0007

def dec_lnkp (x : Nat) : Except Nat Instr :=
  match splitF [5, 6, 2, 2, 4, 19, 5, 10, 5, 22] x with
  | [_, gu_, port_, cls_, gp_, r1_, gS_, r2_, gn_, r3_] => checked [r1_, r2_, r3_] (.lnkp (guardOf gu_) (BitVec.ofNat 2 port_) (BitVec.ofNat 2 cls_) (BitVec.ofNat 4 gp_) (BitVec.ofNat 5 gS_) (BitVec.ofNat 5 gn_))
  | _ => .error 0x0007

def dec_lnkg (x : Nat) : Except Nat Instr :=
  match splitF [5, 6, 2, 2, 4, 24, 5, 5, 5, 22] x with
  | [_, gu_, port_, cls_, gp_, r1_, gD_, gK_, gn_, r2_] => checked [r1_, r2_] (.lnkg (guardOf gu_) (BitVec.ofNat 2 port_) (BitVec.ofNat 2 cls_) (BitVec.ofNat 4 gp_) (BitVec.ofNat 5 gD_) (BitVec.ofNat 5 gK_) (BitVec.ofNat 5 gn_))
  | _ => .error 0x0007

def dec_coll (x : Nat) : Except Nat Instr :=
  match splitF [5, 6, 27, 5, 5, 5, 27] x with
  | [_, gu_, r1_, gS_, r2_, gK_, r3_] => checked [r1_, r2_, r3_] (.coll (guardOf gu_) (BitVec.ofNat 5 gS_) (BitVec.ofNat 5 gK_))
  | _ => .error 0x0007

def decodeCp (x : Nat) : Except Nat Instr :=
  match field x 75 5 with
  | 1 => if bitN x 42 then dec_sendNb x else dec_send x
  | 2 => if bitN x 42 then dec_sendvNb x else dec_sendv x
  | 4 => dec_cpy x
  | 5 => dec_cpg x
  | 6 => dec_rksend x
  | 8 => dec_dact x
  | 9 => dec_drd x
  | 10 => dec_dwr x
  | 11 => dec_dpre x
  | 12 => dec_dprea x
  | 13 => dec_dref x
  | 14 => dec_drefb x
  | 16 => dec_lnkp x
  | 17 => dec_lnkg x
  | 18 => dec_coll x
  | op => .ok (.unassignedOpcode .cp (BitVec.ofNat 8 op))

/-- Sy slot words (R94 to R106): the opcode, then the fields in order from the most significant. -/
def dec_waitcImm (x : Nat) : Except Nat Instr :=
  match splitF [5, 1, 26] x with
  | [_, _, imm_] => checked [] (.waitcImm (BitVec.ofNat 26 imm_))
  | _ => .error 0x0007

def dec_waitcReg (x : Nat) : Except Nat Instr :=
  match splitF [5, 1, 4, 22] x with
  | [_, _, gp_, r1_] => checked [r1_] (.waitcReg (BitVec.ofNat 4 gp_))
  | _ => .error 0x0007

def dec_waitbImm (x : Nat) : Except Nat Instr :=
  match splitF [5, 5, 1, 1, 20] x with
  | [_, gk_, ph_, _, n_] => checked [] (.waitbImm (BitVec.ofNat 5 gk_) (ph_ == 1) (BitVec.ofNat 20 n_))
  | _ => .error 0x0007

def dec_waitbReg (x : Nat) : Except Nat Instr :=
  match splitF [5, 5, 1, 1, 4, 16] x with
  | [_, gk_, ph_, _, gp_, r1_] => checked [r1_] (.waitbReg (BitVec.ofNat 5 gk_) (ph_ == 1) (BitVec.ofNat 4 gp_))
  | _ => .error 0x0007

def dec_bariImm (x : Nat) : Except Nat Instr :=
  match splitF [5, 5, 1, 21] x with
  | [_, gk_, _, n_] => checked [] (.bariImm (BitVec.ofNat 5 gk_) (BitVec.ofNat 21 n_))
  | _ => .error 0x0007

def dec_bariReg (x : Nat) : Except Nat Instr :=
  match splitF [5, 5, 1, 5, 16] x with
  | [_, gk_, _, gn_, r1_] => checked [r1_] (.bariReg (BitVec.ofNat 5 gk_) (BitVec.ofNat 5 gn_))
  | _ => .error 0x0007

def dec_barx (x : Nat) : Except Nat Instr :=
  match splitF [5, 5, 22] x with
  | [_, gk_, r1_] => checked [r1_] (.barx (BitVec.ofNat 5 gk_))
  | _ => .error 0x0007

def dec_drainImm (x : Nat) : Except Nat Instr :=
  match splitF [5, 6, 1, 20] x with
  | [_, r1_, _, n_] => checked [r1_] (.drainImm (BitVec.ofNat 20 n_))
  | _ => .error 0x0007

def dec_drainReg (x : Nat) : Except Nat Instr :=
  match splitF [5, 6, 1, 4, 16] x with
  | [_, r1_, _, gp_, r2_] => checked [r1_, r2_] (.drainReg (BitVec.ofNat 4 gp_))
  | _ => .error 0x0007

def dec_realign (x : Nat) : Except Nat Instr :=
  match splitF [5, 4, 23] x with
  | [_, qd_, r1_] => checked [r1_] (.realign (BitVec.ofNat 4 qd_))
  | _ => .error 0x0007

def dec_cropen (x : Nat) : Except Nat Instr :=
  match splitF [5, 13, 8, 6] x with
  | [_, handler_, budget_, r1_] => checked [r1_] (.cropen (BitVec.ofNat 13 handler_) (BitVec.ofNat 8 budget_))
  | _ => .error 0x0007

def dec_crclose (x : Nat) : Except Nat Instr :=
  match splitF [5, 27] x with
  | [_, r1_] => checked [r1_] .crclose
  | _ => .error 0x0007

def dec_crabort (x : Nat) : Except Nat Instr :=
  match splitF [5, 27] x with
  | [_, r1_] => checked [r1_] .crabort
  | _ => .error 0x0007

def dec_audo (x : Nat) : Except Nat Instr :=
  match splitF [5, 5, 16, 6] x with
  | [_, ga_, uid_, r1_] => checked [r1_] (.audo (BitVec.ofNat 5 ga_) (BitVec.ofNat 16 uid_))
  | _ => .error 0x0007

def dec_audc (x : Nat) : Except Nat Instr :=
  match splitF [5, 5, 16, 6] x with
  | [_, r1_, uid_, r2_] => checked [r1_, r2_] (.audc (BitVec.ofNat 16 uid_))
  | _ => .error 0x0007

def dec_trap (x : Nat) : Except Nat Instr :=
  match splitF [5, 11, 16] x with
  | [_, r1_, code_] => checked [r1_] (.trap (BitVec.ofNat 16 code_))
  | _ => .error 0x0007

def dec_bkpt (x : Nat) : Except Nat Instr :=
  match splitF [5, 11, 16] x with
  | [_, r1_, code_] => checked [r1_] (.bkpt (BitVec.ofNat 16 code_))
  | _ => .error 0x0007

def dec_halt (x : Nat) : Except Nat Instr :=
  match splitF [5, 27] x with
  | [_, r1_] => checked [r1_] .halt
  | _ => .error 0x0007

def dec_evt (x : Nat) : Except Nat Instr :=
  match splitF [5, 11, 16] x with
  | [_, r1_, code_] => checked [r1_] (.evt (BitVec.ofNat 16 code_))
  | _ => .error 0x0007

def dec_tmark (x : Nat) : Except Nat Instr :=
  match splitF [5, 11, 16] x with
  | [_, r1_, code_] => checked [r1_] (.tmark (BitVec.ofNat 16 code_))
  | _ => .error 0x0007

def dec_dscrd (x : Nat) : Except Nat Instr :=
  match splitF [5, 5, 5, 17] x with
  | [_, ga_, gn_, r1_] => checked [r1_] (.dscrd (BitVec.ofNat 5 ga_) (BitVec.ofNat 5 gn_))
  | _ => .error 0x0007

def decodeSy (x : Nat) : Except Nat Instr :=
  match field x 27 5 with
  | 1 => if bitN x 26 then dec_waitcImm x else dec_waitcReg x
  | 2 => if bitN x 20 then dec_waitbImm x else dec_waitbReg x
  | 3 => if bitN x 21 then dec_bariImm x else dec_bariReg x
  | 4 => dec_barx x
  | 5 => if bitN x 20 then dec_drainImm x else dec_drainReg x
  | 6 => dec_realign x
  | 8 => dec_cropen x
  | 9 => dec_crclose x
  | 10 => dec_crabort x
  | 12 => dec_audo x
  | 13 => dec_audc x
  | 16 => dec_trap x
  | 17 => dec_bkpt x
  | 18 => dec_halt x
  | 19 => dec_evt x
  | 20 => dec_tmark x
  | 21 => dec_dscrd x
  | op => .ok (.unassignedOpcode .sy (BitVec.ofNat 8 op))

/-- The instruction in a slot, or the detail of R108 with which the sequencer rejects it. A free
code decodes to `unassignedOpcode`, whose meaning is the trap of R107. -/
def decodeSlot (sl : Slot) (x : Nat) : Except Nat Instr :=
  match sl with
  | .s => decodeS x
  | .va => decodeV .va x
  | .vb => decodeV .vb x
  | .mx => decodeMx x
  | .ld => decodeLd x
  | .st => decodeSt x
  | .cp => decodeCp x
  | .sy => decodeSy x

/-- A bundle's header word (R89). -/
structure Header where
  mask : Nat
  fold : Nat
  le : Bool
  tt : Bool
  rest : Nat
  deriving DecidableEq, Repr

/-- Read a header word (R89). -/
def headerOf (w : Nat) : Header :=
  { mask := field w 24 8, fold := field w 12 12, le := bitN w 11, tt := bitN w 10, rest := field w 0 10 }

/-- The header word of given fields (R89). -/
def headerWord (mask fold : Nat) (le tt : Bool) : Nat :=
  mask * 2 ^ 24 + fold * 2 ^ 12 + b2n le * 2 ^ 11 + b2n tt * 2 ^ 10

/-- The slots in slot order (R91). -/
def slotOrder : List Slot := [.s, .va, .vb, .mx, .ld, .st, .cp, .sy]

/-- The slots a mask names, in slot order (R89, R91). -/
def presentSlots (mask : Nat) : List Slot := slotOrder.filter (fun u => bitN mask (slotNum u))

/-- Total width of the slots a mask names (R91). -/
def streamWidth (mask : Nat) : Nat := widthSum ((presentSlots mask).map slotWidth)

/-- Words of a bundle, its header included (R91). -/
def bundleWords (mask : Nat) : Nat := 1 + cdiv (streamWidth mask) 32

/-- The words after the header as one number, the first word most significant (R91). -/
def streamNat (ws : List Word) : Nat := ws.foldl (fun a w => a * 2 ^ 32 + w.toNat) 0

/-- Bits of padding after the last slot (R91). -/
def padBits (mask : Nat) : Nat := 32 * (bundleWords mask - 1) - streamWidth mask

/-- The slots of a bundle with their bits, cut from the stream (R91). -/
def cutSlots (mask : Nat) (ws : List Word) : List (Slot × Nat) :=
  (presentSlots mask).zip
    (splitF ((presentSlots mask).map slotWidth) (streamNat ws >>> padBits mask))

/-- The bundle-level checks of R109 on a header and the words after it, for the header's address. -/
def bundleFault (pc : Nat) (h : Header) (ws : List Word) : Option Nat :=
  firstFault [
    (h.rest != 0, 0x0004),
    (h.mask != 0 && h.fold != 0, 0x0003),
    (decide (0x1FFF < pc + bundleWords h.mask - 1), 0x0005),
    (field (streamNat ws) 0 (padBits h.mask) != 0, 0x0006)]

/-- Slots joined into the words after a header (R91). -/
def streamWords (sl : List (Slot × Nat)) : List Word :=
  let w := widthSum (sl.map (fun e => slotWidth e.1))
  let n := cdiv w 32
  let x := packF (sl.map (fun e => (slotWidth e.1, e.2))) * 2 ^ (32 * n - w)
  (upto n).map (fun k => BitVec.ofNat 32 (x >>> (32 * (n - 1 - k))))

/-- The slot and the fields of an instruction's word, most significant first; none for the steps of
the hardware, which have no word. -/
def encodeFields (i : Instr) : Option (Slot × List (Nat × Nat)) :=
  match i with
  | .add gu gd ga gb => some (.s, [(8, 1), (6, guardNat gu), (5, gd.toNat), (5, ga.toNat), (5, gb.toNat), (19, 0)])
  | .sub gu gd ga gb => some (.s, [(8, 2), (6, guardNat gu), (5, gd.toNat), (5, ga.toNat), (5, gb.toNat), (19, 0)])
  | .and_ gu gd ga gb => some (.s, [(8, 3), (6, guardNat gu), (5, gd.toNat), (5, ga.toNat), (5, gb.toNat), (19, 0)])
  | .or_ gu gd ga gb => some (.s, [(8, 4), (6, guardNat gu), (5, gd.toNat), (5, ga.toNat), (5, gb.toNat), (19, 0)])
  | .xor_ gu gd ga gb => some (.s, [(8, 5), (6, guardNat gu), (5, gd.toNat), (5, ga.toNat), (5, gb.toNat), (19, 0)])
  | .shl gu gd ga gb => some (.s, [(8, 6), (6, guardNat gu), (5, gd.toNat), (5, ga.toNat), (5, gb.toNat), (19, 0)])
  | .shr gu gd ga gb => some (.s, [(8, 7), (6, guardNat gu), (5, gd.toNat), (5, ga.toNat), (5, gb.toNat), (19, 0)])
  | .sar gu gd ga gb => some (.s, [(8, 8), (6, guardNat gu), (5, gd.toNat), (5, ga.toNat), (5, gb.toNat), (19, 0)])
  | .mul gu gd ga gb => some (.s, [(8, 9), (6, guardNat gu), (5, gd.toNat), (5, ga.toNat), (5, gb.toNat), (19, 0)])
  | .mulh gu gd ga gb => some (.s, [(8, 10), (6, guardNat gu), (5, gd.toNat), (5, ga.toNat), (5, gb.toNat), (19, 0)])
  | .mulhn gu gd ga gb => some (.s, [(8, 11), (6, guardNat gu), (5, gd.toNat), (5, ga.toNat), (5, gb.toNat), (19, 0)])
  | .min gu gd ga gb => some (.s, [(8, 12), (6, guardNat gu), (5, gd.toNat), (5, ga.toNat), (5, gb.toNat), (19, 0)])
  | .max gu gd ga gb => some (.s, [(8, 13), (6, guardNat gu), (5, gd.toNat), (5, ga.toNat), (5, gb.toNat), (19, 0)])
  | .minn gu gd ga gb => some (.s, [(8, 14), (6, guardNat gu), (5, gd.toNat), (5, ga.toNat), (5, gb.toNat), (19, 0)])
  | .maxn gu gd ga gb => some (.s, [(8, 15), (6, guardNat gu), (5, gd.toNat), (5, ga.toNat), (5, gb.toNat), (19, 0)])
  | .clz gu gd ga => some (.s, [(8, 16), (6, guardNat gu), (5, gd.toNat), (5, ga.toNat), (24, 0)])
  | .popc gu gd ga => some (.s, [(8, 17), (6, guardNat gu), (5, gd.toNat), (5, ga.toNat), (24, 0)])
  | .addi gu gd ga imm => some (.s, [(8, 32), (6, guardNat gu), (5, gd.toNat), (5, ga.toNat), (24, imm.toNat)])
  | .andi gu gd ga imm => some (.s, [(8, 33), (6, guardNat gu), (5, gd.toNat), (5, ga.toNat), (24, imm.toNat)])
  | .ori gu gd ga imm => some (.s, [(8, 34), (6, guardNat gu), (5, gd.toNat), (5, ga.toNat), (24, imm.toNat)])
  | .xori gu gd ga imm => some (.s, [(8, 35), (6, guardNat gu), (5, gd.toNat), (5, ga.toNat), (24, imm.toNat)])
  | .shli gu gd ga sh => some (.s, [(8, 36), (6, guardNat gu), (5, gd.toNat), (5, ga.toNat), (19, 0), (5, sh.toNat)])
  | .shri gu gd ga sh => some (.s, [(8, 37), (6, guardNat gu), (5, gd.toNat), (5, ga.toNat), (19, 0), (5, sh.toNat)])
  | .sari gu gd ga sh => some (.s, [(8, 38), (6, guardNat gu), (5, gd.toNat), (5, ga.toNat), (19, 0), (5, sh.toNat)])
  | .li gu gd imm => some (.s, [(8, 40), (6, guardNat gu), (5, gd.toNat), (5, 0), (24, imm.toNat)])
  | .lih gu gd imm => some (.s, [(8, 41), (6, guardNat gu), (5, gd.toNat), (5, 0), (8, 0), (16, imm.toNat)])
  | .sel gu gd ga gb qs => some (.s, [(8, 18), (6, guardNat gu), (5, gd.toNat), (5, ga.toNat), (5, gb.toNat), (4, qs.toNat), (15, 0)])
  | .cmpReg gu qd cc ga gb => some (.s, [(8, 48), (6, guardNat gu), (4, qd.toNat), (4, cc.toNat), (5, ga.toNat), (1, 0), (5, gb.toNat), (15, 0)])
  | .cmpImm gu qd cc ga imm => some (.s, [(8, 48), (6, guardNat gu), (4, qd.toNat), (4, cc.toNat), (5, ga.toNat), (1, 1), (20, imm.toNat)])
  | .qand gu qd qa qb => some (.s, [(8, 49), (6, guardNat gu), (4, qd.toNat), (4, qa.toNat), (4, qb.toNat), (22, 0)])
  | .qor gu qd qa qb => some (.s, [(8, 50), (6, guardNat gu), (4, qd.toNat), (4, qa.toNat), (4, qb.toNat), (22, 0)])
  | .qnot gu qd qa => some (.s, [(8, 51), (6, guardNat gu), (4, qd.toNat), (4, qa.toNat), (26, 0)])
  | .rds gu g sidx => some (.s, [(8, 80), (6, guardNat gu), (5, g.toNat), (8, sidx.toNat), (21, 0)])
  | .wrs gu g sidx => some (.s, [(8, 81), (6, guardNat gu), (5, g.toNat), (8, sidx.toNat), (21, 0)])
  | .rdcyc gu g => some (.s, [(8, 82), (6, guardNat gu), (5, g.toNat), (8, 0), (21, 0)])
  | .br gu target => some (.s, [(8, 64), (6, guardNat gu), (13, target.toNat), (21, 0)])
  | .brq gu target qa nq => some (.s, [(8, 65), (6, guardNat gu), (13, target.toNat), (4, qa.toNat), (1, b2n nq), (16, 0)])
  | .call gu target => some (.s, [(8, 66), (6, guardNat gu), (13, target.toNat), (21, 0)])
  | .ret gu ga => some (.s, [(8, 67), (6, guardNat gu), (5, 0), (5, ga.toNat), (24, 0)])
  | .jmpg gu ga => some (.s, [(8, 68), (6, guardNat gu), (5, 0), (5, ga.toNat), (24, 0)])
  | .loop gu end_ rp rv wsz ga => some (.s, [(8, 72), (6, guardNat gu), (13, end_.toNat), (1, b2n rp), (1, b2n rv), (3, wsz.toNat), (5, ga.toNat), (11, 0)])
  | .loopi gu end_ rp rv wsz count => some (.s, [(8, 73), (6, guardNat gu), (13, end_.toNat), (1, b2n rp), (1, b2n rv), (3, wsz.toNat), (16, count.toNat)])
  | .emptyBundle _ _ _ => none
  | .vadd sl gu ty rnd d a b => some (Machine.vslot sl, [(7, 1), (6, guardNat gu), (4, ty.toNat), (3, rnd.toNat), (11, d.toNat), (11, a.toNat), (11, b.toNat), (11, 0)])
  | .vsub sl gu ty rnd d a b => some (Machine.vslot sl, [(7, 2), (6, guardNat gu), (4, ty.toNat), (3, rnd.toNat), (11, d.toNat), (11, a.toNat), (11, b.toNat), (11, 0)])
  | .vmul sl gu ty rnd d a b => some (Machine.vslot sl, [(7, 3), (6, guardNat gu), (4, ty.toNat), (3, rnd.toNat), (11, d.toNat), (11, a.toNat), (11, b.toNat), (11, 0)])
  | .vmulh sl gu ty rnd d a b => some (Machine.vslot sl, [(7, 4), (6, guardNat gu), (4, ty.toNat), (3, rnd.toNat), (11, d.toNat), (11, a.toNat), (11, b.toNat), (11, 0)])
  | .vmac sl gu ty rnd d a b c => some (Machine.vslot sl, [(7, 5), (6, guardNat gu), (4, ty.toNat), (3, rnd.toNat), (11, d.toNat), (11, a.toNat), (11, b.toNat), (11, c.toNat)])
  | .vmin sl gu ty rnd d a b => some (Machine.vslot sl, [(7, 6), (6, guardNat gu), (4, ty.toNat), (3, rnd.toNat), (11, d.toNat), (11, a.toNat), (11, b.toNat), (11, 0)])
  | .vmax sl gu ty rnd d a b => some (Machine.vslot sl, [(7, 7), (6, guardNat gu), (4, ty.toNat), (3, rnd.toNat), (11, d.toNat), (11, a.toNat), (11, b.toNat), (11, 0)])
  | .vabs sl gu ty rnd d a => some (Machine.vslot sl, [(7, 8), (6, guardNat gu), (4, ty.toNat), (3, rnd.toNat), (11, d.toNat), (11, a.toNat), (11, 0), (11, 0)])
  | .vneg sl gu ty rnd d a => some (Machine.vslot sl, [(7, 9), (6, guardNat gu), (4, ty.toNat), (3, rnd.toNat), (11, d.toNat), (11, a.toNat), (11, 0), (11, 0)])
  | .vadds sl gu ty rnd d a b => some (Machine.vslot sl, [(7, 10), (6, guardNat gu), (4, ty.toNat), (3, rnd.toNat), (11, d.toNat), (11, a.toNat), (11, b.toNat), (11, 0)])
  | .vsubs sl gu ty rnd d a b => some (Machine.vslot sl, [(7, 11), (6, guardNat gu), (4, ty.toNat), (3, rnd.toNat), (11, d.toNat), (11, a.toNat), (11, b.toNat), (11, 0)])
  | .vshl sl gu ty rnd d a n => some (Machine.vslot sl, [(7, 12), (6, guardNat gu), (4, ty.toNat), (3, rnd.toNat), (11, d.toNat), (11, a.toNat), (11, n.toNat), (11, 0)])
  | .vshr sl gu ty rnd d a n => some (Machine.vslot sl, [(7, 13), (6, guardNat gu), (4, ty.toNat), (3, rnd.toNat), (11, d.toNat), (11, a.toNat), (11, n.toNat), (11, 0)])
  | .vsar sl gu ty rnd d a n => some (Machine.vslot sl, [(7, 14), (6, guardNat gu), (4, ty.toNat), (3, rnd.toNat), (11, d.toNat), (11, a.toNat), (11, n.toNat), (11, 0)])
  | .vand sl gu ty rnd d a b => some (Machine.vslot sl, [(7, 15), (6, guardNat gu), (4, ty.toNat), (3, rnd.toNat), (11, d.toNat), (11, a.toNat), (11, b.toNat), (11, 0)])
  | .vor sl gu ty rnd d a b => some (Machine.vslot sl, [(7, 16), (6, guardNat gu), (4, ty.toNat), (3, rnd.toNat), (11, d.toNat), (11, a.toNat), (11, b.toNat), (11, 0)])
  | .vxor sl gu ty rnd d a b => some (Machine.vslot sl, [(7, 17), (6, guardNat gu), (4, ty.toNat), (3, rnd.toNat), (11, d.toNat), (11, a.toNat), (11, b.toNat), (11, 0)])
  | .vnot sl gu ty rnd d a => some (Machine.vslot sl, [(7, 18), (6, guardNat gu), (4, ty.toNat), (3, rnd.toNat), (11, d.toNat), (11, a.toNat), (11, 0), (11, 0)])
  | .vcmp sl gu ty rnd md a b cc => some (Machine.vslot sl, [(7, 19), (6, guardNat gu), (4, ty.toNat), (3, rnd.toNat), (8, 0), (3, md.toNat), (11, a.toNat), (11, b.toNat), (7, 0), (4, cc.toNat)])
  | .vsel sl gu ty rnd d a b m => some (Machine.vslot sl, [(7, 20), (6, guardNat gu), (4, ty.toNat), (3, rnd.toNat), (11, d.toNat), (11, a.toNat), (11, b.toNat), (8, 0), (3, m.toNat)])
  | .vbcastScalar sl gu ty rnd d ga => some (Machine.vslot sl, [(7, 32), (6, guardNat gu), (4, ty.toNat), (3, rnd.toNat), (11, d.toNat), (6, 0), (5, ga.toNat), (11, 0), (1, 0), (10, 0)])
  | .vbcastVector sl gu ty rnd d a lane => some (Machine.vslot sl, [(7, 32), (6, guardNat gu), (4, ty.toNat), (3, rnd.toNat), (11, d.toNat), (11, a.toNat), (11, 0), (1, 1), (5, 0), (5, lane.toNat)])
  | .vext sl gu ty rnd gd a lane => some (Machine.vslot sl, [(7, 33), (6, guardNat gu), (4, ty.toNat), (3, rnd.toNat), (6, 0), (5, gd.toNat), (11, a.toNat), (11, 0), (6, 0), (5, lane.toNat)])
  | .vins sl gu ty rnd d ga lane => some (Machine.vslot sl, [(7, 34), (6, guardNat gu), (4, ty.toNat), (3, rnd.toNat), (11, d.toNat), (6, 0), (5, ga.toNat), (11, 0), (6, 0), (5, lane.toNat)])
  | .vshuf sl gu ty rnd d a b c => some (Machine.vslot sl, [(7, 35), (6, guardNat gu), (4, ty.toNat), (3, rnd.toNat), (11, d.toNat), (11, a.toNat), (11, b.toNat), (11, c.toNat)])
  | .vrot sl gu ty rnd d a n => some (Machine.vslot sl, [(7, 36), (6, guardNat gu), (4, ty.toNat), (3, rnd.toNat), (11, d.toNat), (11, a.toNat), (11, 0), (11, n.toNat)])
  | .vzip sl gu ty rnd d a b h => some (Machine.vslot sl, [(7, 37), (6, guardNat gu), (4, ty.toNat), (3, rnd.toNat), (11, d.toNat), (11, a.toNat), (11, b.toNat), (10, 0), (1, b2n h)])
  | .vunzip sl gu ty rnd d a b h => some (Machine.vslot sl, [(7, 38), (6, guardNat gu), (4, ty.toNat), (3, rnd.toNat), (11, d.toNat), (11, a.toNat), (11, b.toNat), (10, 0), (1, b2n h)])
  | .vpart sl gu ty rnd d a m => some (Machine.vslot sl, [(7, 39), (6, guardNat gu), (4, ty.toNat), (3, rnd.toNat), (11, d.toNat), (11, a.toNat), (11, 0), (8, 0), (3, m.toNat)])
  | .vcnt sl gu ty rnd d a => some (Machine.vslot sl, [(7, 40), (6, guardNat gu), (4, ty.toNat), (3, rnd.toNat), (11, d.toNat), (11, a.toNat), (11, 0), (11, 0)])
  | .vmov sl gu ty rnd d a => some (Machine.vslot sl, [(7, 41), (6, guardNat gu), (4, ty.toNat), (3, rnd.toNat), (11, d.toNat), (11, a.toNat), (11, 0), (11, 0)])
  | .vli sl gu ty rnd d imm => some (Machine.vslot sl, [(7, 42), (6, guardNat gu), (4, ty.toNat), (3, rnd.toNat), (11, d.toNat), (11, 0), (22, imm.toNat)])
  | .vfadd sl gu ty rnd d a b => some (Machine.vslot sl, [(7, 64), (6, guardNat gu), (4, ty.toNat), (3, rnd.toNat), (11, d.toNat), (11, a.toNat), (11, b.toNat), (11, 0)])
  | .vfsub sl gu ty rnd d a b => some (Machine.vslot sl, [(7, 65), (6, guardNat gu), (4, ty.toNat), (3, rnd.toNat), (11, d.toNat), (11, a.toNat), (11, b.toNat), (11, 0)])
  | .vfmul sl gu ty rnd d a b => some (Machine.vslot sl, [(7, 66), (6, guardNat gu), (4, ty.toNat), (3, rnd.toNat), (11, d.toNat), (11, a.toNat), (11, b.toNat), (11, 0)])
  | .vfma sl gu ty rnd d a b c => some (Machine.vslot sl, [(7, 67), (6, guardNat gu), (4, ty.toNat), (3, rnd.toNat), (11, d.toNat), (11, a.toNat), (11, b.toNat), (11, c.toNat)])
  | .vfms sl gu ty rnd d a b c => some (Machine.vslot sl, [(7, 68), (6, guardNat gu), (4, ty.toNat), (3, rnd.toNat), (11, d.toNat), (11, a.toNat), (11, b.toNat), (11, c.toNat)])
  | .vfnma sl gu ty rnd d a b c => some (Machine.vslot sl, [(7, 69), (6, guardNat gu), (4, ty.toNat), (3, rnd.toNat), (11, d.toNat), (11, a.toNat), (11, b.toNat), (11, c.toNat)])
  | .vfmin sl gu ty rnd d a b => some (Machine.vslot sl, [(7, 70), (6, guardNat gu), (4, ty.toNat), (3, rnd.toNat), (11, d.toNat), (11, a.toNat), (11, b.toNat), (11, 0)])
  | .vfmax sl gu ty rnd d a b => some (Machine.vslot sl, [(7, 71), (6, guardNat gu), (4, ty.toNat), (3, rnd.toNat), (11, d.toNat), (11, a.toNat), (11, b.toNat), (11, 0)])
  | .vfabs sl gu ty rnd d a => some (Machine.vslot sl, [(7, 72), (6, guardNat gu), (4, ty.toNat), (3, rnd.toNat), (11, d.toNat), (11, a.toNat), (11, 0), (11, 0)])
  | .vfneg sl gu ty rnd d a => some (Machine.vslot sl, [(7, 73), (6, guardNat gu), (4, ty.toNat), (3, rnd.toNat), (11, d.toNat), (11, a.toNat), (11, 0), (11, 0)])
  | .vfcmp sl gu ty rnd md a b cc => some (Machine.vslot sl, [(7, 74), (6, guardNat gu), (4, ty.toNat), (3, rnd.toNat), (8, 0), (3, md.toNat), (11, a.toNat), (11, b.toNat), (7, 0), (4, cc.toNat)])
  | .vfdiv sl gu ty rnd d a b => some (Machine.vslot sl, [(7, 75), (6, guardNat gu), (4, ty.toNat), (3, rnd.toNat), (11, d.toNat), (11, a.toNat), (11, b.toNat), (11, 0)])
  | .vfsqrt sl gu ty rnd d a => some (Machine.vslot sl, [(7, 76), (6, guardNat gu), (4, ty.toNat), (3, rnd.toNat), (11, d.toNat), (11, a.toNat), (11, 0), (11, 0)])
  | .vfrsq sl gu ty rnd d a => some (Machine.vslot sl, [(7, 77), (6, guardNat gu), (4, ty.toNat), (3, rnd.toNat), (11, d.toNat), (11, a.toNat), (11, 0), (11, 0)])
  | .vfrcp sl gu ty rnd d a => some (Machine.vslot sl, [(7, 78), (6, guardNat gu), (4, ty.toNat), (3, rnd.toNat), (11, d.toNat), (11, a.toNat), (11, 0), (11, 0)])
  | .vfclass sl gu ty rnd d a => some (Machine.vslot sl, [(7, 79), (6, guardNat gu), (4, ty.toNat), (3, rnd.toNat), (11, d.toNat), (11, a.toNat), (11, 0), (11, 0)])
  | .vfscl sl gu ty rnd d a b => some (Machine.vslot sl, [(7, 83), (6, guardNat gu), (4, ty.toNat), (3, rnd.toNat), (11, d.toNat), (11, a.toNat), (11, b.toNat), (11, 0)])
  | .vcvt sl gu ty rnd d a st => some (Machine.vslot sl, [(7, 80), (6, guardNat gu), (4, ty.toNat), (3, rnd.toNat), (11, d.toNat), (11, a.toNat), (11, 0), (7, 0), (4, st.toNat)])
  | .vhsum sl gu ty rnd d a => some (Machine.vslot sl, [(7, 81), (6, guardNat gu), (4, ty.toNat), (3, rnd.toNat), (11, d.toNat), (11, a.toNat), (11, 0), (11, 0)])
  | .vmeanm sl gu ty rnd d a b => some (Machine.vslot sl, [(7, 82), (6, guardNat gu), (4, ty.toNat), (3, rnd.toNat), (11, d.toNat), (11, a.toNat), (11, b.toNat), (11, 0)])
  | .vbini sl gu ty rnd d anchor => some (Machine.vslot sl, [(7, 96), (6, guardNat gu), (4, ty.toNat), (3, rnd.toNat), (11, d.toNat), (11, 0), (11, 0), (3, 0), (8, anchor.toNat)])
  | .vbinaddValue sl gu ty rnd d a b => some (Machine.vslot sl, [(7, 97), (6, guardNat gu), (4, ty.toNat), (3, rnd.toNat), (11, d.toNat), (11, a.toNat), (11, b.toNat), (10, 0), (1, 0)])
  | .vbinaddMerge sl gu ty rnd d a b => some (Machine.vslot sl, [(7, 97), (6, guardNat gu), (4, ty.toNat), (3, rnd.toNat), (11, d.toNat), (11, a.toNat), (11, b.toNat), (10, 0), (1, 1)])
  | .vbincvt sl gu ty rnd d a => some (Machine.vslot sl, [(7, 98), (6, guardNat gu), (4, ty.toNat), (3, rnd.toNat), (11, d.toNat), (11, a.toNat), (11, 0), (11, 0)])
  | .ldv gu d gB off => some (.ld, [(4, 1), (6, guardNat gu), (11, d.toNat), (5, gB.toNat), (18, off.toNat), (20, 0)])
  | .ldvsStrided gu d gB off gs esz => some (.ld, [(4, 2), (6, guardNat gu), (11, d.toNat), (5, gB.toNat), (18, off.toNat), (1, 0), (5, gs.toNat), (2, esz.toNat), (12, 0)])
  | .ldvsGathered gu d gB off vi => some (.ld, [(4, 2), (6, guardNat gu), (11, d.toNat), (5, gB.toNat), (18, off.toNat), (1, 1), (11, vi.toNat), (8, 0)])
  | .ldg gu gd gB off => some (.ld, [(4, 3), (6, guardNat gu), (6, 0), (5, gd.toNat), (5, gB.toNat), (18, off.toNat), (20, 0)])
  | .ldb gu d gB off esz => some (.ld, [(4, 4), (6, guardNat gu), (11, d.toNat), (5, gB.toNat), (18, off.toNat), (6, 0), (2, esz.toNat), (12, 0)])
  | .ldq gu qd gB off => some (.ld, [(4, 5), (6, guardNat gu), (7, 0), (4, qd.toNat), (5, gB.toNat), (18, off.toNat), (20, 0)])
  | .ldm gu md gB off => some (.ld, [(4, 6), (6, guardNat gu), (8, 0), (3, md.toNat), (5, gB.toNat), (18, off.toNat), (20, 0)])
  | .stvOffset gu vs gB off => some (.st, [(4, 1), (6, guardNat gu), (11, vs.toNat), (5, gB.toNat), (1, 0), (18, off.toNat), (3, 0)])
  | .stvScatter gu vs gB vi => some (.st, [(4, 1), (6, guardNat gu), (11, vs.toNat), (5, gB.toNat), (1, 1), (11, vi.toNat), (10, 0)])
  | .stvmOffset gu vs gB off m => some (.st, [(4, 2), (6, guardNat gu), (11, vs.toNat), (5, gB.toNat), (1, 0), (18, off.toNat), (3, m.toNat)])
  | .stvmScatter gu vs gB vi m => some (.st, [(4, 2), (6, guardNat gu), (11, vs.toNat), (5, gB.toNat), (1, 1), (11, vi.toNat), (7, 0), (3, m.toNat)])
  | .stg gu gs gB off => some (.st, [(4, 3), (6, guardNat gu), (6, 0), (5, gs.toNat), (5, gB.toNat), (1, 0), (18, off.toNat), (3, 0)])
  | .stq gu qs gB off => some (.st, [(4, 4), (6, guardNat gu), (7, 0), (4, qs.toNat), (5, gB.toNat), (1, 0), (18, off.toNat), (3, 0)])
  | .resultLanding _ => none
  | .mma gu z maa mab ta tb shape => some (.mx, [(6, 1), (6, guardNat gu), (2, z.toNat), (2, maa.toNat), (2, mab.toNat), (4, ta.toNat), (4, tb.toNat), (2, shape.toNat), (52, 0)])
  | .mmaq gu z maa mab ta tb shape glen gza gzb grp => some (.mx, [(6, 2), (6, guardNat gu), (2, z.toNat), (2, maa.toNat), (2, mab.toNat), (4, ta.toNat), (4, tb.toNat), (2, shape.toNat), (2, glen.toNat), (5, gza.toNat), (5, gzb.toNat), (5, grp.toNat), (35, 0)])
  | .scalc gu z shape gsa gsb grp => some (.mx, [(6, 3), (6, guardNat gu), (2, z.toNat), (12, 0), (2, shape.toNat), (2, 0), (5, gsa.toNat), (5, gsb.toNat), (5, grp.toNat), (35, 0)])
  | .zclr gu z what => some (.mx, [(6, 8), (6, guardNat gu), (2, z.toNat), (2, what.toNat), (64, 0)])
  | .zld gu z gB off => some (.mx, [(6, 9), (6, guardNat gu), (2, z.toNat), (43, 0), (5, gB.toNat), (18, off.toNat)])
  | .zst gu z t rnd gB off => some (.mx, [(6, 10), (6, guardNat gu), (2, z.toNat), (4, 0), (4, t.toNat), (3, rnd.toNat), (32, 0), (5, gB.toNat), (18, off.toNat)])
  | .mxagReg gu ma fld ga => some (.mx, [(6, 16), (6, guardNat gu), (2, ma.toNat), (3, fld.toNat), (1, 0), (5, ga.toNat), (18, 0), (39, 0)])
  | .mxagImm gu ma fld imm => some (.mx, [(6, 16), (6, guardNat gu), (2, ma.toNat), (3, fld.toNat), (1, 1), (5, 0), (18, imm.toNat), (39, 0)])
  | .attld gu first cnt gB off => some (.mx, [(6, 24), (6, guardNat gu), (2, 0), (8, first.toNat), (8, cnt.toNat), (27, 0), (5, gB.toNat), (18, off.toNat)])
  | .rank gu t n k ga gb => some (.mx, [(6, 25), (6, guardNat gu), (6, 0), (4, t.toNat), (10, n.toNat), (10, k.toNat), (1, 0), (5, 0), (5, ga.toNat), (5, gb.toNat), (22, 0)])
  | .rankThreshold gu t n k gt ga gb => some (.mx, [(6, 25), (6, guardNat gu), (6, 0), (4, t.toNat), (10, n.toNat), (10, k.toNat), (1, 1), (5, gt.toNat), (5, ga.toNat), (5, gb.toNat), (22, 0)])
  | .rkacc gu z row t n ga gb => some (.mx, [(6, 26), (6, guardNat gu), (2, z.toNat), (4, row.toNat), (4, t.toNat), (10, n.toNat), (16, 0), (5, ga.toNat), (5, gb.toNat), (22, 0)])
  | .unrank gu t n len ga gb => some (.mx, [(6, 27), (6, guardNat gu), (6, 0), (4, t.toNat), (10, n.toNat), (10, len.toNat), (6, 0), (5, ga.toNat), (5, gb.toNat), (22, 0)])
  | .accumulatorChange _ _ _ => none
  | .zldRowPair _ _ _ _ => none
  | .zstRowPair _ _ _ _ => none
  | .attldEntryLand _ _ _ => none
  | .rankBlockRead _ _ _ => none
  | .rankListWrite _ _ _ => none
  | .rkaccTerm _ _ _ _ => none
  | .unrankLineWrite _ _ _ _ => none
  | .send gu dop dx dy w gS gD gK => some (.cp, [(5, 1), (6, guardNat gu), (3, dop.toNat), (11, dx.toNat), (11, dy.toNat), (1, b2n w), (1, 0), (5, gS.toNat), (5, gD.toNat), (5, gK.toNat), (27, 0)])
  | .sendNb gu dop dx dy w gS gD => some (.cp, [(5, 1), (6, guardNat gu), (3, dop.toNat), (11, dx.toNat), (11, dy.toNat), (1, b2n w), (1, 1), (5, gS.toNat), (5, gD.toNat), (5, 0), (27, 0)])
  | .sendv gu dop dx dy w gD gK vs => some (.cp, [(5, 2), (6, guardNat gu), (3, dop.toNat), (11, dx.toNat), (11, dy.toNat), (1, b2n w), (1, 0), (5, 0), (5, gD.toNat), (5, gK.toNat), (11, vs.toNat), (16, 0)])
  | .sendvNb gu dop dx dy w gD vs => some (.cp, [(5, 2), (6, guardNat gu), (3, dop.toNat), (11, dx.toNat), (11, dy.toNat), (1, b2n w), (1, 1), (5, 0), (5, gD.toNat), (5, 0), (11, vs.toNat), (16, 0)])
  | .cpy gu gS gK => some (.cp, [(5, 4), (6, guardNat gu), (27, 0), (5, gS.toNat), (5, 0), (5, gK.toNat), (27, 0)])
  | .cpg gu gS gD gK gi n5 rlen => some (.cp, [(5, 5), (6, guardNat gu), (27, 0), (5, gS.toNat), (5, gD.toNat), (5, gK.toNat), (5, gi.toNat), (5, n5.toNat), (8, rlen.toNat), (9, 0)])
  | .rksend gu dx dy nb gS gD gK n10 => some (.cp, [(5, 6), (6, guardNat gu), (3, 0), (11, dx.toNat), (11, dy.toNat), (1, 0), (1, b2n nb), (5, gS.toNat), (5, gD.toNat), (5, gK.toNat), (10, n10.toNat), (17, 0)])
  | .dact gu gp => some (.cp, [(5, 8), (6, guardNat gu), (4, gp.toNat), (65, 0)])
  | .drd gu gp gS gK => some (.cp, [(5, 9), (6, guardNat gu), (4, gp.toNat), (23, 0), (5, gS.toNat), (5, 0), (5, gK.toNat), (27, 0)])
  | .dwr gu gp gS => some (.cp, [(5, 10), (6, guardNat gu), (4, gp.toNat), (23, 0), (5, gS.toNat), (37, 0)])
  | .dpre gu gp => some (.cp, [(5, 11), (6, guardNat gu), (4, gp.toNat), (65, 0)])
  | .dprea gu => some (.cp, [(5, 12), (6, guardNat gu), (69, 0)])
  | .dref gu => some (.cp, [(5, 13), (6, guardNat gu), (69, 0)])
  | .drefb gu bank => some (.cp, [(5, 14), (6, guardNat gu), (6, bank.toNat), (63, 0)])
  | .lnkp gu port cls gp gS gn => some (.cp, [(5, 16), (6, guardNat gu), (2, port.toNat), (2, cls.toNat), (4, gp.toNat), (19, 0), (5, gS.toNat), (10, 0), (5, gn.toNat), (22, 0)])
  | .lnkg gu port cls gp gD gK gn => some (.cp, [(5, 17), (6, guardNat gu), (2, port.toNat), (2, cls.toNat), (4, gp.toNat), (24, 0), (5, gD.toNat), (5, gK.toNat), (5, gn.toNat), (22, 0)])
  | .coll gu gS gK => some (.cp, [(5, 18), (6, guardNat gu), (27, 0), (5, gS.toNat), (5, 0), (5, gK.toNat), (27, 0)])
  | .flitHop _ _ => none
  | .depositWrite _ _ => none
  | .copyUnit _ _ => none
  | .cpgLine _ _ _ => none
  | .rksendFlit _ _ => none
  | .drdWindow _ _ => none
  | .dwrRead _ _ => none
  | .refreshTick _ => none
  | .engineSelfRefresh _ _ _ => none
  | .refreshGuard _ => none
  | .lnkpSourceRead _ _ _ => none
  | .lnkgServeRead _ => none
  | .inboundTransferArrival _ _ => none
  | .noModuleReport _ _ _ => none
  | .transferClose _ _ => none
  | .class0CloseTimeout _ _ => none
  | .putAcknowledge _ _ => none
  | .barrierlessLandingWrite _ => none
  | .raceBoundLandingWrite _ => none
  | .collSnapshotRead _ _ _ => none
  | .collStepSend _ _ => none
  | .collChunkReceive _ _ => none
  | .collStepCloseTimeout _ _ => none
  | .collStepAck _ _ _ => none
  | .collStepFail _ _ _ => none
  | .waitcImm imm => some (.sy, [(5, 1), (1, 1), (26, imm.toNat)])
  | .waitcReg gp => some (.sy, [(5, 1), (1, 0), (4, gp.toNat), (22, 0)])
  | .waitbImm gk ph n => some (.sy, [(5, 2), (5, gk.toNat), (1, b2n ph), (1, 1), (20, n.toNat)])
  | .waitbReg gk ph gp => some (.sy, [(5, 2), (5, gk.toNat), (1, b2n ph), (1, 0), (4, gp.toNat), (16, 0)])
  | .bariImm gk n => some (.sy, [(5, 3), (5, gk.toNat), (1, 1), (21, n.toNat)])
  | .bariReg gk gn => some (.sy, [(5, 3), (5, gk.toNat), (1, 0), (5, gn.toNat), (16, 0)])
  | .barx gk => some (.sy, [(5, 4), (5, gk.toNat), (22, 0)])
  | .drainImm n => some (.sy, [(5, 5), (6, 0), (1, 1), (20, n.toNat)])
  | .drainReg gp => some (.sy, [(5, 5), (6, 0), (1, 0), (4, gp.toNat), (16, 0)])
  | .realign qd => some (.sy, [(5, 6), (4, qd.toNat), (23, 0)])
  | .cropen handler budget => some (.sy, [(5, 8), (13, handler.toNat), (8, budget.toNat), (6, 0)])
  | .crclose => some (.sy, [(5, 9), (27, 0)])
  | .crabort => some (.sy, [(5, 10), (27, 0)])
  | .audo ga uid => some (.sy, [(5, 12), (5, ga.toNat), (16, uid.toNat), (6, 0)])
  | .audc uid => some (.sy, [(5, 13), (5, 0), (16, uid.toNat), (6, 0)])
  | .trap code => some (.sy, [(5, 16), (11, 0), (16, code.toNat)])
  | .bkpt code => some (.sy, [(5, 17), (11, 0), (16, code.toNat)])
  | .halt => some (.sy, [(5, 18), (27, 0)])
  | .evt code => some (.sy, [(5, 19), (11, 0), (16, code.toNat)])
  | .tmark code => some (.sy, [(5, 20), (11, 0), (16, code.toNat)])
  | .dscrd ga gn => some (.sy, [(5, 21), (5, ga.toNat), (5, gn.toNat), (17, 0)])
  | .landingSlotCheck _ _ => none
  | .drainCheck _ _ => none
  | .landingWindow _ _ => none
  | .heldRecordWriteback _ _ => none
  | .holdRelease _ => none
  | .freezeTimeout _ _ => none
  | .freezePulse _ _ => none
  | .cadenceChange _ => none
  | .governorEvaluation _ => none
  | .estimatorUpdate _ => none
  | .stitchAlignmentCheck _ => none
  | .scrub => none
  | .evtDrain _ => none
  | .traceDrain _ => none
  | .traceSample _ => none
  | .replayLogDrain _ => none
  | .stopCycle _ => none
  | .unwind _ => none
  | .cycleArmedStop _ => none
  | .resumption _ => none
  | .preemptArm _ _ _ => none
  | .contextSave _ => none
  | .bandRelease _ => none
  | .contextRestore _ _ => none
  | .contextResume _ => none
  | .auditCopy _ => none
  | .auditReplayBundle _ => none
  | .auditCompare _ => none
  | .kick _ => none
  | .kickService _ => none
  | .placementPass => none
  | .quantumExpiry _ => none
  | .launchStart _ => none
  | .launchCompletion _ => none
  | .completionRecordWrite => none
  | .launchCancel _ => none
  | .hubStopRequest _ _ _ _ => none
  | .coreTakeover => none
  | .attestationReport _ _ => none
  | .bringUp _ => none
  | .budgetWrite _ => none
  | .moduleIdWrite _ => none
  | .bandFaultWrite _ => none
  | .bandRetrainEnd _ _ => none
  | .queueEnergyRead _ => none
  | .debugUnwind _ => none
  | .debugFail _ => none
  | .debugResume _ => none
  | .errorInjection _ => none
  | .registerWrite _ _ _ => none
  | .freezeBegin _ => none
  | .hubHold _ _ _ => none
  | .drdBurstHeld _ _ _ => none
  | .unassignedOpcode sl op => some (sl, [(Machine.slotOpWidth sl, op.toNat), (Machine.slotWidth sl - Machine.slotOpWidth sl, 0)])

/-- The word of a slot instruction, with the slot it stands in (R94 to R106). -/
def encode (i : Instr) : Option (Slot × Nat) :=
  match encodeFields i with
  | some (sl, fs) => some (sl, packF fs)
  | none => none

/-- The slot whose words have a given length; where two slots share a length, the one whose
opcodes the word has. -/
def tableSlots (nbits : Nat) : List Slot :=
  if nbits = 32 then [.sy] else if nbits = 48 then [.s, .st] else if nbits = 64 then [.va, .ld]
  else if nbits = 80 then [.mx, .cp] else []

/-- The first slot of a list in which a word decodes to an instruction with a meaning of its own. -/
def firstDecode (ss : List Slot) (w : Nat) : Option (Slot × Instr) :=
  match ss with
  | [] => none
  | sl :: r =>
    match decodeSlot sl w with
    | .ok (.unassignedOpcode _ _) => firstDecode r w
    | .ok i => some (sl, i)
    | .error _ => firstDecode r w

/-- The instruction this decoder reads from a slot word of `nbits` bits. The opcode table numbers
bit 0 as the least significant bit of the slot word, which is stored most significant bit first
(R91), so the slot word is the number itself. -/
def decodeTableWord (nbits w : Nat) : Option Instr := (firstDecode (tableSlots nbits) w).map Prod.snd

end Sys2Proof
end

