-- ==== Sys2Proof/Config.lean ====
section
/-! DEFINITION. What the spec leaves open, as constants without a body: no proof can see their
values, so whatever is proved holds for all of them. -/

namespace Sys2Proof

/-- The arrived count of a record that a program stored to while it was armed, as the n-th value
drawn (R37: undefined for that launch). Log entry 7. -/
opaque Config.freeCount : Nat → Word

/-- A byte that a remote LNKG reads while the serving launch writes it, as the n-th value drawn
(R218: undefined). Log entry 7. -/
opaque Config.servedByte : Nat → Byte

/-- A byte that two transfers of one landing window both write, as the n-th value drawn (R315: undefined). Log
entry 7. -/
opaque Config.racedByte : Nat → Byte

/-- The controller die's own power in watts, which POWER includes and the spec gives no value for (R410).
Log entry 10. -/
opaque Config.diePower : Nat

/-- The DRAM row at which the hub would place the trace buffer of an ASID's launches (R393: placed by the hub). Log
entry 44. -/
opaque Config.traceRow : Nat → Nat

/-- The DRAM row at which it would stage the log entries of an ASID's launches (R393, R404: placed by the hub). Log
entry 44. -/
opaque Config.stageRow : Nat → Nat

/-- The DRAM row at which it would reserve the save areas of an ASID's contexts (R360: reserved by the hub). Log entry 44. -/
opaque Config.saveRow : Nat → Nat

/-- Whether a firmware image, as a number, bears a signature that verifies (R390, R406: neither where it lies nor its
key is given). Log entry 80. -/
opaque Config.firmwareSigned : Nat → Bool

/-- Edges beyond one that the n-th loopback of a port takes (R306: variable latency). Log entry 82. -/
opaque Config.loopEdges : Nat → Nat

/-- The randomness of the n-th signature that the hub makes (R390: FIPS 205 leaves it to the signer). Log entry 9. -/
opaque Config.signRandom : Nat → BitVec 256

end Sys2Proof
end

