-- ==== Sys2Proof/Machine/State.lean ====
section
/-! DEFINITION. The state of one module as plain data: tiles, partitions, ports, DRAM, hub; the
reasons a step can stop; and the state after power-on reset. -/

namespace Sys2Proof.Machine

/-- Why the machine stops with a fault. -/
inductive Fault where
  /-- Raised by the meaning of a slot instruction when `State.cur` names no tile of a resident
  partition and no pool tile: there is no machine to issue it. Safe: the model stops. -/
  | noTile
  deriving DecidableEq, Repr

/-- Why a step is refused. -/
inductive Refusal where
  /-- An instruction that has no meaning in the model. Safe: the model stops. -/
  | notModelled (mnemonic : String)
  deriving DecidableEq, Repr

/-- An open hardware-loop level (R123). -/
structure Level where
  start : BitVec 13
  end_ : BitVec 13
  d : Nat
  rp : Bool
  rv : Bool
  window : Nat
  buffered : Bool := false            -- its body runs from the body buffer (R128)
  deriving DecidableEq, Repr

/-- Hardware-loop state (R123, R127): the open levels, outermost first, the loop counters, the
stage predicates, the rotating base and the window (0: no renaming). -/
structure LoopSt where
  levels : List Level := []
  lc : SMap Word := []
  sp : BitVec 8 := 0
  rb : Nat := 0
  window : Nat := 0
  deriving DecidableEq, Repr

/-- An entry of the containment-region stack (R239, R358). -/
structure Region where
  handler : BitVec 13
  retries : Nat
  reentry : BitVec 13
  g : SMap Word
  q : SMap Bool
  loop : LoopSt
  serial : Nat
  deriving DecidableEq, Repr

/-- Where a result in flight lands (R257). -/
inductive Dest where
  | g (n : Nat) (x : Word)
  | q (n : Nat) (x : Bool)
  | m (n : Nat) (x : BitVec 16)
  | v (n : Nat) (x : Line)
  | sreg (idx : Nat) (x : Word)       -- WRS (R27)
  | ma (k : Nat) (x : BitVec 18)      -- a generator's field (R174)
  | flags                             -- flags alone
  deriving DecidableEq, Repr

/-- A result in flight, which is also its scoreboard record and, at a cycle-armed stop, its
shadow-buffer entry (R257 to R266). -/
structure Landing where
  issued : Nat                        -- cycle of issue: its own bundle reads the old value (R257)
  due : Nat
  slot : Nat
  seq : Nat
  dest : Dest
  flags : Flags
  deriving DecidableEq, Repr

/-- A taken control transfer whose target has not issued (R119). -/
structure Xfer where
  target : BitVec 13
  delay : Nat                         -- delay bundles still to issue; 0: the target is next
  from_ : BitVec 13                   -- header address of the transfer's bundle
  closes : Bool                       -- BR, BRQ or JMPG: R125 applies
  link : Option (BitVec 13) := none   -- a CALL's: the return address that g31 takes at t + 1 (R120)
  deriving DecidableEq, Repr

/-- What a LOOP or LOOPI does at the end of its bundle (R123). -/
structure LoopOpen where
  lev : Level
  trips : Word
  n : Nat                             -- N, for sp0
  deriving DecidableEq, Repr

/-- A local bank access of the bundle under issue. -/
structure LocalAcc where
  slot : Nat
  line : Nat
  deriving DecidableEq, Repr

/-- What stopped a bundle that debug resume issues again (R397). -/
inductive BreakBy where
  | slotBreak (index : Nat)
  | bkpt
  | watch (num : Nat)
  deriving DecidableEq, Repr

/-- The bundle under issue: what is left to execute and what takes effect when it ends. -/
structure Issue where
  pc : BitVec 13
  mask : Nat
  le : Bool
  slots : List (Slot × Nat)
  next : BitVec 13                    -- header address of the word after the bundle
  inDelay : Bool                      -- a delay bundle of a taken transfer
  sTransfer : Bool                    -- its S slot holds a control transfer (R228)
  muted : Option BreakBy := none      -- what a re-issue after debug hold ignores (R397)
  broke : Option Nat := none          -- the slot breakpoint it has taken (R394)
  loopOpen : Option LoopOpen := none
  xfer : Option Xfer := none
  waitc : Option Nat := none
  halt : Bool := false
  push : Option (BitVec 13 × Nat) := none
  pop : Bool := false
  loc : List LocalAcc := []
  was : List (Nat × Byte) := []       -- bytes of the lines that its store writes, as they were (R165)
  ranCp : Bool := false               -- something in it leaves an audit unit open (R242)
  nextFold : Option Nat := none       -- empty bundles of the fold left after this one
  deriving DecidableEq, Repr

/-- The sequencer (R30, R119, R227, R245). -/
structure Seq where
  pc : BitVec 13 := 0
  fold : Option Nat := none           -- empty bundles of the fold at pc still to issue
  hold : Nat := 0                     -- WAITC: no issue before this cycle
  halted : Bool := false
  stopped : Bool := false             -- raised an event (R344)
  xfer : Option Xfer := none
  issue : Option Issue := none
  lastPc : BitVec 13 := 0             -- last bundle issued (R344)
  lastCyc : Option Nat := none
  resumeDone : Option (BitVec 8) := none   -- slots to suppress at the re-issue (R397)
  kept : Option Issue := none         -- the bundle of a precise stop, with what its slots left for its end (R264)
  deriving DecidableEq, Repr

/-- An element type pair's operand blocks, scales or list of an MX instruction, by kind
(R175 to R188). Addresses are byte addresses. -/
inductive MxKind where
  | clr (z what : Nat)
  | zld (z ea : Nat)
  | zst (z ea t : Nat) (mode : Rnd) (draws : List Nat)
  | mma (z ta tb shape a b : Nat)
  | mmaq (z ta tb shape a b za : Nat) (zbAddr g : Nat)
  | scalc (z shape sa : Nat) (sbAddr : Nat)
  | attld (first cnt ea : Nat)
  | rank (t n k ga gb : Nat) (th : Option Nat)
  | rkacc (z row t n ga gb : Nat)
  | unrank (t n len ga gb : Nat)
  deriving DecidableEq, Repr

/-- An MX instruction under way (R178 to R188): its number in issue order, issue cycle, header
address, what it is, the lines it has read, and whether poison or a bad address ended it (R183). -/
structure MxOp where
  id : Nat
  t : Nat
  pc : BitVec 13
  kind : MxKind
  buf : SMap Nat := []
  dead : Option Nat := none           -- first step that no longer performs
  deriving DecidableEq, Repr

/-- What the copy engine runs (R204 to R207). -/
inductive CopyKind where
  | cpy (dop : Nat) (w : Bool) (dx dy : Int) (src dst : Nat) (levels : List (Nat × Int × Int)) (bar : Option Nat)
  | cpg (gd : Nat) (srcs : List Nat) (lr : Nat) (bar : Option Nat)
  | rksend (dx dy : Int) (src dst n : Nat) (bar : Option Nat)
  deriving DecidableEq, Repr

/-- A copy-engine operation under way (R195). -/
structure CopyOp where
  id : Nat
  t : Nat
  pc : BitVec 13
  kind : CopyKind
  units : Nat
  buf : SMap (Line × Nat) := []       -- CPG lines read, with their poison bits
  ended : Option Nat := none          -- first unit that does not issue
  deriving DecidableEq, Repr

/-- A DRAM burst of a DRD or DWR under way (R210). -/
structure Burst where
  id : Nat
  t : Nat
  pc : BitVec 13
  read : Bool
  sram : Nat
  bar : Option Nat
  phys : Option Nat                   -- flat DRAM address; none for a refused DRD (R213)
  data : List Byte
  bad : List Nat                      -- granules of the burst that are poisoned
  held : Bool                         -- the engine holds the data
  frz : Nat := 0                      -- freeze cycles its hold had counted at a pre-emption (R385)
  deriving DecidableEq, Repr

/-- A put under way or unacknowledged (R218). -/
structure Put where
  id : Nat
  t : Nat
  pc : BitVec 13
  port : Nat
  cls : Nat
  pa : Nat
  src : Nat
  n : Nat
  data : SMap (Line × Nat)            -- lines read so far
  acked : Bool
  covered : Bool                      -- DRAIN covers it (R351)
  deriving DecidableEq, Repr

/-- A pending slot of the barrier unit (R231 to R237). -/
structure PSlot where
  id : Nat
  t : Nat
  pc : BitVec 13
  bar : Option Nat                    -- none: DRAIN
  ph : Bool
  due : Nat
  opened : Bool
  window : Bool                       -- its window is running
  covers : List Nat                   -- DRAIN: puts and collectives issued before it
  hold : Option Nat                   -- freeze cycles its hold has been active for
  need : Nat := 0                     -- bytes that its check found wanting, held transfers and DRD windows counted (R235)
  came : Nat := 0                     -- bytes that have come since from DRD windows of its tile and, in race-bound mode, from transfers (R235, R316)
  reached : Bool := false             -- its record has reached phase ph since it opened (R300)
  deriving DecidableEq, Repr

/-- A barrier, audit or record access that an SY instruction makes at t + 1 (R225). -/
inductive NextAcc where
  | bari (addr : Nat) (n : Word)
  | barx (addr : Nat)
  | waitb (addr : Nat) (slot : Nat)
  | audo (addr : Nat) (uid : Nat)
  deriving DecidableEq, Repr

/-- An audit unit that is open or sampled (R241 to R243, R356, R357). -/
structure Unit_ where
  uid : Nat
  ordinal : Nat
  openPc : BitVec 13
  openCyc : Nat
  readAt : Bool                       -- its record has been read
  malformed : Bool
  codeFirst : Nat := 0
  codeLast : Nat := 0
  ins : List (Nat × Nat) := []
  outs : List (Nat × Nat) := []
  closed : Bool := true               -- no condition of R242 broken so far
  serial : Option Nat := none         -- innermost region at the AUDO (R358)
  selected : Bool := false            -- its ordinal is one that R356 selects
  sampled : Bool := false             -- selected, and an audit engine holds it
  early : List (Nat × Bool) := []     -- lines accessed in the AUDO's own cycle, and whether written
  deriving DecidableEq, Repr

/-- A queued EVT record (R244, R343). -/
structure EvtRec where
  code : Nat
  pc : BitVec 13
  gcyc : Nat
  wall : Nat
  deriving DecidableEq, Repr

/-- A trace record of a tile (R399, R400): its type, cycle and payload bytes. -/
structure TraceRec where
  ty : Nat
  gcyc : Nat
  payload : List (Nat × Nat × Nat)    -- offset, bytes, value
  deriving DecidableEq, Repr

/-- An engine access that claimed or tried a bank this cycle (R167, R168). -/
structure BankAcc where
  bank : Nat
  line : Nat
  rank : Nat                          -- 0 barrier, 1 staging, 2 matrix, 3 rank unit, 4.. deposits, 9 reads
  bits : Nat                          -- bits it sets in EVC.detail
  won : Bool
  bin : Bool                          -- a BIN deposit, which merges with others on its record (R203)
  old : Line := 0                     -- the line as the access found it (R165)
  deriving DecidableEq, Repr

/-- A watchpoint (R393, R398). -/
structure Watch where
  base : Nat
  lines : Nat
  mask : Nat
  deriving DecidableEq, Repr

/-- Half of a BIN deposit of 16 bytes that waits in the deposit unit (R202). -/
structure DepWait where
  pair : Nat
  due : Nat
  payload : Nat
  poison : Bool
  deriving DecidableEq, Repr

/-- One tile (chapter Tile Architectural State). A map lists only entries that differ from the
launch value 0. -/
structure Tile where
  -- register files (R11)
  g : SMap Word := []
  q : SMap Bool := []
  v : SMap Line := []
  m : SMap (BitVec 16) := []
  z : SMap Word := []                 -- 256 · z + 16 · row + col
  zp : SMap Word := []
  kc : SMap Nat := []                 -- K counts (R176)
  ma : SMap (BitVec 18) := []         -- 8 · ma + field; field 0 base, 1 to 6 strides
  at_ : SMap (BitVec 16) := []
  lfsr : SMap Word := []              -- 0 to 3: lf; 16 to 31: mf
  loop : LoopSt := {}
  -- special registers (R25, R26)
  stage : BitVec 8 := 0
  flg : Flags := 0
  fpm : BitVec 3 := 0
  sbCount : Nat := 0
  dramCount : Nat := 0
  raceBound : Bool := false
  dramMode : Bool := false
  sbMode : Bool := false
  evc : Word := 0
  epc : BitVec 16 := 0
  done : BitVec 8 := 0xFF
  ltc : SMap DWord := []
  snap : Word := 0
  skew : Int := 0                     -- the tile's copy of GCYC less the partition's (R290)
  -- hidden state (R30)
  regions : List Region := []         -- innermost first
  serial : Nat := 0                   -- CROPENs since launch start (R358)
  seq : Seq := {}
  flight : List Landing := []
  mx : List MxOp := []
  rankBusy : Nat := 0
  termBusy : Nat := 0
  copies : List CopyOp := []
  copyBusy : Nat := 0
  bursts : List Burst := []
  puts : List Put := []
  pslots : List PSlot := []
  held : SMap Line := []              -- barrier unit: held copies by address (R233)
  heldAt : SMap Line := []            -- those copies as the last cycle left them, which readers see (R233)
  nextAcc : List (Nat × BitVec 13 × NextAcc) := []   -- cycle, bundle, access
  depWait : List DepWait := []
  unit : Option Unit_ := none
  units : Nat := 0                    -- closed audit units so far (R356)
  evts : List EvtRec := []
  evtDropped : Nat := 0
  traces : List TraceRec := []
  traceDropped : Nat := 0
  discard : List Nat := []            -- discard bits that are set, by SRAM line (R246)
  watches : SMap Watch := []
  evRec : Bool := false               -- first event recorded (R341)
  replays : Option Nat := none        -- on a pool tile: the tile whose unit it replays (R357)
  raisedAt : Option Nat := none
  -- memories
  imem : SMap Word := []
  sram : SMap Byte := []
  poison : List Nat := []             -- poisoned granules, by address / 8
  uncorr : List Nat := []             -- granules with an uncorrectable error not yet found
  corr : List Nat := []               -- granules with a correctable error
  regErr : List Nat := []             -- registers in error, by code (R354)
  zErr : List Nat := []
  imemErr : List Nat := []
  recs : List Nat := []               -- addresses that barrier instructions and updates have named
  tainted : List Nat := []            -- armed records that a store changed (R37)
  served : List (Nat × Nat) := []     -- ranges that outstanding remote reads cover (R218): first line, end
  servedDirty : List Nat := []        -- lines written while such a read was outstanding
  audWatch : List Nat := []           -- lines that an audit engine has still to read (R357)
  audDirty : List Nat := []           -- those of them written meanwhile
  found : List Nat := []              -- granules whose error a read found in this cycle (R169, R402)
  corrected : List Nat := []          -- granules that a read corrected in this cycle (R169)
  -- bank use of the present cycle (R159)
  accs : List BankAcc := []
  counts : SMap Nat := []             -- bytes landing on records this cycle (R36)
  dropBars : List Nat := []           -- records whose update is dropped this cycle (R167)
  barWrote : List Nat := []           -- records that a BARI or BARX wrote this cycle (R229)
  dropNext : List Nat := []           -- lines whose access by an SY instruction is dropped this cycle (R167, R225)
  deriving DecidableEq, Repr

/-- A DRAM range entry (R322). -/
structure DRange where
  base : Nat
  limit : Nat
  offset : Nat
  deriving DecidableEq, Repr

/-- A link range entry (R323). -/
structure LRange where
  base : Nat
  limit : Nat
  offset : Nat
  bar : Nat
  deriving DecidableEq, Repr

/-- A page entry (R323, R375): virtual address, log2 of the size, physical address. -/
structure Page where
  va : Nat
  bits : Nat
  pa : Nat
  deriving DecidableEq, Repr

/-- An image-map entry with its contents (R86, R375). -/
structure Image where
  tx0 : Nat
  tx1 : Nat
  txs : Nat
  ty0 : Nat
  ty1 : Nat
  tys : Nat
  stage : Nat
  imem : SMap Word
  sram : SMap Byte
  sramLen : Nat := 0                  -- bytes of the SRAM part, zeros among them
  discard : List Nat
  deriving DecidableEq, Repr

/-- A launch record (R374). -/
structure LaunchRec where
  asid : Nat := 0
  first : Nat := 0
  count : Nat := 1
  prio : Nat := 0
  replay : Bool := false
  raceBound : Bool := false
  after : List Nat := []
  replayRun : Bool := false
  auditPolicy : Nat := 0
  cap : Nat := 720
  stretch : Nat := 60
  auditOn : Bool := false
  auditK : Nat := 0
  freezeLimit : Nat := 4294967295
  seed : Word := 0
  dram : List DRange := []
  links : List LRange := []
  pages : List Page := []
  images : List Image := []
  token : Nat := 0
  replayLog : Nat := 0
  replayLen : Nat := 0
  digest : Nat := 0                   -- digest of the image map and images (R390)
  deriving DecidableEq, Repr

/-- A flit in the mesh (R196, R200). -/
structure Flit where
  src : Nat                           -- source tile, 1024·TY + TX
  dx : Int
  dy : Int
  inj : Nat                           -- injection cycle
  hop : Nat                           -- hops made
  engine : Bool                       -- injected by the copy engine
  second : Bool                       -- second flit of a CP send
  dop : Nat
  wide : Bool
  part : Bool
  pair : Nat                          -- the send it belongs to
  addr : Nat
  bar : Option Nat
  payload : Nat
  poison : Bool
  deriving DecidableEq, Repr

/-- A bank of a staging engine (R211, R212). -/
structure Bank where
  row : Option Nat := none
  act : Option Nat := none            -- cycle of the last DACT
  pre : Option Nat := none            -- cycle of the last DPRE or DPREA
  wr : Option Nat := none             -- cycle of the last DWR
  ref : Option Nat := none            -- cycle of the last DREFB
  refs : Int := 0                     -- refreshes since GCYC 0; owed = ticks − refs
  busy : Option (Nat × Option Nat) := none    -- self refresh: ends, row to re-activate (R213)
  openEdge : Nat := 0                 -- clock edge at which the row was opened (R319, R320)
  preFrom : Nat := 0                  -- first edges at which the guard may precharge, refresh, re-activate (R319)
  refFrom : Nat := 0
  actFrom : Nat := 0
  deriving DecidableEq, Repr

/-- A staging engine (R208 to R213). -/
structure Engine where
  banks : SMap Bank := []
  acts : List (Nat × Nat) := []       -- last DACTs: cycle, bank
  cols : List (Nat × Nat × Bool) := []    -- last column commands: cycle, bank, write
  refAll : Option Nat := none         -- cycle of the last DREF
  rowCyc : Option Nat := none         -- last cycle with a row command
  colCyc : Option Nat := none
  refs : Int := 0                     -- all-bank refreshes since GCYC 0
  guard : Nat := 0                    -- edge at which the guard's restore, or the resume preamble, ends (R319, R321)
  allFrom : Nat := 0                  -- first edge at which the guard may act at all (R319)
  actEdges : List (Nat × Nat) := []   -- last DACTs of the schedule or the guard: clock edge, bank (R319)
  self : List (Nat × Nat) := []       -- banks whose missed deadline the engine makes up: bank, earliest cycle
  deriving DecidableEq, Repr

/-- Who raised a hold on the freeze network (R286). -/
inductive HoldBy where
  | slot (tile id : Nat)              -- WAITB or DRAIN
  | drd (tile id : Nat)
  | governor
  | hub
  | replay                            -- a freeze of the log that a replay launch follows (R403)
  deriving DecidableEq, Repr

/-- A hold on the freeze network. -/
structure Hold where
  by_ : HoldBy
  start : Nat
  count : Nat := 0                    -- freeze cycles while active (R288)
  released : Option Nat := none       -- edge of release
  blocks : Nat := 0                   -- governor pulse: its 64-edge blocks; replay: its freeze cycles
  pc : BitVec 13 := 0
  deriving DecidableEq, Repr

/-- A stop of the partition that has been called (R345, R359). -/
structure Stop where
  at_ : Nat                           -- cycle s
  event : Bool
  c1 : Nat := 0
  abort : Bool := false               -- CRABORT, or a stop that the audit policy calls
  raised : Bool := false              -- an event called it, which is the primary one (R345)
  tile : Nat := 0                     -- primary event's tile
  evc : Word := 0
  epc : BitVec 16 := 0
  done : BitVec 8 := 0xFF
  ring : Nat := 0                     -- its record's number on the event ring
  why : Option StopWhy := none        -- of a cycle-armed stop
  frozen : Bool := false              -- a pre-emption asked for in a freeze (R385)
  req : List (Nat × StopWhy) := []    -- cycle-armed stops still to be armed when this one is over (R385, R395)
  deriving DecidableEq, Repr

/-- What a partition is doing. -/
inductive PMode where
  | running
  | frozen (since : Nat)              -- edge at which the freeze began
  | skid                              -- the 64 cycles after an event stop (R348)
  | debugHeld                         -- R396
  | armedStop                         -- stopped at a cycle-armed stop
  | failed
  deriving DecidableEq, Repr

/-- An event found by an engine, router or barrier unit in the present cycle (R344). -/
structure Found where
  tile : Nat
  cause : Nat
  detail : Nat
  epc : Option (BitVec 13 × Nat)      -- the causing instruction, if one is named
  hub : Bool := false                 -- the hub raises it (R345)
  deriving DecidableEq, Repr

/-- A replay-log entry (R404). -/
structure LogEntry where
  ty : Nat
  tile : Nat
  gcyc : Nat
  payload : List (Nat × Nat × Nat)
  deriving DecidableEq, Repr

/-- A sampled audit unit pending in an audit engine (R357). -/
structure Sample where
  tile : Nat
  unit : Unit_
  snap : Tile                         -- registers and LFSRs at the AUDO, and the lines copied so far
  poolIdx : Nat                       -- the pool tile it goes to
  todoLines : List Nat := []          -- input lines still to copy, and code lines from 2^18 up
  copied : Bool := false
  closedAt : Option (Nat × BitVec 13) := none
  outLines : List Nat := []           -- output lines still to read
  outData : SMap Byte := []
  sig : Option Nat := none
  replaySig : Option Nat := none
  overtaken : Bool := false
  loaded : Bool := false              -- the pool tile replays it
  deriving DecidableEq, Repr

/-- What the hub records of two signatures that differ (R358). -/
structure Mismatch where
  asid : Nat
  uid : Nat
  gcyc : Nat                          -- of the AUDC
  sig : Nat
  replaySig : Nat
  col : Nat                           -- physical column and row of the tile, and of the pool tile
  row : Nat
  poolCol : Nat
  poolRow : Nat
  deriving DecidableEq, Repr

/-- Blocks of a class 0 transfer that were dropped while its context was not resident (R221, R362). -/
structure Missed where
  src : Nat
  xid : Nat
  tile : Nat
  addr : Nat
  bar : Option Nat
  n : Nat
  port : Nat                          -- the port at which it came (R310)
  issued : Nat                        -- edge of WALL at which the sender issued it (R220)
  blocks : List Nat
  acked : Bool := false               -- it has been acknowledged (R312)
  deriving DecidableEq, Repr

/-- A partition: a resident launch on its band (R280). -/
structure Part where
  first : Nat := 0
  count : Nat := 1
  rec_ : LaunchRec := {}
  queue : Nat := 0
  gcyc : Nat := 0
  mode : PMode := .running
  tiles : SMap Tile := []
  flits : SMap Flit := []
  linkUse : List (Nat × Nat) := []    -- links used this cycle: tile, direction
  engines : SMap Engine := []
  ticks : Nat := 0
  startEdge : Nat := 0                -- edge of GCYC 0
  k : Nat := 60
  kNext : List (Nat × Nat) := []      -- new cadences and the edges of the blocks they apply from (R284)
  holds : List Hold := []
  stop : Option Stop := none
  found : List Found := []
  misses : List Nat := []             -- tiles that count a missed refresh in the present cycle (R27, R213)
  foundLater : List (Nat × Found) := []   -- events found in a comparison of REALIGN, and the cycle at which they are raised (R238)
  audit : List Nat := [0, 0, 0, 0, 0, 0]      -- sampled, matched, mismatched, skipped, not serviced, overtaken
  samples : List Sample := []
  pool : SMap Tile := []              -- pool tiles under replay
  lastPerf : Nat := 0                 -- last cycle in which anything performed (R378)
  lastEvent : Option Stop := none     -- last event stop (R378)
  activity : SMap Nat := []           -- counts of the present µs (R387): 0-7 slots, 8 banks, 9 links, 10 commands, 11 port bytes
  resid : Nat := 0
  energy : Nat := 0
  power : Nat := 0
  frozenCyc : Nat := 0                -- freeze cycles of the freeze in force (R288)
  log : List LogEntry := []
  logDone : Nat := 0                  -- entries drained
  logOpen : Bool := false             -- the launch records (R402)
  logFull : Bool := false             -- its host buffer is full, and takes no more entries (R404)
  diverged : Bool := false
  replay : List LogEntry := []        -- entries still to replay (R403)
  acted : List LogEntry := []         -- the hub acts of the log that were made last (R403)
  frozenActs : List LogEntry := []    -- hub acts of the log that come at the end of the freeze of the present cycle (R403)
  divergeAt : Option (Nat × Option Nat) := none   -- a replay: address after its log, and its last entry's GCYC where it is incomplete (R404)
  missed : List Missed := []          -- the missed-landing mask (R362)
  quantum : Nat := 0                  -- edge of the last start or resumption (R383)
  expired : Bool := false             -- its quantum has expired
  sampleAt : Nat := 0                 -- edge of the next trace sample
  breaks : Bool := false              -- instruction breakpoints enabled
  slotBreaks : List (Nat × Option Nat × Nat × Nat) := []   -- index, tile, bundle, slot mask
  debugHold : Bool := false
  traceOn : Bool := false
  traceMask : Nat := 0
  traceSize : Nat := 0
  tracePeriod : Option Nat := none
  traceW : Nat := 0
  traceOld : Nat := 0
  traceLens : List Nat := []          -- bytes of each record that the buffer holds, oldest first
  traceRow : Option Nat := none       -- first DRAM row of the trace buffer (R393)
  stageRow : Option Nat := none       -- first DRAM row of the area in which the log is staged (R393)
  inject : Option (Nat × Nat × Nat) := none     -- tile, granule, cycle
  audPolicyFail : Bool := false       -- a mismatch counts against the audit policy (R358, R374)
  failStatus : Nat := 0               -- status of a launch that has failed and is still on its band (R379)
  stitched : Nat := 0                 -- multiples of 65,536 already compared (R291)
  deriving DecidableEq, Repr

/-- Bytes still to be written to one 16-byte line: its address, and its bytes, none where the line
keeps its own. -/
structure LandLine where
  addr : Nat
  bytes : List (Option Byte)
  deriving DecidableEq, Repr

/-- A transfer held in a landing buffer (R220, R310). -/
structure LandEntry where
  id : Nat
  band : Nat
  tile : Nat
  addr : Nat
  n : Nat
  cls : Nat
  bar : Option Nat
  src : Nat
  xid : Nat
  get : Option Nat                    -- the LNKG it answers
  pc : BitVec 13 := 0                 -- header address of that LNKG
  coll : Option Nat                   -- the COLL whose result it is
  blocks : SMap (List Byte)
  lost : List Nat                     -- class 0 blocks recorded as lost
  edge0 : Nat                         -- edge of issue or of first arrival
  closed : Bool
  lines : List LandLine               -- lines still to write, ascending
  flags : Flags
  first : Bool                        -- no line written yet
  win : Option Nat := none            -- the slot whose window writes it
  deriving DecidableEq, Repr

/-- A COLL record's fields (R222). -/
structure CollRec where
  op : Nat
  port : Nat
  cls : Nat
  retries : Nat
  members : Nat
  rank : Nat
  nblk : Nat
  ringBase : Nat
  ringStep : Nat
  base : Nat
  wrap : Nat
  off0 : Nat
  maskBase : Nat
  levels : List (Int × Nat × Int)     -- coefficient, bound, stride
  deriving DecidableEq, Repr

/-- A step that a sequencer sent, with the source it retains until it is acknowledged (R223). -/
structure SentStep where
  step : Nat
  used : Nat                          -- retries used
  data : List Byte
  words : List Word
  deriving DecidableEq, Repr

/-- A collective pending at a port (R222, R223). -/
structure Coll where
  id : Nat
  ordinal : Nat
  band : Nat
  tile : Nat
  t : Nat
  pc : BitVec 13
  rec_ : CollRec
  bar : Option Nat
  snap : SMap Byte                    -- snapshot of the region, by offset
  snapDone : Nat                      -- lines read
  buf : SMap Byte
  words : SMap Word                   -- contributor words, by block offset / 512
  got : List Nat                      -- offsets whose chunk has been received
  total : Nat                         -- steps of its walk
  sent : Nat                          -- steps emitted
  unacked : List SentStep             -- steps sent and not acknowledged
  seen : List Nat                     -- steps received and combined
  partial_ : List ChunkIn             -- chunks that have arrived in part, or wait for their turn
  shut : List ChunkIn := []           -- class 0 steps that have closed and wait for the snapshot, in order (R369)
  full : Bool := false                -- a step waits for room in the landing buffer (R310)
  unnamed : List Nat := []            -- class 0 steps that closed with nothing come, whose sender the record does not name (R369)
  flags : Flags
  waitEdge : Option Nat               -- edge at which the wait for a class 0 step began (R369)
  covered : Bool
  deriving DecidableEq, Repr

/-- A request that a remote LNKG makes of this module (R218). -/
structure Serve where
  src : Nat
  xid : Nat
  band : Nat
  tile : Nat
  addr : Nat
  left : Nat
  data : List Byte
  deriving DecidableEq, Repr

/-- A fabric port (R215, R216, R310). -/
structure Port where
  land : List LandEntry := []
  colls : List Coll := []
  ordinal : Nat := 0
  early : List ChunkIn := []          -- chunks that arrived before their COLL
  serve : List Serve := []
  waiting : List Inbound := []        -- held unacknowledged (R221, R323)
  begun : List (Nat × Nat) := []      -- class 0 puts that have begun to arrive: sender and its number (R220)
  cancelled : List Nat := []          -- ordinals of collectives that an event stop cancelled (R351)
  down : Bool := false
  deriving DecidableEq, Repr

/-- What the part sends out (R218, R223, R312). -/
inductive OutMsg where
  | put (port cls asid pa n xid : Nat) (data : List Byte)
  | get (port cls asid pa n xid : Nat)
  | reply (port dst xid : Nat) (data : List Byte)
  | ack (port dst xid : Nat)
  | chunk (port asid id ordinal step peer off : Nat) (last : Bool) (data : List Byte) (words : List Word)
  | chunkAck (port dst ordinal step : Nat)
  | lostAck (port ordinal step : Nat)             -- a step lost whole counts as accepted: to its sender, which the receiver does not know (R312, R369)
  | report (module nonce fw asid token image : Nat) (signature : Nat)
  | hubWrite (module off bytes x : Nat)           -- a host write that the bridge forwards (R389)
  deriving DecidableEq, Repr

/-- A queue descriptor (R376, R411). -/
structure Queue where
  st : Nat := 0
  ringBase : Nat := 0
  ringLog2 : Nat := 0
  tail : Nat := 0
  head : Nat := 0
  cqBase : Nat := 0
  cqLog2 : Nat := 0
  cqHead : Nat := 0
  cqTail : Nat := 0
  energy : Nat := 0
  snap : Word := 0
  deriving DecidableEq, Repr

/-- Launch states (R382). -/
inductive LState where
  | waiting | eligible | loading | running | stopping | saving | swapped | restoring
  deriving DecidableEq, Repr

/-- A live launch (R374, R382, R383). -/
structure Ctx where
  rec_ : LaunchRec
  queue : Nat
  st : LState
  since : Nat                         -- edge at which it last became eligible or swapped
  saved : Option Part                 -- while it is swapped (R360)
  energy : Nat := 0
  resid : Nat := 0                    -- picojoules of its loading or restoring not yet charged (R387)
  saveFrom : Nat := 0                 -- edge at which the save of its image began
  saveEnd : Nat := 0                  -- edge at which the save of its image ends (R360)
  ports : SMap Port := []             -- port sections of its image, while it is swapped (R360)
  saveRow : Option Nat := none        -- first DRAM row of its save area, from its placement on (R360, R363)
  deriving DecidableEq, Repr

/-- A dump that the host asks for (R396): from which edge on, of which tile of which launch, and its host buffer. -/
structure DumpAsk where
  edge : Nat
  asid : Nat
  tile : Nat
  addr : Nat
  deriving DecidableEq, Repr

/-- A tile's record of a dump (R396): its logical and physical position, what R360 saves of it, the flits that its
router holds, the staging engine wired to it with the refresh ticks that its owed counts go by, and the sections of the
ports whose home tile it is. -/
structure TileDump where
  asid : Nat
  x : Nat
  y : Nat
  col : Nat
  row : Nat
  tile : Tile
  flits : List Flit
  engine : Option Engine := none
  ticks : Nat := 0
  ports : List Port := []
  deriving DecidableEq, Repr

/-- A completion record (R378) on its way to its queue's ring. -/
structure Completion where
  queue : Nat
  token : Nat
  status : Nat
  refusal : Nat := 0
  evtDropped : Nat := 0
  landings : Nat := 0
  evc : Word := 0
  epc : BitVec 16 := 0
  done : BitVec 8 := 0
  gcycEnd : Nat := 0
  energy : Nat := 0
  audit : List Nat := [0, 0, 0, 0, 0, 0]
  align_ : Nat := 0
  tile : Nat := 0
  wall : Nat := 0
  deriving DecidableEq, Repr

/-- A record of the event ring (R342, R343). -/
structure EventRec where
  num : Nat
  evc : Word
  asid : Nat
  kind : Nat
  epc : BitVec 16
  done : BitVec 8
  evt : Bool
  tx : Nat
  ty : Nat
  pcol : Nat
  gcyc : Nat
  wall : Nat
  deriving DecidableEq, Repr

/-- What a journal entry records (R391). -/
inductive JWhat where
  | setHead (queue n : Nat)
  | completion (c : Completion)
  | start (token : Nat) (skews : List (Nat × Int))
  | stop (token s_ : Nat) (why : Option StopWhy)      -- no reason: a stop request of the hub's own
  | release (token : Nat)
  deriving DecidableEq, Repr

/-- A journal entry with its commit word (R391). -/
structure JEntry where
  what : JWhat
  committed : Bool
  deriving DecidableEq, Repr

/-- The non-volatile store (R406, R407). `dead` lists, by word number 784·column + row, the repair
words that name a dead tile. -/
structure Store where
  repair : SMap Nat := []
  moduleId : Nat := 0
  bridge : Bool := false
  coefs : List Nat := []              -- e_static, c_slot × 8, c_bank, c_link, c_dcmd, c_port (R387)
  key : Nat := 0
  firmware : Nat := 0
  deriving DecidableEq, Repr

/-- STATUS (R412). -/
structure Status where
  fail : Nat := 0
  stage : Nat := 0
  standby : Bool := false
  core : Bool := false
  bridge : Bool := false
  ready : Bool := false
  deriving DecidableEq, Repr

/-- What the model does next within a clock edge. -/
inductive Phase where
  | idle                              -- between partitions, or between edges
  | engine (band : Nat)               -- engine accesses of a partition cycle
  | issue (band : Nat)                -- issue of a partition cycle
  | pool (ls : List Loc)              -- pool tiles each replay one bundle (R357)
  deriving DecidableEq, Repr

/-- The whole module. -/
structure State where
  edge : Nat                          -- clock edge counter (R282)
  phase : Phase
  agenda : List Instr                 -- steps of the hardware due now, in order
  todo : List Loc                     -- tiles that have still to issue in this cycle
  cur : Loc                           -- the tile whose slot executes
  pending : List Nat                  -- bands whose partition cycle has still to come on this edge
  seqNo : Nat                         -- instructions issued so far: issue order (R14, R178)
  freeCtr : Nat                       -- values left open by the spec drawn so far
  inputs : List (Nat × Instr)         -- steps of outside agents and firmware, by clock edge
  outbox : List OutMsg                -- what the part has sent out
  parts : SMap Part                   -- resident launches by first sheet column
  ports : SMap Port                   -- fabric ports, 4 · physical column + port
  dram : List Host.Cell               -- DRAM bytes by flat address (R209)
  dramPoison : List Nat               -- DRAM granules stored as uncorrectable (R210)
  hostMem : List Host.Cell            -- host memory
  powered : Bool
  status : Status
  store : Store
  moduleId : Nat
  budget : Nat
  bandFault : List Nat                -- faulted sheet columns
  retrain : List (Nat × Nat)          -- columns under retraining, with the edge it must end by (R414)
  power : Nat
  idlePower : Nat                     -- what bands without a resident launch drew in the last µs, in picojoules (R410)
  leftPower : Nat                     -- what loads, restores and launches that left their bands drew in the present µs (R410)
  poolBad : List Nat                  -- pool tiles that failed self-test
  kicks : List Nat                    -- pending-kick bitmap (R377)
  queues : SMap Queue
  keys : SMap Byte                    -- tenant keys (R381)
  tenants : SMap (BitVec 16)          -- tenant map
  debug : SMap Word                   -- debug blocks, by word: 64 · ASID + offset / 4 (R411)
  ctxs : List Ctx
  seen : List (Nat × Nat)             -- tokens that have ended, with their status (R382)
  lastQ : SMap Nat                    -- queue last placed at each priority (R384)
  ring : List EventRec                -- the event ring, oldest first
  ringNo : Nat
  scrubLog : List (Nat × Nat × Nat)   -- granules that scrubbers poisoned: physical column, row, granule (R355)
  corrLog : List (Nat × Nat × Nat)    -- granules corrected by reads and scrubbers, as the hub logs them (R169, R355)
  mismatches : List Mismatch          -- audit mismatches the hub has recorded (R358)
  asks : List DumpAsk                 -- the script of the dumps that the host asks for (R396)
  dumps : List TileDump               -- the dumps that host buffers have taken (R396)
  offer : Option Nat                  -- a firmware image offered to the store (R406)
  repairSum : Nat                     -- digest of the repair map (R390)
  done : List Completion              -- completion records not yet written
  journal : List JEntry
  deriving DecidableEq, Repr

/-- The machine right after power-on: edge 0, before bring-up; no launch is resident. -/
def State.reset : State where
  edge := 0
  phase := .idle
  agenda := []
  todo := []
  cur := { band := 0, idx := 0 }
  pending := []
  seqNo := 0
  freeCtr := 0
  inputs := []
  outbox := []
  parts := []
  ports := []
  dram := []
  dramPoison := []
  hostMem := []
  powered := true
  status := {}
  store := {}
  moduleId := 0
  budget := 720
  bandFault := []
  retrain := []
  power := 0
  idlePower := 0
  leftPower := 0
  poolBad := []
  kicks := []
  queues := []
  keys := []
  tenants := []
  debug := []
  ctxs := []
  seen := []
  lastQ := []
  ring := []
  ringNo := 0
  scrubLog := []
  corrLog := []
  mismatches := []
  asks := []
  dumps := []
  offer := none
  repairSum := 0
  done := []
  journal := []

end Sys2Proof.Machine
end

