-- ==== Sys2Proof/Machine/Ops.lean ====
section
/-! DEFINITION. The named operations over tiles, registers, memory and banks, and the one shared
operation by which an event is taken (R341 to R348). -/

namespace Sys2Proof.Machine

/-- The outcomes of a step of this machine. -/
abbrev Result := Host.Outcome State Fault Refusal

/-! ## Partitions and tiles -/

/-- The resident launch whose band begins at a sheet column. -/
def getPart (s : State) (band : Nat) : Option Part := mfind s.parts band

/-- Put a partition back. -/
def setPart (s : State) (p : Part) : State := { s with parts := mput s.parts p.first p }

/-- Change a partition where it is resident. -/
def onPart (s : State) (band : Nat) (f : Part → Part) : State :=
  match getPart s band with
  | some p => setPart s (f p)
  | none => s

/-- Tile numbers from here on name pool tiles (R279). -/
def poolBase : Nat := 1048576

/-- TX and TY of a tile number. -/
def tx (idx : Nat) : Nat := idx % 1024
def ty (idx : Nat) : Nat := idx / 1024

/-- The tile number of a position. -/
def tileIdx (x y : Nat) : Nat := 1024 * y + x

/-- Partition width and height in tiles (R280), and the freeze lead F (R231). -/
def pw (p : Part) : Nat := 64 * p.count
def ph : Nat := 784
def lead (p : Part) : Nat := pw p + ph + 16

/-- Whether a position lies in the partition (R197, R280). -/
def inBand (p : Part) (x y : Int) : Bool :=
  decide (0 ≤ x) && decide (x < pw p) && decide (0 ≤ y) && decide (y < ph)

/-- A seed value (R22): the substitute of a zero. -/
def seedFix (seed x : Word) : Word := if x = 0 then seed ^^^ 0x00008000 else x

/-- The twenty LFSRs of a tile at GCYC 0 (R22). -/
def seedLfsr (seed : Word) (idx : Nat) : SMap Word :=
  let base := seed ^^^ BitVec.ofNat 32 (ty idx <<< 16) ^^^ BitVec.ofNat 32 (tx idx <<< 5)
  (upto 4).map (fun j => (j, seedFix seed (base ^^^ BitVec.ofNat 32 j))) ++
  (upto 16).map (fun c => (16 + c, seedFix seed (base ^^^ BitVec.ofNat 32 (16 + c))))

/-- A tile at GCYC 0 with empty memories (R11, R22, R26).
Log entry 5 (DESIGN CHOICE). -/
def freshTile (r : LaunchRec) (idx : Nat) : Tile :=
  { lfsr := seedLfsr r.seed idx, raceBound := r.raceBound }

/-- LTC counts of one issued bundle at level 0 whose mask is given (R129). -/
def ltcOnce (mask : Nat) : SMap DWord :=
  (upto 8).map (fun k => (0x80 + 2 * k + b2n (!bitN mask k), 1))

/-- A tile that no image entry names: it has run the one-bundle HALT image at GCYC 0 (R375, R86). -/
def haltTile (r : LaunchRec) (idx : Nat) : Tile :=
  { freshTile r idx with
      imem := [(0, 0x80000000), (1, 0x90000000)],
      ltc := ltcOnce 0x80,
      seq := { halted := true, pc := 2, lastPc := 0, lastCyc := some 0 } }

/-- A tile of a partition; pool tiles by their number (R279).
Log entry 47 (DEDUCED). -/
def getTile (p : Part) (idx : Nat) : Tile :=
  if poolBase ≤ idx then (mfind p.pool idx).getD {} else (mfind p.tiles idx).getD (haltTile p.rec_ idx)

/-- Put a tile back. -/
def putTile (p : Part) (idx : Nat) (t : Tile) : Part :=
  if poolBase ≤ idx then { p with pool := mput p.pool idx t } else { p with tiles := mput p.tiles idx t }

/-- Change one tile of a partition. -/
def modTile (p : Part) (idx : Nat) (f : Tile → Tile) : Part := putTile p idx (f (getTile p idx))

/-- Change one tile of the module. -/
def onTile (s : State) (l : Loc) (f : Tile → Tile) : State := onPart s l.band (fun p => modTile p l.idx f)

/-- The cycle count a tile issues by: the partition's GCYC, or a pool tile's own count of replayed
bundles (R357), which its `skew` holds. -/
def cycOf (p : Part) (idx : Nat) : Nat := if poolBase ≤ idx then (getTile p idx).skew.toNat else p.gcyc

/-- The tile at a place, where one is resident there, with its partition as the tile sees it: `gcyc` is
the tile's own cycle. -/
def tileAt (s : State) (l : Loc) : Option (Part × Tile) :=
  match getPart s l.band with
  | some p =>
    if poolBase ≤ l.idx then some ({ p with gcyc := cycOf p l.idx }, getTile p l.idx)
    else if inBand p (tx l.idx) (ty l.idx) then some (p, getTile p l.idx)
    else none
  | none => none

/-- Wall time in whole nanoseconds at a clock edge: 13 edges are 10 ns (R3, R25, R282). -/
def wallOf (edge : Nat) : Nat := edge * 10 / 13

/-- Whether an edge is a groomer edge (R282). -/
def isGroomer (edge : Nat) : Bool := edge % 16 == 15

/-- Whether an edge is an issue edge at cadence k/64 (R282). -/
def isIssueEdge (k edge : Nat) : Bool :=
  let p := edge % 64
  let c := p - p / 16
  !isGroomer edge && decide (c * k / 60 < (c + 1) * k / 60)

/-- Dead positions of a row segment (R407).
Log entry 6 (DESIGN CHOICE). -/
def deadOf (st : Store) (col row : Nat) : List Nat :=
  let w := (mfind st.repair (784 * col + row)).getD 0x3FFF
  [field w 0 7, field w 7 7].filter (fun d => d != 0x7F)

/-- The physical position of logical tile l of a row segment (R276). -/
def physPos (dead : List Nat) (l : Nat) : Nat :=
  (upto 66).foldl (fun (a : Nat × Option Nat) p =>
    if smem dead p then a
    else if a.1 = l ∧ a.2 = none then (a.1 + 1, some p) else (a.1 + 1, a.2)) (0, none) |>.2.getD 0

/-- The physical column of a tile of a partition (R275, R276). -/
def physCol (s : State) (first idx : Nat) : Nat :=
  let w := 64 * first + tx idx
  66 * (w / 64) + physPos (deadOf s.store (w / 64) (ty idx)) (w % 64)

/-! ## Registers -/

/-- Read a scalar register; g0 reads as zero (R11). -/
def rg (t : Tile) (n : Nat) : Word := if n = 0 then 0 else mget 0 t.g n

/-- Read a predicate; q0 reads as true (R11). -/
def rq (t : Tile) (n : Nat) : Bool := if n = 0 then true else mget false t.q n

/-- Read a stage predicate (R11). -/
def rsp (t : Tile) (n : Nat) : Bool := t.loop.sp.getLsbD n

/-- Read a lane mask; m0 reads as all ones (R11). -/
def rm (t : Tile) (n : Nat) : BitVec 16 := if n = 0 then 0xFFFF else mget 0 t.m n

/-- Read a physical vector register. -/
def rv (t : Tile) (n : Nat) : Line := mget 0 t.v n

/-- The physical register of a vector name under rotation (R127). -/
def vphys (lp : LoopSt) (n : Nat) : Nat :=
  if n < 768 then (if n < lp.window then (n + lp.rb) % lp.window else n)
  else if n < 1536 then (if n - 768 < lp.window then 768 + (n - 768 + lp.rb) % lp.window else n)
  else n

/-- Write a scalar register; a write to g0 is discarded (R11). -/
def wg (t : Tile) (n : Nat) (x : Word) : Tile := if n = 0 then t else { t with g := mset 0 t.g n x, regErr := sremove t.regErr (0x600 + n) }

/-- Write a predicate; a write to q0 is discarded (R11). -/
def wq (t : Tile) (n : Nat) (x : Bool) : Tile := if n = 0 then t else { t with q := mset false t.q n x, regErr := sremove t.regErr (0x620 + n) }

/-- Write a lane mask; a write to m0 is discarded (R11). -/
def wm (t : Tile) (n : Nat) (x : BitVec 16) : Tile := if n = 0 then t else { t with m := mset 0 t.m n x, regErr := sremove t.regErr (0x630 + n) }

/-- Write a physical vector register. -/
def wv (t : Tile) (n : Nat) (x : Line) : Tile := { t with v := mset 0 t.v n x, regErr := sremove t.regErr n }

/-- OR flags into FLG (R26, R27). -/
def orFlags (t : Tile) (f : Flags) : Tile := { t with flg := t.flg ||| f }

/-- A landing's write of a read/write special register: its writable fields (R24, R26). -/
def wsreg (t : Tile) (idx : Nat) (x : Word) : Tile :=
  if idx = 0x0C then { t with flg := x.truncate 6 }
  else if idx = 0x0D then { t with fpm := if 5 ≤ field x.toNat 0 3 then 0 else x.truncate 3 }
  else if idx = 0x0E then
    { t with sbCount := field x.toNat 20 12, dramCount := field x.toNat 8 12, dramMode := x.getLsbD 1, sbMode := x.getLsbD 0 }
  else t

/-- The scoreboard's register codes (R261). -/
def codeG (n : Nat) : Nat := 0x600 + n
def codeQ (n : Nat) : Nat := 0x620 + n
def codeM (n : Nat) : Nat := 0x630 + n

/-- The register a destination writes, by code; none for special registers and bare flags. -/
def destCode (d : Dest) : Option Nat :=
  match d with
  | .g n _ => some (codeG n)
  | .q n _ => some (codeQ n)
  | .m n _ => some (codeM n)
  | .v n _ => some n
  | .sreg _ _ => none
  | .ma _ _ => none
  | .flags => none

/-- Registers whose content never changes are never late. -/
def fixedCode (c : Nat) : Bool := c == codeG 0 || c == codeQ 0 || c == codeM 0

/-- Whether a register has a result, of an earlier bundle, that lands after cycle g (R259).
Log entry 62 (DEDUCED). -/
def isLate (t : Tile) (g c : Nat) : Bool :=
  !fixedCode c && t.flight.any (fun e => decide (e.issued < g) && decide (g < e.due) && (destCode e.dest == some c))

/-- Write one landing (R257, R262): register, then nothing else; flags are gathered apart. -/
def landOne (t : Tile) (d : Dest) : Tile :=
  match d with
  | .g n x => wg t n x
  | .q n x => wq t n x
  | .m n x => wm t n x
  | .v n x => wv t n x
  | .sreg i x => wsreg t i x
  | .ma k x => { t with ma := mset 0 t.ma k x }
  | .flags => t

/-- Order of landings of one cycle (R14): slot order, then issue order. -/
def landLe (a b : Landing) : Bool := decide (a.slot < b.slot) || (a.slot == b.slot && decide (a.seq ≤ b.seq))

/-- Whether a destination is a special register. -/
def isSreg (d : Dest) : Bool :=
  match d with
  | .sreg _ _ => true
  | .g _ _ => false
  | .q _ _ => false
  | .m _ _ => false
  | .v _ _ => false
  | .ma _ _ => false
  | .flags => false

/-- All landings due at a cycle: special-register writes first, registers in the order of R14, and
the flags ORed in last (R27). -/
def landDue (t : Tile) (g : Nat) : Tile :=
  let due := sortBy landLe (t.flight.filter (fun e => decide (e.due ≤ g)))
  let t1 := { t with flight := t.flight.filter (fun e => decide (g < e.due)) }
  let t2 := (due.filter (fun e => isSreg e.dest)).foldl (fun a e => landOne a e.dest) t1
  let t3 := (due.filter (fun e => !isSreg e.dest)).foldl (fun a e => landOne a e.dest) t2
  orFlags t3 (due.foldl (fun f e => f ||| e.flags) 0)

/-- Put a result in flight. -/
def fly (t : Tile) (e : Landing) : Tile := { t with flight := t.flight ++ [e] }

/-- The innermost open level's number, 0 outside every loop (R29, R129). -/
def ltcLevel (lp : LoopSt) : Nat := lp.levels.length - 1

/-- Add to one LTC counter. -/
def ltcAdd (t : Tile) (i n : Nat) : Tile := { t with ltc := mset 0 t.ltc i (mget 0 t.ltc i + BitVec.ofNat 64 n) }

/-- Count a cycle whose filled slots are given by a mask (R129). -/
def ltcCycle (t : Tile) (level mask : Nat) : Tile :=
  forN 8 (fun k a => ltcAdd a (0x80 + 16 * level + 2 * k + b2n (!bitN mask k)) 1) t

/-- Count freeze cycles (R129, R288). -/
def ltcFreeze (t : Tile) (n : Nat) : Tile := ltcAdd t (0xE0 + ltcLevel t.loop) n

/-- Saturating count of violations (R26). -/
def satInc (n : Nat) : Nat := if 0xFFF ≤ n then 0xFFF else n + 1

/-! ## Data SRAM -/

/-- First address past the data SRAM (R32). -/
def sramEnd : Nat := 0x28000

/-- The bank of an address (R33). -/
def bankOf (a : Nat) : Nat := field a 4 3

/-- The line of an address. -/
def lineOfAddr (a : Nat) : Nat := alignDown 4 a

/-- Bytes of the data SRAM from an address; an unlisted byte is 0 (R34).
Log entry 4 (DESIGN CHOICE). -/
def sramBytes (m : SMap Byte) (a n : Nat) : List Byte := (upto n).map (fun i => mget 0 m (a + i))

/-- A line of the data SRAM as stored. -/
def sramLine (m : SMap Byte) (a : Nat) : Line := BitVec.ofNat 128 (ofBytes (sramBytes m (lineOfAddr a) 16))

/-- A line as any reader sees it: while the barrier unit holds it, the held copy as the last cycle left
it (R233). -/
def readLine (t : Tile) (a : Nat) : Line :=
  match mfind t.held (lineOfAddr a) with
  | some _ => (mfind t.heldAt (lineOfAddr a)).getD (sramLine t.sram a)
  | none => sramLine t.sram a

/-- `n` bytes at an address inside one line, as a number. -/
def readN (t : Tile) (a n : Nat) : Nat := field (readLine t a).toNat (8 * (a % 16)) (8 * n)

/-- Whether a granule is poisoned or holds an uncorrectable error (R169). -/
def granBad (t : Tile) (gr : Nat) : Bool := smem t.poison gr || smem t.uncorr gr

/-- Reading a granule marks an uncorrectable error as poison; a correctable one is corrected for the read,
and noted for the hub's log (R169). -/
def markRead (t : Tile) (gr : Nat) : Tile :=
  if smem t.uncorr gr then { t with uncorr := sremove t.uncorr gr, poison := sinsert t.poison gr, found := sinsert t.found gr }
  else if smem t.corr gr then { t with corrected := sinsert t.corrected gr } else t

/-- Poison bits of the two granules of a line; a held copy carries none. -/
def linePoison (t : Tile) (a : Nat) : Nat :=
  match mfind t.held (lineOfAddr a) with
  | some _ => 0
  | none => b2n (granBad t (lineOfAddr a / 8)) + 2 * b2n (granBad t (lineOfAddr a / 8 + 1))

/-- Store bytes in a map from an address up. -/
def storeBytes (m : SMap Byte) (a : Nat) (bs : List Byte) : SMap Byte :=
  match bs with
  | [] => m
  | b :: r => storeBytes (mset 0 m a b) (a + 1) r

/-- A granule written whole is clean, one written in part keeps its poison (R171). -/
def cleanGran (t : Tile) (gr : Nat) : Tile :=
  { t with poison := sremove t.poison gr, uncorr := sremove t.uncorr gr, corr := sremove t.corr gr }

/-- Whether the line of an address, read as a barrier record, is armed (R35): in the held copy, or in its
bank. A line that no barrier instruction has named yet may be a record that the image armed. -/
def armedThere (t : Tile) (a : Nat) : Bool :=
  bitN ((mfind t.held (lineOfAddr a)).getD (sramLine t.sram a)).toNat 65

/-- Note, before a write of data to a line, what the spec then leaves open: what a remote read that is
outstanding on the line gives (R218), and the count of an armed record (R37). -/
def noteWrite (t : Tile) (a : Nat) : Tile :=
  let t1 := if armedThere t a then { t with tainted := sinsert t.tainted (lineOfAddr a) } else t
  let t2 := if smem t1.audWatch (lineOfAddr a) then { t1 with audDirty := sinsert t1.audDirty (lineOfAddr a) } else t1
  if t2.served.any (fun r => decide (r.1 ≤ lineOfAddr a) && decide (lineOfAddr a < r.2)) then
    { t2 with servedDirty := sinsert t2.servedDirty (lineOfAddr a) }
  else t2

/-- Write bytes inside one line, clearing the poison of granules covered whole (R171). -/
def writeBytes (t : Tile) (a : Nat) (bs : List Byte) : Tile :=
  let n := bs.length
  let t0 := noteWrite t a
  let t1 := { t0 with sram := storeBytes t0.sram a bs }
  let lo := lineOfAddr a
  let t2 := if a ≤ lo ∧ lo + 8 ≤ a + n then cleanGran t1 (lo / 8) else t1
  if a ≤ lo + 8 ∧ lo + 16 ≤ a + n then cleanGran t2 (lo / 8 + 1) else t2

/-- Write the bytes of a line that a mask of byte lanes names, in one access. -/
def writeMasked (t : Tile) (line : Nat) (x : Line) (mask : BitVec 16) : Tile :=
  let t1 := if mask = 0 then t else noteWrite t line
  let t2 := (upto 16).foldl (fun a i =>
    if mask.getLsbD i then { a with sram := mset 0 a.sram (line + i) (BitVec.ofNat 8 (elem 8 x i)) } else a) t1
  let t3 := if mask.truncate 8 = (0xFF : BitVec 8) then cleanGran t2 (line / 8) else t2
  if (mask >>> 8).truncate 8 = (0xFF : BitVec 8) then cleanGran t3 (line / 8 + 1) else t3

/-- Set or clear the poison of a granule. -/
def setPoison (t : Tile) (gr : Nat) (b : Bool) : Tile :=
  if b then { t with poison := sinsert t.poison gr } else cleanGran t gr

/-- Write a whole line with poison bits for its granules. -/
def writeLine (t : Tile) (line : Nat) (x : Line) (poison : Nat) : Tile :=
  let t1 := writeMasked t line x 0xFFFF
  setPoison (setPoison t1 (line / 8) (bitN poison 0)) (line / 8 + 1) (bitN poison 1)

/-- Canonical form of a byte memory (keys strictly rising, no zero byte listed). -/
def memWf (m : SMap Byte) : Bool := mwf 0 m

/-! ## Banks (R159, R160, R166 to R168) -/

/-- Bits of EVC.detail for cause 0x03 (R168, R182, R225). -/
def bitRead : Nat := 0x8000
def bitBar : Nat := 0x4000
def bitStage : Nat := 0x2000
def bitDep : Nat := 0x1000
def bitMx : Nat := 0x0100

/-- The first engine access of a bank in a cycle is performed; accesses are made in rank order
(R167). `share` lets BIN deposits on one record merge (R203). The barrier unit's own updates of a held
record and reads of its line need no bank; a write of data does (R233). -/
def claim (t : Tile) (a rank bits : Nat) (share : Bool) : Tile × Bool :=
  if (mfind t.held (lineOfAddr a)).isSome && (rank == 0 || rank == 9) then (t, true)
  else
    let b := bankOf a
    match t.accs.find? (fun e => e.bank == b && e.won) with
    | none => ({ t with accs := t.accs ++ [{ bank := b, line := lineOfAddr a, rank := rank, bits := bits, won := true, bin := share, old := readLine t a }] }, true)
    | some e =>
      if share && e.line == lineOfAddr a && e.bin then (t, true)
      else ({ t with accs := t.accs ++ [{ bank := b, line := lineOfAddr a, rank := rank, bits := bits, won := false, bin := share, old := readLine t a }] }, false)

/-- The detail of a collision in a bank: every access that took part (R168). -/
def accBits (t : Tile) (b : Nat) : Nat :=
  (t.accs.filter (fun e => e.bank == b)).foldl (fun a e => a ||| e.bits) 0

/-- Banks of a cycle in which an engine access was dropped and no local slot met the collision. -/
def lostBanks (t : Tile) : List Nat := (upto 8).filter (fun b => t.accs.any (fun e => e.bank == b && !e.won))

/-- The local slot bit of the detail: MX, LD, ST, CP (R168). -/
def localBit (slot : Nat) : Nat := 0x100 <<< (slot - 3)

/-- Whether a local access finds its bank already used (R160, R166): by an engine access, or by an
earlier local access other than a load of the same line before a store.
Log entry 11 (DEDUCED). -/
def localHit (t : Tile) (is : Issue) (slot line : Nat) : Bool :=
  t.accs.any (fun e => e.bank == bankOf line) ||
  is.loc.any (fun e => bankOf e.line == bankOf line &&
    !((e.slot == 4 && slot == 5 && e.line == line) || (e.slot == slot && e.line == line)))

/-- The detail of a local collision in the bank of a line. -/
def localBits (t : Tile) (is : Issue) (slot line : Nat) : Nat :=
  accBits t (bankOf line) |||
  (is.loc.filter (fun e => bankOf e.line == bankOf line)).foldl (fun a e => a ||| localBit e.slot) 0 |||
  localBit slot ||| bankOf line

/-- Local accesses of one slot in order: the first that finds its bank used, or the accesses made. -/
def localScan (t : Tile) (is : Issue) (slot : Nat) (lines : List Nat) : Issue × Option Nat :=
  match lines with
  | [] => (is, none)
  | a :: r =>
    let l := lineOfAddr a
    if (mfind t.held l).isSome && slot != 5 then localScan t is slot r
    else if is.loc.any (fun e => e.slot == slot && e.line == l) then localScan t is slot r
    else if localHit t is slot l then (is, some l)
    else localScan t { is with loc := is.loc ++ [{ slot := slot, line := l }] } slot r

/-- The tile as it was before the store of the bundle under issue, which a local read of a later slot does not
see (R165). -/
def beforeStore (t : Tile) : Tile :=
  match t.seq.issue with
  | some is => { t with sram := is.was.foldl (fun m e => mset 0 m e.1 e.2) t.sram }
  | none => t

/-- A line as the cycle found it: what a local read of the cycle sees, whatever the store of its bundle or an engine
access of the cycle writes there (R165). -/
def cycleLine (t : Tile) (a : Nat) : Line :=
  match t.accs.find? (fun e => e.line == lineOfAddr a && e.rank != 9) with
  | some e => e.old
  | none => readLine (beforeStore t) a

/-- The bytes of lines as they stand. -/
def lineContents (t : Tile) (lines : List Nat) : List (Nat × Byte) :=
  lines.flatMap (fun a => (upto 16).map (fun i => (lineOfAddr a + i, mget 0 t.sram (lineOfAddr a + i))))

/-- Append steps of the hardware to the agenda. -/
def agendaAdd (s : State) (l : List Instr) : State := { s with agenda := s.agenda ++ l }

/-- A placement pass follows a change of a launch's state once placement runs (R384, R412).
Log entry 68 (DEDUCED). -/
def passes (s : State) : List Instr := if s.status.ready then [.placementPass] else []

/-! ## Journal (R391) -/

/-- An entry is written; it is an intent until its commit word follows. -/
def intend (s : State) (w : JWhat) : State := { s with journal := s.journal ++ [{ what := w, committed := false }] }

/-- The commit word of an entry is written. -/
def commit (s : State) (w : JWhat) : State :=
  { s with journal := s.journal.map (fun e => if e.what = w then { e with committed := true } else e) }

/-- A change that the hardware makes with the hub's request: entry and commit word come before it in the same step. -/
def journal (s : State) (w : JWhat) : State := commit (intend s w) w

/-! ## Events (R341 to R348) -/

/-- EVC's value (R26). -/
def evcOf (cause detail : Nat) (precise : Bool) : Word :=
  BitVec.ofNat 32 (detail % 65536 * 65536 + b2n precise * 256 + cause % 256)

/-- EPC's value (R26). -/
def epcOf (pc : BitVec 13) (slot : Nat) : BitVec 16 := BitVec.ofNat 16 (pc.toNat * 8 + slot)

/-- DONE at a precise stop at a slot of a bundle (R110). -/
def doneAt (mask slot : Nat) : BitVec 8 :=
  BitVec.ofNat 8 ((upto 8).foldl (fun a k =>
    if k < slot ∨ (slot < k ∧ !bitN mask k) then a + 2 ^ k else a) 0)

/-- DONE at a bundle-level stop (R110). -/
def doneBundle (mask : Nat) : BitVec 8 := ~~~ (BitVec.ofNat 8 mask)

/-- The trace queue takes a record, or counts it as dropped; a lost record is of type 8, which has its own enable
(R400, R401, R411). -/
def traceAdd (p : Part) (t : Tile) (r : TraceRec) : Tile :=
  if p.traceOn && bitN p.traceMask (r.ty - 1) then
    if t.traces.length < 8 then
      let lost : List TraceRec :=
        if t.traceDropped = 0 || !bitN p.traceMask 7 then [] else [{ ty := 8, gcyc := r.gcyc, payload := [(0x18, 4, t.traceDropped)] }]
      { t with traces := t.traces ++ lost ++ [r], traceDropped := 0 }
    else { t with traceDropped := t.traceDropped + 1 }
  else t

/-- The 32 bytes of an event-ring record (R342). -/
def ringBytes (e : EventRec) : List Byte :=
  bytesOf 4 e.evc.toNat ++ bytesOf 4 (e.asid * 2 ^ 18 + e.kind * 2 ^ 16 + e.epc.toNat) ++
  bytesOf 4 (e.done.toNat * 2 ^ 24 + b2n e.evt * 2 ^ 23 + e.ty * 1024 + e.tx) ++
  bytesOf 4 (e.ty * 1024 + e.pcol) ++ bytesOf 8 e.gcyc ++ bytesOf 8 e.wall

/-- A log with an entry put in among those not yet drained, in GCYC order (R404). -/
def logInsert (l : List LogEntry) (done : Nat) (e : LogEntry) : List LogEntry :=
  l.take done ++ ((l.drop done).filter (fun x => decide (x.gcyc ≤ e.gcyc)) ++ e :: (l.drop done).filter (fun x => decide (e.gcyc < x.gcyc)))

/-- Stage a replay-log entry while the launch records (R402, R404).
Log entry 38 (DEDUCED). -/
def logAdd (p : Part) (ty tile gcyc : Nat) (payload : List (Nat × Nat × Nat)) : Part :=
  if p.logOpen then { p with log := logInsert p.log p.logDone { ty := ty, tile := tile, gcyc := gcyc, payload := payload } } else p

/-- The 80 bytes of a divergence record (R403). -/
def divergence (gcyc : Nat) (inLog inReplay : Bool) (logged replayed : List Byte) : List Byte :=
  let pad := fun (l : List Byte) => (l ++ List.replicate 32 0).take 32
  bytesOf 8 gcyc ++ bytesOf 8 (b2n inLog + 2 * b2n inReplay) ++ pad logged ++ pad replayed

/-- The divergence record of a replay (R403), written once, after the log's last entry.
Log entry 56 (DEDUCED). -/
def diverge (s : State) (band addr gcyc : Nat) (inLog inReplay : Bool) (logged replayed : List Byte) : State :=
  match getPart s band with
  | none => s
  | some p =>
    if p.diverged then s
    else setPart { s with hostMem := storeBytes s.hostMem addr (divergence gcyc inLog inReplay logged replayed) } { p with diverged := true }

/-- Place a record on the event ring (R342). -/
def ringAdd (s : State) (p : Part) (idx kind : Nat) (evc : Word) (epc : BitVec 16) (done : BitVec 8) (evt : Bool)
    (gcyc wall : Nat) : State :=
  { s with
      ring := s.ring ++ [{
        num := s.ringNo, evc := evc, asid := p.rec_.asid, kind := kind, epc := epc, done := done, evt := evt, tx := tx idx, ty := ty idx,
        pcol := physCol s p.first idx, gcyc := gcyc, wall := wall }],
      ringNo := s.ringNo + 1 }

/-- The trace record of an event-ring record (R400). -/
def eventTrace (e : EventRec) : TraceRec :=
  { ty := 4, gcyc := e.gcyc, payload := [(0x18, 32, ofBytes (ringBytes e))] }

/-- The trace record of the newest ring record, queued at its tile (R400). -/
def traceRing (s : State) (p : Part) (idx : Nat) : Part :=
  match s.ring.getLast? with
  | some e => modTile p idx (fun t => traceAdd p t (eventTrace e))
  | none => p

/-- A freeze in force (R287). -/
def isFrozen (p : Part) : Bool :=
  match p.mode with
  | .frozen _ => true
  | .running => false
  | .skid => false
  | .debugHeld => false
  | .armedStop => false
  | .failed => false

/-- Whether a stop in force is an event stop. -/
def eventStop (p : Part) : Bool :=
  match p.stop with
  | some st => st.event
  | none => false

/-- The requests that a cycle-armed stop stands for, its own first (R385, R395). -/
def reqsOf (st : Stop) : List (Nat × StopWhy) :=
  (match st.why with
   | some w => [(st.at_, w)]
   | none => []) ++ st.req

/-- Change a live launch. -/
def onCtx (s : State) (token : Nat) (f : Ctx → Ctx) : State :=
  { s with ctxs := s.ctxs.map (fun c => if c.rec_.token = token then f c else c) }

/-- An event cancels a pre-emption that is armed, and its launch is running again, which brings a placement pass
(R359, R382, R384). -/
def cancelStop (s : State) (p : Part) : State :=
  if p.stop.any (fun st => !st.event && st.why == some .preempt) && p.mode != .armedStop then
    agendaAdd (onCtx s p.rec_.token (fun c => { c with st := .running })) (passes s) else s

/-- The stop that an event calls (R345, R289): none moves a stop already called by an event, but one that a
freeze meets, which then falls at g; a cycle-armed stop is cancelled (R359).
Log entry 24 (DEDUCED). -/
def stopFor (p : Part) (idx : Nat) (evc : Word) (epc : BitVec 16) (done : BitVec 8) (ring : Nat) : Stop :=
  match p.stop with
  | some st =>
    if st.event then
      if st.c1 = p.gcyc ∧ idx < st.tile ∧ p.mode = .running ∧ !st.abort then { st with tile := idx, evc := evc, epc := epc, done := done, ring := ring }
      else if isFrozen p then { st with at_ := minN st.at_ p.gcyc } else st
    else { at_ := if isFrozen p then p.gcyc else p.gcyc + lead p, event := true, c1 := p.gcyc, raised := true, tile := idx, evc := evc, epc := epc, done := done, ring := ring, req := reqsOf st }
  | none => { at_ := if isFrozen p then p.gcyc else p.gcyc + lead p, event := true, c1 := p.gcyc, raised := true, tile := idx, evc := evc, epc := epc, done := done, ring := ring }

/-- An event stop that calls no handler and raises no event: a CRABORT's (R240), or that of an audit policy which fails the
launch at once (R374). One that is called already keeps its cycle and its primary event.
Log entry 42 (DEDUCED). -/
def abortStop (p : Part) (idx : Nat) (evc : Word) (epc : BitVec 16) (done : BitVec 8) (ring : Nat) : Stop :=
  match p.stop with
  | some st => if st.event then { st with abort := true } else called
  | none => called
where
  /-- The stop, where no event has called one. -/
  called : Stop := { stopFor p idx evc epc done ring with abort := true, raised := false }

/-- The partition with such a stop called. -/
def withAbort (p : Part) (st : Stop) : Part := { p with stop := some st, lastEvent := some st, holds := if isFrozen p then [] else p.holds }

/-- The number of the ring record that a new primary event displaces (R345). -/
def displaced (p : Part) (idx : Nat) : Option Nat :=
  match p.stop with
  | some st => if st.event ∧ st.c1 = p.gcyc ∧ idx < st.tile ∧ p.mode = .running ∧ !st.abort then some st.ring else none
  | none => none

/-- Make a ring record secondary. -/
def demote (s : State) (n : Nat) : State :=
  { s with ring := s.ring.map (fun e => if e.num = n ∧ e.kind = 0 then { e with kind := 1 } else e) }

/-- The EVC of a hub act of a log; 0 names no event (R404). -/
def actEvc (e : LogEntry) : Nat := ((e.payload.find? (fun x => x.1 == 0x10)).map (fun x => x.2.2)).getD 0

/-- Whether a hub act of a log is an event of a replay: cause, detail, tile and GCYC agree (R403). -/
def sameAct (e : LogEntry) (r : EventRec) : Bool :=
  e.ty == 4 && e.gcyc == r.gcyc && tx e.tile == r.tx && ty e.tile == r.ty && actEvc e == r.evc.toNat

/-- A recorded event as the bytes of R342: what its log entry holds of it.
Log entry 56 (DEDUCED). -/
def loggedBytes (s : State) (p : Part) (e : LogEntry) : List Byte :=
  ringBytes {
    num := 0, evc := BitVec.ofNat 32 (actEvc e), asid := p.rec_.asid, kind := 2, epc := 0, done := 0xFF, evt := false, tx := tx e.tile, ty := ty e.tile,
    pcol := physCol s p.first e.tile, gcyc := e.gcyc, wall := 0 }

/-- In a replay, an event that the hub raises and the log does not hold is divergence (R403), and so is the first
event after the last entry of a log that is incomplete (R404).
Log entry 56 (DEDUCED). -/
def noteReplay (s : State) (p : Part) (gcyc : Nat) (e : Option EventRec) : State :=
  match p.divergeAt, e with
  | some (addr, last), some r =>
    if last.any (fun g => decide (g < gcyc)) then diverge s p.first addr gcyc false true [] (ringBytes r)
    else if r.kind = 2 && !(p.acted ++ p.frozenActs ++ p.replay).any (fun x => sameAct x r) then
      match p.replay.find? (fun x => x.ty == 4 && x.gcyc == gcyc) with
      | some x => diverge s p.first addr gcyc true true (loggedBytes s p x) (ringBytes r)
      | none => diverge s p.first addr gcyc false true [] (ringBytes r)
    else s
  | _, _ => s

/-- The first event of a log that a replay has not come to, of those that a test names. -/
def lostEvent (p : Part) (past : LogEntry → Bool) : Option LogEntry :=
  (p.frozenActs ++ p.replay).find? (fun e => e.ty == 4 && actEvc e != 0 && past e)

/-- In a replay, a logged event that did not come by its GCYC is divergence (R403). -/
def noteLost (s : State) (p : Part) (past : LogEntry → Bool) : State :=
  match p.divergeAt, lostEvent p past with
  | some (addr, _), some e => diverge s p.first addr e.gcyc true false (loggedBytes s p e) []
  | _, _ => s

/-- The same of a replay that ends while it is swapped out (R403). -/
def noteLostSaved (s : State) (p : Part) : State :=
  match p.divergeAt, lostEvent p (fun _ => true) with
  | some (addr, _), some e =>
    if p.diverged then s
    else { s with hostMem := storeBytes s.hostMem addr (divergence e.gcyc true false (loggedBytes s p e) []) }
  | _, _ => s

/-- In a replay whose log is incomplete, a landing after its last entry is divergence (R404). -/
def noteLanding (s : State) (band : Nat) : State :=
  match getPart s band with
  | none => s
  | some p =>
    match p.divergeAt with
    | some (addr, some g) => if g < p.gcyc then diverge s band addr p.gcyc false false [] [] else s
    | _ => s

/-- TAKING AN EVENT: the one operation by which a tile raises an event. The tile's first event is
recorded in EVC, EPC and DONE (R341); the tile issues nothing after the cycle (R344); the record
goes to the event ring as primary or secondary (R342, R345); the partition's stop is called at
s = c1 + F, or at g in a freeze (R289, R345). An event that the hub raises on a tile has a record of
kind 2. A fence violation that a router finds faults the band (R386).
Log entry 24 (DEDUCED).
Log entry 60 (DEDUCED). -/
def raiseEventAs (hub : Bool) (s : State) (l : Loc) (cause detail : Nat) (precise : Bool) (epc : BitVec 16) (done : BitVec 8) : State :=
  match getPart s l.band with
  | none => s
  | some p =>
    if poolBase ≤ l.idx then
      setPart s (modTile p l.idx (fun t => { t with seq := { t.seq with stopped := true, issue := none } }))
    else
      let evc := evcOf cause detail precise
      let s := if cause = 0x05 ∧ !precise then
          agendaAdd { s with bandFault := (upto p.count).foldl (fun b k => sinsert b (p.first + k)) s.bandFault } (passes s) else s
      let disp := displaced p l.idx
      let primary := disp.isSome || !eventStop p
      let s1 := match disp with
        | some n => demote s n
        | none => s
      let gc := p.gcyc
      let s2 := ringAdd s1 p l.idx (if hub then 2 else if primary then 0 else 1) evc epc done false gc (wallOf s.edge)
      let rec_ := s2.ring.getLast?
      let t := getTile p l.idx
      let t1 := if t.evRec then t else { t with evc := evc, epc := epc, done := done, evRec := true }
      let t2 := { t1 with
        seq := { t1.seq with stopped := true, issue := none, kept := if precise && t1.seq.issue.isSome then t1.seq.issue else t1.seq.kept },
        raisedAt := some (if t1.seq.stopped then t1.raisedAt.getD gc else gc),
        unit := t1.unit.map (fun u => { u with closed := false }) }
      let t3 := match rec_ with
        | some e => traceAdd p t2 (eventTrace e)
        | none => t2
      let st := stopFor p l.idx evc epc done s1.ringNo
      let s3 := setPart (cancelStop s2 p) { putTile p l.idx t3 with
        stop := some st, lastEvent := some st,
        holds := if isFrozen p then [] else p.holds }
      noteReplay s3 p gc rec_

/-- An event that the tile itself raises. -/
def raiseEvent (s : State) (l : Loc) (cause detail : Nat) (precise : Bool) (epc : BitVec 16) (done : BitVec 8) : State :=
  raiseEventAs false s l cause detail precise epc done

/-- The cycle in which a bundle raises a precise event is the cycle of its issue, and counts by its mask
(R129, R344).
Log entry 25 (DEDUCED). -/
def countTrapped (g mask : Nat) (t : Tile) : Tile :=
  let t1 := ltcCycle t (ltcLevel t.loop) mask
  { t1 with seq := { t1.seq with lastCyc := some g } }

/-- Count activity for the estimator (R387). -/
def countAct (p : Part) (k n : Nat) : Part := { p with activity := mset 0 p.activity k (mget 0 p.activity k + n) }

/-- Count the slots of an issued bundle for the estimator (R387). -/
def countSlots (p : Part) (mask : Nat) : Part := forN 8 (fun k a => if bitN mask k then countAct a k 1 else a) p

/-- A precise event at a slot of the bundle under issue (R110, R344), whose slots the estimator counts (R387). -/
def raisePrecise (s : State) (l : Loc) (sl : Slot) (cause detail : Nat) : State :=
  match tileAt s l with
  | none => s
  | some (p, t) =>
    match t.seq.issue with
    | some is => raiseEvent (onPart s l.band (fun q => countSlots (modTile q l.idx (countTrapped p.gcyc is.mask)) is.mask)) l cause detail true (epcOf is.pc (slotNum sl)) (doneAt is.mask (slotNum sl))
    | none => raiseEvent s l cause detail true (epcOf t.seq.pc (slotNum sl)) (doneAt (2 ^ slotNum sl) (slotNum sl))

/-- The EPC of an imprecise event: the instruction it names, or the bundle of the cycle of the raise,
or the last bundle issued (R344). -/
def impreciseEpc (t : Tile) (named : Option (BitVec 13 × Nat)) : BitVec 16 :=
  match named with
  | some (pc, sl) => epcOf pc sl
  | none => epcOf t.seq.lastPc 0

/-- An imprecise event raised now. -/
def raiseImpreciseAs (hub : Bool) (s : State) (l : Loc) (cause detail : Nat) (named : Option (BitVec 13 × Nat)) : State :=
  match tileAt s l with
  | none => s
  | some (_, t) => raiseEventAs hub s l cause detail false (impreciseEpc t named) 0xFF

/-- One that the tile raises. -/
def raiseImprecise (s : State) (l : Loc) (cause detail : Nat) (named : Option (BitVec 13 × Nat)) : State :=
  raiseImpreciseAs false s l cause detail named

/-- Note an event that an engine, a router or the barrier unit finds in this cycle; it is raised when
the cycle's issue is over, so that a precise event of the cycle comes first (R344, R398). -/
def foundAdd (p : Part) (idx cause detail : Nat) (named : Option (BitVec 13 × Nat)) : Part :=
  { p with found := p.found ++ [{ tile := idx, cause, detail, epc := named }] }

/-- Note it in the module. -/
def findEvent (s : State) (l : Loc) (cause detail : Nat) (named : Option (BitVec 13 × Nat)) : State :=
  onPart s l.band (fun p => foundAdd p l.idx cause detail named)

/-- Edges of 8 µs (R220).
Log entry 34 (DEDUCED). -/
def closeEdges : Nat := 10400

/-- Something performed in the present cycle (R378: gcyc_end).
Log entry 66 (DEDUCED). -/
def performed (p : Part) : Part := { p with lastPerf := maxN p.lastPerf p.gcyc }

/-- A store of the present cycle is a result of the next one (R164, R165). -/
def performedNext (p : Part) : Part := { p with lastPerf := maxN p.lastPerf (p.gcyc + 1) }

/-- Draw the next number for a value the spec leaves open.
Log entry 7 (DESIGN CHOICE). -/
def drawFree (s : State) : State := { s with freeCtr := s.freeCtr + 1 }

/-- Issue order: the next number.
Log entry 8 (DESIGN CHOICE). -/
def nextSeq (s : State) : State := { s with seqNo := s.seqNo + 1 }

/-- Send a message out of the part.
Log entry 3 (DESIGN CHOICE). -/
def sendOut (s : State) (m : OutMsg) : State := { s with outbox := s.outbox ++ [m] }

/-! ## Watchpoints (R398) -/

/-- The bytes of a write that a watchpoint's mask covers. -/
def watchBytes (w : Watch) (a n : Nat) (mask : Nat) : Nat :=
  (upto n).foldl (fun acc i =>
    let b := a + i
    if bitN mask i && decide (w.base ≤ b) && decide (b < w.base + 16 * w.lines) && bitN w.mask (b - w.base) then acc + 2 ^ (b % 16) else acc) 0

/-- The watchpoints that a write hits, each with the bytes hit. -/
def watchHits (t : Tile) (a n mask : Nat) : List (Nat × Nat) :=
  (t.watches.map (fun e => (e.1, watchBytes e.2 a n mask))).filter (fun h => h.2 != 0)

/-- The watch trace record of a hit (R400). -/
def watchTrace (p : Part) (num line bytes kind src : Nat) (precise : Bool) : TraceRec :=
  { ty := 3, gcyc := p.gcyc,
    payload := [(0x18, 4, num + 8 * b2n precise + 16 * kind), (0x1C, 4, line), (0x20, 4, src), (0x24, 4, bytes), (0x28, 4, lead p)] }

/-- The hits of an engine write: for each an imprecise event of the cycle and a trace record. -/
def watchEngine (p : Part) (idx a n mask kind src : Nat) : Part :=
  (watchHits (getTile p idx) a n mask).foldl (fun p h =>
    foundAdd (modTile p idx (fun t => traceAdd p t (watchTrace p h.1 (lineOfAddr a) h.2 kind src false))) idx 0x0B h.1 none) p

end Sys2Proof.Machine
end

