-- ==== Sys2Proof/Machine/Flags.lean ====
section
/-! DEFINITION. The flag computations: which FLG bits an operation raises (R26, R45, R54, R57) and how
sets of flags combine (R27). The bits of single floating-point operations come with their results
(Machine/Fp.lean). -/

namespace Sys2Proof.Machine

/-- The flags of several elements or units together (R27). -/
def joinFlags (fs : List Flags) : Flags := fs.foldl (fun a f => a ||| f) 0

/-- The integer matrix path's overflow: the exact sum lies outside i32 (R57, R60). -/
def wrapFlag (x : Int) : Flags := flagIf (decide (x < -(2 ^ 31 : Int)) || decide ((2 ^ 31 : Int) ≤ x)) fOverflow

/-- The low 32 bits of an exact sum. -/
def wrap32 (x : Int) : Word := BitVec.ofInt 32 x

/-- Results with flags: the results in order, the flags together. -/
def splitFlags (rs : List (Nat × Flags)) : List Nat × Flags := (rs.map Prod.fst, joinFlags (rs.map Prod.snd))

/-- The rounding mode of an encoded field (R45, R93): 0 takes FPM. -/
def rndOf (t : Tile) (r : Nat) : Rnd :=
  let fpm : Rnd := match t.fpm.toNat with
    | 1 => .rtz
    | 2 => .rup
    | 3 => .rdn
    | 4 => .sr
    | _ => .rne
  match r with
  | 0 => fpm
  | 1 => .rne
  | 2 => .rtz
  | 3 => .rup
  | 4 => .rdn
  | _ => .sr

end Sys2Proof.Machine
end

