-- ==== Sys2Proof/Machine/Operands.lean ====
section
/-! DEFINITION. Operand forms: guards, register operands and their scoreboard codes, address
formation (R161), register pairs (R93, R193), barrier addresses (R194), due cycles (R231). -/

namespace Sys2Proof.Machine

/-- The guard that is always true (R92). -/
def always : Guard := { neg := false, kind := false, idx := 0 }

/-- Whether a guard evaluates true (R92). -/
def guardTrue (t : Tile) (g : Guard) : Bool :=
  (if g.kind then rsp t g.idx.toNat else rq t g.idx.toNat) != g.neg

/-- The register that a guard reads and the scoreboard checks; stage predicates have no record (R259). -/
def guardReads (g : Guard) : List Nat := if g.kind then [] else [codeQ g.idx.toNat]

/-- Scoreboard code of a vector operand, renamed (R127, R259). -/
def codeV (t : Tile) (v : BitVec 11) : Nat := vphys t.loop v.toNat

/-- A vector operand's value, renamed (R127). -/
def vop (t : Tile) (v : BitVec 11) : Line := rv t (vphys t.loop v.toNat)

/-- VEXT's element in a scalar register (R139): sign-extended for i4, i8 and i16. -/
def extend (ty : BitVec 4) (x : Nat) : Word :=
  if ty.toNat = 0 ∨ ty.toNat = 2 ∨ ty.toNat = 4 then BitVec.ofInt 32 (sgn (tyWidth ty.toNat) x) else BitVec.ofNat 32 x

/-- A 64-bit pair (R93). -/
def pairOf (t : Tile) (p : BitVec 4) : Nat := (rg t (2 * p.toNat)).toNat + 2 ^ 32 * (rg t (2 * p.toNat + 1)).toNat

/-- Scoreboard codes of a pair, the even register first.
Log entry 90 (DEDUCED). -/
def pairReads (p : BitVec 4) : List Nat := [codeG (2 * p.toNat), codeG (2 * p.toNat + 1)]

/-- Address arithmetic keeps bits [17:0] (R32). -/
def wrap18 (x : Int) : Nat := wrapN 18 x

/-- An element or line address (R161): base + offset + extra, wrapped, the low bits cleared. -/
def effAddr (base : Word) (off : Int) (extra : Int) (bits : Nat) : Nat :=
  alignDown bits (wrap18 ((base.toNat : Int) + off + extra))

/-- The two's-complement offset field off18. -/
def off18 (x : BitVec 18) : Int := x.toInt

/-- An 18-bit SRAM address taken from a register, its low bits cleared. -/
def regAddr (t : Tile) (g : BitVec 5) (bits : Nat) : Nat := alignDown bits (field (rg t g.toNat).toNat 0 18)

/-- Detail 0x0001 where a range of bytes reaches the end of the data SRAM (R32). -/
def rangeBad (a n : Nat) : Bool := decide (sramEnd < a + n)

/-- The first of several details that applies. -/
def firstSome (l : List (Option Nat)) : Option Nat := l.findSome? id

/-- Detail 0x0001 if a condition holds. -/
def det1 (c : Bool) : Option Nat := if c then some 0x0001 else none

/-- Detail 0x000A if a condition holds. -/
def detA (c : Bool) : Option Nat := if c then some 0x000A else none

/-- A barrier address from a register (R194): bits [17:0], nothing cleared. -/
def barAddr (t : Tile) (g : BitVec 5) : Nat := field (rg t g.toNat).toNat 0 18

/-- The checks of a named barrier address (R194): range first, then alignment. -/
def barFault1 (a : Nat) : Option Nat := det1 (decide (sramEnd ≤ a))
def barFault2 (a : Nat) : Option Nat := if a % 16 = 0 then none else some 0x0002

/-- A barrier named by a gK field in which 0 means none (R194). -/
def optBar (t : Tile) (g : BitVec 5) : Option Nat := if g = 0 then none else some (barAddr t g)

/-- Checks of an optional barrier. -/
def optBar1 (b : Option Nat) : Option Nat :=
  match b with
  | some a => barFault1 a
  | none => none
def optBar2 (b : Option Nat) : Option Nat :=
  match b with
  | some a => barFault2 a
  | none => none

/-- The granule addresses that a range of bytes touches, ascending (R33). -/
def granules (a n : Nat) : List Nat := (upto (cdiv (a % 8 + n) 8)).map (fun i => alignDown 3 a + 8 * i)

end Sys2Proof.Machine
end

