-- ==== Sys2Proof/Machine/SlotRun.lean ====
section
/-! DEFINITION. The one shared operation by which a slot instruction runs: the checks and refusals of
R415 in their order, then the instruction's effect. -/

namespace Sys2Proof.Machine

/-- What a slot instruction asks of the machine before its effect: everything that R415 checks. -/
structure Req where
  sl : Slot
  gu : Guard := always
  /-- The run-time checks of R109: the first detail that applies. -/
  check : Option Nat := none
  /-- The scale-layout fault's detail (R63). -/
  scale : Option Nat := none
  /-- Registers read, by code, in field order (R259, R261). -/
  reads : List Nat := []
  /-- Early MX state: the detail of R190. The instruction goes on in count mode. -/
  mxBad : Option Nat := none
  /-- A busy span or the pending limit (R189, R195, R231): no effect beyond the count. -/
  busy : Option Nat := none
  /-- The first refusal of R224: cause and detail. -/
  refuse : Option (Nat × Nat) := none
  /-- Writes an ST watchpoint sees (R398): address, bytes, byte mask. -/
  watch : List (Nat × Nat × Nat) := []
  /-- Local bank accesses (R159): addresses. -/
  lines : List Nat := []
  /-- Bytes read into architectural state (R170): address, bytes. -/
  mreads : List (Nat × Nat) := []
  /-- Accumulator elements read at issue, by their keys (R354). -/
  zreads : List Nat := []
  /-- Reads and writes that the conditions of R242 see beyond `mreads`. -/
  auReads : List (Nat × Nat) := []
  auWrites : List (Nat × Nat) := []
  /-- An instruction that leaves an audit unit open (R242). -/
  opens : Bool := false

/-- One range of bytes inside another list of ranges (base, length). -/
def inRanges (rs : List (Nat × Nat)) (a n : Nat) : Bool :=
  rs.any (fun r => decide (r.1 ≤ a) && decide (a + n ≤ r.1 + r.2))

/-- The conditions of R242 on a unit's own reads and writes. -/
def auditMem (t : Tile) (reads writes : List (Nat × Nat)) : Tile :=
  match t.unit with
  | none => t
  | some u =>
    if u.readAt && !(reads.all (fun r => inRanges (u.ins ++ u.outs) r.1 r.2) && writes.all (fun r => inRanges u.outs r.1 r.2)) then
      { t with unit := some { u with closed := false } }
    else t

/-- An instruction or engine write that breaks the conditions of R242. -/
def auditOpen (t : Tile) : Tile := { t with unit := t.unit.map (fun u => { u with closed := false }) }

/-- The first late operand's detail (R261). -/
def lateDetail (t : Tile) (g : Nat) (codes : List Nat) : Option Nat :=
  (codes.find? (fun c => isLate t g c)).map (fun c => 0x1000 + c)

/-- The first poisoned granule among those read (R170). -/
def consumed (t : Tile) (rs : List (Nat × Nat)) : Option Nat :=
  (rs.flatMap (fun r => granules r.1 r.2)).find? (fun a =>
    (mfind t.held (lineOfAddr a)).isNone && granBad t (a / 8))

/-- Mark what a read found (R169).
Log entry 16 (DEDUCED). -/
def markReads (t : Tile) (rs : List (Nat × Nat)) : Tile :=
  (rs.flatMap (fun r => granules r.1 r.2)).foldl (fun t a => markRead t (a / 8)) t

/-- The first register in error among those read (R354).
Log entry 28 (DESIGN CHOICE). -/
def regBad (t : Tile) (codes : List Nat) : Option Nat :=
  (codes.find? (fun c => smem t.regErr c)).map (fun c => 0xC000 + c)

/-- Count one scoreboard violation of a slot operation (R260). -/
def countSb (t : Tile) : Tile := { t with sbCount := satInc t.sbCount }

/-- The issue record of the bundle under issue; outside a bundle, an empty one at the pc. -/
def issueOf (t : Tile) (sl : Slot) : Issue :=
  t.seq.issue.getD {
    pc := t.seq.pc, mask := 2 ^ slotNum sl, le := false, slots := [], next := t.seq.pc + 1,
    inDelay := false, sTransfer := false }

/-- The watchpoints that a store hits, with the line and the bytes; not the one that stopped the bundle before,
where this is its re-issue (R397). -/
def stWatch (t : Tile) (is : Issue) (ws : List (Nat × Nat × Nat)) : List (Nat × Nat × Nat) :=
  (ws.flatMap (fun w => (watchHits t w.1 w.2.1 w.2.2).map (fun h => (h.1, lineOfAddr w.1, h.2)))).filter
    (fun h => is.muted != some (.watch h.1))

/-- A store's hits (R398): each makes a trace record, and the first stops the bundle precisely at ST, which raises no
further event (R109).
Log entry 73 (DEDUCED). -/
def raiseWatches (s : State) (l : Loc) (sl : Slot) (hs : List (Nat × Nat × Nat)) : State :=
  let s1 := hs.foldl (fun s h => onPart s l.band (fun p =>
    modTile p l.idx (fun t => traceAdd p t (watchTrace p h.1 h.2.1 h.2.2 0 0 true)))) s
  match hs with
  | [] => s1
  | h :: _ => raisePrecise s1 l sl 0x0B h.1

/-- The scoreboard's verdict on a slot (R259, R260): the detail of its violation, if any.
Log entry 12 (DEDUCED). -/
def sbDetail (t : Tile) (g : Nat) (r : Req) (run : Bool) : Option Nat :=
  firstSome (if run then [lateDetail t g (guardReads r.gu ++ r.reads), r.mxBad, r.busy] else [lateDetail t g (guardReads r.gu)])

/-- The last steps of R415 for a slot that executes: refusals, watchpoints, banks, poison, effect. -/
def runTail (s : State) (l : Loc) (t : Tile) (r : Req) (eff : State → State) : State :=
  match r.refuse with
  | some (c, d) => raisePrecise s l r.sl c d
  | none =>
    match stWatch t (issueOf t r.sl) r.watch with
    | h :: hs => raiseWatches s l r.sl (h :: hs)
    | [] =>
      match localScan t (issueOf t r.sl) (slotNum r.sl) r.lines with
      | (_, some bad) =>
        let d := localBits t (issueOf t r.sl) (slotNum r.sl) bad
        raisePrecise (onTile s l (fun t => { t with accs := t.accs.map (fun e => if e.bank = bankOf bad then { e with won := true } else e) }))
          l r.sl 0x03 d
      | (is, none) =>
        match consumed t r.mreads with
        | some a => raisePrecise (onTile s l (fun t => markReads t r.mreads)) l r.sl 0x09 (a / 8)
        | none =>
          match firstSome [regBad t (guardReads r.gu ++ r.reads), if r.zreads.any (smem t.zErr) then some 0xCFFF else none] with
          | some d => raisePrecise s l r.sl 0x09 d
          | none =>
            let s1 := onTile s l (fun t =>
              let t1 := if t.seq.issue.isSome then
                  { t with seq := { t.seq with issue := some { is with
                    ranCp := is.ranCp || r.opens || r.sl == .cp, was := if r.sl == .st then is.was ++ lineContents t r.lines else is.was } } } else t
              let t2 := auditMem (markReads t1 r.mreads) (r.mreads ++ r.auReads) r.auWrites
              if r.opens || r.sl == .cp then auditOpen t2 else t2)
            eff (onPart s1 l.band (fun p => countAct p 8 r.lines.length))

/-- A slot whose guard evaluates false reads nothing but that predicate, which may be in error (R259, R354). -/
def skipSlot (s : State) (l : Loc) (t : Tile) (r : Req) : State :=
  match regBad t (guardReads r.gu) with
  | some d => raisePrecise s l r.sl 0x09 d
  | none => s

/-- Run a slot instruction: the checks of R415 in order; a guard that evaluates false suppresses
everything after the scoreboard's check of the guard (R92, R259). -/
def runSlot (i : Instr) (req : Part → Tile → Req) (eff : Part → Tile → State → State) (s : State) : Result :=
  match tileAt s s.cur with
  | none => .fault .noTile
  | some (p, t) =>
    let r := req p t
    match firstSome [encFault i, r.check] with
    | some d => .next (raisePrecise s s.cur r.sl 0x01 d)
    | none =>
      match r.scale with
      | some d => .next (raisePrecise s s.cur r.sl 0x0A d)
      | none =>
        let run := guardTrue t r.gu
        match sbDetail t p.gcyc r run with
        | some d =>
          if t.sbMode then
            let s1 := onTile s s.cur countSb
            if run then (if r.busy.isNone then .next (runTail s1 s.cur (countSb t) r (eff p t)) else .next s1)
            else .next (skipSlot s1 s.cur (countSb t) r)
          else .next (raisePrecise s s.cur r.sl 0x02 d)
        | none => if run then .next (runTail s s.cur t r (eff p t)) else .next (skipSlot s s.cur t r)

/-- Put a result of the current tile in flight: it lands `lat` cycles after issue (R257). -/
def result (s : State) (sl : Slot) (lat : Nat) (d : Dest) (f : Flags) : State :=
  let s1 := nextSeq s
  match getPart s s.cur.band with
  | none => s1
  | some p => setPart s1 (modTile p s.cur.idx (fun t =>
      fly t { issued := cycOf p s.cur.idx, due := cycOf p s.cur.idx + lat, slot := slotNum sl, seq := s.seqNo, dest := d, flags := f }))

/-- Change the issue record of the bundle under issue. -/
def onIssue (s : State) (f : Issue → Issue) : State :=
  onTile s s.cur (fun t => { t with seq := { t.seq with issue := t.seq.issue.map f } })

end Sys2Proof.Machine
end

