-- ==== Sys2Proof/Machine/Sequencer.lean ====
section
/-! DEFINITION. The sequencer of a tile: fetching a bundle (R89 to R91, R109), loop-back (R124),
control transfers (R119 to R121, R125), and what takes effect when a bundle ends. -/

namespace Sys2Proof.Machine

/-- The IMEM word at an address, which wraps modulo 8192 (R31).
Log entry 5 (DESIGN CHOICE). -/
def imemWord (t : Tile) (a : Nat) : Word := mget 0 t.imem (a % 8192)

/-- The header at an address. -/
def headerAt (t : Tile) (pc : BitVec 13) : Header := headerOf (imemWord t pc.toNat).toNat

/-- The words after a header. -/
def bodyWords (t : Tile) (pc : BitVec 13) (mask : Nat) : List Word :=
  (upto (bundleWords mask - 1)).map (fun k => imemWord t (pc.toNat + 1 + k))

/-- Header address of the word after a bundle (R31: it wraps). -/
def afterBundle (t : Tile) (pc : BitVec 13) : BitVec 13 := pc + BitVec.ofNat 13 (bundleWords (headerAt t pc).mask)

/-! ## Hardware loops -/

/-- Close the innermost level: its counter becomes 0, and renaming falls back (R124, R125, R127). -/
def closeLevel (lp : LoopSt) : LoopSt :=
  let n := lp.levels.length - 1
  let rest := lp.levels.dropLast
  match lp.levels.getLast? with
  | none => lp
  | some lev =>
    let lp1 := { lp with levels := rest, lc := mset 0 lp.lc n 0 }
    if lev.rv then
      let w := match (rest.filter (fun e => e.rv)).getLast? with
        | some e => e.window
        | none => 0
      { lp1 with rb := 0, window := w }
    else lp1

/-- An le bundle at a header address (R124): the loop state after it, and where the next bundle is if
a level loops back. -/
def loopBack (fuel : Nat) (lp : LoopSt) (pc : BitVec 13) : LoopSt × Option (BitVec 13) :=
  match fuel with
  | 0 => (lp, none)
  | k + 1 =>
    match lp.levels.getLast? with
    | none => (lp, none)
    | some lev =>
      if lev.end_ ≠ pc then (lp, none)
      else
        let n := lp.levels.length - 1
        let c := mget 0 lp.lc n
        if 1 < c.toNat then
          let c1 := c - 1
          let sp1 := if lev.rp then (lp.sp <<< 1) ||| BitVec.ofNat 8 (b2n (decide (lev.d < c1.toNat))) else lp.sp
          let rb1 := if lev.rv then (lp.rb + lp.window - 1) % lp.window else lp.rb
          ({ lp with lc := mset 0 lp.lc n c1, sp := sp1, rb := rb1 }, some lev.start)
        else loopBack k (closeLevel lp) pc

/-- Open a level (R123); a trip count of 0 opens none, and LOOP traps before there would be a seventh. -/
def openLevel (lp : LoopSt) (o : LoopOpen) : LoopSt :=
  if o.trips = 0 ∨ 6 ≤ lp.levels.length then lp
  else
    let n := lp.levels.length
    { lp with
      levels := lp.levels ++ [o.lev],
      lc := mset 0 lp.lc n o.trips,
      sp := if o.lev.rp then BitVec.ofNat 8 (b2n (decide (0 < o.n))) else lp.sp,
      rb := if o.lev.rv then 0 else lp.rb,
      window := if o.lev.rv then o.lev.window else lp.window }

/-- Whether an address lies in a level's body. -/
def inBody (lev : Level) (a : BitVec 13) : Bool := decide (lev.start.toNat ≤ a.toNat) && decide (a.toNat ≤ lev.end_.toNat)

/-- A transfer that leaves bodies closes their levels when its target issues (R125). -/
def closeLeft (fuel : Nat) (lp : LoopSt) (from_ target : BitVec 13) : LoopSt :=
  match fuel with
  | 0 => lp
  | k + 1 =>
    match lp.levels.getLast? with
    | none => lp
    | some lev => if inBody lev from_ && !inBody lev target then closeLeft k (closeLevel lp) from_ target else lp

/-- The target of a transfer issues: the levels that the transfer leaves are closed, and the target runs
under the loop state that is left (R119, R125).
Log entry 69 (DEDUCED). -/
def enterTarget (t : Tile) : Tile :=
  match t.seq.xfer with
  | some x =>
    if x.delay = 0 then
      { t with loop := if x.closes then closeLeft 7 t.loop x.from_ x.target else t.loop, seq := { t.seq with xfer := none } }
    else t
  | none => t

/-! ## The body buffer (R128) -/

/-- Bundles, by their header words, from an address to the end of a body: none past a number of them. -/
def bodyHeaders (fuel : Nat) (t : Tile) (pc end_ : BitVec 13) : Option Nat :=
  match fuel with
  | 0 => none
  | k + 1 => if pc = end_ then some 1 else (bodyHeaders k t (afterBundle t pc) end_).map (fun n => n + 1)

/-- A loop-back ends the first trip of the innermost body: one of at most 32 header words runs from the
buffer from then on.
Log entry 48 (DEDUCED). -/
def bufferBody (t : Tile) (lp : LoopSt) : LoopSt :=
  match lp.levels.getLast? with
  | none => lp
  | some lev =>
    if (bodyHeaders 32 t lev.start lev.end_).isSome then { lp with levels := lp.levels.dropLast ++ [{ lev with buffered := true }] } else lp

/-- Whether a bundle is issued from the body buffer, so that IMEM is not read for it. -/
def fromBuffer (lp : LoopSt) (pc : BitVec 13) : Bool := lp.levels.any (fun lev => lev.buffered && inBody lev pc)

/-! ## Opening a bundle -/

/-- A bundle-level stop (R110): no slot executes, and the cycle counts as an empty one of R348.
Log entry 25 (DEDUCED). -/
def bundleTrap (s : State) (l : Loc) (pc : BitVec 13) (cause detail : Nat) (done : BitVec 8) : State :=
  raiseEvent (onTile s l (fun t => { t with seq := { t.seq with lastPc := pc } })) l cause detail true (epcOf pc 0) done

/-- IMEM words of a bundle in error (R354): the first. -/
def imemBad (t : Tile) (pc : BitVec 13) (n : Nat) : Option Nat :=
  ((upto n).map (fun k => (pc.toNat + k) % 8192)).find? (fun a => smem t.imemErr a)

/-- Slots of a bundle with the suppressed ones of a resumption left out (R264). -/
def unsuppressed (done : Option (BitVec 8)) (sl : List (Slot × Nat)) : List (Slot × Nat) :=
  match done with
  | none => sl
  | some d => sl.filter (fun e => !d.getLsbD (slotNum e.1))

/-- Whether a slot's bits hold a control transfer (R228). -/
def isTransfer (sl : List (Slot × Nat)) : Bool :=
  sl.any (fun e => e.1 == .s && (0x40 ≤ field e.2 40 8 && field e.2 40 8 ≤ 0x44))

/-- What stopped a bundle at a precise event of debug (R394, R397, R398). -/
def stoppedBy (t : Tile) (k : Issue) : Option BreakBy :=
  match k.broke with
  | some n => some (.slotBreak n)
  | none =>
    if field t.evc.toNat 0 8 = 0x0C then some .bkpt
    else if field t.evc.toNat 0 8 = 0x0B then some (.watch (field t.evc.toNat 16 3)) else none

/-- What fetching gives. -/
inductive Opened where
  /-- Nothing executes: a bundle-level event was raised. -/
  | trapped (s : State)
  /-- An empty bundle of a fold is to execute (R90). -/
  | empty (s : State) (h : Header)
  /-- A bundle's slots are to execute. -/
  | slots (s : State)
  deriving DecidableEq, Repr

/-- Fetch the next bundle of a tile (R89 to R91), with the bundle-level checks of R109 and the
error check of R354, and make it the bundle under issue. A word in error is found before the checks are
made on it, and among the words of a bundle that runs past the end of IMEM too, which wrap.
Log entry 70 (DEDUCED). -/
def openBundle (s : State) (l : Loc) (t : Tile) : Opened :=
  let pc := t.seq.pc
  let h := headerAt t pc
  let ws := bodyWords t pc h.mask
  let e := enterTarget t
  match (if fromBuffer e.loop pc then none else imemBad t pc (bundleWords h.mask)) with
  | some a => .trapped (bundleTrap s l pc 0x09 (0x8000 + a) 0)
  | none =>
    match bundleFault pc.toNat h ws with
    | some d => .trapped (bundleTrap s l pc 0x01 d (doneBundle h.mask))
    | none =>
      if h.mask = 0 then .empty s h
      else
        let all := cutSlots h.mask ws
        let is : Issue := {
          pc := pc, mask := h.mask, le := h.le, slots := unsuppressed t.seq.resumeDone all,
          next := afterBundle t pc,
          inDelay := match t.seq.xfer with
            | some x => decide (0 < x.delay)
            | none => false,
          sTransfer := isTransfer all }
        let is : Issue := match t.seq.resumeDone, t.seq.kept with
          | some _, some k => { is with
            loopOpen := k.loopOpen, xfer := k.xfer, waitc := k.waitc, halt := k.halt, push := k.push, pop := k.pop, ranCp := k.ranCp,
            muted := stoppedBy t k }
          | _, _ => is
        .slots (onPart s l.band (fun p =>
          let t1 := { e with seq := { e.seq with issue := some is, lastPc := pc, resumeDone := none, kept := none } }
          let t2 := if h.tt then
              traceAdd p t1 { ty := 1, gcyc := p.gcyc, payload := [(0x18, 4, pc.toNat * 2 ^ 19 + h.mask * 2 ^ 11)] } else t1
          putTile p l.idx t2))

/-! ## Ending a bundle -/

/-- Where a LOOP or LOOPI with trip count 0 goes on: past the bundle at its end (R123). -/
def afterLoop (t : Tile) (o : LoopOpen) : BitVec 13 := afterBundle t o.lev.end_

/-- The region entry a CROPEN pushes at the end of its bundle (R239). -/
def regionEntry (t : Tile) (g : Nat) (lp : LoopSt) (handler : BitVec 13) (budget : Nat) (reentry : BitVec 13) : Region :=
  let t1 := landDue t (g + 1)
  { handler := handler, retries := budget, reentry := reentry, g := t1.g, q := t1.q, loop := lp, serial := t.serial }

/-- The return address of a CALL is the next of ordinary sequencing after the second delay bundle, or the word after the
header where that is an empty bundle of a fold (R120): where the delay bundles have led elsewhere than the CALL could tell,
g31, if it still holds what the CALL wrote, takes that address.
Log entry 26 (DEDUCED). -/
def fixLink (t : Tile) (x : Xfer) (exact : BitVec 13) : Tile :=
  match x.link with
  | some a => if a ≠ exact ∧ rg t 31 = a.zeroExtend 32 then wg t 31 (exact.zeroExtend 32) else t
  | none => t

/-- The end of a bundle (or of an empty bundle): the cycle is counted (R129); its le, its LOOP, its
transfer, its WAITC, HALT and region changes take effect for the next cycle.
Log entry 48 (DEDUCED). -/
def closeBundle (p : Part) (t : Tile) (is : Issue) : Tile :=
  let t1 := ltcCycle t (ltcLevel t.loop) is.mask
  let lb := if is.le && !is.inDelay then loopBack 7 t.loop is.pc else (t.loop, none)
  let lp0 := if lb.2.isSome then bufferBody t lb.1 else lb.1
  let lp1 := match is.loopOpen with
    | some o => openLevel lp0 o
    | none => lp0
  let fall : BitVec 13 × Option Nat := match is.nextFold with
    | some n => (is.pc, some n)
    | none =>
      match is.loopOpen with
      | some o => if o.trips = 0 then (afterLoop t o, none) else (is.next, none)
      | none => (lb.2.getD is.next, none)
  let running := t.seq.xfer.map (fun x => { x with delay := x.delay - 1 })
  let pend : Option Xfer := match is.xfer with
    | some x => some x
    | none => running
  let arrive : Option Xfer := match pend with
    | some x => if x.delay = 0 then some x else none
    | none => none
  let t1 := match arrive with
    | some x => fixLink t1 x (if fall.2.isSome then fall.1 + 1 else fall.1)
    | none => t1
  let next := (enterTarget { t with loop := lp1, seq := { t.seq with xfer := arrive } }).loop
  let pc1 := match arrive with
    | some x => x.target
    | none => fall.1
  let fold1 := if arrive.isSome then none else fall.2
  let regs0 := if is.pop then t.regions.drop 1 else t.regions
  let serial1 := if is.push.isSome then (t.serial + 1) % 65536 else t.serial
  let regs1 := match is.push with
    | some (h, b) => regionEntry { t1 with serial := serial1 } p.gcyc next h b pc1 :: regs0
    | none => regs0
  let stray := fun (u : Unit_) => u.readAt && decide (u.openCyc < p.gcyc) &&
    !(decide (u.codeFirst ≤ is.pc.toNat) && decide (is.pc.toNat ≤ u.codeLast))
  { t1 with
    loop := lp1, regions := regs1, serial := serial1,
    unit := t.unit.map (fun u => if stray u then { u with closed := false } else u),
    seq := { t.seq with
      pc := pc1, fold := fold1, issue := none, lastPc := is.pc, lastCyc := some p.gcyc,
      xfer := pend,
      hold := match is.waitc with
        | some c => c
        | none => t.seq.hold,
      halted := t.seq.halted || is.halt } }

/-- End the bundle under issue of a tile and take the tile off the cycle's list. -/
def endBundle (s : State) (l : Loc) : State :=
  let s1 := onPart s l.band (fun p =>
    let t := getTile p l.idx
    match t.seq.issue with
    | some is => putTile (countSlots p is.mask) l.idx (closeBundle { p with gcyc := cycOf p l.idx } t is)
    | none => p)
  { s1 with todo := s1.todo.filter (fun e => e != l) }

/-- Whether a tile still has slots of its bundle to execute. -/
def slotsLeft (s : State) (l : Loc) : Bool :=
  match tileAt s l with
  | some (_, t) =>
    match t.seq.issue with
    | some is => !is.slots.isEmpty
    | none => false
  | none => false

/-- Whether a tile has a bundle under issue. -/
def underIssue (s : State) (l : Loc) : Bool :=
  match tileAt s l with
  | some (_, t) => t.seq.issue.isSome
  | none => false

/-- What follows a slot: the next slot's turn, or the end of the bundle; a tile that stopped is
taken off the list. -/
def afterSlot (s : State) (l : Loc) : State :=
  if slotsLeft s l then s
  else if underIssue s l then endBundle s l
  else { s with todo := s.todo.filter (fun e => e != l) }

/-- Take the next slot of the bundle under issue. -/
def takeSlot (s : State) (l : Loc) : Option (Slot × Nat × State) :=
  match tileAt s l with
  | none => none
  | some (_, t) =>
    match t.seq.issue with
    | none => none
    | some is =>
      match is.slots with
      | [] => none
      | (sl, w) :: r =>
        some (sl, w, onTile s l (fun t => { t with seq := { t.seq with issue := some { is with slots := r } } }))

/-- The slot breakpoint that a slot of a tile's bundle takes (R394): its index. A resumed bundle
ignores the breakpoint that stopped it (R397). -/
def slotBreak (p : Part) (idx : Nat) (is : Issue) (sl : Slot) : Option Nat :=
  let hits := p.slotBreaks.filter (fun b =>
    is.muted != some (.slotBreak b.1) &&
    (b.2.1 == none || b.2.1 == some idx) && b.2.2.1 == is.pc.toNat &&
    ((upto 8).find? (fun k => bitN is.mask k && bitN b.2.2.2 k)) == some (slotNum sl))
  hits.head?.map (fun b => b.1)

/-- A breakpoint that the slot about to execute takes. -/
def breakFor (s : State) (l : Loc) (sl : Slot) : Option Nat :=
  match tileAt s l with
  | some (p, t) =>
    match t.seq.issue with
    | some is => slotBreak p l.idx is sl
    | none => none
  | none => none

/-- Continue after an instruction. -/
def andThen (r : Result) (f : State → State) : Result :=
  match r with
  | .next s => .next (f s)
  | .fault e => .fault e
  | .refused e => .refused e

/-- Execute one slot of the bundle under issue: a slot breakpoint first (R394, R415), then the
instruction that the slot's bits decode to, or the trap of R109 with which they are rejected.
Log entry 62 (DEDUCED). -/
def slotStep (ex : Instr → State → Result) (s : State) (l : Loc) : Result :=
  match takeSlot s l with
  | none => .next (afterSlot s l)
  | some (sl, w, s1) =>
    match breakFor s1 l sl with
    | some n =>
      let s2 := onTile s1 l (fun t => { t with seq := { t.seq with issue := t.seq.issue.map (fun is => { is with broke := some n }) } })
      .next (afterSlot (raisePrecise s2 l sl 0x0C n) l)
    | none =>
      match decodeSlot sl w with
      | .ok i => andThen (ex i s1) (fun s2 => afterSlot s2 l)
      | .error d => .next (afterSlot (raisePrecise s1 l sl 0x01 d) l)

/-- One step of the tile at the head of the cycle's list: fetch a bundle if none is under issue, then
execute its next slot.
Log entry 1 (DESIGN CHOICE). -/
def tileStep (ex : Instr → State → Result) (s : State) (l : Loc) : Result :=
  let s0 := { s with cur := l }
  match tileAt s0 l with
  | none => .next { s0 with todo := s0.todo.filter (fun e => e != l) }
  | some (_, t) =>
    if t.seq.halted || t.seq.stopped then .next { s0 with todo := s0.todo.filter (fun e => e != l) }
    else if t.seq.issue.isSome then slotStep ex s0 l
    else
      match openBundle s0 l t with
      | .trapped s1 => .next (afterSlot s1 l)
      | .slots s1 => slotStep ex s1 l
      | .empty s1 h => andThen (ex (.emptyBundle (BitVec.ofNat 12 h.fold) h.le h.tt) s1) (fun s2 => endBundle s2 l)

/-- An empty bundle of a fold header issues (R90): nothing changes but the counts at its end. -/
def execEmptyBundle (fold : BitVec 12) (le tt : Bool) (s : State) : Result :=
  match tileAt s s.cur with
  | none => .fault .noTile
  | some (p, t0) =>
    let t := enterTarget t0
    let left := match t.seq.fold with
      | some n => n - 1
      | none => fold.toNat
    let is : Issue := {
      pc := t.seq.pc, mask := 0, le := le && left == 0, slots := [], next := t.seq.pc + 1,
      inDelay := match t.seq.xfer with
        | some x => decide (0 < x.delay)
        | none => false,
      sTransfer := false, nextFold := if left = 0 then none else some left }
    let t1 := { t with seq := { t.seq with issue := some is, lastPc := t.seq.pc, resumeDone := none } }
    let t2 := if tt && t.seq.fold.isNone then
        traceAdd p t1 { ty := 1, gcyc := p.gcyc, payload := [(0x18, 4, t.seq.pc.toNat * 2 ^ 19)] } else t1
    .next (onTile s s.cur (fun _ => t2))

/-- A slot holds a free code (R107): a precise illegal-instruction trap, detail 0x0007. -/
def execUnassignedOpcode (sl : Slot) (_op : BitVec 8) (s : State) : Result :=
  match tileAt s s.cur with
  | none => .fault .noTile
  | some _ => .next (raisePrecise s s.cur sl 0x01 0x0007)

end Sys2Proof.Machine
end

