-- ==== Sys2Proof/Machine/Schedule.lean ====
section
/-! DEFINITION. When the steps of the hardware fall due: which events a tile, a partition or a port has
at a cycle or a clock edge, in the rank order of R167 and R182. -/

namespace Sys2Proof.Machine

/-! ## MX streams (R178 to R188) -/

/-- Bits of an element of a rank or stream type. -/
def tyBits (t : Nat) : Nat := tyWidth t

/-- Bytes of a ZST (R181). -/
def zstBytes (t : Nat) : Nat := 256 * tyBits t / 8

/-- Halfword offset of a list in its first line (R187). -/
def listOff (ga : Nat) : Nat := (ga / 2) % 8

/-- Blocks of a RANK, its latency and its list lines (R186). -/
def rankBlocks (n : Nat) : Nat := cdiv n 16
def rankLat (n : Nat) : Nat := 3 * rankBlocks n + 10
def rankLines (k : Nat) : Nat := cdiv (8 + 2 * k) 16

/-- List lines of an RKACC or UNRANK, and dense lines of an UNRANK (R187, R188). -/
def listLines (ga n : Nat) : Nat := cdiv (listOff ga + n) 8
def denseLines (t len : Nat) : Nat := cdiv (len * tyBits t) 128

/-- First cycle offset at which an MX instruction has nothing left to do. -/
def mxEnd (k : MxKind) : Nat :=
  match k with
  | .clr _ _ => 2
  | .zld _ _ => 12
  | .zst _ _ _ _ _ => 9
  | .mma _ _ _ _ _ _ => 7
  | .mmaq _ _ _ _ _ _ _ _ _ => 7
  | .scalc _ _ _ _ => 7
  | .attld _ c _ => cdiv c 8 + 2
  | .rank _ n k _ _ _ => rankLat n + rankLines k
  | .rkacc _ _ _ n _ _ => n + 6
  | .unrank t n len ga _ => listLines ga n + 1 + denseLines t len + 1

/-- The accumulator and table changes of an MX instruction at x cycles after issue. -/
def mxChanges (l : Loc) (op : MxOp) (x : Nat) : List Instr :=
  match op.kind with
  | .clr _ _ => if x = 1 then [.accumulatorChange l op.id false] else []
  | .zld _ _ => if 4 ≤ x ∧ x < 12 then [.zldRowPair l op.id (x - 4) true] else []
  | .zst _ _ _ _ _ => []
  | .mma _ _ _ _ _ _ => if x = 6 then [.accumulatorChange l op.id false] else []
  | .mmaq _ _ _ _ _ _ _ _ _ => if x = 6 then [.accumulatorChange l op.id false] else []
  | .scalc _ _ _ _ => if x = 6 then [.accumulatorChange l op.id false] else []
  | .attld _ c _ => if x = cdiv c 8 + 1 then [.attldEntryLand l op.id none] else []
  | .rank _ _ _ _ _ _ => []
  | .rkacc _ _ _ n _ _ => if 6 ≤ x ∧ x < 6 + n then [.rkaccTerm l op.id (x - 6) .perform] else []
  | .unrank _ _ _ _ _ => []

/-- Row pairs that a ZST reads from its accumulator at x cycles after issue, after the changes. -/
def mxZreads (l : Loc) (op : MxOp) (x : Nat) : List Instr :=
  match op.kind with
  | .zst _ _ _ _ _ => if 1 ≤ x ∧ x < 8 then [.zstRowPair l op.id x false] else []
  | _ => []

/-- Matrix-engine writes (R182). -/
def mxWrites (l : Loc) (op : MxOp) (x : Nat) : List Instr :=
  match op.kind with
  | .zst _ _ _ _ _ => if 1 ≤ x ∧ x ≤ 8 then [.zstRowPair l op.id (x - 1) true] else []
  | _ => []

/-- Rank-unit writes (R182). -/
def rankWrites (l : Loc) (op : MxOp) (x : Nat) : List Instr :=
  match op.kind with
  | .rank _ n k _ _ _ => if rankLat n ≤ x + 1 ∧ x + 1 < rankLat n + rankLines k then [.rankListWrite l op.id (x + 1 - rankLat n)] else []
  | .unrank t n len ga _ =>
    let lr := listLines ga n
    if lr < x ∧ x ≤ lr + denseLines t len then [.unrankLineWrite l op.id (x - lr - 1) .perform] else []
  | _ => []

/-- Engine reads of MX streams. -/
def mxReads (l : Loc) (op : MxOp) (x : Nat) : List Instr :=
  match op.kind with
  | .clr _ _ => []
  | .zld _ _ => if 1 ≤ x ∧ x < 8 then [.zldRowPair l op.id x false] else []
  | .zst _ _ _ _ _ => []
  | .mma _ _ _ _ _ _ => []
  | .mmaq _ _ _ _ _ _ _ _ _ => if x = 1 then [.accumulatorChange l op.id true] else []
  | .scalc _ _ _ _ => if x = 1 then [.accumulatorChange l op.id true] else []
  | .attld _ c _ => if 1 ≤ x ∧ x < cdiv c 8 then [.attldEntryLand l op.id (some x)] else []
  | .rank _ n _ _ _ _ => if x % 3 = 0 ∧ 0 < x ∧ x / 3 < rankBlocks n then [.rankBlockRead l op.id (x / 3)] else []
  | .rkacc _ _ _ n ga _ =>
    let o := listOff ga
    let list := ((upto (listLines ga n)).filter (fun j => decide (0 < j) && decide (x = 8 * j - o))).map (fun j => Instr.rkaccTerm l op.id j .list)
    let term := if 1 ≤ x ∧ x ≤ n then [Instr.rkaccTerm l op.id (x - 1) .read] else []
    list ++ term
  | .unrank _ n _ ga _ =>
    if 1 ≤ x ∧ x < listLines ga n then [.unrankLineWrite l op.id x .list]
    else if x = listLines ga n then [.unrankLineWrite l op.id 0 .read] else []

/-! ## Copy engine, DRAM bursts, puts -/

/-- Flits per unit of a copy (R205). -/
def unitFlits (w : Bool) : Nat := if w then 2 else 1

/-- Engine reads of the copy engine at x cycles after issue. -/
def copyReads (l : Loc) (c : CopyOp) (x : Nat) : List Instr :=
  match c.kind with
  | .cpy _ w _ _ _ _ _ _ =>
    let f := unitFlits w
    if 1 ≤ x ∧ (x - 1) % f = 0 ∧ (x - 1) / f < c.units then [.copyUnit l ((x - 1) / f)] else []
  | .cpg _ _ _ _ => if 1 ≤ x ∧ x < c.units then [.cpgLine l x false] else []
  | .rksend _ _ _ _ _ _ => if 1 ≤ x ∧ x < c.units then [.rksendFlit l x] else []

/-- CPG line writes, which rank as own-tile deposits (R206). -/
def copyWrites (l : Loc) (c : CopyOp) (x : Nat) : List Instr :=
  match c.kind with
  | .cpy _ _ _ _ _ _ _ _ => []
  | .cpg _ _ _ _ => if 2 ≤ x ∧ x < c.units + 2 then [.cpgLine l (x - 2) true] else []
  | .rksend _ _ _ _ _ _ => []

/-- First cycle offset at which a copy has nothing left to do. -/
def copyEnd (c : CopyOp) : Nat :=
  match c.kind with
  | .cpy _ w _ _ _ _ _ _ => 1 + unitFlits w * c.units
  | .cpg _ _ _ _ => c.units + 2
  | .rksend _ _ _ _ _ _ => c.units

/-- DRD windows due at a cycle (R210). -/
def burstWrites (l : Loc) (t : Tile) (g : Nat) : List Instr :=
  (t.bursts.filter (fun b => b.read && g == b.t + 104)).map (fun b => .drdWindow l b.id)

/-- DWR source reads due at a cycle (R210). -/
def burstReads (l : Loc) (t : Tile) (g : Nat) : List Instr :=
  (t.bursts.filter (fun b => !b.read && g == b.t + 2)).map (fun b => .dwrRead l b.id)

/-- LNKP source lines due at a cycle (R218). -/
def putReads (l : Loc) (t : Tile) (g : Nat) : List Instr :=
  (t.puts.filter (fun u => decide (u.t < g) && decide (g - u.t < u.n / 16))).map (fun u => .lnkpSourceRead l u.id (g - u.t))

/-! ## Pending slots (R231 to R237) -/

/-- The check cycle of a slot (R235, R237).
Log entry 21 (DEDUCED). -/
def checkCyc (p : Part) (w : PSlot) : Nat :=
  match w.bar with
  | some _ => maxN (w.due - lead p) (w.t + 1)
  | none => w.due - lead p

/-- Checks of pending slots due at a cycle. -/
def slotChecks (p : Part) (l : Loc) (t : Tile) (g : Nat) : List Instr :=
  (t.pslots.filter (fun w => g == checkCyc p w)).map (fun w =>
    match w.bar with
    | some _ => .landingSlotCheck l w.id
    | none => .drainCheck l w.id)

/-- Windows that run at a cycle (R234). -/
def slotWindows (l : Loc) (t : Tile) (g : Nat) : List Instr :=
  (t.pslots.filter (fun w => w.opened && decide (w.due ≤ g))).map (fun w => .landingWindow l w.id)

/-! ## One tile's events of a cycle -/

/-- Changes ordered by issue (R178). -/
def opsOrdered (t : Tile) : List MxOp := sortBy (fun a b => decide (a.id ≤ b.id)) t.mx

/-- Events of a tile's own streams at a cycle, without deposits, in rank order. -/
def tileEvents (l : Loc) (t : Tile) (g : Nat) : List Instr :=
  let ops := opsOrdered t
  let at_ := fun (f : Loc → MxOp → Nat → List Instr) => ops.flatMap (fun o => f l o (g - o.t))
  let cps := fun (f : Loc → CopyOp → Nat → List Instr) => t.copies.flatMap (fun c => f l c (g - c.t))
  (if t.flight.any (fun e => decide (e.due ≤ g)) then [Instr.resultLanding l] else []) ++
  at_ mxChanges ++ at_ mxZreads ++ at_ mxWrites ++ at_ rankWrites ++ cps copyWrites ++
  at_ mxReads ++ cps copyReads

/-- A tile of a partition as a place. -/
def locOf (p : Part) (idx : Nat) : Loc := { band := p.first, idx }

/-- Hops of a flit. -/
def hopsOf (f : Flit) : Nat := f.dx.natAbs + f.dy.natAbs

/-- The direction of hop k of a flit: 0 north, 1 east, 2 south, 3 west (R196, R292). -/
def hopDir (f : Flit) (k : Nat) : Nat :=
  if k < f.dx.natAbs then (if 0 < f.dx then 1 else 3) else (if 0 < f.dy then 2 else 0)

/-- The tile a flit stands at before hop k. -/
def hopAt (f : Flit) (k : Nat) : Nat :=
  let xk := minN k f.dx.natAbs
  let yk := k - xk
  let x := (tx f.src : Int) + (if 0 < f.dx then (xk : Int) else -(xk : Int))
  let y := (ty f.src : Int) + (if 0 < f.dy then (yk : Int) else -(yk : Int))
  tileIdx x.toNat y.toNat

/-- The destination tile. -/
def flitDest (f : Flit) : Nat := hopAt f (hopsOf f)

/-- The input on which a flit stands at a router: the side it came from, or 4 for own-tile. -/
def hopInput (f : Flit) (k : Nat) : Nat := if k = 0 then 4 else (hopDir f (k - 1) + 2) % 4

/-- The rank of a flit for an output link (R198, R293): smaller is carried. One of the copy engine's, an RKSEND's among
them, goes before a send's second flit.
Log entry 100 (DEDUCED). -/
def hopRank (f : Flit) : Nat :=
  if f.hop = 0 then (if f.engine then 30 else if f.second then 40 else 41)
  else if hopDir f (f.hop - 1) = hopDir f f.hop then 10 + hopInput f f.hop
  else 20 + hopInput f f.hop

/-- Flits that take a hop at a cycle, in rank order (R196, R198): flit k of a send injected at t takes its first link at
t + 1 + k (R202), where it meets those that need the link in that cycle. Flits for the own tile take no link, and do not meet.
Log entry 91 (DEDUCED).
Log entry 100 (DEDUCED). -/
def hopEvents (p : Part) : List Instr :=
  let fs := p.flits.filter (fun e => decide (e.2.hop < hopsOf e.2) && p.gcyc == e.2.inj + 1 + e.2.hop)
  (sortBy (fun a b => decide (hopRank a.2 ≤ hopRank b.2)) fs).map (fun e => .flitHop p.first e.1)

/-- Whether a flit lands at a cycle (R196). -/
def landsAt (f : Flit) (g : Nat) : Bool := f.hop == hopsOf f && g == f.inj + 2 + hopsOf f

/-- Deposits due at a cycle in the order of their arriving link (R167). -/
def depositEvents (p : Part) : List Instr :=
  let fs := p.flits.filter (fun e => landsAt e.2 p.gcyc)
  (sortBy (fun a b => decide (hopInput a.2 (hopsOf a.2) ≤ hopInput b.2 (hopsOf b.2))) fs).map (fun e => .depositWrite p.first e.1)

/-- Ports of a band. -/
def bandPorts (p : Part) : List Nat := (upto (4 * p.count)).map (fun k => 4 * p.first + k)

/-- Snapshot reads of collectives due at a cycle (R223). -/
def collReads (s : State) (p : Part) : List Instr :=
  (bandPorts p).flatMap (fun k =>
    match mfind s.ports k with
    | none => []
    | some q => (q.colls.filter (fun c => decide (c.t < p.gcyc) && decide (p.gcyc - c.t - 1 < c.rec_.wrap / 16))).map
        (fun c => .collSnapshotRead { band := p.first, idx := c.tile } c.id (p.gcyc - c.t - 1)))

/-- Engine self-refreshes whose turn has come (R213). -/
def selfEvents (p : Part) : List Instr :=
  p.engines.flatMap (fun e =>
    (e.2.self.filter (fun b => decide (b.2 ≤ p.gcyc))).map (fun b => .engineSelfRefresh p.first e.1 b.1))

/-- Checks of pending slots at a cycle, which follow its updates (R235, R236).
Log entry 64 (DEDUCED). -/
def checkEvents (p : Part) : List Instr := p.tiles.flatMap (fun e => slotChecks p (locOf p e.1) e.2 p.gcyc)

/-- Every step of the hardware of a partition cycle, in the order in which it is performed.
Log entry 8 (DESIGN CHOICE). -/
def cycleEvents (s : State) (p : Part) : List Instr :=
  let g := p.gcyc
  let each := fun (f : Loc → Tile → List Instr) => p.tiles.flatMap (fun e => f (locOf p e.1) e.2)
  let ops := fun (f : Loc → MxOp → Nat → List Instr) => each (fun l t => (opsOrdered t).flatMap (fun o => f l o (g - o.t)))
  let cps := fun (f : Loc → CopyOp → Nat → List Instr) => each (fun l t => t.copies.flatMap (fun c => f l c (g - c.t)))
  each (fun l t => if t.flight.any (fun e => decide (e.due ≤ g)) then [Instr.resultLanding l] else []) ++
  selfEvents p ++ hopEvents p ++
  ops mxChanges ++ ops mxZreads ++
  each (fun l t => burstWrites l t g) ++ each (fun l t => slotWindows l t g) ++
  ops mxWrites ++ ops rankWrites ++ depositEvents p ++ cps copyWrites ++
  ops mxReads ++ cps copyReads ++ each (fun l t => burstReads l t g) ++ each (fun l t => putReads l t g) ++ collReads s p

end Sys2Proof.Machine
end

