-- ==== Sys2Proof/Machine/AuditOps.lean ====
section
/-! DEFINITION. Audit units and samples: the record of a unit (R241), the samples that audit engines hold
(R356, R357), and the signature of their outputs (R242). -/

namespace Sys2Proof.Machine

/-! ## The audit record (R241) -/

/-- A word of the AUDO record's bytes. -/
def recWord (x : Nat) (off : Nat) : Nat := field x (8 * off) 32

/-- Ranges of the record: in use, and whether each is in order (R241). -/
def audRanges (x off n max : Nat) : List (Nat × Nat) × Bool :=
  let rs := (upto max).map (fun j => (recWord x (off + 8 * j), recWord x (off + 4 + 8 * j)))
  let used := rs.take n
  let ok := used.all (fun r => decide (r.1 < 2 ^ 18) && decide (r.2 < 2 ^ 18) && r.1 % 16 == 0 && r.2 % 16 == 0 && r.2 != 0 &&
    decide (r.1 + r.2 ≤ sramEnd))
  (used, ok && (rs.drop n).all (fun r => r.1 == 0 && r.2 == 0))

/-- Read a unit's record (R241). -/
def audRecord (u : Unit_) (x : Nat) : Unit_ :=
  let w0 := recWord x 0
  let cf := field w0 19 13
  let cl := field w0 6 13
  let nin := field w0 3 3
  let nout := field w0 0 3
  let ins := audRanges x 0x08 nin 4
  let outs := audRanges x 0x28 nout 3
  let bad := decide (4 < nin) || decide (3 < nout) || nout == 0 || decide (cl < cf) || recWord x 4 != 0 || !ins.2 || !outs.2
  { u with readAt := true, malformed := bad, codeFirst := cf, codeLast := cl, ins := ins.1, outs := outs.1 }

/-- Bytes of the audit record as a number. -/
def audBytes (t : Tile) (a : Nat) : Nat :=
  (upto 4).foldl (fun acc k =>
    if smem t.dropNext (a + 16 * k) then acc else acc + (readLine t (a + 16 * k)).toNat * 2 ^ (128 * k)) 0

/-! ## Signatures (R242) -/

/-- One bit of the CRC-64 of ECMA-182. -/
def crcBit (c : Nat) : Nat :=
  if bitN c 63 then ((c <<< 1) % 2 ^ 64) ^^^ 0x42F0E1EBA9EA3693 else (c <<< 1) % 2 ^ 64

/-- The CRC-64 of bytes, after a register value. -/
def crcBytes (c : Nat) (bs : List Byte) : Nat :=
  match bs with
  | [] => c
  | b :: r => crcBytes (forN 8 (fun _ c => crcBit c) (c ^^^ (b.toNat <<< 56))) r

/-- The CRC-64 of ranges of a byte memory, in their order. -/
def crcRanges (m : SMap Byte) (rs : List (Nat × Nat)) : Nat := crcBytes 0 (rs.flatMap (fun r => sramBytes m r.1 r.2))

/-! ## Samples (R357) -/

/-- Counts of the completion record (R358). -/
def cntSampled : Nat := 0
def cntMatched : Nat := 1
def cntMismatched : Nat := 2
def cntSkipped : Nat := 3
def cntUnserviced : Nat := 4
def cntOvertaken : Nat := 5

/-- Count one unit.
Log entry 49 (DEDUCED). -/
def countAudit (p : Part) (k : Nat) : Part := { p with audit := lset p.audit k (p.audit.getD k 0 + 1) }

/-- Code lines are listed from here on. -/
def codeTag : Nat := 2 ^ 18

/-- Lines of a tile's SRAM that a sample has still to read. -/
def pendingLines (x : Sample) : List Nat := x.todoLines.filter (fun a => decide (a < codeTag)) ++ x.outLines

/-- Whether a sample is that of a tile's open unit. -/
def isOpen (idx : Nat) (x : Sample) : Bool := x.tile == idx && x.closedAt.isNone

/-- Samples of which a line was written before it was read are overtaken. -/
def noteDirty (p : Part) (idx : Nat) : Part :=
  let d := (getTile p idx).audDirty
  if d.isEmpty then p
  else
    let q := { p with samples := p.samples.map (fun x =>
      if x.tile = idx && (pendingLines x).any (fun a => smem d a) then { x with overtaken := true } else x) }
    modTile q idx (fun t => { t with audDirty := [] })

/-- The lines that a tile watches for its samples. -/
def watchAgain (p : Part) (idx : Nat) : Part :=
  modTile p idx (fun t => { t with
    audWatch := (p.samples.filter (fun x => x.tile == idx)).foldl (fun l x => (pendingLines x).foldl sinsert l) [] })

/-- Change the samples of a tile, or drop some. -/
def onSamples (p : Part) (idx : Nat) (f : List Sample → List Sample) : Part :=
  let q := noteDirty p idx
  watchAgain { q with samples := f q.samples } idx

/-- Drop samples, with the pool tiles that replay them. -/
def dropSamples (p : Part) (idx : Nat) (f : Sample → Bool) : Part :=
  let gone := p.samples.filter f
  onSamples { p with pool := (gone.filter (fun x => x.loaded)).foldl (fun m x => merase m x.poolIdx) p.pool } idx
    (fun l => l.filter (fun x => !f x))

/-- The open unit of a tile is abandoned, or was not closed: skipped, and counted (R243, R357). A malformed
one has been counted already. -/
def skipUnit (p : Part) (idx : Nat) : Part :=
  match (getTile p idx).unit with
  | none => p
  | some u =>
    let q := modTile p idx (fun t => { t with unit := none })
    let q1 := if u.sampled then dropSamples q idx (isOpen idx) else q
    if u.malformed && u.readAt then q1 else countAudit q1 cntSkipped

/-- Code lines of a unit's range: lines of four IMEM words, up to the end of the bundle at `code_last`. -/
def codeLines (t : Tile) (u : Unit_) : List Nat :=
  let last := u.codeLast + bundleWords (headerAt t (BitVec.ofNat 13 u.codeLast)).mask - 1
  (upto (last / 4 - u.codeFirst / 4 + 1)).map (fun k => codeTag + u.codeFirst / 4 + k)

/-- Lines of ranges. -/
def rangeLines (rs : List (Nat × Nat)) : List Nat := rs.flatMap (fun r => (upto (r.2 / 16)).map (fun k => r.1 + 16 * k))

/-- What a replay starts from, taken as the bundle of the AUDO's next cycle reads it: the tile's registers, with nothing in
flight and empty data SRAM (R241, R357). -/
def snapTile (g idx : Nat) (t : Tile) : Tile :=
  { g := t.g, q := t.q, v := t.v, m := t.m, z := t.z, zp := t.zp, kc := t.kc, ma := t.ma, at_ := t.at_, lfsr := t.lfsr, loop := t.loop,
    stage := t.stage, flg := t.flg, fpm := t.fpm, sbMode := t.sbMode, dramMode := t.dramMode, raceBound := t.raceBound,
    evc := t.evc, epc := t.epc, done := t.done, snap := t.snap, regions := t.regions, serial := t.serial,
    seq := { pc := t.seq.pc, fold := t.seq.fold, xfer := t.seq.xfer, lastPc := t.seq.lastPc, lastCyc := t.seq.lastCyc },
    imem := t.imem, skew := (g : Int), replays := some idx }

/-- In the cycle after an AUDO, once what lands and performs in it has done so, the audit engine has the unit's registers
(R241). -/
def takeSnaps (p : Part) : Part :=
  { p with samples := p.samples.map (fun x =>
      if x.closedAt.isNone && x.unit.openCyc + 1 == p.gcyc then { x with snap := snapTile p.gcyc x.tile (getTile p x.tile) } else x) }

/-- The unit of a sample is defined: its lines are to be copied, or it is malformed and skipped (R241). -/
def defineUnit (p : Part) (idx : Nat) (u : Unit_) : Part :=
  if u.malformed then
    countAudit (modTile (if u.sampled then dropSamples p idx (isOpen idx) else p) idx
      (fun t => { t with unit := some { u with sampled := false } })) cntSkipped
  else if !u.sampled then p
  else
    onSamples p idx (fun l => l.map (fun x =>
      if isOpen idx x then { x with unit := u, todoLines := codeLines (getTile p idx) u ++ rangeLines u.ins } else x))

/-- The AUDO's access at t + 1: the record is read, and what the tile accessed in the AUDO's own cycle is
held against it (R241, R242). -/
def audRead (p : Part) (idx x uid : Nat) : Part :=
  let t := markReads (getTile p idx) (((upto 4).filter (fun k => !smem (getTile p idx).dropNext (x + 16 * k))).map (fun k => (x + 16 * k, 16)))
  match t.unit with
  | none => putTile p idx t
  | some u0 =>
    if u0.uid = uid ∧ !u0.readAt then
      let u := audRecord u0 (audBytes t x)
      let ok := u.early.all (fun e => inRanges (if e.2 then u.outs else u.ins ++ u.outs) (lineOfAddr e.1) 16)
      let u1 := { u with closed := u.closed && ok, early := [] }
      defineUnit (putTile p idx { t with unit := some u1 }) idx u1
    else putTile p idx t

/-- The pool tile's replay of a unit has ended: it forms its signature (R357).
Log entry 51 (DEDUCED). -/
def endReplay (p : Part) (idx : Nat) : Part :=
  let t := getTile p idx
  let late := fun (x : Sample) => x.closedAt.any (fun c => decide ((c.1 : Int) < t.skew))
  { p with
    samples := p.samples.map (fun x =>
      if x.poolIdx = idx && x.loaded && x.replaySig.isNone && (t.seq.halted || t.seq.stopped || late x) then
        { x with replaySig := some (crcRanges t.sram x.unit.outs) } else x) }

end Sys2Proof.Machine
end

