-- ==== Sys2Proof/Machine/Barrier.lean ====
section
/-! DEFINITION. Barrier records (R35 to R37), the accesses that SY instructions make at t + 1 (R225 to
R233) and the merged update of a cycle's bytes (R36). -/

namespace Sys2Proof.Machine

/-- A barrier record's fields (R35). -/
structure BRec where
  expected : Word
  arrived : Word
  phase : Bool
  armed : Bool
  ovr : Bool
  rest : Nat
  deriving DecidableEq, Repr

/-- Read a record from its line. -/
def recOf (x : Line) : BRec :=
  { expected := BitVec.ofNat 32 (field x.toNat 0 32), arrived := BitVec.ofNat 32 (field x.toNat 32 32),
    phase := bitN x.toNat 64, armed := bitN x.toNat 65, ovr := bitN x.toNat 66, rest := field x.toNat 67 61 }

/-- The line of a record. -/
def recLine (r : BRec) : Line :=
  BitVec.ofNat 128 (r.expected.toNat + r.arrived.toNat * 2 ^ 32 + b2n r.phase * 2 ^ 64 + b2n r.armed * 2 ^ 65 +
    b2n r.ovr * 2 ^ 66 + r.rest * 2 ^ 67)

/-- The count of a record reaches `total` (R36). -/
def countTo (b : BRec) (total : Nat) : BRec :=
  if b.expected.toNat ≤ total then
    { b with phase := !b.phase, armed := false, arrived := 0, ovr := b.ovr || decide (b.expected.toNat < total) }
  else { b with arrived := BitVec.ofNat 32 total }

/-- The merged update of n bytes on a record (R36). -/
def mergeUpdate (b : BRec) (n : Nat) : BRec :=
  if b.armed then countTo b (b.arrived.toNat + n) else { b with ovr := true }

/-- BARI (R229): armed with a new expected count; an expected count of 0 completes at once. -/
def bariRec (b : BRec) (n : Word) : BRec :=
  if n = 0 then { b with expected := 0, arrived := 0, ovr := false, armed := false, phase := !b.phase }
  else { b with expected := n, arrived := 0, ovr := false, armed := true }

/-- BARX (R229): re-armed with the same expected count. -/
def barxRec (b : BRec) : BRec :=
  if b.expected = 0 then { b with arrived := 0, armed := false, phase := !b.phase }
  else { b with arrived := 0, armed := true }

/-- A record as the barrier unit sees it (R233): the held copy, or the record in its bank. -/
def getRec (t : Tile) (a : Nat) : BRec := recOf ((mfind t.held (lineOfAddr a)).getD (sramLine t.sram a))

/-- Write a record: into the held copy, or whole into its line (R36, R233). -/
def putRec (t : Tile) (a : Nat) (b : BRec) : Tile :=
  let t1 := { t with recs := sinsert t.recs (lineOfAddr a) }
  if (mfind t.held (lineOfAddr a)).isSome then { t1 with held := mput t1.held (lineOfAddr a) (recLine b) }
  else { writeLine t1 (lineOfAddr a) (recLine b) 0 with tainted := t.tainted }

/-- Reading a record in its bank finds an error there (R169); a held copy has none. -/
def markRec (t : Tile) (a : Nat) : Tile :=
  if (mfind t.held (lineOfAddr a)).isSome then t else markReads t [(lineOfAddr a, 16)]

/-- BARI on a record. A line that no barrier instruction had named before was no record, whatever a store did
to it (R37). -/
def putBari (t : Tile) (x : Nat) (n : Word) : Tile :=
  let t1 := putRec t x (bariRec (getRec t x) n)
  if smem t.recs (lineOfAddr x) then t1 else { t1 with tainted := sremove t1.tainted (lineOfAddr x) }

/-- Apply the bytes of one cycle to a record. The count of an armed record that a store changed is left
open by R37: it takes a free value.
Log entry 7 (DESIGN CHOICE). -/
def updateRec (t : Tile) (a n ctr : Nat) : Tile :=
  let b := getRec t a
  let t1 := markRec t a
  if smem t.tainted a && b.armed then putRec t1 a (countTo b (Config.freeCount ctr).toNat)
  else putRec t1 a (mergeUpdate b n)

/-- Count bytes on a barrier in this cycle (R36); they are merged when the cycle settles. -/
def countBytes (t : Tile) (bar : Option Nat) (n : Nat) : Tile :=
  match bar with
  | none => t
  | some a => { t with counts := mput t.counts a (mget 0 t.counts a + n) }

/-! ## Accesses of barrier rank at the start of a cycle (R167, R225) -/

/-- The address of an access at t + 1. -/
def nextAddr (a : NextAcc) : Nat :=
  match a with
  | .bari x _ => x
  | .barx x => x
  | .waitb x _ => x
  | .audo x _ => x

/-- Lines of an access at t + 1 and the detail bit it sets (R225). -/
def nextLines (a : NextAcc) : List (Nat × Nat) :=
  match a with
  | .bari x _ => [(x, bitBar)]
  | .barx x => [(x, bitBar)]
  | .waitb x _ => [(x, bitBar)]
  | .audo x _ => (upto 4).map (fun k => (x + 16 * k, bitRead))

/-- Bytes that a flit's landing counts, and where (R202, R203). -/
def flitCount (f : Flit) : Option (Nat × Nat) :=
  match f.bar with
  | none => none
  | some b => if f.dop = 4 ∧ f.wide then (if f.part then some (b, 16) else none) else some (b, 8)

/-- Whether a landing flit counts bytes: the second half of a 16-byte BIN counts none where its first half was
discarded (R202). -/
def flitCounts (t : Tile) (f : Flit) : Bool := !(f.dop == 4 && f.wide && f.part) || t.depWait.any (fun w => w.pair == f.pair)

/-- Records that statically timed bytes of this cycle will count on at a tile. Bytes whose own write another access of
the cycle drops are among them: their record's update takes its bank, and then counts nothing.
Log entry 83 (DEDUCED). -/
def barsDue (p : Part) (idx : Nat) (t : Tile) : List Nat :=
  let g := p.gcyc
  (p.flits.filter (fun e => landsAt e.2 g && flitDest e.2 == idx && flitCounts t e.2)).filterMap (fun e => (flitCount e.2).map Prod.fst) ++
  (t.bursts.filter (fun b => b.read && g == b.t + 104)).filterMap (fun b => b.bar) ++
  t.copies.filterMap (fun c =>
    match c.kind with
    | .cpg _ _ _ bar => if c.t + 2 ≤ g ∧ g < c.t + c.units + 2 then bar else none
    | .cpy _ _ _ _ _ _ _ _ => none
    | .rksend _ _ _ _ _ _ => none)

/-- Whether an access at t + 1 and an update of its record are one access: BARI and BARX (R230), and a WAITB
that opens its slot, from when the barrier unit holds the record (R232, R233). -/
def sharesUpdate (t : Tile) (a : NextAcc) : Bool :=
  match a with
  | .bari _ _ => true
  | .barx _ => true
  | .waitb x _ => (getRec t x).armed && !(getRec t x).ovr && (getRec t x).rest == 0
  | .audo _ _ => false

/-- An access of barrier rank: its line, the detail bit it sets, and whose it is: an SY instruction's, an
update's, or both at once. -/
structure BarAcc where
  addr : Nat
  bit : Nat
  sy : Bool
  upd : Bool
  deriving DecidableEq, Repr

/-- The accesses of barrier rank of a cycle, lowest address first; of two on one line that are not one access,
the SY instruction's first.
Log entry 11 (DEDUCED). -/
def barAccs (t : Tile) (nexts : List NextAcc) (bars : List Nat) : List BarAcc :=
  let once := bars.foldl sinsert []
  let joined := (nexts.filter (sharesUpdate t)).map nextAddr
  let sy := nexts.flatMap (fun a => (nextLines a).map (fun e =>
    ({ addr := e.1, bit := e.2, sy := true, upd := sharesUpdate t a && smem once e.1 } : BarAcc)))
  let up := (once.filter (fun a => !joined.contains a)).map (fun a => ({ addr := a, bit := bitBar, sy := false, upd := true } : BarAcc))
  sortBy (fun a b => decide (a.addr ≤ b.addr)) (sy ++ up)

/-- Claim the banks of every access of barrier rank of a cycle, lowest address first (R167); those that
lose are noted. -/
def barClaims (p : Part) (idx : Nat) (t : Tile) : Tile :=
  let nexts := (t.nextAcc.filter (fun e => e.1 == p.gcyc)).map (fun e => e.2.2)
  (barAccs t nexts (barsDue p idx t)).foldl (fun t e =>
    match claim t e.addr 0 e.bit false with
    | (t1, true) => t1
    | (t1, false) => { t1 with
        dropNext := if e.sy then sinsert t1.dropNext e.addr else t1.dropNext,
        dropBars := if e.upd then sinsert t1.dropBars e.addr else t1.dropBars }) t

/-! ## The accesses themselves -/

/-- A record that a BARI or BARX has written in the cycle, which a watchpoint sees (R398). -/
def barWrite (t : Tile) (x : Nat) : Tile := { t with barWrote := sinsert t.barWrote x }

/-- One access at t + 1 (R226, R229, R232). `drop` says that its bank was refused: a write is not made,
a read delivers zero bytes (R167). -/
def doNext (p : Part) (idx : Nat) (pc : BitVec 13) (a : NextAcc) : Part :=
  let t0 := getTile p idx
  let drop := smem t0.dropNext (nextAddr a)
  let t := if drop then t0 else match a with
    | .audo _ _ => t0
    | .bari _ _ | .barx _ | .waitb _ _ => markRec t0 (nextAddr a)
  match a with
  | .bari x n =>
    if drop then p
    else if (getRec t x).rest ≠ 0 then foundAdd (putTile p idx t) idx 0x01 0x0002 (some (pc, 7))
    else putTile p idx (barWrite (putBari t x n) x)
  | .barx x =>
    if drop then p
    else if (getRec t x).rest ≠ 0 then foundAdd (putTile p idx t) idx 0x01 0x0002 (some (pc, 7))
    else putTile p idx (barWrite (putRec t x (barxRec (getRec t x))) x)
  | .waitb x id =>
    let b := if drop then recOf 0 else getRec t x
    let ph := (t.pslots.find? (fun w => w.id == id)).any (fun w => w.ph)
    if b.rest ≠ 0 then
      foundAdd (putTile p idx { t with pslots := t.pslots.filter (fun w => w.id != id) }) idx 0x01 0x0002 (some (pc, 7))
    else if b.ovr then foundAdd (putTile p idx t) idx 0x08 0x0001 (some (pc, 7))
    else if !b.armed then (if b.phase = ph then putTile p idx t else foundAdd (putTile p idx t) idx 0x08 0x0002 (some (pc, 7)))
    else
      putTile p idx { t with
        pslots := t.pslots.map (fun w => if w.id = id then { w with opened := true } else w),
        recs := sinsert t.recs x,
        held := if (mfind t.held x).isSome then t.held else mput t.held x (readLine t x) }
  | .audo x uid => audRead p idx x uid

/-- The accesses of barrier rank of one tile at the start of a cycle. -/
def barStart (p : Part) (idx : Nat) : Part :=
  let t := getTile p idx
  let t1 := barClaims p idx t
  let p1 := countAct (putTile p idx t1) 8 ((t1.accs.drop t.accs.length).filter (fun a => a.won)).length
  let due := (getTile p1 idx).nextAcc.filter (fun e => e.1 == p.gcyc)
  let p2 := due.foldl (fun q e => doNext q idx e.2.1 e.2.2) (if due.isEmpty then p1 else performed p1)
  modTile p2 idx (fun t => { t with nextAcc := t.nextAcc.filter (fun e => e.1 != p.gcyc) })

/-- Tiles at which an access of barrier rank falls in this cycle. -/
def barTiles (p : Part) : List Nat :=
  let a := (p.tiles.filter (fun e => e.2.nextAcc.any (fun x => x.1 == p.gcyc) || !(barsDue p e.1 e.2).isEmpty)).map Prod.fst
  (p.flits.filter (fun e => landsAt e.2 p.gcyc && e.2.bar.isSome)).foldl (fun l e => sinsert l (flitDest e.2)) a

/-- All of them. -/
def barStartAll (p : Part) : Part := (barTiles p).foldl barStart p

/-! ## Settling a cycle -/

/-- Put the entries of a list from place n on before those from place i on. -/
def moveUp {α : Type} (l : List α) (i n : Nat) : List α := l.take i ++ l.drop n ++ (l.take n).drop i

/-- Rank the hits of a tile's barrier updates, which were found from place n on, before its other hits of the cycle
(R167, R398). -/
def rankHits (p : Part) (idx n : Nat) : Part :=
  { p with found := moveUp p.found ((p.found.take n).takeWhile (fun f => !(f.tile == idx && f.cause == 0x0B))).length n }

/-- Apply one tile's counts of the cycle (R36). A record whose reserved bits are not zero is a fault of
its own tile (R35, R194).
Log entry 77 (DEDUCED). -/
def settleTile (s : State) (band idx : Nat) : State :=
  match getPart s band with
  | none => s
  | some p =>
    onPart (updates s p) band (fun q => rankHits q idx p.found.length)
where
  /-- The updates themselves, lowest address first; a watchpoint sees each record once, an SY instruction's write of it and
  the update of its counts being one access (R230). -/
  updates (s : State) (p : Part) : State :=
    let t := getTile p idx
    let due := t.counts.filter (fun e => !smem t.dropBars e.1)
    (due.foldl (fun l e => sinsert l e.1) t.barWrote).foldl (fun s a =>
      let hit := fun (p : Part) => watchEngine p idx a 16 0xFFFF 3 0
      match mfind due a with
      | none => onPart s band hit
      | some n =>
        onPart (drawFree s) band (fun p =>
          let t := getTile p idx
          if (getRec t a).rest ≠ 0 then foundAdd p idx 0x01 0x0002 none else hit (putTile p idx (updateRec t a n s.freeCtr)))) s

/-- Tiles with counts to settle. -/
def countTiles (p : Part) : List Nat := (p.tiles.filter (fun e => !e.2.counts.isEmpty || !e.2.barWrote.isEmpty)).map Prod.fst

/-- Settle every tile of a partition. -/
def settle (s : State) (band : Nat) : State :=
  match getPart s band with
  | none => s
  | some p => (countTiles p).foldl (fun s i => settleTile s band i) s

end Sys2Proof.Machine
end

