-- ==== Sys2Proof/Machine/Image.lean ====
section
/-! DEFINITION. The sections of R360: what a context image and a tile's dump hold, as bytes, and where the save area of a
context lies (R360 to R363, R396). -/

namespace Sys2Proof.Machine

/-! ## Engines and ports of a band -/

/-- The rim of a tile: 0 top, 1 bottom. -/
def rimOf (idx : Nat) : Option Nat := if ty idx = 0 then some 0 else if ty idx = 783 then some 1 else none

/-- The engine wired to a tile: pseudo-channel + 32 · rim + 64 · sheet column of the band (R208). -/
def wiredEngine (idx : Nat) : Option Nat :=
  if poolBase ≤ idx then none else (rimOf idx).map (fun r => tx idx % 64 / 2 + 32 * r + 64 * (tx idx / 64))

/-- A bank of an engine. -/
def getBank (e : Engine) (b : Nat) : Bank := (mfind e.banks b).getD {}

/-- A bank's owed count (R212).
Log entry 23 (DEDUCED). -/
def owed (p : Part) (e : Engine) (b : Nat) : Int := (p.ticks : Int) - e.refs - (getBank e b).refs

/-- An engine of a partition; one that no command has reached is in its initial state (R299). -/
def getEngine (p : Part) (k : Nat) : Engine := (mfind p.engines k).getD {}

/-- The home tile of a port of a partition (R215). -/
def homeTile (p : Part) (k : Nat) : Nat :=
  tileIdx (64 * (k / 4 - p.first) + (if k % 2 = 0 then 0 else 63)) (if k % 4 < 2 then 0 else 783)

/-- A port of the module. -/
def getPort (s : State) (k : Nat) : Port := (mfind s.ports k).getD {}

/-- Bytes that a line of a landing writes. -/
def landBytes (x : LandLine) : Nat := (x.bytes.filter Option.isSome).length

/-- Bytes that a landing occupies in its buffer. -/
def landHeld (e : LandEntry) : Nat :=
  e.blocks.foldl (fun a b => a + b.2.length) 0 + e.lines.foldl (fun a x => a + landBytes x) 0

/-- Bytes of a landing buffer in use (R310).
Log entry 36 (DEDUCED). -/
def bufferUse (q : Port) : Nat := q.land.foldl (fun a e => a + landHeld e) 0

/-- The section of a port in what R360 saves of a launch. -/
def portSection (s : State) (p : Part) (k : Nat) : Port :=
  let q := getPort s k
  { land := q.land.filter (fun e => e.band == p.first), colls := q.colls.filter (fun c => c.band == p.first), ordinal := q.ordinal,
    cancelled := q.cancelled, early := q.early.filter (fun x => x.asid.toNat == p.rec_.asid), serve := q.serve.filter (fun v => v.band == p.first) }

/-! ## Discardable lines (R361) -/

/-- A discardable line reads as zeros after a resumption, with fresh ECC (R34, R361). -/
def zeroDiscarded (t : Tile) : Tile :=
  t.discard.foldl (fun t l =>
    cleanGran (cleanGran { t with sram := storeBytes t.sram (16 * l) (List.replicate 16 0) } (2 * l)) (2 * l + 1)) t

/-- Whether the four lines of a 64-byte burst of data SRAM are all discardable: it is neither written nor read (R361). -/
def burstDiscarded (t : Tile) (b : Nat) : Bool := (upto 4).all (fun k => smem t.discard (4 * b + k))

/-! ## Sections as bytes (R360)

R360 names what a section holds and its size. The places within a section are the model's: what a register's number or an
address orders stands in that order, each item with its least significant byte first (R7), and what a section has no room
for is left out. -/

/-- Bytes from an address on, without those that are zero. -/
def byteCells (a : Nat) (bs : List Byte) : SMap Byte :=
  match bs with
  | [] => []
  | b :: r => if b = 0 then byteCells (a + 1) r else (a, b) :: byteCells (a + 1) r

/-- A register file of n registers of w bytes each, from an address on. -/
def fileCells (n w a : Nat) (m : SMap Nat) : SMap Byte :=
  (m.filter (fun e => decide (e.1 < n))).flatMap (fun e => byteCells (a + w * e.1) (bytesOf w e.2))

/-- The numbers of a file of words. -/
def nats {n : Nat} (m : SMap (BitVec n)) : SMap Nat := m.map (fun e => (e.1, e.2.toNat))

/-- Cut or filled up with zeros to n bytes. -/
def fitted (n : Nat) (bs : List Byte) : List Byte := (bs ++ List.replicate n 0).take n

/-- An open loop level in 8 bytes. -/
def levelBytes (l : Level) : List Byte :=
  bytesOf 4 (l.start.toNat + 2 ^ 13 * l.end_.toNat + 2 ^ 26 * b2n l.rp + 2 ^ 27 * b2n l.rv + 2 ^ 28 * b2n l.buffered) ++
  bytesOf 2 l.d ++ bytesOf 2 l.window

/-- Loop state in 78 bytes (R123, R127). -/
def loopBytes (lp : LoopSt) : List Byte :=
  bytesOf 1 lp.levels.length ++ bytesOf 1 lp.sp.toNat ++ bytesOf 2 lp.rb ++ bytesOf 2 lp.window ++
  (upto 6).flatMap (fun l => bytesOf 4 (mget 0 lp.lc l).toNat) ++ fitted 48 (lp.levels.flatMap levelBytes)

/-- q1 to q15 as bits. -/
def predBits (q : SMap Bool) : Nat := (upto 15).foldl (fun a k => a + 2 ^ (k + 1) * b2n (mget false q (k + 1))) 0

/-- An entry of the region stack in 217 bytes, its serial among them (R239, R358). -/
def regionBytes (r : Region) : List Byte :=
  bytesOf 2 r.handler.toNat ++ bytesOf 2 r.reentry.toNat ++ bytesOf 1 r.retries ++ bytesOf 4 r.serial ++
  (upto 32).flatMap (fun k => bytesOf 4 (mget 0 r.g k).toNat) ++ bytesOf 2 (predBits r.q) ++ loopBytes r.loop

/-- The sequencer: its address and the last, its holds, and a transfer whose target has not issued (R119, R227, R265). -/
def seqBytes (q : Seq) : List Byte :=
  bytesOf 2 q.pc.toNat ++ bytesOf 2 q.lastPc.toNat ++ bytesOf 1 (b2n q.halted + 2 * b2n q.stopped) ++ bytesOf 8 q.hold ++
  bytesOf 8 ((q.lastCyc.map (fun c => c + 1)).getD 0) ++ bytesOf 2 ((q.fold.map (fun n => n + 1)).getD 0) ++
  (match q.xfer with
   | some x => bytesOf 1 (1 + 2 * b2n x.closes + 4 * b2n x.link.isSome) ++ bytesOf 1 x.delay ++ bytesOf 2 x.target.toNat ++
      bytesOf 2 x.from_.toNat ++ bytesOf 2 (x.link.getD 0).toNat
   | none => [])

/-- Section 5: the region stack with its serials, and loop state. -/
def regionSection (t : Tile) : List Byte :=
  fitted 1024 (bytesOf 1 t.regions.length ++ bytesOf 4 t.serial ++ fitted 868 (t.regions.flatMap regionBytes) ++ loopBytes t.loop ++ seqBytes t.seq)

/-- The small registers of section 6 that are no file: q, FLG, FPM, MODE, EVC, EPC, DONE, the staged number and the
high-half snapshot. -/
def statusBytes (t : Tile) : List Byte :=
  bytesOf 2 (predBits t.q) ++ bytesOf 1 t.flg.toNat ++ bytesOf 1 t.fpm.toNat ++
  bytesOf 4 (t.sbCount * 2 ^ 20 + t.dramCount * 2 ^ 8 + 2 * b2n t.dramMode + b2n t.sbMode) ++ bytesOf 4 t.evc.toNat ++ bytesOf 2 t.epc.toNat ++
  bytesOf 1 t.done.toNat ++ bytesOf 1 t.stage.toNat ++ bytesOf 4 t.snap.toNat

/-- The scoreboard record: a bit for each register that has a result in flight (R261). -/
def scoreBytes (t : Tile) : List Byte :=
  (upto 200).map (fun k => BitVec.ofNat 8 ((upto 8).foldl (fun a i =>
    a + 2 ^ i * b2n (t.flight.any (fun e => destCode e.dest == some (8 * k + i)))) 0))

/-- Section 6 from an address on: g, m, the registers above, ma, the LFSRs, kc and the scoreboard record. -/
def smallCells (a : Nat) (t : Tile) : SMap Byte :=
  fileCells 32 4 a (nats t.g) ++ fileCells 16 2 (a + 128) (nats t.m) ++ byteCells (a + 160) (statusBytes t) ++
  fileCells 128 3 (a + 180) (nats t.ma) ++ fileCells 32 4 (a + 564) (nats t.lfsr) ++ fileCells 4 4 (a + 692) t.kc ++ byteCells (a + 708) (scoreBytes t)

/-- A result's register and value in the shadow result buffer. -/
def shadowDest (d : Dest) : Nat × Nat :=
  match d with
  | .g n x => (codeG n, x.toNat)
  | .q n x => (codeQ n, b2n x)
  | .m n x => (codeM n, x.toNat)
  | .v n x => (n, x.toNat)
  | .sreg k x => (0x700 + k, x.toNat)
  | .ma k x => (0x780 + k, x.toNat)
  | .flags => (0x7FF, 0)

/-- A result in flight at cycle g in 24 bytes: value, register, flags, slot and the offset due − g (R265). -/
def shadowBytes (g : Nat) (e : Landing) : List Byte :=
  bytesOf 16 (shadowDest e.dest).2 ++ bytesOf 2 (shadowDest e.dest).1 ++ bytesOf 1 e.flags.toNat ++ bytesOf 1 e.slot ++ bytesOf 4 (e.due - g)

/-- The operands of an MX instruction, its kind first. -/
def mxNums (k : MxKind) : List Nat :=
  match k with
  | .clr z what => [0, z, what]
  | .zld z ea => [1, z, ea]
  | .zst z ea t _ _ => [2, z, ea, t]
  | .mma z ta tb shape a b => [3, z, ta, tb, shape, a, b]
  | .mmaq z ta tb shape a b za zb g => [4, z, ta, tb, shape, a, b, za, zb, g]
  | .scalc z shape sa sb => [5, z, shape, sa, sb]
  | .attld first cnt ea => [6, first, cnt, ea]
  | .rank t n k ga gb th => [7, t, n, k, ga, gb, (th.map (fun x => x + 1)).getD 0]
  | .rkacc z row t n ga gb => [8, z, row, t, n, ga, gb]
  | .unrank t n len ga gb => [9, t, n, len, ga, gb]

/-- An optional barrier in one number. -/
def barNum (b : Option Nat) : Nat := (b.map (fun x => x + 1)).getD 0

/-- The operands of a copy-engine operation, its kind first; offsets modulo 2^32. -/
def copyNums (k : CopyKind) : List Nat :=
  let z := fun (x : Int) => (x % 2 ^ 32).toNat
  match k with
  | .cpy dop w dx dy src dst levels bar => [0, dop, b2n w, z dx, z dy, src, dst, barNum bar] ++ levels.flatMap (fun e => [e.1, z e.2.1, z e.2.2])
  | .cpg gd srcs lr bar => [1, gd, lr, barNum bar] ++ srcs
  | .rksend dx dy src dst n bar => [2, z dx, z dy, src, dst, n, barNum bar]

/-- A stream under way at cycle g in 96 bytes: its unit, its header address, the cycles since its issue and its operands. -/
def streamBytes (unit g t : Nat) (pc : BitVec 13) (ns : List Nat) : List Byte :=
  fitted 96 (bytesOf 1 unit ++ bytesOf 3 pc.toNat ++ bytesOf 4 (g - t) ++ ns.flatMap (bytesOf 4))

/-- Section 7: the shadow result buffer at cycle g, with what the MX and CP streams have not accessed yet (R265). -/
def shadowSection (g : Nat) (t : Tile) : List Byte :=
  fitted 2304 (t.flight.flatMap (shadowBytes g) ++ t.mx.flatMap (fun o => streamBytes 1 g o.t o.pc (mxNums o.kind)) ++
    t.copies.flatMap (fun c => streamBytes 2 g c.t c.pc (copyNums c.kind)))

/-- The discard bits of section 4, by line. -/
def discardBytes (t : Tile) : List Byte :=
  (upto 1280).map (fun k => BitVec.ofNat 8 ((upto 8).foldl (fun a i => if smem t.discard (8 * k + i) then a + 2 ^ i else a) 0))

/-- Bytes of a tile record (R360). -/
def recordSize : Nat := 202752

/-- Sections 0 to 7 from an address on, of a tile at cycle g: data SRAM with its discardable lines as zeros, vector registers,
z and zp, the attenuation table, the discard bits, and the sections above.
Log entry 79 (DESIGN CHOICE). -/
def recordCells (a g : Nat) (t : Tile) : SMap Byte :=
  ((zeroDiscarded t).sram.filter (fun e => decide (e.1 < 163840))).map (fun e => (a + e.1, e.2)) ++
  fileCells 1536 16 (a + 163840) (nats t.v) ++ fileCells 1024 4 (a + 188416) (nats t.z) ++ fileCells 1024 4 (a + 192512) (nats t.zp) ++
  fileCells 256 2 (a + 196608) (nats t.at_) ++
  byteCells (a + 197120) (discardBytes t) ++ byteCells (a + 198400) (regionSection t) ++ smallCells (a + 199424) t ++
  byteCells (a + 200448) (shadowSection g t)

/-- Whether byte o of a tile record is written: all but the bursts of data SRAM that are wholly discardable (R361). -/
def recordWrites (t : Tile) (o : Nat) : Bool := decide (163840 ≤ o) || !burstDiscarded t (o / 64)

/-- Section 8: the flits that a router holds, with their remaining route, in 16 bytes each (R200, R359). -/
def flitBytes (f : Flit) : List Byte :=
  let left := fun (a b : Nat) => (((a : Int) - (b : Int)) % 2048).toNat
  bytesOf 8 f.payload ++
  bytesOf 8 (field f.addr 3 15 + 2 ^ 15 * field (f.bar.getD 0) 4 14 + 2 ^ 29 * b2n f.bar.isSome + 2 ^ 30 * (f.dop % 8) + 2 ^ 33 * b2n f.wide +
    2 ^ 34 * b2n f.part + 2 ^ 35 * b2n f.second + 2 ^ 36 * b2n f.engine + 2 ^ 37 * b2n f.poison +
    2 ^ 38 * left (tx (flitDest f)) (tx (hopAt f f.hop)) + 2 ^ 49 * left (ty (flitDest f)) (ty (hopAt f f.hop)))

/-- The flits that stand at a tile's router. -/
def flitsAt (p : Part) (idx : Nat) : List Flit := (p.flits.map Prod.snd).filter (fun f => hopAt f f.hop == idx)

/-- Section 8 of a router. -/
def routerSection (p : Part) (idx : Nat) : List Byte := fitted 80 ((flitsAt p idx).flatMap flitBytes)

/-- A burst that an engine has accepted, in 12 bytes: SRAM address, kind, barrier and cycle. -/
def acceptedBytes (b : Burst) : List Byte :=
  bytesOf 3 b.sram ++ bytesOf 1 (b2n b.read + 2 * b2n b.held + 4 * b2n b.bar.isSome) ++ bytesOf 3 (b.bar.getD 0) ++ bytesOf 5 b.t

/-- Section 9 of an engine: its banks' rows and owed counts, and the bursts that it has accepted (R359). -/
def engineSection (p : Part) (k : Nat) : List Byte :=
  let e := getEngine p k
  fitted 1024 (
    (upto 64).flatMap (fun b =>
      bytesOf 2 (match (getBank e b).row with
        | some r => 2 ^ 15 + r
        | none => 0) ++ bytesOf 2 ((owed p e b) % 65536).toNat) ++
    (p.tiles.filter (fun x => wiredEngine x.1 == some k)).flatMap (fun x => x.2.bursts.flatMap acceptedBytes))

/-- Section 10 of a port: the bytes of its held landings. -/
def landSection (q : Port) : List Byte :=
  q.land.flatMap (fun e => e.blocks.flatMap Prod.snd ++ e.lines.flatMap (fun x => x.bytes.filterMap id))

/-- Section 11 of a port: its ring sequencer's buffer, with the records pending there. -/
def ringSection (q : Port) : List Byte := q.colls.flatMap (fun c => sramBytes c.buf 0 c.rec_.wrap)

/-- Bytes of a port's two sections (R360).
Log entry 10 (DESIGN CHOICE). -/
def sectionBytes (q : Port) : Nat := bufferUse q + q.colls.foldl (fun a c => a + c.rec_.wrap) 0

/-- Write the addresses of a memory that a test names: they are cleared, and the bytes that are not zero put in, from the
highest address down. -/
def blit (m : SMap Byte) (covers : Nat → Bool) (cells : SMap Byte) : SMap Byte :=
  cells.foldr (fun e m => if covers e.1 then mset 0 m e.1 e.2 else m) (m.filter (fun e => !covers e.1))

/-! ## The save area (R360, R363)

In each sheet column of its band it takes the same rows of both stacks, which hold 4 MiB a row, and fills them bank after
bank. A column's part has the tile records in the order of their positions, then the routers, the engines and the ports. -/

/-- Offsets of the routers, the engines and the ports in a sheet column's part, and bytes of a port's part. -/
def routersAt : Nat := 50176 * recordSize
def enginesAt : Nat := routersAt + 50176 * 80
def portsAt : Nat := enginesAt + 64 * 1024
def portSize : Nat := 25165824

/-- Bytes of a sheet column's part, and rows that it takes. -/
def areaSize : Nat := portsAt + 4 * portSize
def saveRows : Nat := 2451

/-- The flat DRAM address of a byte of the save area: wafer sheet column, first row, offset in the column's part.
Log entry 44 (DESIGN CHOICE). -/
def saveAddr (col row off : Nat) : Nat :=
  (col * 4096 + off / (1024 * saveRows)) * 2 ^ 25 + row * 1024 + off % (1024 * saveRows)

/-- The tile of a record of sheet column c of a band. -/
def savedTile (c j : Nat) : Nat := tileIdx (64 * c + j % 64) (j / 64)

/-- The part of sheet column c of a band, which begins at an address of its own, by offsets. -/
def columnCells (p : Part) (ports : SMap Port) (c : Nat) : SMap Byte :=
  (upto 50176).flatMap (fun j => recordCells (recordSize * j) p.gcyc (getTile p (savedTile c j))) ++
  (upto 50176).flatMap (fun j => byteCells (routersAt + 80 * j) (routerSection p (savedTile c j))) ++
  (upto 64).flatMap (fun k => byteCells (enginesAt + 1024 * k) (engineSection p (64 * c + k))) ++
  (upto 4).flatMap (fun k =>
    let q := (mfind ports (4 * (p.first + c) + k)).getD {}
    byteCells (portsAt + portSize * k) (landSection q) ++ byteCells (portsAt + portSize * k + 16777216) (ringSection q))

/-- Whether a save writes byte `off` of sheet column c's part: the sections always, but the bursts that are wholly
discardable, and of a port the bytes held and in use (R360, R361). -/
def columnWrites (p : Part) (ports : SMap Port) (c off : Nat) : Bool :=
  if off < routersAt then recordWrites (getTile p (savedTile c (off / recordSize))) (off % recordSize)
  else if off < portsAt then true
  else
    let k := (off - portsAt) / portSize
    let o := (off - portsAt) % portSize
    let q := (mfind ports (4 * (p.first + c) + k)).getD {}
    decide (k < 4) && (if o < 16777216 then decide (o < (landSection q).length) else decide (o - 16777216 < (ringSection q).length))

/-- The column of the band and the offset of a DRAM address in a save area. -/
def saveOff (p : Part) (row a : Nat) : Option (Nat × Nat) :=
  let r := a / 1024 % 32768
  if p.first ≤ a / 2 ^ 37 ∧ a / 2 ^ 37 < p.first + p.count ∧ row ≤ r ∧ r < row + saveRows then
    some (a / 2 ^ 37 - p.first, a / 2 ^ 25 % 4096 * (1024 * saveRows) + (r - row) * 1024 + a % 1024)
  else none

/-- Whether a save of a context writes a DRAM address. -/
def saveWrites (p : Part) (ports : SMap Port) (row a : Nat) : Bool :=
  match saveOff p row a with
  | some (c, off) => columnWrites p ports c off
  | none => false

/-- The bytes of an image that are not zero, by DRAM address. -/
def saveCells (p : Part) (ports : SMap Port) (row : Nat) : SMap Byte :=
  (upto p.count).flatMap (fun c => (columnCells p ports c).map (fun e => (saveAddr (p.first + c) row e.1, e.2)))

/-- DRAM once the band's engines have written a context's image into its save area (R359, R360). -/
def writeImage (m : SMap Byte) (p : Part) (ports : SMap Port) (row : Option Nat) : SMap Byte :=
  match row with
  | some r => blit m (saveWrites p ports r) (saveCells p ports r)
  | none => m

end Sys2Proof.Machine
end

