-- ==== Sys2Proof/Machine/Cycle.lean ====
section
/-! DEFINITION. A partition cycle and a clock edge: how a cycle begins (stops, freezes, the steps of the
hardware that fall due), how it ends, and what each edge brings (R282 to R289). -/

namespace Sys2Proof.Machine

/-! ## Freezes -/

/-- Whether a hold keeps the partition from issuing cycle g at an edge (R286, R287): the release of a
hold is seen R = F edges later. -/
def holdActive (p : Part) (edge : Nat) (h : Hold) : Bool :=
  decide (h.start ≤ p.gcyc) && (h.by_ != .replay || decide (p.frozenCyc < h.blocks)) &&
  (match h.released with
   | none => true
   | some e => decide (edge < e + lead p))

/-- The last edge by which every guard restore in the band has ended (R319). -/
def guardEnd (p : Part) : Nat := p.engines.foldl (fun a e => maxN a e.2.guard) 0

/-- Whether the partition may not issue its next cycle at an edge (R287, R319). -/
def frozenAt (p : Part) (edge : Nat) : Bool :=
  p.holds.any (holdActive p edge) || (isFrozen p && decide (edge < guardEnd p + lead p) && decide (0 < guardEnd p))

/-- The hold of a DRD whose burst the engine does not hold when its window is checked (R210, R286).
Log entry 18 (DESIGN CHOICE).
Log entry 20 (DEDUCED). -/
def burstHold (idx : Nat) (b : Burst) : Hold := { by_ := .drd idx b.id, start := b.t + 104, pc := b.pc, count := b.frz }

/-- The holds of every burst that its engine still lacks. -/
def lateBursts (p : Part) : List Hold := p.tiles.flatMap (fun e => (e.2.bursts.filter (fun b => b.read && !b.held)).map (burstHold e.1))

/-- Whether a hold for a burst stands already. -/
def hasHold (p : Part) (h : Hold) : Bool := p.holds.any (fun x => x.by_ == h.by_)

/-- Raise the holds of late bursts again (R385); a replay freezes where its log says (R403). -/
def addLate (p : Part) : Part := if p.rec_.replayRun then p else { p with holds := p.holds ++ (lateBursts p).filter (fun h => !hasHold p h) }

/-! ## Following a replay log (R403) -/

/-- A field of a log entry's payload, by its offset. -/
def payloadAt (e : LogEntry) (off : Nat) : Nat := ((e.payload.find? (fun x => x.1 == off)).map (fun x => x.2.2)).getD 0

/-- The lines that a window beginning at cycle g of the recording wrote for a barrier: those of
consecutive cycles. -/
def loggedRun (fuel : Nat) (l : List LogEntry) (tile bar g : Nat) : List LogEntry :=
  match fuel with
  | 0 => []
  | n + 1 =>
    let here := l.filter (fun e => e.ty == 1 && e.tile == tile && payloadAt e 0x10 == bar && e.gcyc == g)
    if here.isEmpty then [] else here ++ loggedRun n l tile bar (g + 1)

/-- Place the lines of one window in the landing buffer, closed. -/
def placeLogged (s : State) (p : Part) (tile bar : Nat) (es : List LogEntry) : State :=
  let lines := es.map (fun e => ({ addr := payloadAt e 0x14, bytes := (bytesOf 16 (payloadAt e 0x20)).map some } : LandLine))
  let x : LandEntry := {
    id := s.seqNo, band := p.first, tile := tile, addr := 0, n := 0, cls := 1, bar := some bar, src := 0, xid := 0, get := none, coll := none,
    blocks := [], lost := [], edge0 := s.edge, closed := true, lines := lines, flags := 0, first := true }
  let q := (mfind s.ports (4 * p.first)).getD {}
  nextSeq { s with ports := mput s.ports (4 * p.first) { q with land := q.land ++ [x] } }

/-- A freeze of the log: entries of one cycle, which a stop parted, make one freeze. One that a stop of the replay itself
has parted goes on with the freeze cycles it had counted. -/
def replayHold (hs : List Hold) (g n counted : Nat) : List Hold :=
  if hs.any (fun h => h.by_ == .replay && h.start == g) then
    hs.map (fun h => if h.by_ == .replay && h.start == g then { h with blocks := h.blocks + n, count := h.count + counted } else h)
  else hs ++ [{ by_ := .replay, start := g, blocks := n, count := counted }]

/-- What the log holds for the cycle about to run.
Log entry 38 (DEDUCED). -/
def replayEntry (s : State) (band : Nat) (e : LogEntry) : State :=
  match getPart s band with
  | none => s
  | some p =>
    if !p.replay.any (fun x => x == e) then s
    else if e.ty = 1 then
      let bar := payloadAt e 0x10
      if p.rec_.raceBound then
        let s1 := drawFree (setPart s { p with replay := p.replay.erase e })
        onPart s1 band (fun p =>
          let q := watchEngine (modTile p e.tile (fun t => writeLine t (payloadAt e 0x14) (BitVec.ofNat 128 (payloadAt e 0x20)) 0))
            e.tile (payloadAt e 0x14) 16 0xFFFF 3 0
          if (getRec (getTile q e.tile) bar).rest ≠ 0 then foundAdd q e.tile 0x01 0x0002 none
          else watchEngine (modTile q e.tile (fun t => updateRec t bar 16 s.freeCtr)) e.tile bar 16 0xFFFF 3 0)
      else
        let es := loggedRun p.replay.length p.replay e.tile bar p.gcyc
        placeLogged (setPart s { p with replay := p.replay.filter (fun x => !es.any (fun y => y == x)) }) p e.tile bar es
    else
      let p1 := { p with replay := p.replay.erase e }
      setPart s (if e.ty = 2 then { p1 with holds := replayHold p1.holds p1.gcyc (payloadAt e 0x10) (payloadAt e 0x18) }
        else if e.ty = 3 then modTile p1 e.tile (fun t => { t with poison := sinsert t.poison (payloadAt e 0x10) })
        else p1)

/-- Follow the log at a cycle: poisonings and landings of the cycle, freezes that begin there. -/
def replayCycle (s : State) (p : Part) : State :=
  (p.replay.filter (fun e => e.gcyc == p.gcyc && e.ty != 4 && e.ty != 5)).foldl (fun s e => replayEntry s p.first e)
    (noteLost s p (fun e => decide (e.gcyc < p.gcyc)))

/-- A hub act that the log holds for the cycle about to run. -/
def loggedAct (p : Part) : Option LogEntry := p.replay.find? (fun e => e.gcyc == p.gcyc && e.ty == 4)

/-- The step of the hub that the log recorded: an event that it raised; an entry of 0 names no event. -/
def hubAct (band : Nat) (e : LogEntry) : List Instr :=
  let evc := payloadAt e 0x10
  if evc = 0 then [] else [.hubStopRequest band (BitVec.ofNat 8 evc) (BitVec.ofNat 16 (field evc 16 16)) e.tile]

/-- A stop request that the log recorded without an event (R404): the stop by which an audit policy failed the launch at
once (R374), which the journal has first (R391).
Log entry 56 (DEDUCED). -/
def loggedStop (s : State) (p : Part) (e : LogEntry) : State :=
  if actEvc e = 0 then
    setPart (cancelStop (if eventStop p then s else journal s (.stop p.rec_.token p.gcyc none)) p)
      { withAbort p (abortStop p e.tile 0 0 0xFF s.ringNo) with audPolicyFail := true }
  else setPart s p

/-- The hub acts of a cycle that a log has before a freeze of the same cycle: they came in it, for the log has a freeze when
it ends (R289, R402). -/
def actsInFreeze (g : Nat) (l : List LogEntry) : List LogEntry :=
  match l with
  | [] => []
  | e :: r => if e.ty == 4 && e.gcyc == g && r.any (fun x => x.ty == 2 && x.gcyc == g) then e :: actsInFreeze g r else actsInFreeze g r

/-- They are set apart until the freeze has had its logged cycles. -/
def keepActs (p : Part) : Part :=
  let acts := actsInFreeze p.gcyc p.replay
  { p with frozenActs := p.frozenActs ++ acts, replay := acts.foldl (fun l e => l.erase e) p.replay }

/-- The hub acts that are due in a freeze: it has had the cycles that the log gives it, and they end it, as they did in the
recording (R289, R403).
Log entry 38 (DEDUCED). -/
def dueActs (p : Part) : List LogEntry :=
  if isFrozen p && !p.holds.any (fun h => h.by_ == .replay && decide (h.start ≤ p.gcyc) && decide (p.frozenCyc < h.blocks)) then p.frozenActs else []

/-- The acts that raise no event are made, and the others come next. -/
def playActs (s : State) (p : Part) : State :=
  let acts := dueActs p
  if acts.isEmpty then s
  else acts.foldl (fun s e => match getPart s p.first with
    | some q => loggedStop s q e
    | none => s) (setPart s { p with frozenActs := [], acted := acts })

/-! ## Beginning a cycle -/

/-- A tile that a WAITC holds counts an empty cycle (R227). -/
def heldTile (g : Nat) (t : Tile) : Bool := !t.seq.halted && !t.seq.stopped && decide (g < t.seq.hold)

/-- Tiles that issue in this cycle (R255). -/
def issuers (p : Part) : List Loc :=
  (p.tiles.filter (fun e => !e.2.seq.halted && !e.2.seq.stopped && !decide (p.gcyc < e.2.seq.hold))).map (fun e => locOf p e.1)

/-- Count the cycle of held tiles. -/
def countHeld (p : Part) : Part :=
  { p with tiles := p.tiles.map (fun e => if heldTile p.gcyc e.2 then (e.1, ltcCycle e.2 (ltcLevel e.2.loop) 0) else e) }

/-- One of the 64 cycles after an event stop: no tile issues, and puts that have started read on (R348, R351). -/
def skidCycle (s : State) (p : Part) : State :=
  { setPart s p with phase := .engine p.first, agenda := s.agenda ++ p.tiles.flatMap (fun e => putReads (locOf p e.1) e.2 p.gcyc), todo := [] }

/-- Begin a partition cycle (R283, R287, R345): a stop that falls on it, a freeze that begins on it, or
the steps of the hardware that fall due, and then the tiles' issue. -/
def beginCycle (s : State) (p0 : Part) : State :=
  let band := p0.first
  match p0.stop with
  | some st =>
    if st.at_ ≤ p0.gcyc && p0.mode == .running then
      { s with agenda := [if st.event then .stopCycle band else .cycleArmedStop band] }
    else if p0.mode == .skid then
      if st.at_ + 64 ≤ p0.gcyc then { s with agenda := [.unwind band] }
      else skidCycle s p0
    else beginRun s p0
  | none => beginRun s p0
where
  /-- The cycle itself; in a replay, after what the log holds for it (R403). -/
  beginRun (s0 : State) (p00 : Part) : State :=
    let s := if p00.replay.isEmpty then s0 else replayCycle (setPart s0 (keepActs p00)) (keepActs p00)
    let p0 := (getPart s p00.first).getD p00
    if frozenAt p0 s.edge then { setPart s p0 with agenda := [.freezeBegin p0.first] }
    else
    match loggedAct p0 with
    | some e =>
      let s1 := loggedStop s { p0 with replay := p0.replay.erase e, acted := [e] } e
      agendaAdd { s1 with pending := p0.first :: s1.pending } (hubAct p0.first e)
    | none =>
      let q := barStartAll (countHeld p0)
      { setPart s q with phase := .engine p0.first, agenda := cycleEvents s q, todo := issuers q }

/-! ## Ending a cycle -/

/-- Raise the events found in the cycle (R344). -/
def raiseFound (s : State) (band : Nat) (fs : List Found) : State :=
  fs.foldl (fun s f => raiseImpreciseAs f.hub s { band, idx := f.tile } f.cause f.detail f.epc) s

/-- Engine-only collisions of one tile (R167): one event per bank. -/
def raiseLost (s : State) (band : Nat) (e : Nat × Tile) : State :=
  (lostBanks e.2).foldl (fun s b => raiseImprecise s { band, idx := e.1 } 0x03 (accBits e.2 b ||| b) none) s

/-- Operations of a tile that have something left to do after a cycle. -/
def sweepTile (g : Nat) (t : Tile) : Tile :=
  { t with
    accs := [], counts := [], dropBars := [], dropNext := [], barWrote := [], found := [], corrected := [], heldAt := t.held,
    mx := t.mx.filter (fun o => decide (g + 1 < o.t + mxEnd o.kind)),
    copies := t.copies.filter (fun c => decide (g + 1 < c.t + copyEnd c)),
    bursts := t.bursts.filter (fun b => if b.read then decide (g < b.t + 104) else decide (g < b.t + 2)),
    depWait := t.depWait.filter (fun w => decide (g < w.due)),
    pslots := t.pslots.filter (fun w => decide (g < w.due) || w.opened) }

/-- Log the poisoned granules that the cycle's reads found (R402). -/
def logFound (p : Part) : Part :=
  p.tiles.foldl (fun p e => e.2.found.foldl (fun p gr => logAdd p 3 e.1 p.gcyc [(0x10, 4, gr)]) p) p

/-- The hub logs the granules that the cycle's reads corrected (R169). -/
def logCorrected (s : State) (p : Part) : State :=
  { s with corrLog := s.corrLog ++ p.tiles.flatMap (fun e => e.2.corrected.map (fun gr => (physCol s p.first e.1, ty e.1, gr))) }

/-- Sweep every tile. -/
def sweep (p : Part) : Part :=
  let q := logFound p
  { q with tiles := q.tiles.map (fun e => (e.1, sweepTile q.gcyc e.2)), linkUse := [] }

/-- Count a refused command, or a missed refresh (R213, R26). -/
def countDram (t : Tile) : Tile := { t with dramCount := satInc t.dramCount }

/-- Count the missed refreshes of the cycle, after what landed in it (R27). -/
def countMisses (p : Part) : Part := { p.misses.foldl (fun p i => modTile p i countDram) p with misses := [] }

/-- Whether an event that a REALIGN has found is to be raised in the present cycle (R238). -/
def dueNow (p : Part) (x : Nat × Found) : Bool := decide (x.1 ≤ p.gcyc)

/-- End a partition cycle: events found in it, and those of a REALIGN that come with its result, are raised (R238, R344),
collisions of engine accesses are raised (R167), and GCYC advances (R283).
Log entry 24 (DEDUCED). -/
def endCycle (s : State) (band : Nat) : State :=
  match getPart s band with
  | none => { s with phase := .idle }
  | some p =>
    let s1 := raiseFound (setPart (logCorrected s p) { p with found := [], foundLater := p.foundLater.filter (fun x => !dueNow p x) }) band
      (p.found ++ (p.foundLater.filter (dueNow p)).map Prod.snd)
    let s2 := (p.tiles.filter (fun e => !(lostBanks e.2).isEmpty)).foldl (fun s e => raiseLost s band e) s1
    let s3 := onPart s2 band (fun p => { sweep (countMisses p) with gcyc := p.gcyc + 1 })
    { s3 with phase := .idle }

/-- End a pool tile's bundle: an event of its own stops its replay, and its own cycle advances (R357). -/
def endPool (s : State) (l : Loc) : State :=
  onPart s l.band (fun p =>
    let bad := p.found.any (fun f => f.tile == l.idx) || !(lostBanks (getTile p l.idx)).isEmpty
    let q := { p with found := p.found.filter (fun f => f.tile != l.idx) }
    endReplay (modTile q l.idx (fun t =>
      let t1 := sweepTile t.skew.toNat t
      { t1 with skew := t.skew + 1, seq := { t1.seq with stopped := t1.seq.stopped || bad } })) l.idx)

/-! ## Completion (R245) -/

/-- A tile with nothing left to do. -/
def tileIdle (t : Tile) : Bool :=
  t.seq.halted && t.pslots.isEmpty && t.puts.all (fun u => u.acked) && t.flight.isEmpty && t.mx.isEmpty && t.copies.isEmpty &&
  t.bursts.isEmpty && t.nextAcc.isEmpty && t.depWait.isEmpty

/-- Whether the landings that no barrier names have been written, and no collective is pending. -/
def portIdle (s : State) (band k : Nat) : Bool :=
  match mfind s.ports k with
  | none => true
  | some q => q.colls.all (fun c => c.band != band) && q.land.all (fun e => e.band != band || e.bar.isSome || e.lines.isEmpty && e.closed)

/-- Whether a launch is complete (R245). One that is stopping goes on to its stop (R382). The audit units that it has closed and that are sampled are compared
first, since its record counts them (R340, R358), and held copies are written back (R233, R371).
Log entry 46 (DEDUCED).
Log entry 49 (DEDUCED). -/
def isComplete (s : State) (p : Part) : Bool :=
  p.mode == .running && !eventStop p && !s.ctxs.any (fun c => c.rec_.token == p.rec_.token && c.st == .stopping) && p.flits.isEmpty && p.tiles.all (fun e => tileIdle e.2 && e.2.held.isEmpty) &&
  p.samples.all (fun x => x.closedAt.isNone) &&
  (bandPorts p).all (fun k => portIdle s p.first k)

/-! ## The shortfall of a slot (R235, R237) -/

/-- Bytes of closed transfers held for a barrier of a tile. -/
def heldBytes (s : State) (p : Part) (idx bar : Nat) : Nat :=
  (bandPorts p).foldl (fun a k =>
    match mfind s.ports k with
    | none => a
    | some q => (q.land.filter (fun e => e.closed && e.band == p.first && e.tile == idx && e.bar == some bar)).foldl
        (fun a e => e.lines.foldl (fun a x => a + landBytes x) a) a) 0

/-- Bytes of DRD windows on a barrier that fall after cycle g and before d. -/
def drdBytes (t : Tile) (bar g d : Nat) : Nat :=
  (t.bursts.filter (fun b => b.read && b.bar == some bar && decide (g ≤ b.t + 104) && decide (b.t + 104 < d))).length * 64

/-- Bytes that a landing slot's record wants at its check, after every update of the check's cycle (R235, R236);
none where it has reached phase ph since the slot opened (R300). -/
def slotNeed (p : Part) (idx : Nat) (w : PSlot) : Nat :=
  match w.bar with
  | none => 0
  | some b =>
    let r := getRec (getTile p idx) b
    if w.reached then 0 else r.expected.toNat - r.arrived.toNat

/-- Whether held transfers, DRD windows that are due before d, and what has come since the check cover what the
check found wanting (R235, R316). -/
def slotCovered (s : State) (p : Part) (idx : Nat) (w : PSlot) : Bool :=
  match w.bar with
  | none => true
  | some b => decide (w.need ≤ heldBytes s p idx b + w.came + drdBytes (getTile p idx) b p.gcyc w.due)

/-- Bytes that come on a record after the check of a slot and before its window (R235, R316). -/
def creditSlots (p : Part) (t : Tile) (b n : Nat) : Tile :=
  { t with pslots := t.pslots.map (fun w =>
      if w.bar == some b && w.opened && !w.window && decide (checkCyc p w < p.gcyc) then { w with came := w.came + n } else w) }

/-- Slots whose record stands at their phase (R300). -/
def reachSlots (t : Tile) : Tile :=
  { t with pslots := t.pslots.map (fun w =>
      match w.bar with
      | some b => if w.opened && !(getRec t b).armed && (getRec t b).phase == w.ph then { w with reached := true } else w
      | none => w) }

/-- A put or collective is acknowledged (R237, R312). -/
def isAcked (s : State) (p : Part) (t : Tile) (id : Nat) : Bool :=
  t.puts.all (fun u => u.id != id || u.acked || !u.covered) &&
  (bandPorts p).all (fun k =>
    match mfind s.ports k with
    | none => true
    | some q => q.colls.all (fun c => c.id != id || !c.covered || (c.unacked.isEmpty && c.sent == c.total)))

/-- Whether a slot's hold may be released (R286). -/
def covered (s : State) (p : Part) (idx : Nat) (w : PSlot) : Bool :=
  match w.bar with
  | some _ => slotCovered s p idx w
  | none => w.covers.all (isAcked s p (getTile p idx))

/-- Whether the cause of a hold has gone (R286). -/
def holdGone (s : State) (p : Part) (h : Hold) : Bool :=
  match h.by_ with
  | .slot idx id =>
    match (getTile p idx).pslots.find? (fun w => w.id == id) with
    | some w => covered s p idx w
    | none => true
  | .drd idx id =>
    match (getTile p idx).bursts.find? (fun b => b.id == id) with
    | some b => b.held
    | none => true
  | .governor => false
  | .hub => false
  | .replay => false

/-- Release the holds whose cause has gone, at this edge (R286, R287).
Log entry 63 (DEDUCED). -/
def releaseHolds (s : State) (p : Part) : Part :=
  let hs := p.holds.map (fun h => if h.released.isNone && holdGone s p h then { h with released := some s.edge } else h)
  { p with holds := hs.filter (fun h =>
      match h.released with
      | none => true
      | some e => decide (s.edge < e + lead p)) }

/-- A landing-slot hold, which the freeze limit binds (R288). -/
def isSlotHold (h : Hold) : Bool :=
  match h.by_ with
  | .slot _ _ => true
  | .drd _ _ => true
  | .governor => false
  | .hub => false
  | .replay => false

/-- One freeze cycle passes (R288): a hold counts until every tile has seen its release. -/
def freezeCycle (p : Part) : Part :=
  { p with
    frozenCyc := p.frozenCyc + 1,
    holds := p.holds.map (fun h => if (isSlotHold h || h.by_ == .replay) && decide (h.start ≤ p.gcyc) then { h with count := h.count + 1 } else h) }

/-- The tile that raised a hold. -/
def holdTile (h : Hold) : Nat :=
  match h.by_ with
  | .slot i _ => i
  | .drd i _ => i
  | .governor => 0
  | .hub => 0
  | .replay => 0

/-- The freeze timeouts of a freeze cycle (R288). -/
def timeouts (p : Part) : List Instr :=
  (sortBy (fun a b => decide (holdTile a ≤ holdTile b)) p.holds).filterMap (fun h =>
    if isSlotHold h && decide (h.start ≤ p.gcyc) && h.count == p.rec_.freezeLimit then
      match h.by_ with
      | .slot i id => some (.freezeTimeout (locOf p i) id)
      | .drd i id => some (.freezeTimeout (locOf p i) id)
      | .governor => none
      | .hub => none
      | .replay => none
    else none)

/-- The freeze timeouts of a replay (R403): a logged freeze that ends at the freeze limit ended with one in the
recording. It is raised for the WAITB slots of its cycle that their landings do not cover, else for the DRAIN slots that
wait for something then, else for the DRD windows.
Log entry 38 (DEDUCED). -/
def replayTimeouts (s : State) (p : Part) : List Instr :=
  if p.holds.any (fun h => h.by_ == .replay && decide (h.start ≤ p.gcyc) && h.count == p.rec_.freezeLimit && decide (h.blocks ≤ p.frozenCyc)) then
    let raised := fun (f : Nat → Tile → List Nat) => p.tiles.flatMap (fun e => (f e.1 e.2).map (Instr.freezeTimeout (locOf p e.1)))
    let waits := raised (fun i t =>
      (t.pslots.filter (fun w => w.bar.isSome && w.opened && !w.window && decide (w.due ≤ p.gcyc) && !slotCovered s p i w)).map (fun w => w.id))
    let drains := raised (fun _ t => (t.pslots.filter (fun w => w.bar.isNone && w.due == p.gcyc && !w.covers.isEmpty)).map (fun w => w.id))
    let reads := raised (fun _ t => (t.bursts.filter (fun b => b.read && b.t + 104 == p.gcyc)).map (fun b => b.id))
    if !waits.isEmpty then waits else if !drains.isEmpty then drains else reads
  else []

/-! ## Refresh (R212, R319) -/

/-- Number of a staging engine: pseudo-channel + 32 · rim + 64 · sheet column of the band. -/
def engineCount (p : Part) : Nat := 64 * p.count

/-- The highest owed count of an engine (R318). -/
def maxOwed (p : Part) (e : Engine) : Int := (upto 64).foldl (fun a b => if a < owed p e b then owed p e b else a) (-8)

/-- Edges of 35.1 µs, the open-row limit (R319).
Log entry 67 (DEDUCED). -/
def openLimit : Nat := 45630

/-- The open row of a bank. The engine has closed one that has stood open past 35.1 µs of WALL and past
45,630 · S/64 cycles (R320).
Log entry 67 (DEDUCED). -/
def openRow (p : Part) (edge g : Nat) (b : Bank) : Option Nat :=
  if b.openEdge + openLimit < edge ∧ openLimit * p.rec_.stretch < 64 * (g - b.act.getD 0) then none else b.row

/-- Whether a row has been open as long as the guard allows (R319). -/
def rowStale (p : Part) (edge : Nat) (b : Bank) : Bool :=
  (openRow p edge p.gcyc b).isSome && decide (b.openEdge + openLimit ≤ edge)

/-- Whether the refresh guard has something to do at an edge (R319). -/
def guardDue (p : Part) (edge : Nat) : Bool :=
  decide (8 ≤ p.ticks) && (upto (engineCount p)).any (fun k => decide (8 ≤ maxOwed p (getEngine p k))) ||
  p.engines.any (fun e => e.2.banks.any (fun b => rowStale p edge b.2))

/-- A stop has fallen (R265, R346). -/
def hasStopped (p : Part) : Bool := p.mode == .skid || p.mode == .debugHeld || p.mode == .armedStop || p.mode == .failed

/-- Stopped at the cycle of a pre-emption (R359). -/
def preempted (p : Part) : Bool := p.mode == .armedStop && p.stop.any (fun st => st.why == some .preempt)

/-! ## What an edge brings -/

/-- The cadence of an edge: a change applies from the first edge of its block (R284, R288). -/
def cadenceAt (p : Part) (edge : Nat) : Nat := ((p.kNext.filter (fun x => decide (x.2 ≤ edge))).getLast?.map Prod.fst).getD p.k

/-- Whether a dump that is asked for is of a tile of a partition, and its time has come (R396). -/
def askFor (p : Part) (edge : Nat) (a : DumpAsk) : Bool :=
  a.asid == p.rec_.asid && decide (a.edge ≤ edge) && decide (tx a.tile < 64 * p.count) && decide (ty a.tile < ph)

/-- Whether an event stop has its cycle while the partition is frozen there: it does not resume (R289). -/
def stopDue (p : Part) : Bool := p.stop.any (fun st => st.event && decide (st.at_ ≤ p.gcyc))

/-- Whether a freeze ends at an edge: the release of its last hold has been seen, and the partition issues (R287). One
that a logged hub act ends does not (R403). -/
def thaws (s : State) (p : Part) : Bool :=
  isFrozen p && isIssueEdge (cadenceAt p s.edge) s.edge && !frozenAt (releaseHolds s p) s.edge && !stopDue p && p.frozenActs.isEmpty

/-- What comes next of a launch that is pre-empted, once its held copies are written back: the save of its context, and
its release when that is over (R359, R382). -/
def preemptEvents (s : State) (p : Part) : List Instr :=
  if preempted p && p.tiles.all (fun x => x.2.held.isEmpty) then
    match s.ctxs.find? (fun c => c.rec_.token == p.rec_.token) with
    | some c =>
      if c.st == .stopping then [.contextSave p.first]
      else if c.st == .saving && decide (c.saveEnd ≤ s.edge) then [.bandRelease p.first] else []
    | none => []
  else []

/-- Steps that a partition's own clockwork brings at an edge. The band of a launch that has failed is kept while a dump
of it is asked for (R349).
Log entry 23 (DEDUCED). -/
def edgeEvents (s : State) (p : Part) : List Instr :=
  let e := s.edge
  let b := p.first
  let groom := isGroomer e
  let live := decide (p.startEdge ≤ e)
  let k := cadenceAt p e
  (if live && e % 64 == 0 && p.kNext.any (fun x => decide (x.2 ≤ e)) then [Instr.cadenceChange b] else []) ++
  (if live && e % 1300 == 0 then [Instr.estimatorUpdate b, .governorEvaluation b] else []) ++
  (if decide (p.startEdge < e) && (e - p.startEdge) % 5070 == 0 && !preempted p then [Instr.refreshTick b] else []) ++
  (if isFrozen p && guardDue p e then [Instr.refreshGuard b] else []) ++
  (if isFrozen p && isIssueEdge k e then
    (let q := freezeCycle (releaseHolds s p); timeouts q ++ replayTimeouts s q) else []) ++
  (if thaws s p then [Instr.holdRelease b] else []) ++
  (if isFrozen p && stopDue p then [Instr.stopCycle b] else []) ++
  (if p.mode == .failed && !s.asks.any (askFor p e) then [Instr.bandRelease b] else []) ++
  preemptEvents s p ++
  (if p.tracePeriod.isSome && decide (p.sampleAt ≤ e) then [Instr.traceSample b] else []) ++
  (if e == p.quantum + 13000000 then [Instr.quantumExpiry b] else []) ++
  (if isComplete s p then [Instr.launchCompletion b] else []) ++
  (if groom then
    (p.tiles.flatMap (fun x => (x.2.held.filter (fun h => hasStopped p || !x.2.pslots.any (fun w => w.opened && w.bar == some h.1))).map
      (fun h => Instr.heldRecordWriteback (locOf p x.1) h.1))) ++
    (if p.inject.any (fun i => decide (i.2.2 < p.gcyc)) then [Instr.errorInjection b] else []) ++
    (if decide (p.stitched < (p.gcyc - 1) / 65536) then [Instr.stitchAlignmentCheck b] else []) ++
    (if p.tiles.any (fun x => !x.2.evts.isEmpty) then [Instr.evtDrain b] else []) ++
    (if p.traceOn && p.tiles.any (fun x => !x.2.traces.isEmpty) then [Instr.traceDrain b] else []) ++
    (if !p.logFull && decide (p.logDone < p.log.length) then [Instr.replayLogDrain b] else []) ++
    (if p.samples.any (fun x => !x.todoLines.isEmpty || !x.outLines.isEmpty) then [Instr.auditCopy b] else []) ++
    (if p.samples.any (fun x => x.copied && x.replaySig.isNone) then [Instr.auditReplayBundle b] else []) ++
    (if p.samples.any (fun x => x.sig.isSome && x.replaySig.isSome) then [Instr.auditCompare b] else [])
   else [])

/-- Index of the outermost level at step k of a collective's walk (R223). -/
def walkOuter (r : CollRec) (k : Nat) : Nat := k / ((r.levels.drop 1).foldl (fun a e => a * (e.2.1 + 1)) 1)

/-- Sums of coefficients and of strides over a walk's indices at step k, levels given innermost first. -/
def walkSums (ls : List (Int × Nat × Int)) (k : Nat) : Int × Int :=
  match ls with
  | [] => (0, 0)
  | (c, b, st) :: r =>
    let o := walkSums r (k / (b + 1))
    let i : Int := ((k % (b + 1) : Nat) : Int)
    (o.1 + i * c, o.2 + i * st)

/-- Offset of step k, `ahead` outer steps on (R223): low 9 bits cleared.
Log entry 35 (DEDUCED). -/
def walkOff (r : CollRec) (k ahead : Nat) : Nat :=
  let d := (walkSums r.levels.reverse k).2 + (ahead : Int) * ((r.levels.head?.map (fun e => e.2.2)).getD 0)
  alignDown 9 ((((r.off0 : Int) + d) % (r.wrap : Int)).toNat)

/-- Whether a collective may emit its next step (R223). -/
def canSend (c : Coll) : Bool :=
  decide (c.rec_.wrap / 16 ≤ c.snapDone) && decide (c.sent < c.total) &&
  (walkOuter c.rec_ c.sent == 0 || smem c.got (walkOff c.rec_ c.sent 0))

/-- The write that a port makes of its landings on a groomer edge: a line of the first that has closed and is written
outside windows, because it names no barrier or its launch is race-bound (R220, R316).
Log entry 27 (DEDUCED). -/
def landingWrites (s : State) (k : Nat) (q : Port) : List Instr :=
  let race := fun (b : Nat) => (getPart s b).any (fun p => p.rec_.raceBound)
  match q.land.find? (fun x => x.closed && !x.lines.isEmpty && (x.bar.isNone || (race x.band && x.win.isNone))) with
  | some x => if x.bar.isNone then [.barrierlessLandingWrite k] else [.raceBoundLandingWrite k]
  | none => []

/-- Steps that a port brings at an edge (R220, R223, R316, R369). What waits for room, or for its launch, is offered
again on every groomer edge (R221, R310).
Log entry 34 (DEDUCED). -/
def portEvents (s : State) (k : Nat) (q : Port) : List Instr :=
  let e := s.edge
  (q.land.filter (fun x => x.cls == 0 && !x.closed && decide (x.edge0 + closeEdges ≤ e) && x.coll.isNone)).map (fun x => .class0CloseTimeout k x.id) ++
  ((q.colls.find? (fun c => decide (c.sent < c.total))).filter canSend).toList.map (fun c => .collStepSend k c.id) ++
  (q.colls.filter (fun c => c.rec_.cls == 0 && c.waitEdge.any (fun x => decide (x + closeEdges ≤ e)))).map (fun c => .collStepCloseTimeout k c.id) ++
  (if isGroomer e then
    landingWrites s k q ++
    (if q.serve.any (fun x => decide (0 < x.left)) then [Instr.lnkgServeRead k] else []) ++
    q.waiting.map (fun x => .inboundTransferArrival k x) ++
    (q.colls.filter (fun c => c.full)).flatMap (fun c =>
      (c.partial_.take 1).map (fun x => .collChunkReceive k { x with blocks := [], trailer := false }))
   else [])

/-- Whether a queue's completion ring has room (R376, R378). -/
def ringRoom (s : State) (c : Completion) : Bool :=
  let q := (mfind s.queues c.queue).getD {}
  decide ((q.cqTail + 2 ^ 32 - q.cqHead) % 2 ^ 32 < 2 ^ q.cqLog2)

/-- Steps that the hub's own clockwork brings at an edge.
Log entry 57 (DEDUCED).
Log entry 68 (DEDUCED). -/
def hubEvents (s : State) : List Instr :=
  (if isGroomer s.edge && !s.parts.isEmpty then [Instr.scrub] else []) ++
  (if s.status.ready then s.kicks.map (fun q => Instr.kickService (BitVec.ofNat 12 q)) else []) ++
  (if s.status.ready && s.edge % 1300000 == 0 then [Instr.placementPass] else []) ++
  ((s.retrain.filter (fun r => decide (r.2 ≤ s.edge))).map (fun r => .bandRetrainEnd r.1 { stacksOk := false, portFail := [4 * r.1, 4 * r.1 + 1, 4 * r.1 + 2, 4 * r.1 + 3] })) ++
  (if s.done.any (ringRoom s) then [Instr.completionRecordWrite] else [])

/-- Partition bookkeeping of an edge: holds whose cause has gone are released, and a freeze cycle is
counted (R286 to R288). -/
def edgePart (s : State) (p : Part) : Part :=
  let p1 := releaseHolds s p
  if isFrozen p1 && !stopDue p1 && isIssueEdge (cadenceAt p1 s.edge) s.edge && frozenAt p1 s.edge then freezeCycle p1 else p1

/-- A pre-emption asked for while the partition is frozen falls at g itself where it is still frozen R edges
later, in that freeze (R385). -/
def frozenStop (s : State) (p : Part) : List Instr :=
  match p.stop with
  | some st =>
    if isFrozen p && !thaws s p && !st.event && st.frozen && decide (st.c1 + lead p ≤ s.edge) then [.cycleArmedStop p.first] else []
  | none => []

/-! ## Energy (R387, R410) -/

/-- An estimator coefficient of the store, in picojoules (R387).
Log entry 6 (DESIGN CHOICE). -/
def coef (s : State) (i : Nat) : Nat := s.store.coefs.getD i 0

/-- Charge a queue with whole microjoules (R387). -/
def chargeQueue (s : State) (q n : Nat) : State :=
  let d := (mfind s.queues q).getD {}
  { s with queues := mput s.queues q { d with energy := (d.energy + n) % 2 ^ 64 } }

/-- A launch that is placed and not yet on its band. -/
def isComing (c : Ctx) : Bool := c.st == .loading || c.st == .restoring

/-- Charge picojoules to a live launch and its queue (R387). -/
def chargeCtx (s : State) (c : Ctx) (e : Nat) : State :=
  let r := c.resid + e
  chargeQueue { s with ctxs := s.ctxs.map (fun x =>
      if x.rec_.token = c.rec_.token then { x with resid := r % 1000000, energy := (x.energy + r / 1000000) % 2 ^ 64 } else x) } c.queue (r / 1000000)

/-- Charge a launch that has no band yet for a transfer of its image, whose power counts in the present microsecond
(R387, R410). -/
def chargeImage (s : State) (c : Ctx) (e : Nat) : State :=
  let s1 := chargeCtx s c e
  { s1 with leftPower := s1.leftPower + e }

/-- Module power in watts, in POWER's 20 bits: every band's estimate, what bands without a resident launch drew, and the
controller die's own (R410).
Log entry 10 (DESIGN CHOICE). -/
def modulePower (s : State) : Nat := ((s.parts.foldl (fun a e => a + e.2.power) s.idlePower) / 1000000 + Config.diePower) % 2 ^ 20

/-- Launches that are being loaded or restored and are not on their bands yet. -/
def comingCtxs (s : State) : List Ctx := s.ctxs.filter (fun c => isComing c && !s.parts.any (fun e => e.2.rec_.token == c.rec_.token))

/-- Each microsecond a launch that is being loaded or restored is charged what its columns draw, and POWER is formed, of
which the estimators of the bands then give their part (R387, R410).
Log entry 10 (DESIGN CHOICE). -/
def idleEnergy (s : State) : State :=
  if s.edge % 1300 == 0 then
    let s1 := (comingCtxs s).foldl (fun s c => chargeCtx s c (coef s 0 * c.rec_.count)) s
    let s2 : State := { s1 with
      idlePower := (comingCtxs s).foldl (fun a c => a + coef s 0 * c.rec_.count) s1.leftPower, leftPower := 0 }
    if s2.status.ready then { s2 with power := modulePower s2 } else s2
  else s

/-! ## Dumps and the store (R390, R396, R406) -/

/-- Whether a partition stands at a stop in which the hub dumps tiles (R349, R395, R396): held copies have been written
back (R233). -/
def dumpable (p : Part) : Bool :=
  (p.mode == .debugHeld || p.mode == .failed || (p.mode == .armedStop && !preempted p)) && p.tiles.all (fun e => e.2.held.isEmpty)

/-- A tile's record of a dump (R278, R360, R396): IMEM is not saved, and discardable lines are zeros.
Log entry 79 (DESIGN CHOICE). -/
def dumpTile (s : State) (p : Part) (idx : Nat) : TileDump :=
  { asid := p.rec_.asid, x := tx idx, y := ty idx, col := physCol s p.first idx, row := ty idx,
    tile := { zeroDiscarded (getTile p idx) with imem := [], imemErr := [] },
    flits := flitsAt p idx,
    engine := (wiredEngine idx).map (getEngine p), ticks := p.ticks,
    ports := ((bandPorts p).filter (fun k => homeTile p k == idx)).map (portSection s p) }

/-- The sections of a record after the tile's own: its router's, its engine's and its ports' (R360). -/
def dumpRest (p : Part) (d : TileDump) : List Byte :=
  routerSection p (tileIdx d.x d.y) ++
  (match wiredEngine (tileIdx d.x d.y) with
   | some k => engineSection p k
   | none => []) ++
  d.ports.flatMap (fun q => landSection q ++ ringSection q)

/-- The bytes of a record that are not zero, in a host buffer: the two positions of R278, each with the column below and the
row above, and the sections of R360.
Log entry 79 (DESIGN CHOICE). -/
def dumpCells (a : Nat) (p : Part) (d : TileDump) : SMap Byte :=
  let rest := a + 16 + recordSize
  byteCells a (bytesOf 8 (d.x + 1024 * d.y) ++ bytesOf 8 (d.col + 1024 * d.row)) ++
  recordCells (a + 16) p.gcyc (getTile p (tileIdx d.x d.y)) ++ byteCells rest (dumpRest p d)

/-- Whether a dump writes byte o of its buffer: all of a record but the bursts that are wholly discardable (R361, R396). -/
def dumpWrites (p : Part) (d : TileDump) (o : Nat) : Bool :=
  if o < 16 then true
  else if o < 16 + recordSize then recordWrites (getTile p (tileIdx d.x d.y)) (o - 16)
  else decide (o < 16 + recordSize + (dumpRest p d).length)

/-- The record of a dump goes to its host buffer (R396). -/
def putDump (s : State) (p : Part) (a : DumpAsk) (d : TileDump) : State :=
  { s with
    dumps := s.dumps ++ [d], asks := s.asks.erase a,
    hostMem := blit s.hostMem (fun x => decide (a.addr ≤ x) && dumpWrites p d (x - a.addr)) (dumpCells a.addr p d) }

/-- Serve the dumps asked for of partitions that stand where the hub may dump them (R396).
Log entry 79 (DESIGN CHOICE). -/
def serveDumps (s : State) : State :=
  s.asks.foldl (fun s a =>
    match s.parts.find? (fun e => askFor e.2 s.edge a && dumpable e.2) with
    | some e => putDump s e.2 a (dumpTile s e.2 a.tile)
    | none => s) s

/-- A firmware image that is offered replaces the one in the store if its signature verifies (R390, R406).
Log entry 80 (DESIGN CHOICE). -/
def takeOffer (s : State) : State :=
  match s.offer with
  | none => s
  | some x => { s with offer := none, store := if Config.firmwareSigned x then { s.store with firmware := x } else s.store }

/-- The next clock edge (R282).
Log entry 3 (DESIGN CHOICE).
Log entry 8 (DESIGN CHOICE). -/
def advance (s0 : State) : State :=
  let s1 := takeOffer (serveDumps (idleEnergy { s0 with edge := s0.edge + 1 }))
  let ins := (s1.inputs.filter (fun x => decide (x.1 ≤ s1.edge))).map Prod.snd
  let s2 : State := { s1 with inputs := s1.inputs.filter (fun x => !decide (x.1 ≤ s1.edge)) }
  let ev := s2.parts.flatMap (fun e => (dueActs e.2).flatMap (hubAct e.1) ++ edgeEvents s2 e.2 ++ frozenStop s2 e.2)
  let s2 := s2.parts.foldl (fun s e => playActs s e.2) s2
  let s3 : State := { s2 with parts := s2.parts.map (fun e => (e.1, edgePart s2 e.2)) }
  { s3 with
    agenda := ins ++ ev ++ s3.ports.flatMap (fun e => portEvents s3 e.1 e.2) ++ hubEvents s3 ++ s3.agenda,
    pending := s3.parts.map Prod.fst }

/-- A partition cycle of a band at this edge, if the band has one: an issue edge of its cadence on which
it runs, or one of the 64 cycles after an event stop (R283, R348). -/
def tryCycle (s : State) (band : Nat) : State :=
  match getPart s band with
  | none => s
  | some p =>
    if decide (p.startEdge ≤ s.edge) && isIssueEdge p.k s.edge && (p.mode == .running || p.mode == .skid) then beginCycle s p else s

/-- A slot whose record is no longer armed, or whose lines are written, has ended (R234). -/
def endSlots (t : Tile) : Tile :=
  { t with pslots := t.pslots.map (fun w =>
      match w.bar with
      | some b => if w.window && !(getRec t b).armed then { w with opened := false, window := false } else w
      | none => w) }

/-- Lines that a slot which has ended did not write stay held for the next (R234). -/
def freeLines (s : State) (p : Part) : State :=
  (bandPorts p).foldl (fun s k =>
    match mfind s.ports k with
    | none => s
    | some q =>
      if q.land.any (fun e => e.win.isSome && e.band == p.first) then
        { s with ports := mput s.ports k { q with land := q.land.map (fun e =>
            if e.band == p.first && e.win.any (fun i => !(getTile p e.tile).pslots.any (fun w => w.id == i && w.window)) then
              { e with win := none } else e) } }
      else s) s

/-- Slots that have reached their phase are marked after a cycle's updates (R300). -/
def reachAll (p : Part) : Part :=
  { p with tiles := p.tiles.map (fun e => if e.2.pslots.isEmpty then e else (e.1, reachSlots e.2)) }

/-- After a cycle's counts, the windows whose record disarmed end (R234). -/
def endWindows (s : State) (band : Nat) : State :=
  match getPart s band with
  | none => s
  | some p =>
    if p.tiles.any (fun e => e.2.pslots.any (fun w => w.window)) then
      let q := { p with tiles := p.tiles.map (fun e => if e.2.pslots.any (fun w => w.window) then (e.1, endSlots e.2) else e) }
      freeLines (setPart s q) q
    else s

/-- A cycle's updates are merged, and the pending slots due are checked after them.
Log entry 64 (DEDUCED). -/
def settleCycle (s : State) (b : Nat) : State :=
  let s1 := endWindows (onPart (settle s b) b (fun p => takeSnaps (reachAll p))) b
  { s1 with
    phase := .issue b,
    agenda := match getPart s1 b with
      | none => []
      | some p => if p.mode == .skid then [] else checkEvents p }

/-- Release, at the edge that is over, the holds whose cause has gone (R286, R287). -/
def releaseAll (s : State) : State := { s with parts := s.parts.map (fun e => (e.1, releaseHolds s e.2)) }

/-- What the model does when no step of the hardware and no bundle is due: settle a cycle, end it, begin
the next band's, or go to the next clock edge. -/
def bookkeep (s : State) : State :=
  match s.phase with
  | .engine b => settleCycle s b
  | .issue b => endCycle s b
  | .pool ls => { ls.foldl endPool s with phase := .idle }
  | .idle =>
    match s.pending with
    | b :: r => tryCycle { s with pending := r } b
    | [] => advance (releaseAll s)

/-- One step, with the meanings of the instructions given: the next step of the hardware, or the next
slot of the tile whose turn it is, or the bookkeeping of a cycle or an edge.
Log entry 1 (DESIGN CHOICE). -/
def stepWith (ex : Instr → State → Result) (s : State) : Result :=
  match s.agenda with
  | i :: r => ex i { s with agenda := r }
  | [] =>
    match s.phase, s.todo with
    | .issue _, l :: _ => tileStep ex s l
    | .pool _, l :: _ => tileStep ex s l
    | _, _ => .next (bookkeep s)

end Sys2Proof.Machine
end

