-- ==== Sys2Proof/Machine/Dram.lean ====
section
/-! DEFINITION. DRAM commands, the staging engines' checks, bursts and refresh (R208 to R214, R317 to R322). -/

namespace Sys2Proof.Machine

/-! ## Wiring and translation (R208, R209, R322) -/

/-- Pseudo-channel of an engine. -/
def engPchan (eng : Nat) : Nat := eng % 32

/-- The wired tile of even TX of an engine (R213). -/
def evenTile (eng : Nat) : Nat := tileIdx (64 * (eng / 64) + 2 * (eng % 32)) (if eng / 32 % 2 = 0 then 0 else 783)

/-- Bank, column and pseudo-channel of a DRAM virtual address (R209). -/
def vaBank (va : Nat) : Nat := field va 15 6
def vaCol (va : Nat) : Nat := field va 6 4
def vaPchan (va : Nat) : Nat := field va 10 5

/-- Sheet columns of a launch record. -/
def colsOf (r : LaunchRec) : List Nat := (upto r.count).map (fun k => r.first + k)

/-- Whether a DRAM row is one that range entries map (R322). -/
def mapsRow (rs : List DRange) (row : Nat) : Bool :=
  rs.any (fun e => decide ((row + 2 ^ 27 - ((e.base + e.offset) % 2 ^ 48 / 2 ^ 21)) % 2 ^ 27 < (e.limit - e.base) / 2 ^ 21))

/-- The physical row that the range entries give (R322): detail 0x0001 or 0x0002 where none does. -/
def dramRow (rs : List DRange) (va : Nat) : Except Nat Nat :=
  if 2 ^ 48 ≤ va then .error 0x0001
  else
    match rs.find? (fun r => decide (r.base ≤ va) && decide (va < r.limit)) with
    | none => .error 0x0001
    | some r =>
      let row := (va + r.offset) % 2 ^ 48 / 2 ^ 21
      if 32767 < row then .error 0x0002 else .ok row

/-- The translation of a command with an address (R209): engine and row, or the detail of the fault.
Log entry 15 (DEDUCED). -/
def dramXlate (p : Part) (idx va : Nat) : Except Nat (Nat × Nat) :=
  match wiredEngine idx with
  | none => .error 0x0004
  | some e =>
    match dramRow p.rec_.dram va with
    | .error d => .error d
    | .ok row => if vaPchan va = engPchan e then .ok (e, row) else .error 0x0003

/-- The flat address of a burst: wafer sheet column, rim, pseudo-channel, bank, row, column. -/
def burstAddr (first eng bank row col : Nat) : Nat :=
  (((((first + eng / 64) * 64 + eng % 64) * 64 + bank) * 32768 + row) * 16 + col) * 64

/-! ## The engine's checks (R211 to R213) -/

/-- What a command is. -/
inductive DCmd where
  | act (bank row : Nat)
  | rd (bank row : Nat)
  | wr (bank row : Nat)
  | pre (bank : Nat)
  | prea
  | ref
  | refb (bank : Nat)
  deriving DecidableEq, Repr

/-- Whether it is a column command. -/
def DCmd.isCol (c : DCmd) : Bool :=
  match c with
  | .rd _ _ => true
  | .wr _ _ => true
  | .act _ _ => false
  | .pre _ => false
  | .prea => false
  | .ref => false
  | .refb _ => false

/-- The bank that EVC.detail names (R213). -/
def DCmd.bank (c : DCmd) : Nat :=
  match c with
  | .act b _ => b
  | .rd b _ => b
  | .wr b _ => b
  | .pre b => b
  | .prea => 0
  | .ref => 0
  | .refb b => b

/-- Less than `n` cycles since an earlier command. -/
def tooSoon (g n : Nat) (at_ : Option Nat) : Bool := at_.any (fun x => decide (g < x + n))

/-- Whether the engine is making up a missed refresh on a bank (R213). -/
def bankBusy (g : Nat) (b : Bank) : Bool := b.busy.any (fun x => decide (g < x.1))

/-- Last DACT, or column command, that a test accepts. -/
def lastAct (e : Engine) (f : Nat → Bool) : Option Nat := ((e.acts.filter (fun x => f x.2)).map Prod.fst).foldl (fun a x => some (maxN x (a.getD 0))) none
def lastCol (e : Engine) (f : Nat → Bool → Bool) : Option Nat :=
  ((e.cols.filter (fun x => f x.2.1 x.2.2)).map Prod.fst).foldl (fun a x => some (maxN x (a.getD 0))) none

/-- At most four DACT in any 20 cycles (R211). -/
def fawBad (e : Engine) (g : Nat) : Bool := decide (4 ≤ (e.acts.filter (fun x => decide (g < x.1 + 20))).length)

/-- Code of the first check that fails, with the lowest code first (R213). -/
def firstCheck (cs : List (Nat × Bool)) : Option Nat := (cs.find? (fun c => c.2)).map Prod.fst

/-- The check that a command breaks (R211 to R213): 14 if it applies, else the lowest. -/
def dramCheck (p : Part) (edge : Nat) (e : Engine) (g : Nat) (c : DCmd) : Option Nat :=
  let bk := getBank e
  let all := tooSoon g 455 e.refAll
  if (if c.isCol then e.colCyc else e.rowCyc) == some g then some 14
  else
    match c with
    | .act b _ => firstCheck [
        (0, (openRow p edge g (bk b)).isSome || bankBusy g (bk b)), (2, tooSoon g 24 (bk b).pre), (4, tooSoon g 68 (bk b).act),
        (7, tooSoon g 6 (lastAct e (fun x => x / 4 == b / 4))), (8, tooSoon g 4 (lastAct e (fun _ => true))), (9, fawBad e g),
        (13, all || tooSoon g 224 (bk b).ref)]
    | .rd b row => firstCheck [
        (0, openRow p edge g (bk b) != some row || bankBusy g (bk b)), (1, tooSoon g 24 (bk b).act),
        (5, tooSoon g 4 (lastCol e (fun x _ => x / 4 == b / 4))), (6, tooSoon g 2 (lastCol e (fun _ _ => true))),
        (11, tooSoon g 12 (lastCol e (fun _ w => w))), (13, all)]
    | .wr b row => firstCheck [
        (0, openRow p edge g (bk b) != some row || bankBusy g (bk b)), (1, tooSoon g 24 (bk b).act),
        (5, tooSoon g 4 (lastCol e (fun x _ => x / 4 == b / 4))), (6, tooSoon g 2 (lastCol e (fun _ _ => true))),
        (12, tooSoon g 14 (lastCol e (fun _ w => !w))), (13, all)]
    | .pre b => firstCheck [
        (0, bankBusy g (bk b)), (3, tooSoon g 44 (bk b).act), (10, tooSoon g 24 (bk b).wr), (13, all)]
    | .prea => firstCheck [
        (0, e.banks.any (fun x => bankBusy g x.2)), (3, e.banks.any (fun x => tooSoon g 44 x.2.act)),
        (10, e.banks.any (fun x => tooSoon g 24 x.2.wr)), (13, all)]
    | .ref => firstCheck [
        (0, e.banks.any (fun x => (openRow p edge g x.2).isSome || bankBusy g x.2)), (13, all),
        (15, (upto 64).any (fun b => decide (owed p e b ≤ -8)))]
    | .refb b => firstCheck [
        (0, (openRow p edge g (bk b)).isSome || bankBusy g (bk b)), (13, all || tooSoon g 224 (bk b).ref), (15, decide (owed p e b ≤ -8))]

/-- Change one bank of an engine. -/
def onBank (e : Engine) (b : Nat) (f : Bank → Bank) : Engine := { e with banks := mput e.banks b (f (getBank e b)) }

/-- A minimum of R211 in clock edges (R319). -/
def edgesOf (n : Nat) : Nat := cdiv (n * 64) 60

/-- What the guard waits for after a bank is activated, precharged or refreshed at an edge (R211, R319). -/
def reopened (edge : Nat) (k : Bank) : Bank :=
  { k with openEdge := edge, preFrom := maxN k.preFrom (edge + edgesOf 44), actFrom := maxN k.actFrom (edge + edgesOf 68) }
def precharged (edge : Nat) (k : Bank) : Bank :=
  { k with refFrom := maxN k.refFrom (edge + edgesOf 24), actFrom := maxN k.actFrom (edge + edgesOf 24) }
def refreshed (edge : Nat) (k : Bank) : Bank :=
  { k with refFrom := maxN k.refFrom (edge + edgesOf 224), actFrom := maxN k.actFrom (edge + edgesOf 224) }

/-- Activations near enough to an edge to matter to another (R211, R319). -/
def recentActs (edge : Nat) (e : Engine) : List (Nat × Nat) := e.actEdges.filter (fun x => decide (edge < x.1 + edgesOf 20))

/-- Whether a bank may be activated at an edge beside other activations: tRRD and tFAW in edges (R211, R319). -/
def actFits (acts : List (Nat × Nat)) (b x : Nat) : Bool :=
  let all := x :: acts.map Prod.fst
  acts.all (fun a =>
    let gap := edgesOf (if a.2 / 4 = b / 4 then 6 else 4)
    decide (x + gap ≤ a.1) || decide (a.1 + gap ≤ x)) &&
  all.all (fun y => decide ((all.filter (fun z => decide (z ≤ y) && decide (y < z + edgesOf 20))).length ≤ 4))

/-- The first edge from x at which a bank may be activated. -/
def actEdge (fuel : Nat) (acts : List (Nat × Nat)) (b x : Nat) : Nat :=
  match fuel with
  | 0 => x
  | n + 1 => if actFits acts b x then x else actEdge n acts b (x + 1)

/-- Activate a bank of an engine from outside the schedule, as soon as its minimums allow after an edge; it is done
tRCD later (R319, R321). -/
def reactivate (e : Engine) (b edge : Nat) : Engine :=
  let acts := recentActs edge e
  let x := actEdge 1024 acts b (maxN edge (getBank e b).actFrom)
  onBank { e with actEdges := acts ++ [(x, b)], guard := maxN e.guard (x + edgesOf 24) } b (reopened x)

/-- A command that the engine accepts. -/
def dramDo (edge : Nat) (e : Engine) (g : Nat) (c : DCmd) : Engine :=
  let e1 := if c.isCol then { e with colCyc := some g } else { e with rowCyc := some g }
  match c with
  | .act b row =>
    onBank { e1 with
        acts := e1.acts.filter (fun x => decide (g < x.1 + 20)) ++ [(g, b)], actEdges := recentActs edge e1 ++ [(edge, b)] } b
      (fun k => reopened edge { k with row := some row, act := some g })
  | .rd b _ => { e1 with cols := e1.cols.filter (fun x => decide (g < x.1 + 14)) ++ [(g, b, false)] }
  | .wr b _ =>
    onBank { e1 with cols := e1.cols.filter (fun x => decide (g < x.1 + 14)) ++ [(g, b, true)] } b
      (fun k => { k with wr := some g, preFrom := maxN k.preFrom (edge + edgesOf 24) })
  | .pre b => onBank e1 b (fun k => precharged edge { k with row := none, pre := some g })
  | .prea => (upto 64).foldl (fun e b => onBank e b (fun k => precharged edge { k with row := none, pre := some g })) e1
  | .ref => { e1 with refAll := some g, refs := e1.refs + 1, allFrom := edge + edgesOf 455 }
  | .refb b => onBank e1 b (fun k => refreshed edge { k with ref := some g, refs := k.refs + 1 })

/-- Send a command to the engine of the current tile. -/
def sendCmd (s : State) (p : Part) (eng : Nat) (c : DCmd) : State :=
  onPart s s.cur.band (fun q =>
    countAct { q with engines := mput q.engines eng (dramDo s.edge (getEngine q eng) p.gcyc c) } 10 1)

/-- EVC.detail of a refused command (R213). -/
def dramDetail (code eng bank : Nat) : Nat := code * 4096 + engPchan eng * 64 + bank

/-- Translation of a command: engine, or the fault. `va` is absent for DPREA, DREF and DREFB. -/
def cmdEngine (p : Part) (idx : Nat) (va : Option Nat) : Except Nat (Nat × Nat) :=
  match va with
  | some a => dramXlate p idx a
  | none =>
    match wiredEngine idx with
    | none => .error 0x0004
    | some e => .ok (e, 0)

/-- Refusals of a DRAM command in their order (R224): translation, then, with dram_mode 0, timing. -/
def cmdRefuse (s : State) (p : Part) (t : Tile) (va : Option Nat) (mk : Nat → DCmd) : Option (Nat × Nat) :=
  match cmdEngine p s.cur.idx va with
  | .error d => some (0x07, d)
  | .ok (e, row) =>
    if t.dramMode then none
    else (dramCheck p s.edge (getEngine p e) p.gcyc (mk row)).map (fun c => (0x06, dramDetail c e (mk row).bank))

/-- Perform a command, or, where the engine refuses it, count it and do what R213 leaves of it. -/
def cmdRun (s : State) (p : Part) (va : Option Nat) (mk : Nat → DCmd) (sent refused : Nat → Nat → State → State) : State :=
  match cmdEngine p s.cur.idx va with
  | .error _ => s
  | .ok (e, row) =>
    match dramCheck p s.edge (getEngine p e) p.gcyc (mk row) with
    | some _ => refused e row (onTile s s.cur countDram)
    | none => sent e row (sendCmd s p e (mk row))

/-- A command that only changes the engine's state (R210, R213). -/
def rowCmd (i : Instr) (gu : Guard) (reads : List Nat) (va : Tile → Option Nat) (mk : Tile → Nat → DCmd) (s : State) : Result :=
  runSlot i (fun p t => { sl := .cp, gu := gu, reads := reads, refuse := cmdRefuse s p t (va t) (mk t) })
    (fun p t s => cmdRun s p (va t) (mk t) (fun _ _ s => s) (fun _ _ s => s)) s

/-! ## Commands (R210) -/

/-- R210: open a row. -/
def execDact (gu : Guard) (gp : BitVec 4) (s : State) : Result :=
  rowCmd (.dact gu gp) gu (pairReads gp) (fun t => some (pairOf t gp)) (fun t row => .act (vaBank (pairOf t gp)) row) s

/-- R210: close a bank. -/
def execDpre (gu : Guard) (gp : BitVec 4) (s : State) : Result :=
  rowCmd (.dpre gu gp) gu (pairReads gp) (fun t => some (pairOf t gp)) (fun t _ => .pre (vaBank (pairOf t gp))) s

/-- R210: close every bank of the engine. -/
def execDprea (gu : Guard) (s : State) : Result :=
  rowCmd (.dprea gu) gu [] (fun _ => none) (fun _ _ => .prea) s

/-- R210: all-bank refresh. -/
def execDref (gu : Guard) (s : State) : Result :=
  rowCmd (.dref gu) gu [] (fun _ => none) (fun _ _ => .ref) s

/-- R210: refresh of one bank. -/
def execDrefb (gu : Guard) (bank : BitVec 6) (s : State) : Result :=
  rowCmd (.drefb gu bank) gu [] (fun _ => none) (fun _ _ => .refb bank.toNat) s

/-- The bytes of a burst as stored; a byte never written is 0.
Log entry 4 (DESIGN CHOICE). -/
def burstBytes (s : State) (a : Nat) : List Byte := (upto 64).map (fun i => mget 0 s.dram (a + i))

/-- Granules of a burst that the stack cannot correct (R210). -/
def burstBad (s : State) (a : Nat) : List Nat := (upto 8).filter (fun k => smem s.dramPoison (a / 8 + k))

/-- Whether the script of outside events holds the return of a burst, which is then late or marked by it
(R210, R286).
Log entry 18 (DESIGN CHOICE). -/
def returnScripted (s : State) (l : Loc) (id : Nat) : Bool :=
  s.inputs.any (fun x =>
    match x.2 with
    | .drdBurstHeld l1 id1 _ => l1 == l && id1 == id
    | _ => false)

/-- Start a DRD: its window falls at t + 104 (R210). A refused one still writes 64 zero bytes (R213). One whose
burst the engine does not hold raises its hold (R286).
Log entry 20 (DEDUCED). -/
def startRead (s : State) (p : Part) (sram : Nat) (bar : Option Nat) (phys : Option Nat) : State :=
  let b : Burst := {
    id := s.seqNo, t := p.gcyc, pc := 0, read := true, sram := sram, bar := bar, phys := phys,
    data := match phys with
      | some a => burstBytes s a
      | none => (upto 64).map (fun _ => 0),
    bad := match phys with
      | some a => burstBad s a
      | none => [],
    held := phys.isNone || !returnScripted s s.cur s.seqNo }
  onPart (nextSeq s) s.cur.band (fun q =>
    let t := getTile q s.cur.idx
    let c := { b with pc := (issueOf t .cp).pc }
    let q1 := putTile q s.cur.idx { t with bursts := t.bursts ++ [c] }
    if c.held || q.rec_.replayRun || decide (poolBase ≤ s.cur.idx) then q1 else { q1 with holds := q1.holds ++ [burstHold s.cur.idx c] })

/-- R210: read a burst. -/
def execDrd (gu : Guard) (gp : BitVec 4) (gS gK : BitVec 5) (s : State) : Result :=
  let mk := fun (t : Tile) (row : Nat) => DCmd.rd (vaBank (pairOf t gp)) row
  runSlot (.drd gu gp gS gK)
    (fun p t =>
      let a := regAddr t gS 6
      { sl := .cp, gu := gu, check := firstSome [det1 (rangeBad a 64), optBar1 (optBar t gK), optBar2 (optBar t gK)],
        reads := pairReads gp ++ [codeG gS.toNat, codeG gK.toNat],
        refuse := cmdRefuse s p t (some (pairOf t gp)) (mk t) })
    (fun p t s =>
      let va := pairOf t gp
      let a := regAddr t gS 6
      cmdRun s p (some va) (mk t)
        (fun e row s => startRead s p a (optBar t gK) (some (burstAddr p.first e (vaBank va) row (vaCol va))))
        (fun _ _ s => startRead s p a (optBar t gK) none)) s

/-- R210: write a burst; its bytes are read at t + 2. -/
def execDwr (gu : Guard) (gp : BitVec 4) (gS : BitVec 5) (s : State) : Result :=
  let mk := fun (t : Tile) (row : Nat) => DCmd.wr (vaBank (pairOf t gp)) row
  runSlot (.dwr gu gp gS)
    (fun p t => {
      sl := .cp, gu := gu, check := det1 (rangeBad (regAddr t gS 6) 64), reads := pairReads gp ++ [codeG gS.toNat],
      refuse := cmdRefuse s p t (some (pairOf t gp)) (mk t) })
    (fun p t s =>
      let va := pairOf t gp
      cmdRun s p (some va) (mk t)
        (fun e row s =>
          onTile (nextSeq s) s.cur (fun u =>
            { u with bursts := u.bursts ++ [{
                id := s.seqNo, t := p.gcyc, pc := (issueOf u .cp).pc, read := false, sram := regAddr t gS 6, bar := none,
                phys := some (burstAddr p.first e (vaBank va) row (vaCol va)), data := [], bad := [], held := true }] }))
        (fun _ _ s => s)) s

/-! ## Bursts -/

/-- Run a step of a burst that is still under way. -/
def onBurst (s : State) (l : Loc) (id : Nat) (f : Part → Tile → Burst → State) : State :=
  match getPart s l.band with
  | none => s
  | some p =>
    match (getTile p l.idx).bursts.find? (fun b => b.id == id) with
    | none => s
    | some b => f (performed p) (getTile p l.idx) b

/-- A line of bytes from a list. -/
def lineBytes (bs : List Byte) (k : Nat) : List Byte := (bs.drop (16 * k)).take 16

/-- One line of a staging-engine write with poison bits, its bytes counted on a barrier (R210, R36). What the stack
could not correct is logged as poisoned before the next cycle (R402). -/
def stageLine (p : Part) (idx a : Nat) (bs : List Byte) (pois : Nat) (bar : Option Nat) (src : Nat) : Part :=
  match claim (getTile p idx) a 1 bitStage false with
  | (t, false) => putTile p idx t
  | (t, true) =>
    let t1 := writeBytes t a bs
    let t2 := if bitN pois 0 then setPoison t1 (a / 8) true else t1
    let t3 := if bitN pois 1 then setPoison t2 (a / 8 + 1) true else t2
    let q := countAct (putTile p idx (countBytes (auditOpen t3) bar bs.length)) 8 1
    let found := fun (q : Part) (k : Nat) => if bitN pois k then logAdd q 3 idx (p.gcyc + 1) [(0x10, 4, a / 8 + k)] else q
    watchEngine (found (found q 0) 1) idx a bs.length (2 ^ bs.length - 1) 1 src

/-- The source of a staging-engine write in a watch record: sheet column, rim, pseudo-channel (R400). -/
def stageSrc (idx : Nat) : Nat := tx idx / 64 * 64 + (if ty idx = 0 then 0 else 32) + tx idx % 64 / 2

/-- R210: the window of a DRD. -/
def execDrdWindow (l : Loc) (id : Nat) (s : State) : Result :=
  .next (onBurst s l id (fun p _ b =>
    let credit := fun (p : Part) => match b.bar with
      | some x => modTile p l.idx (fun t => creditSlots p t x 64)
      | none => p
    setPart s (credit ((upto 4).foldl (fun p k =>
      stageLine p l.idx (b.sram + 16 * k) (lineBytes b.data k) (b2n (smem b.bad (2 * k)) + 2 * b2n (smem b.bad (2 * k + 1))) b.bar (stageSrc l.idx)) p))))

/-- Store a byte of DRAM; 0 is what a byte never written reads as. -/
def storeDram (s : State) (a : Nat) (bs : List Byte) : State := { s with dram := storeBytes s.dram a bs }

/-- Mark or clear granules of DRAM (R210). -/
def markDram (s : State) (a : Nat) (pois n : Nat) : State :=
  { s with dramPoison := (upto n).foldl (fun l k => if bitN pois k then sinsert l (a / 8 + k) else sremove l (a / 8 + k)) s.dramPoison }

/-- R210: the four lines of a DWR are read and written as the burst. -/
def execDwrRead (l : Loc) (id : Nat) (s : State) : Result :=
  .next (onBurst s l id (fun p t b =>
    match b.phys with
    | none => s
    | some a =>
      let r := (upto 4).foldl (fun (acc : Tile × State) k =>
        let sa := b.sram + 16 * k
        match claim acc.1 sa 9 bitRead false with
        | (t1, false) => (t1, markDram (storeDram acc.2 (a + 16 * k) ((upto 16).map (fun _ => 0))) (a + 16 * k) 0 2)
        | (t1, true) =>
          (markReads t1 [(sa, 16)], markDram (storeDram acc.2 (a + 16 * k) (bytesOf 16 (readLine t1 sa).toNat)) (a + 16 * k) (linePoison t1 sa) 2))
        (t, s)
      setPart r.2 (countAct (putTile p l.idx r.1) 8 4)))

/-- R210: the stack returns a burst to its engine. -/
def execDrdBurstHeld (l : Loc) (id : Nat) (bad : List Nat) (s : State) : Result :=
  .next (onTile s l (fun t =>
    { t with bursts := t.bursts.map (fun x => if x.id = id then { x with held := true, bad := bad.foldl sinsert x.bad } else x) }))

/-! ## Refresh (R212, R213, R319) -/

/-- Banks of an engine that a tick would raise to 9.
Log entry 17 (DEDUCED). -/
def missed (p : Part) (e : Engine) : List Nat := (upto 64).filter (fun b => decide (9 ≤ owed p e b))

/-- First cycle at which the minimums of R211 let the engine act on a bank (R213). -/
def selfFrom (e : Engine) (b : Nat) : Nat :=
  let k := getBank e b
  let f := fun (n : Nat) (x : Option Nat) => match x with
    | some c => c + n
    | none => 0
  maxN (maxN (f 44 k.act) (f 24 k.wr)) (maxN (f 455 e.refAll) (f 224 k.ref))

/-- Missed deadlines of one engine (R213): one event per bank, or the engine makes them up. -/
def missEngine (s : State) (band eng : Nat) : State :=
  match getPart s band with
  | none => s
  | some p =>
    let e := getEngine p eng
    let bs := missed p e
    if bs.isEmpty then s
    else
      let tile := evenTile eng
      let e1 := bs.foldl (fun e b => onBank e b (fun k => { k with refs := k.refs + 1 })) e
      if isFrozen p then setPart s { p with engines := mput p.engines eng e1 }
      else if (getTile p tile).dramMode then
        let q := { p with engines := mput p.engines eng { e1 with self := e1.self ++ bs.map (fun b => (b, maxN p.gcyc (selfFrom e b))) } }
        setPart s (if p.mode == .running then { q with misses := q.misses ++ bs.map (fun _ => tile) }
          else modTile q tile (fun t => bs.foldl (fun t _ => countDram t) t))
      else
        setPart s (bs.foldl (fun p b => foundAdd p tile 0x06 (dramDetail 15 eng b) none) { p with engines := mput p.engines eng e1 })

/-- R212: one refresh tick: every bank of the band owes one more.
Log entry 23 (DEDUCED). -/
def execRefreshTick (band : Nat) (s : State) : Result :=
  .next
    (match getPart s band with
    | none => s
    | some p =>
      let s1 := setPart s { p with ticks := p.ticks + 1 }
      if p.ticks + 1 < 9 then s1 else (upto (engineCount p)).foldl (fun s e => missEngine s band e) s1)

/-- R213: the engine refreshes a bank whose deadline was missed: precharge, refresh 24 cycles later, and
the row open again 224 cycles after that; until then, and 24 cycles more, commands to it are refused. -/
def execEngineSelfRefresh (band eng bank : Nat) (s : State) : Result :=
  .next (onPart s band (fun p =>
    let e := getEngine p eng
    let g := p.gcyc
    if g < selfFrom e bank then { p with engines := mput p.engines eng { e with self := e.self.map (fun x => if x.1 = bank then (bank, selfFrom e bank) else x) } }
    else
      let e1 := { e with self := e.self.filter (fun x => x.1 != bank) }
      let row := openRow p s.edge g (getBank e bank)
      countAct { p with engines := mput p.engines eng (onBank e1 bank (fun k =>
          match row with
          | some r =>
            reopened (s.edge + cdiv (248 * 64) p.k)
              { k with row := some r, pre := some g, ref := some (g + 24), act := some (g + 248), busy := some (g + 272, some r) }
          | none =>
            refreshed (s.edge + cdiv (24 * 64) p.k) { k with row := none, pre := some g, ref := some (g + 24), busy := some (g + 248, none) })) } 10 (if row.isSome then 3 else 2)))

/-- The guard's work on one bank from an edge on (R319): precharge an open one, refresh it where its count requires,
open its row again; each as soon as the minimums of R211 allow.
Log entry 67 (DEDUCED). -/
def guardBank (p : Part) (edge : Nat) (e : Engine) (b : Nat) : Engine :=
  let k := getBank e b
  let start := maxN edge e.allFrom
  let open_ := (openRow p edge p.gcyc k).isSome
  let x1 := maxN start k.preFrom
  let e1 := if open_ then onBank e b (precharged x1) else e
  let x2 := maxN (if open_ then x1 else start) (getBank e1 b).refFrom
  let refresh := decide (8 ≤ owed p e b)
  let e2 := if refresh then
      onBank { e1 with guard := maxN e1.guard (x2 + edgesOf 224) } b (fun k => refreshed x2 { k with refs := k.refs + 1 })
    else e1
  if open_ then reactivate e2 b (if refresh then x2 else x1) else e2

/-- What the guard does for one engine (R319): banks whose count stands at 8 are refreshed, rows open for 35.1 µs are
closed and opened again. -/
def guardEngine (p : Part) (edge eng : Nat) : Engine :=
  let e := getEngine p eng
  ((upto 64).filter (fun b => decide (8 ≤ owed p e b) || rowStale p edge (getBank e b))).foldl (guardBank p edge) e

/-- The commands that it gives one engine: a refresh where one is wanted, a precharge and an activation of an open row. -/
def guardCommands (p : Part) (edge eng : Nat) : Nat :=
  let e := getEngine p eng
  (upto 64).foldl (fun a b =>
    let open_ := (openRow p edge p.gcyc (getBank e b)).isSome
    let refresh := decide (8 ≤ owed p e b)
    a + b2n refresh + (if open_ && (refresh || rowStale p edge (getBank e b)) then 2 else 0)) 0

/-- R319: the refresh guard acts during a freeze. -/
def execRefreshGuard (band : Nat) (s : State) : Result :=
  .next (onPart s band (fun p =>
    (upto (engineCount p)).foldl (fun p k =>
      let e := guardEngine p s.edge k
      if e = getEngine p k then p else countAct { p with engines := mput p.engines k e } 10 (guardCommands p s.edge k)) p))

end Sys2Proof.Machine
end

