-- ==== Sys2Proof/Machine/Bins.lean ====
section
/-! DEFINITION. Binned records (R64 to R69): exact sums of floating-point numbers that do not depend on
the order of addition. -/

namespace Sys2Proof.Machine

/-- A binned record (R64); `bad` says that its reserved bits were not zero (R65). -/
structure BinRec where
  anchor : Nat
  nan : Bool
  pinf : Bool
  ninf : Bool
  ovf : Bool
  b0 : Int
  b1 : Int
  b2 : Int
  deriving DecidableEq, Repr

/-- Read a record; nonzero reserved bits count as ovf (R65). -/
def binOf (x : Nat) : BinRec :=
  { anchor := field x 120 8, nan := bitN x 119, pinf := bitN x 118, ninf := bitN x 117,
    ovf := bitN x 116 || field x 112 4 != 0,
    b0 := sgn 36 (field x 72 36), b1 := sgn 36 (field x 36 36), b2 := sgn 36 (field x 0 36) }

/-- Write a record: reserved and spare bits zero (R64). -/
def binBits (b : BinRec) : Nat :=
  b.anchor % 256 * 2 ^ 120 + b2n b.nan * 2 ^ 119 + b2n b.pinf * 2 ^ 118 + b2n b.ninf * 2 ^ 117 + b2n b.ovf * 2 ^ 116 +
  wrapN 36 b.b0 * 2 ^ 72 + wrapN 36 b.b1 * 2 ^ 36 + wrapN 36 b.b2

/-- A fresh record (R64, R155). -/
def binNew (anchor : Nat) : BinRec :=
  { anchor := anchor, nan := false, pinf := false, ninf := false, ovf := false, b0 := 0, b1 := 0, b2 := 0 }

/-- A bin's sum leaves its range (R66). -/
def binOut (x : Int) : Bool := decide (x < -(2 ^ 35 : Int)) || decide ((2 ^ 35 : Int) ≤ x)

/-- A bin's sum, wrapped to 36 bits (R66). -/
def wrap36 (x : Int) : Int := sgn 36 (wrapN 36 x)

/-- Add three parts to the bins by the overflow rule of R66. -/
def binPlus (b : BinRec) (p0 p1 p2 : Int) : BinRec :=
  { b with
      ovf := b.ovf || binOut (b.b0 + p0) || binOut (b.b1 + p1) || binOut (b.b2 + p2),
      b0 := wrap36 (b.b0 + p0), b1 := wrap36 (b.b1 + p1), b2 := wrap36 (b.b2 + p2) }

/-- floor(m · 2^e · 2^k) for a magnitude. -/
def scaleFloor (m : Nat) (e : Int) : Nat :=
  if 0 ≤ e then m * 2 ^ e.toNat else m >>> (-e).toNat

/-- |x| ≥ 2^E for the magnitude m · 2^e (R66). -/
def magReaches (m : Nat) (e ex : Int) : Bool := decide (ex ≤ e + (Nat.log2 m : Int))

/-- Add one value to a record (R66). -/
def binAdd (b : BinRec) (v : FVal) : BinRec :=
  let ex : Int := (b.anchor : Int) - 127
  match v with
  | .nan _ => { b with nan := true }
  | .inf s => if s then { b with ninf := true } else { b with pinf := true }
  | .zero _ => b
  | .fin s m e =>
    if magReaches m e ex then { b with ovf := true }
    else
      let n := scaleFloor m (e + 60 - ex)
      let part := fun (k : Nat) =>
        let p : Int := (field n (20 * (2 - k)) 20 : Nat)
        if s then -p else p
      binPlus b (part 0) (part 1) (part 2)

/-- Merge a record into another (R67). -/
def binMerge (b c : BinRec) : BinRec :=
  let b1 := if b.anchor = c.anchor then binPlus b c.b0 c.b1 c.b2 else { b with ovf := true }
  { b1 with nan := b1.nan || c.nan, pinf := b1.pinf || c.pinf, ninf := b1.ninf || c.ninf, ovf := b1.ovf || c.ovf }

/-- Convert a record to a format (R68). -/
def binConvert (f : Fmt) (b : BinRec) : Nat × Flags :=
  if b.nan || (b.pinf && b.ninf) || b.ovf then (fnan f, flagIf (!b.nan) fInvalid)
  else if b.pinf then (finf f false, fNone)
  else if b.ninf then (finf f true, fNone)
  else
    let m : Int := b.b0 * 2 ^ 40 + b.b1 * 2 ^ 20 + b.b2
    if m = 0 then (fzero f false, fNone) else fround f .rne 0 (.fin m ((b.anchor : Int) - 127 - 60))

/-- Add values of an element format to a record, ascending (R156). -/
def binAddAll (f : Fmt) (b : BinRec) (xs : List Nat) : BinRec := xs.foldl (fun b x => binAdd b (fdecode f x)) b

end Sys2Proof.Machine
end

