-- ==== Sys2Proof/Machine/Move.lean ====
section
/-! DEFINITION. The mesh and the copy engine: sends, flits and deposits (R196 to R203), copies, gathers and
list sends (R204 to R207). -/

namespace Sys2Proof.Machine

/-! ## Fences (R197) -/

/-- The side of the fence that a destination lies beyond, X first (R197). -/
def fenceSide (p : Part) (idx : Nat) (dx dy : Int) : Option Nat :=
  let x : Int := (tx idx : Int) + dx
  let y : Int := (ty idx : Int) + dy
  if x < 0 then some 3 else if (pw p : Int) ≤ x then some 1 else if y < 0 then some 0 else if (ph : Int) ≤ y then some 2 else none

/-- The fence violation of an instruction, if any. -/
def fenceBad (p : Part) (idx : Nat) (dx dy : Int) : Option (Nat × Nat) := (fenceSide p idx dx dy).map (fun d => (0x05, d))

/-! ## Injecting flits -/

/-- Payload halves of 16 bytes, with their poison bits. -/
def flitData (x pois k : Nat) : Nat × Bool := (field x (64 * k) 64, bitN pois k)

/-- Put a send's flits into the mesh: one for 8 bytes, two on consecutive cycles for 16 (R202). -/
def injectSend (s : State) (l : Loc) (g : Nat) (engine : Bool) (dop : Nat) (w : Bool) (dx dy : Int) (addr : Nat) (bar : Option Nat)
    (x pois : Nat) : State :=
  let mk := fun (k : Nat) =>
    let d := flitData x pois k
    ({ src := l.idx, dx := dx, dy := dy, inj := g + k, hop := 0, engine := engine, second := decide (k = 1), dop := dop, wide := w, part := decide (k = 1),
       pair := s.seqNo, addr := addr + 8 * k, bar := bar, payload := d.1, poison := d.2 } : Flit)
  let s1 := nextSeq (nextSeq s)
  onPart s1 l.band (fun p =>
    let f0 := mput p.flits s.seqNo (mk 0)
    { p with flits := if w then mput f0 (s.seqNo + 1) (mk 1) else f0 })

/-- Sixteen bytes, or eight in the low half, read at an address with the granules' poison (R200). -/
def sendRead (t : Tile) (a : Nat) (w : Bool) : Nat × Nat :=
  (readN t a (if w then 16 else 8),
    (if (mfind t.held (lineOfAddr a)).isSome then 0 else b2n (granBad t (a / 8)) + 2 * b2n (granBad t (a / 8 + 1))))

/-- Unit size bits and bytes of a send. -/
def unitBits (w : Bool) : Nat := if w then 4 else 3
def unitBytes (w : Bool) : Nat := if w then 16 else 8

/-- The checks of a source, a destination and a barrier (R201, R194): range first, then alignment. -/
def moveCheck (ranges : List (Nat × Nat)) (bar : Option Nat) : Option Nat :=
  firstSome [det1 (ranges.any (fun r => rangeBad r.1 r.2)), optBar1 bar, optBar2 bar]

/-- SEND and its form without a barrier (R201). -/
def sendSlot (i : Instr) (gu : Guard) (dop : BitVec 3) (dx dy : BitVec 11) (w : Bool) (gS gD : BitVec 5) (gK : Option (BitVec 5))
    (s : State) : Result :=
  let bar := fun (t : Tile) => gK.map (fun g => barAddr t g)
  runSlot i
    (fun p t =>
      let src := regAddr t gS (unitBits w)
      { sl := .cp, gu := gu,
        check := moveCheck [(src, unitBytes w), (regAddr t gD (unitBits w), unitBytes w)] (bar t),
        reads := [codeG gS.toNat, codeG gD.toNat] ++ (gK.map (fun g => codeG g.toNat)).toList,
        refuse := fenceBad p s.cur.idx dx.toInt dy.toInt, lines := [src] })
    (fun p t s =>
      let src := regAddr t gS (unitBits w)
      let r := sendRead t src w
      injectSend (onTile s s.cur (fun u => markReads u [(src, unitBytes w)])) s.cur p.gcyc false dop.toNat w dx.toInt dy.toInt
        (regAddr t gD (unitBits w)) (bar t) r.1 r.2) s

/-- R201: SEND with a barrier. -/
def execSend (gu : Guard) (dop : BitVec 3) (dx dy : BitVec 11) (w : Bool) (gS gD gK : BitVec 5) (s : State) : Result :=
  sendSlot (.send gu dop dx dy w gS gD gK) gu dop dx dy w gS gD (some gK) s

/-- R201: SEND with no barrier. -/
def execSendNb (gu : Guard) (dop : BitVec 3) (dx dy : BitVec 11) (w : Bool) (gS gD : BitVec 5) (s : State) : Result :=
  sendSlot (.sendNb gu dop dx dy w gS gD) gu dop dx dy w gS gD none s

/-- SENDV and its form without a barrier (R201). -/
def sendvSlot (i : Instr) (gu : Guard) (dop : BitVec 3) (dx dy : BitVec 11) (w : Bool) (gD : BitVec 5) (gK : Option (BitVec 5))
    (vs : BitVec 11) (s : State) : Result :=
  let bar := fun (t : Tile) => gK.map (fun g => barAddr t g)
  runSlot i
    (fun p t => {
      sl := .cp, gu := gu, check := moveCheck [(regAddr t gD (unitBits w), unitBytes w)] (bar t),
      reads := [codeG gD.toNat] ++ (gK.map (fun g => codeG g.toNat)).toList ++ [codeV t vs],
      refuse := fenceBad p s.cur.idx dx.toInt dy.toInt })
    (fun p t s =>
      injectSend s s.cur p.gcyc false dop.toNat w dx.toInt dy.toInt (regAddr t gD (unitBits w)) (bar t) (vop t vs).toNat 0) s

/-- R201: SENDV with a barrier. -/
def execSendv (gu : Guard) (dop : BitVec 3) (dx dy : BitVec 11) (w : Bool) (gD gK : BitVec 5) (vs : BitVec 11) (s : State) : Result :=
  sendvSlot (.sendv gu dop dx dy w gD gK vs) gu dop dx dy w gD (some gK) vs s

/-- R201: SENDV with no barrier. -/
def execSendvNb (gu : Guard) (dop : BitVec 3) (dx dy : BitVec 11) (w : Bool) (gD : BitVec 5) (vs : BitVec 11) (s : State) : Result :=
  sendvSlot (.sendvNb gu dop dx dy w gD vs) gu dop dx dy w gD none vs s

/-! ## Flits under way -/

/-- The collision of a link, noted once per link and cycle (R198). -/
def linkCollision (p : Part) (idx dir : Nat) (injected : Bool) : Part :=
  let mine := fun (f : Found) => f.tile == idx && f.cause == 0x04 && f.detail % 4 == dir
  if p.found.any mine then
    { p with found := p.found.map (fun f => if mine f ∧ injected then { f with detail := f.detail ||| 4 } else f) }
  else foundAdd p idx 0x04 (dir + 4 * b2n injected) none

/-- R196, R198: a flit takes its next link, or is discarded where the link carries another; at a fence it is
discarded with a fence violation (R281).
Log entry 60 (DEDUCED). -/
def execFlitHop (band fid : Nat) (s : State) : Result :=
  .next (onPart s band (fun p =>
    match mfind p.flits fid with
    | none => p
    | some f =>
      let here := hopAt f f.hop
      let dir := hopDir f f.hop
      if (fenceSide p here (if dir = 1 then 1 else if dir = 3 then -1 else 0) (if dir = 2 then 1 else if dir = 0 then -1 else 0)).isSome then
        foundAdd { p with flits := merase p.flits fid } here 0x05 (dir + 4) none
      else if p.linkUse.any (fun e => e == (here, dir)) then
        linkCollision { p with flits := merase p.flits fid } here dir (decide (f.hop = 0))
      else
        performed (countAct { p with flits := mput p.flits fid { f with hop := f.hop + 1 }, linkUse := p.linkUse ++ [(here, dir)] } 9 1)))

/-- The 8 bytes that a deposit writes, from those there and the payload (R203). -/
def depositVal (dop d x : Nat) : Nat × Flags :=
  let two := fun (f : Nat → Nat → Nat × Flags) =>
    let r := splitFlags ((upto 2).map (fun e => f (field d (32 * e) 32) (field x (32 * e) 32)))
    (packElems 32 r.1, r.2)
  match dop with
  | 0 => (x, 0)
  | 1 => two (fun a b => fAddV Ty.f32.fmt .rne 0 (fdecode Ty.f32.fmt a) (fdecode Ty.f32.fmt b))
  | 2 => two (fun a b => ((a + b) % 2 ^ 32, 0))
  | 3 => two (fun a b => fMinMax Ty.f32.fmt true a b)
  | _ => (d ||| x, 0)

/-- Rank and source of a landing flit's access (R167). -/
def depositRank (f : Flit) : Nat := 4 + hopInput f (hopsOf f)

/-- Where a deposit's write is seen by watchpoints: its source (R400). -/
def depositSrc (f : Flit) : Nat := ty f.src * 1024 + tx f.src

/-- After a deposit's write: its bytes are counted, an audit unit is open, watchpoints look (R36, R242, R398). -/
def afterDeposit (p : Part) (idx : Nat) (f : Flit) (a n : Nat) : Part :=
  let p1 := modTile p idx (fun t => countBytes (auditOpen t) ((flitCount f).map Prod.fst) (((flitCount f).map Prod.snd).getD 0))
  watchEngine (countAct p1 8 1) idx a n (2 ^ n - 1) 2 (depositSrc f)

/-- A deposit of 8 bytes (R203): a read, which finds what any read does (R169), and a write. -/
def depositWord (p : Part) (idx : Nat) (f : Flit) : Part :=
  match claim (getTile p idx) f.addr (depositRank f) bitDep false with
  | (t, false) => putTile p idx t
  | (t0, true) =>
    let t := markReads t0 [(f.addr, 8)]
    let gr := f.addr / 8
    let d := ofBytes (sramBytes t.sram f.addr 8)
    let r := depositVal f.dop d f.payload
    let bad := f.poison || (f.dop != 0 && granBad t gr)
    let t1 := orFlags (setPoison (writeBytes t f.addr (bytesOf 8 r.1)) gr bad) r.2
    afterDeposit (putTile p idx t1) idx f f.addr 8

/-- A deposit into a binned record (R203): two addends, or a record merged in. The whole record is
poisoned when the payload or any of it was (R200).
Log entry 14 (DEDUCED). -/
def depositBin (p : Part) (idx : Nat) (f : Flit) (x : Nat) (bad : Bool) : Part :=
  let line := lineOfAddr f.addr
  match claim (getTile p idx) line (depositRank f) bitDep true with
  | (t, false) => putTile p idx t
  | (t0, true) =>
    let t := markReads t0 [(line, 16)]
    let b := binOf (sramLine t.sram line).toNat
    let r := if f.wide then binMerge b (binOf x) else binAddAll Ty.f32.fmt b [field x 0 32, field x 32 32]
    let pois := bad || granBad t (line / 8) || granBad t (line / 8 + 1)
    let t1 := writeLine t line (BitVec.ofNat 128 (binBits r)) (if pois then 3 else 0)
    afterDeposit (putTile p idx t1) idx f line 16

/-- R199 to R203: a flit lands. The first flit of a 16-byte BIN waits for its second (R202). -/
def execDepositWrite (band fid : Nat) (s : State) : Result :=
  .next (onPart s band (fun p0 =>
    match mfind p0.flits fid with
    | none => p0
    | some f =>
      let p := performed { p0 with flits := merase p0.flits fid }
      let idx := flitDest f
      if f.dop = 4 ∧ f.wide then
        if f.part then
          match (getTile p idx).depWait.find? (fun w => w.pair == f.pair) with
          | none => p
          | some w => depositBin p idx f (w.payload + f.payload * 2 ^ 64) (w.poison || f.poison)
        else
          modTile p idx (fun t => { t with depWait := t.depWait ++ [{ pair := f.pair, due := p.gcyc + 1, payload := f.payload, poison := f.poison }] })
      else if f.dop = 4 then depositBin p idx f f.payload f.poison
      else depositWord p idx f))

/-! ## The copy engine (R195, R204 to R207) -/

/-- Detail of a busy copy engine (R195, R261). -/
def copyBusyBad (t : Tile) (g : Nat) : Option Nat := if g < t.copyBusy then some 0x6000 else none

/-- Start a copy-engine operation that is busy for a number of cycles. -/
def startCopy (s : State) (g busy : Nat) (k : CopyKind) (units : Nat) (buf : SMap (Line × Nat)) : State :=
  onTile (nextSeq s) s.cur (fun t =>
    { t with
      copyBusy := g + busy,
      copies := t.copies ++ [{ id := s.seqNo, t := g, pc := (issueOf t .cp).pc, kind := k, units := units, buf := buf }] })

/-- Word i of a record of lines read at issue. -/
def descWord (x i : Nat) : Nat := field x (32 * i) 32

/-- A record that a CP instruction reads at issue, as a number (R204): the lines as the cycle found them (R165). -/
def descOf (t : Tile) (a n : Nat) : Nat :=
  (upto n).foldl (fun acc k => acc + (cycleLine t (a + 16 * k)).toNat * 2 ^ (128 * k)) 0

/-- Levels of a CPY descriptor. -/
def cpyLevels (x : Nat) : Nat := field (descWord x 0) 25 3 + 1

/-- The descriptor checks of a CPY (R204, R205).
Log entry 97 (DEDUCED). -/
def cpyBad (x : Nat) : Option (Nat × Nat) :=
  let n := minN (cpyLevels x) 6
  let reserved :=
    field (descWord x 0) 22 3 != 0 || decide (2 ^ 18 ≤ descWord x 1) || decide (2 ^ 18 ≤ descWord x 2) || descWord x 3 != 0 ||
    (upto 6).any (fun l => if l < n then decide (2 ^ 18 ≤ descWord x (5 + 2 * l)) else descWord x (4 + 2 * l) != 0 || descWord x (5 + 2 * l) != 0)
  if reserved then some (0x01, 0x0008)
  else if 5 < field (descWord x 0) 29 3 ∨ 6 < cpyLevels x then some (0x01, 0x000A)
  else none

/-- Hop offsets of a descriptor. -/
def cpyDx (x : Nat) : Int := sgn 11 (field (descWord x 0) 11 11)
def cpyDy (x : Nat) : Int := sgn 11 (field (descWord x 0) 0 11)

/-- Trips and strides of a descriptor's levels, outermost first. -/
def cpyTrips (x : Nat) : List (Nat × Int × Int) :=
  (upto (cpyLevels x)).map (fun l =>
    (field (descWord x (4 + 2 * l)) 18 14 + 1, sgn 18 (field (descWord x (4 + 2 * l)) 0 18), sgn 18 (field (descWord x (5 + 2 * l)) 0 18)))

/-- Units of a copy (R205). -/
def cpyUnits (ls : List (Nat × Int × Int)) : Nat := ls.foldl (fun a e => a * e.1) 1

/-- Source and destination offsets of unit u, the innermost level fastest (R205): levels given innermost
first. -/
def unitOffsets (ls : List (Nat × Int × Int)) (u : Nat) : Int × Int :=
  match ls with
  | [] => (0, 0)
  | (n, a, b) :: r =>
    let o := unitOffsets r (u / n)
    let i : Int := ((u % n : Nat) : Int)
    (o.1 + i * a, o.2 + i * b)

/-- R204, R205: a copy of up to six levels. -/
def execCpy (gu : Guard) (gS gK : BitVec 5) (s : State) : Result :=
  runSlot (.cpy gu gS gK)
    (fun p t =>
      let a := regAddr t gS 6
      let x := descOf t a 4
      { sl := .cp, gu := gu, check := moveCheck [(a, 64)] (optBar t gK), reads := [codeG gS.toNat, codeG gK.toNat],
        busy := copyBusyBad t p.gcyc,
        refuse := match cpyBad x with
          | some e => some e
          | none => fenceBad p s.cur.idx (cpyDx x) (cpyDy x),
        lines := lineList a })
    (fun p t s =>
      let x := descOf t (regAddr t gS 6) 4
      let w := bitN (descWord x 0) 28
      let ls := cpyTrips x
      startCopy (onTile s s.cur (fun u => markReads u [(regAddr t gS 6, 64)])) p.gcyc (1 + unitFlits w * cpyUnits ls)
        (.cpy (field (descWord x 0) 29 3) w (cpyDx x) (cpyDy x) (descWord x 1) (descWord x 2) ls (optBar t gK)) (cpyUnits ls) []) s
where
  /-- The four lines of a descriptor. -/
  lineList (a : Nat) : List Nat := (upto 4).map (fun k => a + 16 * k)

/-- Replace a copy by its number. -/
def setCopy (t : Tile) (c : CopyOp) : Tile := { t with copies := t.copies.map (fun o => if o.id = c.id then c else o) }

/-- An engine read of the copy engine: the tile after it, the bytes of a line (zeros where the access is
dropped, R167) and its poison bits.
Log entry 16 (DEDUCED). -/
def copyRead (t : Tile) (a : Nat) : Tile × Line × Nat :=
  match claim t a 9 bitRead false with
  | (t1, false) => (t1, 0, 0)
  | (t1, true) => (markReads t1 [(lineOfAddr a, 16)], readLine t1 a, linePoison t1 a)

/-- A copy operation whose step a cycle falls in. -/
def findCopy (s : State) (l : Loc) (f : CopyOp → Nat → Bool) : Option (Part × Tile × CopyOp) :=
  match getPart s l.band with
  | none => none
  | some p => ((getTile p l.idx).copies.find? (fun c => f c (p.gcyc - c.t))).map (fun c => (performed (countAct p 8 1), getTile p l.idx, c))

/-- R205: unit u of a CPY is read and sent; one whose address lies past the data SRAM raises its event, and ends the copy.
Log entry 95 (DEDUCED). -/
def execCopyUnit (l : Loc) (u : Nat) (s : State) : Result :=
  match findCopy s l (fun c x =>
    match c.kind with
    | .cpy _ w _ _ _ _ _ _ => x == 1 + unitFlits w * u
    | .cpg _ _ _ _ => false
    | .rksend _ _ _ _ _ _ => false) with
  | none => .next s
  | some (p, t, c) =>
    match c.kind with
    | .cpy dop w dx dy src dst ls bar =>
      if c.ended.isSome then .next s
      else
        let o := unitOffsets ls.reverse u
        let sa := alignDown (unitBits w) (wrap18 ((src : Int) + o.1))
        let da := alignDown (unitBits w) (wrap18 ((dst : Int) + o.2))
        if sramEnd ≤ sa ∨ sramEnd ≤ da then
          .next (setPart s (foundAdd (putTile p l.idx (setCopy t { c with ended := some u })) l.idx 0x01 0x0001 (some (c.pc, 6))))
        else
          let r := copyRead t sa
          let x := field r.2.1.toNat (8 * (sa % 16)) (8 * unitBytes w)
          let pois := if sa % 16 = 8 then r.2.2 / 2 else r.2.2
          .next (injectSend (setPart s (putTile p l.idx r.1)) l p.gcyc true dop w dx dy da bar x pois)
    | .cpg _ _ _ _ => .next s
    | .rksend _ _ _ _ _ _ => .next s

/-- Source addresses of a gather's rows (R206). -/
def cpgRows (t : Tile) (gS gi : BitVec 5) (n rb : Nat) : List Nat :=
  (upto n).map (fun j => alignDown 4 (((rg t gS.toNat).toNat + (rg t (gi.toNat + j)).toNat * rb) % 2 ^ 18))

/-- Destination address of line k of a gather (R206). -/
def cpgDest (gd k : Nat) : Nat := (alignDown 4 gd + 16 * k) % 2 ^ 18

/-- Source address of line k of a gather. -/
def cpgSrc (rows : List Nat) (lr k : Nat) : Nat := rows.getD (k / lr) 0 + 16 * (k % lr)

/-- R206: gather rows within the tile. -/
def execCpg (gu : Guard) (gS gD gK gi n5 : BitVec 5) (rlen : BitVec 8) (s : State) : Result :=
  let n := n5.toNat + 1
  let lr := rlen.toNat + 1
  runSlot (.cpg gu gS gD gK gi n5 rlen)
    (fun p t =>
      let rows := cpgRows t gS gi n (16 * lr)
      let gd := (rg t gD.toNat).toNat
      { sl := .cp, gu := gu,
        check := firstSome [det1 ((upto (n * lr)).any (fun k => decide (sramEnd ≤ cpgSrc rows lr k) || decide (sramEnd ≤ cpgDest gd k))),
          optBar1 (optBar t gK), optBar2 (optBar t gK)],
        reads := [codeG gS.toNat, codeG gD.toNat, codeG gK.toNat] ++ (upto n).map (fun j => codeG (gi.toNat + j)),
        busy := copyBusyBad t p.gcyc, lines := [rows.headD 0] })
    (fun p t s =>
      let rows := cpgRows t gS gi n (16 * lr)
      let a := rows.headD 0
      let s1 := startCopy s p.gcyc (n * lr) (.cpg (rg t gD.toNat).toNat rows lr (optBar t gK)) (n * lr) [(0, (readLine t a, linePoison t a))]
      onTile s1 s1.cur (fun u => markReads u [(a, 16)])) s

/-- R206: a line of a gather is read, or written two cycles later as an own-tile deposit. -/
def execCpgLine (l : Loc) (n : Nat) (write : Bool) (s : State) : Result :=
  match findCopy s l (fun c x =>
    match c.kind with
    | .cpg _ _ _ _ => decide (n < c.units) && (if write then x == n + 2 else x == n)
    | .cpy _ _ _ _ _ _ _ _ => false
    | .rksend _ _ _ _ _ _ => false) with
  | none => .next s
  | some (p, t, c) =>
    match c.kind with
    | .cpg gd rows lr bar =>
      if write then
        let a := cpgDest gd n
        match claim t a 8 bitDep false with
        | (t1, false) => .next (setPart s (putTile p l.idx t1))
        | (t1, true) =>
          let x := (mfind c.buf n).getD (0, 0)
          let t2 := countBytes (auditOpen (writeLine t1 a x.1 x.2)) bar 16
          .next (setPart s (watchEngine (putTile p l.idx t2) l.idx a 16 0xFFFF 3 0))
      else
        let r := copyRead t (cpgSrc rows lr n)
        .next (setPart s (putTile p l.idx (setCopy r.1 { c with buf := mput c.buf n (r.2.1, r.2.2) })))
    | .cpy _ _ _ _ _ _ _ _ => .next s
    | .rksend _ _ _ _ _ _ => .next s

/-- The four halfwords of flit f, with those past n as 0xFFFF (R207). -/
def rkData (x n f : Nat) : Nat :=
  packElems 16 ((upto 4).map (fun i => if 4 * f + i < n then field x (16 * i) 16 else 0xFFFF))

/-- R207: send a list of indices. -/
def execRksend (gu : Guard) (dx dy : BitVec 11) (nb : Bool) (gS gD gK : BitVec 5) (n10 : BitVec 10) (s : State) : Result :=
  let n := n10.toNat + 1
  let nf := cdiv n 4
  let bar := fun (t : Tile) => if nb then none else some (barAddr t gK)
  runSlot (.rksend gu dx dy nb gS gD gK n10)
    (fun p t =>
      let src := regAddr t gS 3
      { sl := .cp, gu := gu, check := moveCheck [(src, 8 * nf), (regAddr t gD 3, 8 * nf)] (bar t),
        reads := [codeG gS.toNat, codeG gD.toNat] ++ (if nb then [] else [codeG gK.toNat]),
        busy := copyBusyBad t p.gcyc, refuse := fenceBad p s.cur.idx dx.toInt dy.toInt, lines := [src] })
    (fun p t s =>
      let src := regAddr t gS 3
      let r := sendRead t src false
      let s1 := startCopy s p.gcyc nf (.rksend dx.toInt dy.toInt src (regAddr t gD 3) n (bar t)) nf []
      injectSend (onTile s1 s1.cur (fun u => markReads u [(src, 8)])) s1.cur p.gcyc true 0 false dx.toInt dy.toInt (regAddr t gD 3) (bar t)
        (rkData r.1 n 0) (r.2 % 2)) s

/-- R207: flit f of a list is read and sent. -/
def execRksendFlit (l : Loc) (f : Nat) (s : State) : Result :=
  match findCopy s l (fun c x =>
    match c.kind with
    | .rksend _ _ _ _ _ _ => decide (f < c.units) && x == f
    | .cpy _ _ _ _ _ _ _ _ => false
    | .cpg _ _ _ _ => false) with
  | none => .next s
  | some (p, t, c) =>
    match c.kind with
    | .rksend dx dy src dst n bar =>
      let a := src + 8 * f
      let r := copyRead t a
      let x := field r.2.1.toNat (8 * (a % 16)) 64
      let pois := if a % 16 = 8 then r.2.2 / 2 else r.2.2 % 2
      .next (injectSend (setPart s (putTile p l.idx r.1)) l p.gcyc true 0 false dx dy (dst + 8 * f) bar (rkData x n f) pois)
    | .cpy _ _ _ _ _ _ _ _ => .next s
    | .cpg _ _ _ _ => .next s

end Sys2Proof.Machine
end

