-- ==== Sys2Proof/Machine/Link.lean ====
section
/-! DEFINITION. Link transfers (R215 to R221, R307 to R316, R323, R324): LNKP and LNKG, what arrives at a
port, the landing buffers and the writes that no window makes. -/

namespace Sys2Proof.Machine

/-! ## Ports (R215) -/

/-- The port of a tile's sheet column with a number 0 to 3. -/
def portOf (p : Part) (idx port : Nat) : Nat := 4 * (p.first + tx idx / 64) + port

/-- Whether a tile lies at the rim of a port (R215). -/
def atRim (idx port : Nat) : Bool := if port < 2 then ty idx == 0 else ty idx == 783

/-- Change a port. -/
def onPort (s : State) (k : Nat) (f : Port → Port) : State := { s with ports := mput s.ports k (f (getPort s k)) }

/-- The resident launch of an ASID whose band holds a port (R219). -/
def portPart (s : State) (k asid : Nat) : Option Part :=
  (s.parts.find? (fun e => e.2.rec_.asid == asid && decide (e.2.first ≤ k / 4) && decide (k / 4 < e.2.first + e.2.count))).map Prod.snd

/-- An event found at a clock edge between cycles: it is raised at the next cycle, or at once in a freeze, in the
cycles of a stop and under debug hold, where it joins the stop (R289, R344, R348, R396). One found while the
partition stands at a cycle-armed stop is raised in its first cycle afterwards.
Log entry 24 (DEDUCED). -/
def edgeEvent (s : State) (l : Loc) (cause detail : Nat) (named : Option (BitVec 13 × Nat)) : State :=
  match getPart s l.band with
  | none => s
  | some p =>
    match p.mode with
    | .running | .armedStop => findEvent s l cause detail named
    | .frozen _ | .skid | .debugHeld => raiseImprecise s l cause detail named
    | .failed => s

/-! ## Addresses (R219, R323) -/

/-- Translation of a link virtual address: range entries first, then pages (R323).
Log entry 31 (DEDUCED). -/
def linkXlate (r : LaunchRec) (va : Nat) : Option Nat :=
  match r.links.find? (fun e => decide (e.base ≤ va) && decide (va < e.limit)) with
  | some e => some ((va + e.offset) % 2 ^ 64)
  | none => (r.pages.find? (fun g => va / 2 ^ g.bits == g.va / 2 ^ g.bits)).map (fun g => (g.pa + va % 2 ^ g.bits) % 2 ^ 64)

/-- Fields of a link physical address (R219). -/
def paModule (pa : Nat) : Nat := field pa 44 20
def paKind (pa : Nat) : Nat := field pa 42 2
def paCol (pa : Nat) : Nat := field pa 32 10
def paTy (pa : Nat) : Nat := field pa 22 10
def paAddr (pa : Nat) : Nat := alignDown 4 (field pa 0 18)

/-- Whether a physical address is refused for a transfer of n bytes at its far end (R219). -/
def paBad (pa n : Nat) : Bool :=
  paKind pa == 3 ||
  (paKind pa == 0 && (field pa 18 4 != 0 || decide (767 < paCol pa) || (n != 0 && rangeBad (paAddr pa) n)))

/-- The link entry on whose barrier an inbound transfer counts (R323). -/
def inboundEntry (r : LaunchRec) (pa : Nat) : Option LRange :=
  r.links.find? (fun e =>
    let lo := (e.base + e.offset) % 2 ^ 64
    decide (lo ≤ pa) && decide (pa < lo + (e.limit - e.base)))

/-- Whether an address lies in the physical range of a page. -/
def inboundPage (r : LaunchRec) (pa : Nat) : Bool := r.pages.any (fun g => decide (g.pa ≤ pa) && decide (pa < g.pa + 2 ^ g.bits))

/-! ## Sizes (R218, R220) -/

/-- Bytes of a link transfer: g[gN] with its low 4 bits cleared.
Log entry 30 (DEDUCED). -/
def linkLen (t : Tile) (gn : BitVec 5) : Nat := alignDown 4 (rg t gn.toNat).toNat

/-- Blocks of a transfer. -/
def blocksOf (n : Nat) : Nat := cdiv n 512

/-- Bytes of the validity mask of a transfer (R220). -/
def maskLen (cls n : Nat) : Nat := if cls = 0 then 16 * cdiv (blocksOf n) 128 else 0

/-- Bytes of block b of a transfer, the last possibly short. -/
def blockLen (n b : Nat) : Nat := minN 512 (n - 512 * b)

/-! ## Loopback (R306) -/

/-- The port at which a transfer that names the module itself arrives (R219). -/
def loopPort (port pa : Nat) : Nat := if paKind pa = 0 then 4 * (paCol pa / 64) + port % 4 else port

/-- The 512-byte blocks of a transfer's bytes. -/
def splitBlocks (d : List Byte) : List (Nat × List Byte) := (upto (blocksOf d.length)).map (fun b => (b, (d.drop (512 * b)).take 512))

/-- The tile of a resident or swapped launch that holds a put. -/
def putOwner (s : State) (id : Nat) : Option Loc :=
  (s.parts.map Prod.snd ++ s.ctxs.filterMap (fun c => c.saved)).findSome? (fun p =>
    (p.tiles.find? (fun e => e.2.puts.any (fun u => u.id == id))).map (fun e => { band := p.first, idx := e.1 }))

/-- The port, or its section of a saved image, that holds an LNKG's landing. -/
def getOwner (s : State) (id : Nat) : Option (Nat × LandEntry) :=
  (s.ports ++ s.ctxs.flatMap (fun c => c.ports)).findSome? (fun e => (e.2.land.find? (fun y => y.get == some id)).map (fun y => (e.1, y)))

/-- What a message that a port carries back to its own module brings there; none for one that leaves the module. -/
def loopStep (s : State) (m : OutMsg) : Option Instr :=
  match m with
  | .put port cls asid pa n xid data =>
    if paModule pa = s.moduleId then
      some (.inboundTransferArrival (loopPort port pa) {
        kind := .put, src := s.moduleId, xid := xid, asid := BitVec.ofNat 14 asid, cls := BitVec.ofNat 2 cls, pa := BitVec.ofNat 64 pa, n := n,
        issued := s.edge, blocks := splitBlocks data, trailer := true })
    else none
  | .get port cls asid pa n xid =>
    if paModule pa = s.moduleId then
      some (.inboundTransferArrival (loopPort port pa) {
        kind := .getRequest, src := s.moduleId, xid := xid, asid := BitVec.ofNat 14 asid, cls := BitVec.ofNat 2 cls, pa := BitVec.ofNat 64 pa, n := n,
        issued := s.edge, blocks := [], trailer := true })
    else none
  | .reply _ dst xid data =>
    match dst == s.moduleId, getOwner s xid with
    | true, some (k, y) =>
      some (.inboundTransferArrival k {
        kind := .getReply xid, src := s.moduleId, xid := xid, asid := 0, cls := BitVec.ofNat 2 y.cls, pa := 0, n := y.n, issued := s.edge,
        blocks := splitBlocks data, trailer := true })
    | _, _ => none
  | .ack _ dst xid => if dst = s.moduleId then (putOwner s xid).map (fun l => .putAcknowledge l xid) else none
  | .chunk port asid _ ordinal step peer off last data words =>
    if peer = s.moduleId then
      some (.collChunkReceive port {
        src := s.moduleId, asid := BitVec.ofNat 14 asid, cls := if words.isEmpty then 1 else 0, ordinal := ordinal, step := step, off := off,
        last := last, nblk := data.length / 512, trailer := true,
        blocks := (splitBlocks data).map (fun b => (b.1, b.2, words.getD b.1 0)) })
    else none
  | .chunkAck port dst ordinal step =>
    if dst = s.moduleId then
      (((mfind s.ports port).getD {}).colls.find? (fun c => c.ordinal == ordinal)).map (fun c => .collStepAck port c.id step)
    else none
  | .lostAck _ _ _ => none
  | .report _ _ _ _ _ _ _ => none
  | .hubWrite _ _ _ _ => none

/-- Send a message from a port: one for this module is carried back by the port, after a time that the spec leaves
open (R306).
Log entry 82 (DESIGN CHOICE). -/
def emit (s : State) (m : OutMsg) : State :=
  match loopStep s m with
  | some i => { s with inputs := s.inputs ++ [(s.edge + 1 + Config.loopEdges s.freeCtr, i)], freeCtr := s.freeCtr + 1 }
  | none => sendOut s m

/-! ## Landing buffers (R220, R310) -/

/-- A landing of n bytes that waits for its data. -/
def newLand (id : Nat) (p : Part) (idx addr n cls : Nat) (bar get coll : Option Nat) (src xid edge : Nat) : LandEntry :=
  { id := id, band := p.first, tile := idx, addr := addr, n := n, cls := cls, bar := bar, src := src, xid := xid, get := get, coll := coll,
    blocks := [], lost := [], edge0 := edge, closed := false, lines := [], flags := 0, first := true }

/-- The size of a landing buffer (R310). -/
def bufferSize : Nat := 16777216

/-- Take blocks into a landing while the buffer has room; a class 0 block that finds none is lost. -/
def takeBlocks (room : Nat) (e : LandEntry) (bs : List (Nat × List Byte)) : LandEntry :=
  match bs with
  | [] => e
  | (b, d) :: r =>
    if e.closed || decide (blocksOf e.n ≤ b) || smem e.lost b || (mfind e.blocks b).isSome then takeBlocks room e r
    else if room < d.length then takeBlocks room { e with lost := sinsert e.lost b } r
    else takeBlocks (room - d.length) { e with blocks := mput e.blocks b d } r

/-- Whether every block of a landing has arrived or is lost. -/
def allBlocks (e : LandEntry) : Bool := (upto (blocksOf e.n)).all (fun b => (mfind e.blocks b).isSome || smem e.lost b)

/-- Bytes of block b as they land: zeros where it did not arrive intact (R220). -/
def landBlock (e : LandEntry) (b : Nat) : List Byte :=
  (((mfind e.blocks b).getD []) ++ List.replicate 512 0).take (blockLen e.n b)

/-- The validity mask of a landing (R220). -/
def validMask (e : LandEntry) : Nat := (upto (blocksOf e.n)).foldl (fun a b => if (mfind e.blocks b).isSome then a + 2 ^ b else a) 0

/-- A whole line of a landing. -/
def wholeLine (a : Nat) (bs : List Byte) : LandLine := { addr := a, bytes := bs.map some }

/-- The lines of a transfer and of its validity mask, in ascending address order. -/
def closeLines (e : LandEntry) : List LandLine :=
  (upto (e.n / 16)).map (fun k => wholeLine (e.addr + 16 * k) (lineBytes (landBlock e (k / 32)) (k % 32))) ++
  (upto (maskLen e.cls e.n / 16)).map (fun k => wholeLine (e.addr + e.n + 16 * k) (bytesOf 16 (validMask e >>> (128 * k))))

/-- A transfer closes (R220). -/
def closeLand (e : LandEntry) : LandEntry := { e with closed := true, lines := closeLines e, blocks := [] }

/-- Close a transfer at a port, and acknowledge a put (R312). -/
def closeAt (s : State) (k id : Nat) : State :=
  match (getPort s k).land.find? (fun e => e.id == id) with
  | none => s
  | some e =>
    if e.closed || e.coll.isSome then s
    else
      let s1 := onPort s k (fun q => { q with land := q.land.map (fun x => if x.id = id then closeLand x else x) })
      if e.get.isSome then s1 else emit s1 (.ack k e.src e.xid)

/-- Byte lanes that a line of a landing writes. -/
def landMask (x : LandLine) : Nat := (upto 16).foldl (fun a i => if (x.bytes.getD i none).isSome then a + 2 ^ i else a) 0

/-- Write the bytes of a line of a landing. -/
def landLine (t : Tile) (x : LandLine) : Tile :=
  auditOpen (writeMasked t x.addr (BitVec.ofNat 128 (ofBytes (x.bytes.map (fun b => b.getD 0)))) (BitVec.ofNat 16 (landMask x)))

/-- Write one line of a landing of a tile outside every partition cycle: no bank is claimed, and the access is counted (R220,
R316, R387). -/
def landFree (s : State) (l : Loc) (x : LandLine) (f : Flags) : State :=
  onPart s l.band (fun p => countAct (modTile p l.idx (fun t => orFlags (landLine t x) f)) 8 1)

/-- Take the first line of the first landing of a port that a test accepts. -/
def popLine (q : Port) (f : LandEntry → Bool) : Option (LandEntry × LandLine × Port) :=
  match q.land.find? f with
  | none => none
  | some e =>
    match e.lines with
    | [] => none
    | x :: r =>
      let e1 := { e with lines := r, first := false, flags := 0 }
      some (e, x, { q with land := (q.land.map (fun y => if y.id = e.id then e1 else y)).filter (fun y => !(y.closed && y.lines.isEmpty)) })

/-! ## LNKP and LNKG (R218) -/

/-- A range of n bytes that reaches past the data SRAM. -/
def spanBad (a n : Nat) : Bool := n != 0 && rangeBad a n

/-- Sheet column and row of a flat DRAM address. -/
def dramCol (a : Nat) : Nat := a / 2 ^ 37
def dramRowOf (a : Nat) : Nat := a / 1024 % 32768

/-- A live launch whose rows are reserved: from its placement on (R363). -/
def reserves (c : Ctx) : Bool := c.st != .waiting && c.st != .eligible

/-- Whether a live launch has left its band and not come back: its rows are reserved to its ASID (R363). -/
def away (c : Ctx) : Bool := c.st == .swapped || c.st == .restoring

/-- Rows that the hub's own n bytes take in a sheet column: a row of every bank of the upper stack holds 2 MiB (R209). -/
def rowsOf (n : Nat) : Nat := cdiv n (2 ^ 21)

/-- The rows that the hub has placed for a launch, as first row and number: its trace buffer's and its staging area's
(R393). -/
def hubRows (p : Part) : List (Nat × Nat) :=
  (p.traceRow.map (fun r => (r, rowsOf p.traceSize))).toList ++ (p.stageRow.map (fun r => (r, rowsOf p.rec_.replayLen))).toList

/-- The partition of a live launch: on its band, or in its saved image. -/
def partOf (s : State) (c : Ctx) : Option Part :=
  match c.saved with
  | some p => some p
  | none => (s.parts.find? (fun e => e.2.rec_.token == c.rec_.token)).map Prod.snd

/-- Whether a row belongs to the save area of a live launch (R360, R363). -/
def savesRow (c : Ctx) (row : Nat) : Bool := c.saveRow.any (fun r => decide (r ≤ row) && decide (row < r + saveRows))

/-- Whether a row of a live launch's stacks is reserved to it: its range entries map it or its save area takes it (R363), or
the hub has placed its trace buffer or its staging area there, as it places a save area (R393).
Log entry 44 (DESIGN CHOICE). -/
def ownsRow (s : State) (c : Ctx) (row : Nat) : Bool :=
  mapsRow c.rec_.dram row || savesRow c row || (partOf s c).any (fun p => (hubRows p).any (fun h => decide (h.1 ≤ row) && decide (row < h.1 + h.2)))

/-- Whether n bytes of DRAM reach rows reserved to a context of another ASID that is swapped out or being restored
(R363). -/
def reservedElse (s : State) (asid a n : Nat) : Bool :=
  s.ctxs.any (fun c => away c && c.rec_.asid != asid &&
    (upto (cdiv (a % 1024 + n) 1024)).any (fun k =>
      smem (colsOf c.rec_) (dramCol (a + 1024 * k)) && ownsRow s c (dramRowOf (a + 1024 * k))))

/-- Refusals of a link transfer in their order (R224): the rim, the translation, rows of this module's DRAM that are
reserved (R363), the LNKP limit.
Log entry 15 (DEDUCED). -/
def linkRefuse (s : State) (p : Part) (t : Tile) (idx port va far n : Nat) (put : Bool) : Option (Nat × Nat) :=
  if !atRim idx port then some (0x07, 0x0004)
  else
    match linkXlate p.rec_ va with
    | none => some (0x07, 0x0005)
    | some pa =>
      if paBad pa far then some (0x07, 0x0005)
      else if paKind pa == 1 && paModule pa == s.moduleId && reservedElse s p.rec_.asid (field pa 0 42) n then some (0x07, 0x0005)
      else if put && decide (65536 < n + (t.puts.filter (fun u => !u.acked)).foldl (fun a u => a + u.n) 0) then some (0x10, 0x0004)
      else none

/-- Bytes of a put whose lines have all been read. -/
def putBytes (u : Put) : List Byte := (upto (u.n / 16)).flatMap (fun k => bytesOf 16 ((mfind u.data k).getD (0, 0)).1.toNat)

/-- A put that is acknowledged or never sent counts no longer (R218, R312). -/
def dropPut (t : Tile) (id : Nat) : Tile := { t with puts := t.puts.filter (fun u => u.id != id) }

/-- Send a put whose last line has been read; a replay sends nothing (R403). -/
def sendPut (s : State) (p : Part) (u : Put) : State :=
  if p.rec_.replayRun then onPart s p.first (fun p => { p with tiles := p.tiles.map (fun e => (e.1, dropPut e.2 u.id)) }) else
  emit (onPart s p.first (fun p => countAct p 11 u.n)) (.put u.port u.cls p.rec_.asid u.pa u.n u.id (putBytes u))

/-- R218: put n bytes to a link address. -/
def execLnkp (gu : Guard) (port cls : BitVec 2) (gp : BitVec 4) (gS gn : BitVec 5) (s : State) : Result :=
  runSlot (.lnkp gu port cls gp gS gn)
    (fun p t =>
      let n := linkLen t gn
      let src := regAddr t gS 4
      { sl := .cp, gu := gu, check := det1 (spanBad src n),
        reads := pairReads gp ++ [codeG gS.toNat, codeG gn.toNat],
        refuse := linkRefuse s p t s.cur.idx port.toNat (pairOf t gp) (n + maskLen cls.toNat n) n true,
        lines := if n = 0 then [] else [src] })
    (fun p t s =>
      let n := linkLen t gn
      let src := regAddr t gS 4
      if n = 0 then s
      else
        let u : Put := {
          id := s.seqNo, t := p.gcyc, pc := (issueOf t .cp).pc, port := portOf p s.cur.idx port.toNat, cls := cls.toNat,
          pa := (linkXlate p.rec_ (pairOf t gp)).getD 0, src := src, n := n, data := [(0, (readLine t src, linePoison t src))],
          acked := false, covered := true }
        let s0 := onPart (nextSeq s) s.cur.band performed
        let s1 := onTile s0 s.cur (fun t => { markReads t [(src, 16)] with puts := t.puts ++ [u] })
        if n = 16 then sendPut s1 p u else s1) s

/-- R218: line `line` of a put's source is read; after the last the bytes are sent.
Log entry 32 (DEDUCED). -/
def execLnkpSourceRead (l : Loc) (id line : Nat) (s : State) : Result :=
  match getPart s l.band with
  | none => .next s
  | some p0 =>
    let p := performed (countAct p0 8 1)
    match (getTile p l.idx).puts.find? (fun u => u.id == id) with
    | none => .next s
    | some u =>
      let r := copyRead (getTile p l.idx) (u.src + 16 * line)
      let u1 := { u with data := mput u.data line (r.2.1, r.2.2) }
      let t1 := { r.1 with puts := r.1.puts.map (fun x => if x.id = id then u1 else x) }
      let s1 := setPart s (putTile p l.idx t1)
      .next (if line + 1 = u.n / 16 then sendPut s1 p u1 else s1)

/-- R218: get n bytes from a link address. -/
def execLnkg (gu : Guard) (port cls : BitVec 2) (gp : BitVec 4) (gD gK gn : BitVec 5) (s : State) : Result :=
  runSlot (.lnkg gu port cls gp gD gK gn)
    (fun p t =>
      let n := linkLen t gn
      { sl := .cp, gu := gu,
        check := firstSome [det1 (spanBad (regAddr t gD 4) (n + maskLen cls.toNat n)), optBar1 (optBar t gK), optBar2 (optBar t gK)],
        reads := pairReads gp ++ [codeG gD.toNat, codeG gK.toNat, codeG gn.toNat],
        refuse := linkRefuse s p t s.cur.idx port.toNat (pairOf t gp) n n false })
    (fun p t s =>
      let n := linkLen t gn
      let k := portOf p s.cur.idx port.toNat
      if n = 0 || p.rec_.replayRun then s
      else
        let e := newLand s.seqNo p s.cur.idx (regAddr t gD 4) n cls.toNat (optBar t gK) (some s.seqNo) none s.moduleId s.seqNo s.edge
        let pc := (issueOf t .cp).pc
        let s1 := onPort (nextSeq s) k (fun q => { q with land := q.land ++ [{ e with pc := pc }] })
        emit s1 (.get k cls.toNat p.rec_.asid ((linkXlate p.rec_ (pairOf t gp)).getD 0) n s.seqNo)) s

/-! ## Arrivals -/

/-- A transfer that cannot be taken yet waits unacknowledged at its sender (R221). -/
def holdInbound (s : State) (k : Nat) (x : Inbound) : State := onPort s k (fun q => { q with waiting := q.waiting ++ [x] })

/-- The link entry of a put or host write for a band's SRAM (R219, R324): none where the address lies outside the
pinned set. An address of a declared page that no link entry holds has no barrier to count on, and is outside.
Log entry 86 (DEDUCED). -/
def putEntry (p : Part) (x : Inbound) : Option LRange :=
  let pa := x.pa.toNat
  let inside := decide (64 * p.first ≤ paCol pa) && decide (paCol pa < 64 * (p.first + p.count)) && decide (paTy pa < ph)
  if inside && !paBad pa (x.n + maskLen x.cls.toNat x.n) then inboundEntry p.rec_ pa else none

/-- Whether a landing is that of an inbound put. -/
def isPutOf (src xid : Nat) (y : LandEntry) : Bool := y.src == src && y.xid == xid && y.get.isNone && y.coll.isNone

/-- The missed-landing entry of an inbound put. -/
def isMissOf (src xid : Nat) (m : Missed) : Bool := m.src == src && m.xid == xid

/-- What the hub has recorded of a put for a swapped context that comes to a port (R221, R362). -/
def missedOf (p : Part) (k : Nat) (x : Inbound) : Missed :=
  (p.missed.find? (isMissOf x.src x.xid)).getD {
    src := x.src, xid := x.xid, tile := tileIdx (paCol x.pa.toNat - 64 * p.first) (paTy x.pa.toNat), addr := paAddr x.pa.toNat,
    bar := (putEntry p x).map (fun e => e.bar), n := x.n, port := k, issued := x.issued, blocks := [] }

/-- Blocks of a put that a saved image holds already, or has lost. -/
def savedBlocks (c : Ctx) (src xid : Nat) : List Nat :=
  c.ports.flatMap (fun e => (e.2.land.filter (isPutOf src xid)).flatMap (fun y => y.blocks.map Prod.fst ++ y.lost))

/-- Change the saved image of a swapped context. -/
def onSaved (s : State) (token : Nat) (f : Part → Part) : State :=
  { s with ctxs := s.ctxs.map (fun d => if d.rec_.token = token then { d with saved := d.saved.map f } else d) }

/-- A class 0 put for a context that is swapped out. One outside the context's pinned set is dropped, with the event
of its port's home tile (R324). Of any other the blocks are lost, and it is acknowledged, once, when the bytes that had
not arrived before are all lost (R221). What comes of a put that has landed already changes nothing. -/
def missInbound (s : State) (k : Nat) (x : Inbound) : State :=
  match s.ctxs.find? (fun c => c.rec_.asid == x.asid.toNat && c.saved.isSome && smem (colsOf c.rec_) (k / 4)) with
  | none => s
  | some c =>
    match c.saved with
    | none => s
    | some p =>
      if (putEntry p x).isNone then onSaved s c.rec_.token (fun p => foundAdd p (homeTile p k) 0x07 0x0005 none)
      else if !p.missed.any (isMissOf x.src x.xid) && (getPort s k).begun.contains (x.src, x.xid) &&
          !c.ports.any (fun e => e.2.land.any (fun y => isPutOf x.src x.xid y && !y.closed)) then s
      else
        let old := missedOf p k x
        let new := { old with blocks := (x.blocks.map Prod.fst).foldl sinsert old.blocks }
        let whole := (upto (blocksOf x.n)).all (fun b => new.blocks.contains b || (savedBlocks c x.src x.xid).contains b)
        let s1 := onSaved s c.rec_.token (fun p =>
          { p with missed := p.missed.filter (fun m => !isMissOf x.src x.xid m) ++ [{ new with acked := old.acked || whole }] })
        if whole && !old.acked then emit s1 (.ack k x.src x.xid) else s1

/-- Bytes for an LNKG of a context that is swapped out (R221): in classes 1 and 2 they wait at their sender, and a
class 0 block is lost in the saved image. -/
def missGet (s : State) (k id : Nat) (x : Inbound) : State :=
  if s.ctxs.any (fun c => c.ports.any (fun e => e.2.land.any (fun y => y.get == some id))) then
    if x.cls != 0 then holdInbound s k x
    else
      { s with ctxs := s.ctxs.map (fun c => { c with ports := c.ports.map (fun e => (e.1, { e.2 with land := e.2.land.map (fun y =>
          if y.get == some id && !y.closed then { y with lost := (x.blocks.map Prod.fst).foldl sinsert y.lost } else y) })) }) }
  else s

/-- Bytes of an arrival. -/
def inboundBytes (x : Inbound) : Nat := x.blocks.foldl (fun a b => a + b.2.length) 0

/-- Whether an arrival ends its transfer: by its trailer in class 0, by its last byte otherwise (R220, R310). -/
def ended (x : Inbound) (y : LandEntry) : Bool := if y.cls = 0 then x.trailer else allBlocks y

/-- A put or host write for tile SRAM (R219, R310).
Log entry 86 (DEDUCED). -/
def landPut (s : State) (k : Nat) (p : Part) (x : Inbound) : State :=
  let pa := x.pa.toNat
  let late := x.cls == 0 && decide (x.issued + closeEdges ≤ s.edge)
  match putEntry p x with
  | none => edgeEvent s { band := p.first, idx := homeTile p k } 0x07 0x0005 none
  | some e =>
    let q := getPort s k
    let room := bufferSize - bufferUse q
    if x.cls != 0 && decide (room < inboundBytes x) then holdInbound s k x
    else
      let mine := isPutOf x.src x.xid
      let s1 := if q.land.any mine || q.begun.contains (x.src, x.xid) then s
        else
          let y := newLand s.seqNo p (tileIdx (paCol pa - 64 * p.first) (paTy pa)) (paAddr pa) x.n x.cls.toNat (some e.bar) none none x.src x.xid x.issued
          onPort (nextSeq s) k (fun q => {
            q with land := q.land ++ [y], begun := if x.cls = 0 then q.begun ++ [(x.src, x.xid)] else q.begun })
      let s2 := if late then s1 else
        onPort s1 k (fun q => { q with land := q.land.map (fun y => if mine y && !y.closed then takeBlocks room y x.blocks else y) })
      match (getPort s2 k).land.find? (fun y => mine y && !y.closed && (late || ended x y)) with
      | some y => closeAt s2 k y.id
      | none => s2

/-- Bytes arrive for an LNKG (R218, R220). -/
def landGet (s : State) (k id : Nat) (x : Inbound) : State :=
  let q := getPort s k
  let room := bufferSize - bufferUse q
  let mine := fun (y : LandEntry) => y.get == some id && !y.closed
  if !q.land.any (fun y => y.get == some id) then missGet s k id x
  else if x.cls != 0 && decide (room < inboundBytes x) then holdInbound s k x
  else
    let s1 := onPort s k (fun q => { q with land := q.land.map (fun y => if mine y then takeBlocks room y x.blocks else y) })
    match (getPort s1 k).land.find? (fun y => mine y && ended x y) with
    | some y => closeAt s1 k y.id
    | none => s1

/-- A remote LNKG's request for tile SRAM (R218). -/
def serveGet (s : State) (k : Nat) (p : Part) (x : Inbound) : State :=
  let pa := x.pa.toNat
  let inside := decide (64 * p.first ≤ paCol pa) && decide (paCol pa < 64 * (p.first + p.count)) && decide (paTy pa < ph)
  if !inside || paBad pa x.n || !((inboundEntry p.rec_ pa).isSome || inboundPage p.rec_ pa) then
    edgeEvent s { band := p.first, idx := homeTile p k } 0x07 0x0005 none
  else
    let idx := tileIdx (paCol pa - 64 * p.first) (paTy pa)
    let v : Serve := { src := x.src, xid := x.xid, band := p.first, tile := idx, addr := paAddr pa, left := x.n / 16, data := [] }
    onTile (onPort s k (fun q => { q with serve := q.serve ++ [v] })) { band := p.first, idx }
      (fun t => { t with served := t.served ++ [(paAddr pa, paAddr pa + x.n)] })

/-- Whether a launch is resident on a band whose DRAM n bytes lie in (R323). -/
def dramBusy (s : State) (a n : Nat) : Bool :=
  s.parts.any (fun e => (colsOf e.2.rec_).any (fun j => decide (dramCol a ≤ j) && decide (j ≤ dramCol (a + n - 1))))

/-- A transfer of kind 1, for a band's DRAM: taken only while no launch is resident there (R323), and where rows are
reserved to a swapped context only with its ASID (R363).
Log entry 33 (DESIGN CHOICE). -/
def dramTransfer (s : State) (k : Nat) (x : Inbound) : State :=
  let a := field x.pa.toNat 0 42
  if 12 ≤ dramCol (a + x.n - 1) ∨ reservedElse s x.asid.toNat a x.n then s
  else if dramBusy s a x.n then
    if x.cls != 0 then holdInbound s k x else if x.kind = .getRequest then s else emit s (.ack k x.src x.xid)
  else if x.kind = .getRequest then emit s (.reply k x.src x.xid ((upto x.n).map (fun i => mget 0 s.dram (a + i))))
  else emit (x.blocks.foldl (fun s b => storeDram s (a + 512 * b.1) b.2) s) (.ack k x.src x.xid)

/-- A transfer of kind 2, for host memory (R219, R312). -/
def hostTransfer (s : State) (k : Nat) (x : Inbound) : State :=
  let a := field x.pa.toNat 0 42
  if x.kind = .getRequest then emit s (.reply k x.src x.xid ((upto x.n).map (fun i => mget 0 s.hostMem (a + i))))
  else
    let s1 : State := { s with hostMem := x.blocks.foldl (fun m b => storeBytes m (a + 512 * b.1) b.2) s.hostMem }
    emit s1 (.ack k x.src x.xid)

/-- A transfer for tile SRAM: delivered to the resident launch of its ASID; for a context that is not
resident it waits, or, in class 0, is lost (R219, R221). A replay takes nothing from outside (R403).
Log entry 38 (DEDUCED). -/
def sramTransfer (s : State) (k : Nat) (x : Inbound) : State :=
  match portPart s k x.asid.toNat with
  | some p => if x.kind = .getRequest then serveGet s k p x else if p.rec_.replayRun then emit s (.ack k x.src x.xid) else landPut s k p x
  | none => if x.cls = 0 then (if x.kind = .getRequest then s else missInbound s k x) else holdInbound s k x

/-- R219 to R221: a transfer, or some blocks of one, arrives at a port. A port that is down takes
nothing (R414).
Log entry 34 (DEDUCED). -/
def execInboundTransferArrival (port : Nat) (x : Inbound) (s : State) : Result :=
  let s0 := onPort s port (fun q => { q with waiting := q.waiting.filter (fun y => y != x) })
  if (getPort s0 port).down then .next s0
  else
    match x.kind with
    | .getReply id => .next (landGet s0 port id x)
    | .put | .host | .getRequest =>
      .next (if paKind x.pa.toNat = 0 then sramTransfer s0 port x
        else if paKind x.pa.toNat = 1 then dramTransfer s0 port x
        else if paKind x.pa.toNat = 2 then hostTransfer s0 port x
        else s0)

/-- R218: the serving side reads one line on a groomer edge, and answers after the last. Bytes that the
launch wrote meanwhile are left open by the rule.
Log entry 7 (DESIGN CHOICE).
Log entry 27 (DEDUCED).
Log entry 98 (DESIGN CHOICE). -/
def execLnkgServeRead (port : Nat) (s : State) : Result :=
  match (getPort s port).serve with
  | [] => .next s
  | v :: r =>
    let l : Loc := { band := v.band, idx := v.tile }
    match getPart s v.band with
    | none => .next (onPort s port (fun q => { q with serve := r }))
    | some p =>
      let t := getTile p v.tile
      let d := v.data ++ bytesOf 16 (readLine t (v.addr + v.data.length)).toNat
      let s1 := onPart s v.band (fun p => countAct (modTile p v.tile (fun t => markReads t [(v.addr + v.data.length, 16)])) 8 1)
      if 1 < v.left then .next (onPort s1 port (fun q => { q with serve := { v with data := d, left := v.left - 1 } :: r }))
      else
        let open_ := (upto d.length).map (fun i =>
          if smem t.servedDirty (lineOfAddr (v.addr + i)) then Config.servedByte (s.freeCtr + i) else d.getD i 0)
        let s2 : State := { s1 with freeCtr := s.freeCtr + d.length }
        let s3 := onTile s2 l (fun t =>
          let left := t.served.erase (v.addr, v.addr + d.length)
          { t with
            served := left,
            servedDirty := t.servedDirty.filter (fun a => left.any (fun e => decide (e.1 ≤ a) && decide (a < e.2))) })
        .next (emit (onPort s3 port (fun q => { q with serve := r })) (.reply port v.src v.xid open_))

/-- R220: a transfer's trailer arrives and it closes. -/
def execTransferClose (port id : Nat) (s : State) : Result := .next (closeAt s port id)

/-- R220: a class 0 transfer closes 8 µs after its issue with missing blocks as zeros. -/
def execClass0CloseTimeout (port id : Nat) (s : State) : Result :=
  match (getPort s port).land.find? (fun e => e.id == id) with
  | none => .next s
  | some e => .next (if e.cls = 0 ∧ e.edge0 + closeEdges ≤ s.edge then closeAt s port id else s)

/-- A put that has been acknowledged counts no longer (R218, R312), in its tile or in the saved image of its
context. -/
def ackPut (s : State) (l : Loc) (id : Nat) : State :=
  let s1 := onTile s l (fun t => dropPut t id)
  { s1 with ctxs := s1.ctxs.map (fun c =>
      match c.saved with
      | some p => if p.first = l.band then { c with saved := some (modTile p l.idx (fun t => dropPut t id)) } else c
      | none => c) }

/-- R312: a put is acknowledged. -/
def execPutAcknowledge (l : Loc) (id : Nat) (s : State) : Result := .next (ackPut s l id)

/-- A step of a collective is no longer unacknowledged. -/
def ackStep (q : Port) (id step : Nat) : Port :=
  { q with colls := q.colls.map (fun c => if c.id = id then { c with unacked := c.unacked.filter (fun e => e.step != step) } else c) }

/-- The header address of the instruction that a report names, from its tile and the ports of its band. -/
def reportedPc (ports : List Port) (t : Tile) (id : Nat) : Option (BitVec 13) :=
  match t.puts.find? (fun u => u.id == id) with
  | some u => some u.pc
  | none =>
    ports.findSome? (fun q =>
      match q.land.find? (fun e => e.get == some id) with
      | some e => some e.pc
      | none => (q.colls.find? (fun c => c.id == id)).map (fun c => c.pc))

/-- A report for a launch that is swapped out: its image counts the transfer as acknowledged, or lands zeros, and the
event waits for the resumption (R219). -/
def reportSwapped (id : Nat) (step : Option Nat) (l : Loc) (c : Ctx) : Ctx :=
  match c.saved with
  | none => c
  | some p =>
    match p.first == l.band, reportedPc (c.ports.map Prod.snd) (getTile p l.idx) id with
    | true, some pc =>
      { c with
        saved := some (foundAdd (modTile p l.idx (fun t => dropPut t id)) l.idx 0x10 0x0005 (some (pc, 6))),
        ports := c.ports.map (fun e =>
          let q := match step with
            | some i => ackStep e.2 id i
            | none => e.2
          (e.1, { q with land := q.land.map (fun y => if y.get == some id && y.cls == 0 && !y.closed then closeLand y else y) })) }
    | _, _ => c

/-- R219: the fabric reports that no module holds a transfer's module ID: the transfer counts as
acknowledged, a class 0 LNKG lands zeros, and the issuing tile raises a collective failure. -/
def execNoModuleReport (l : Loc) (id : Nat) (step : Option Nat) (s : State) : Result :=
  let swapped : State := { s with ctxs := s.ctxs.map (reportSwapped id step l) }
  match getPart s l.band with
  | none => .next swapped
  | some p =>
    match reportedPc ((bandPorts p).map (getPort s)) (getTile p l.idx) id with
    | none => .next swapped
    | some pc =>
      let s1 := ackPut s l id
      let s2 := (bandPorts p).foldl (fun s k =>
        let s1 := match step with
          | some i => onPort s k (fun q => ackStep q id i)
          | none => s
        match (getPort s1 k).land.find? (fun e => e.get == some id && e.cls == 0) with
        | some e => closeAt s1 k e.id
        | none => s1) s1
      .next (edgeEvent s2 l 0x10 0x0005 (some (pc, 6)))

/-- The hits of a line that a groomer edge writes (R398). -/
def watchEdge (s : State) (l : Loc) (a mask : Nat) : State :=
  match getPart s l.band with
  | none => s
  | some p =>
    (watchHits (getTile p l.idx) a 16 mask).foldl (fun s h =>
      edgeEvent (onPart s l.band (fun p => modTile p l.idx (fun t => traceAdd p t (watchTrace p h.1 (lineOfAddr a) h.2 3 0 false)))) l 0x0B h.1 none) s

/-- R220: one line of a closed landing that names no barrier is written.
Log entry 27 (DEDUCED). -/
def execBarrierlessLandingWrite (port : Nat) (s : State) : Result :=
  match popLine (getPort s port) (fun e => e.closed && !e.lines.isEmpty && e.bar.isNone) with
  | none => .next s
  | some (e, x, q) =>
    let l : Loc := { band := e.band, idx := e.tile }
    .next (watchEdge (landFree (onPort s port (fun _ => q)) l x (if e.first then e.flags else 0)) l x.addr (landMask x))

/-- Count bytes on a record outside every partition cycle; a record whose reserved bits are not zero is a
fault of its tile (R35, R316). One that is not armed gets ovr, as R36 has it.
Log entry 92 (DEDUCED). -/
def countFree (s : State) (l : Loc) (bar : Option Nat) (n ctr : Nat) : State :=
  match bar, getPart s l.band with
  | some b, some p =>
    if (getRec (getTile p l.idx) b).rest ≠ 0 then edgeEvent s l 0x01 0x0002 none
    else
      let own := b2n (mfind (getTile p l.idx).held (lineOfAddr b)).isNone
      let s1 := onPart s l.band (fun q => countAct (modTile q l.idx (fun t => creditSlots p (reachSlots (updateRec t b n ctr)) b n)) 8 own)
      watchEdge s1 l b 0xFFFF
  | _, _ => s

/-- Log a landing's line that a groomer edge wrote, under the first partition cycle after it (R402).
Log entry 38 (DEDUCED). -/
def logLanding (s : State) (l : Loc) (bar line : Nat) : State :=
  onPart s l.band (fun p => logAdd p 1 l.idx p.gcyc [(0x10, 4, bar), (0x14, 4, line), (0x20, 16, (sramLine (getTile p l.idx).sram line).toNat)])

/-- R316: in race-bound mode one line of a closed landing is written and counted. -/
def execRaceBoundLandingWrite (port : Nat) (s : State) : Result :=
  match popLine (getPort s port) (fun e => e.closed && !e.lines.isEmpty && e.bar.isSome && e.win.isNone) with
  | none => .next s
  | some (e, x, q) =>
    let l : Loc := { band := e.band, idx := e.tile }
    let s1 := watchEdge (landFree (drawFree (onPort s port (fun _ => q))) l x (if e.first then e.flags else 0)) l x.addr (landMask x)
    .next (logLanding (countFree s1 l e.bar (landBytes x) s.freeCtr) l (e.bar.getD 0) x.addr)

end Sys2Proof.Machine
end

