-- ==== Sys2Proof/Machine/Coll.lean ====
section
/-! DEFINITION. Collectives: the COLL record and its checks (R222), the ring sequencer's snapshot, walk,
sends and receipts (R223, R368, R369). -/

namespace Sys2Proof.Machine

/-! ## The record (R222) -/

/-- Levels of a record. -/
def collLevels (x : Nat) : Nat := field (descWord x 0) 22 3 + 1

/-- A record's fields. -/
def collRec (x : Nat) : CollRec :=
  { op := field (descWord x 0) 29 3, port := field (descWord x 0) 27 2, cls := field (descWord x 0) 25 2,
    retries := field (descWord x 0) 18 4, members := field (descWord x 1) 20 12 + 1, rank := field (descWord x 1) 8 12,
    nblk := field (descWord x 1) 0 8 + 1, ringBase := field (descWord x 2) 0 20, ringStep := field (descWord x 3) 0 20,
    base := field (descWord x 4) 0 18, wrap := field (descWord x 5) 0 18, off0 := field (descWord x 6) 0 18,
    maskBase := field (descWord x 7) 0 18,
    levels := (upto (collLevels x)).map (fun l =>
      (sgn 12 (field (descWord x (8 + 2 * l)) 16 12), field (descWord x (8 + 2 * l)) 0 16, sgn 32 (descWord x (9 + 2 * l)))) }

/-- Reserved bits of a record, and the entries of levels that do not exist. -/
def collReserved (x : Nat) : Bool :=
  let n := collLevels x
  field (descWord x 0) 0 18 != 0 || decide (2 ^ 20 ≤ descWord x 2) || decide (2 ^ 20 ≤ descWord x 3) ||
  (upto 4).any (fun k => decide (2 ^ 18 ≤ descWord x (4 + k))) ||
  (upto 6).any (fun l =>
    if l < n then field (descWord x (8 + 2 * l)) 28 4 != 0 else descWord x (8 + 2 * l) != 0 || descWord x (9 + 2 * l) != 0) ||
  (upto 12).any (fun k => descWord x (20 + k) != 0)

/-- Whether a record breaks a rule of R222 or R368. -/
def collBad (x : Nat) : Bool :=
  let r := collRec x
  let chunk := 512 * r.nblk
  collReserved x || decide (4 < r.op) || decide (2 < r.cls) || decide (6 < collLevels x) || decide (r.members < 2) || decide (r.members ≤ r.rank) ||
  r.base % 512 != 0 || r.wrap == 0 || r.wrap % chunk != 0 || decide (sramEnd < r.base + r.wrap) || decide (r.wrap ≤ r.off0) ||
  (r.cls == 0 && (decide (32 < r.members) || r.maskBase % 4 != 0 || decide (sramEnd < r.maskBase + 4 * (r.wrap / 512))))

/-- Steps of a record's walk (R223). -/
def walkTotal (r : CollRec) : Nat := r.levels.foldl (fun a e => a * (e.2.1 + 1)) 1

/-- Peer position of step k. -/
def walkPeer (r : CollRec) (k : Nat) : Nat := (((r.rank : Int) + (walkSums r.levels.reverse k).1) % (r.members : Int)).toNat

/-- Whether step k is one of the last of the outermost level. -/
def walkLast (r : CollRec) (k : Nat) : Bool := walkOuter r k == (r.levels.head?.map (fun e => e.2.1)).getD 0

/-- Module of a ring position. -/
def ringModule (r : CollRec) (pos : Nat) : Nat := (r.ringBase + pos * r.ringStep) % 2 ^ 20

/-! ## Data of a collective -/

/-- Offset of block b of a chunk at an offset, circular (R223, R368). -/
def chunkOff (r : CollRec) (off b : Nat) : Nat := (off + 512 * b) % r.wrap

/-- Bytes of a chunk of the snapshot or the buffer. -/
def chunkBytes (r : CollRec) (m : SMap Byte) (off : Nat) : List Byte :=
  (upto r.nblk).flatMap (fun b => (upto 512).map (fun i => mget 0 m (chunkOff r off b + i)))

/-- Store a chunk. -/
def storeChunk (r : CollRec) (m : SMap Byte) (off : Nat) (d : List Byte) : SMap Byte :=
  (upto r.nblk).foldl (fun m b => storeBytes m (chunkOff r off b) ((d.drop (512 * b)).take 512)) m

/-- Contributor words of a chunk of the buffer. -/
def chunkWords (r : CollRec) (m : SMap Word) (off : Nat) : List Word := (upto r.nblk).map (fun b => mget 0 m (chunkOff r off b / 512))

/-- Store a chunk's contributor words. -/
def storeWords (r : CollRec) (m : SMap Word) (off : Nat) (ws : List Word) : SMap Word :=
  (upto r.nblk).foldl (fun m b => mset 0 m (chunkOff r off b / 512) (ws.getD b 0)) m

/-- This member's contributor bit. -/
def ownWord (r : CollRec) : Word := BitVec.ofNat 32 (2 ^ r.rank)

/-- combine of R223 on 8 bytes, or on a 16-byte record for BIN. -/
def combineWord (op d x : Nat) : Nat × Flags :=
  if op = 4 then (binBits (binMerge (binOf d) (binOf x)), 0) else depositVal op d x

/-- combine over the units of a chunk. -/
def combineUnits (op w n : Nat) (d x : List Byte) : List Byte × Flags :=
  let rs : List (Nat × Flags) := (upto n).map (fun k => combineWord op (ofBytes ((d.drop (w * k)).take w)) (ofBytes ((x.drop (w * k)).take w)))
  (rs.flatMap (fun (e : Nat × Flags) => bytesOf w e.1), joinFlags (rs.map Prod.snd))

/-- combine of two chunks (R223, R203). -/
def combineChunk (op : Nat) (d x : List Byte) : List Byte × Flags :=
  if op = 4 then combineUnits op 16 (x.length / 16) d x else combineUnits op 8 (x.length / 8) d x

/-! ## Receipts -/

/-- Join two arrivals of one step. -/
def joinChunk (a b : ChunkIn) : ChunkIn := { a with blocks := a.blocks ++ b.blocks, trailer := a.trailer || b.trailer }

/-- Put an arrival among those that wait. -/
def addPartial (l : List ChunkIn) (x : ChunkIn) : List ChunkIn :=
  if l.any (fun y => y.step == x.step) then l.map (fun y => if y.step = x.step then joinChunk y x else y) else l ++ [x]

/-- Whether all of a step has arrived. -/
def stepWhole (r : CollRec) (x : ChunkIn) : Bool :=
  (upto r.nblk).all (fun b => x.blocks.any (fun (e : Nat × List Byte × Word) => e.1 == b))

/-- A step's bytes: 512 zero bytes for a block that did not arrive intact (R369). -/
def stepBytes (r : CollRec) (x : ChunkIn) : List Byte :=
  (upto r.nblk).flatMap (fun b =>
    ((((x.blocks.find? (fun (e : Nat × List Byte × Word) => e.1 == b)).map (fun (e : Nat × List Byte × Word) => e.2.1)).getD []) ++ List.replicate 512 0).take 512)

/-- A step's contributor words: 0 for a block that did not arrive intact. -/
def stepWords (r : CollRec) (x : ChunkIn) : List Word :=
  (upto r.nblk).map (fun b => ((x.blocks.find? (fun (e : Nat × List Byte × Word) => e.1 == b)).map (fun (e : Nat × List Byte × Word) => e.2.2)).getD 0)

/-- Whether a step has been received, or has closed (R369). -/
def hasClosed (c : Coll) (step : Nat) : Bool := smem c.seen step || c.shut.any (fun x => x.step == step)

/-- A class 0 step closes with what has arrived of it, and the wait for the next begins (R369). -/
def shutStep (edge : Nat) (c : Coll) (x : ChunkIn) : Coll :=
  { c with
    shut := c.shut ++ [x], partial_ := c.partial_.filter (fun y => y.step != x.step),
    waitEdge := if c.seen.length + c.shut.length + 1 < c.total then some edge else none }

/-- In class 0 the step that is waited for closes when its trailer has arrived, and so in turn (R369). -/
def closeSteps (fuel edge : Nat) (c : Coll) : Coll :=
  match fuel with
  | 0 => c
  | n + 1 =>
    match c.partial_.find? (fun x => x.step == c.seen.length + c.shut.length && x.trailer) with
    | none => c
    | some x => closeSteps n edge (shutStep edge c x)

/-- A line of contributor words with one put in (R368). -/
def addWord (m : SMap (List (Option Byte))) (a : Nat) (w : Word) : SMap (List (Option Byte)) :=
  let line := lineOfAddr a
  let old := (mfind m line).getD (List.replicate 16 none)
  mput m line (splice old (a % 16) ((bytesOf 4 w.toNat).map some))

/-- The lines of a collective's landing (R223, R368). -/
def collLines (r : CollRec) (off : Nat) (d : List Byte) (ws : List Word) : List LandLine :=
  let data := (upto r.nblk).flatMap (fun b =>
    (upto 32).map (fun k => wholeLine (r.base + chunkOff r off b + 16 * k) (lineBytes (d.drop (512 * b)) k)))
  let words : List LandLine := if r.cls = 0 then
      ((upto r.nblk).foldl (fun m b => addWord m (r.maskBase + 4 * ((off / 512 + b) % (r.wrap / 512))) (ws.getD b 0)) ([] : SMap (List (Option Byte)))).map
        (fun e => { addr := e.1, bytes := e.2 })
    else []
  sortBy (fun a b => decide (a.addr ≤ b.addr)) (data ++ words)

/-- A landing of a collective, complete at once.
Log entry 36 (DEDUCED). -/
def collLand (id : Nat) (c : Coll) (edge : Nat) (f : Flags) (ls : List LandLine) : LandEntry :=
  { id := id, band := c.band, tile := c.tile, addr := c.rec_.base, n := 0, cls := c.rec_.cls, bar := c.bar, src := 0, xid := c.id, get := none,
    pc := c.pc, coll := some c.id, blocks := [], lost := [], edge0 := edge, closed := true, lines := ls, flags := f, first := true }

/-- Blocks of a landing chunk for which the landing buffer has room (R310). -/
def roomBlocks (q : Port) (r : CollRec) : Nat := (bufferSize - bufferUse q) / (if r.cls = 0 then 516 else 512)

/-- Whether a step waits for room: one that lands, of classes 1 and 2 (R310). -/
def noRoom (q : Port) (c : Coll) (x : ChunkIn) : Bool :=
  (x.last || c.rec_.op == 0) && c.rec_.cls != 0 && decide (roomBlocks q c.rec_ < c.rec_.nblk)

/-- The step to combine next, once the snapshot is read: in class 0 the first that has closed, otherwise any that is
whole and has room (R223, R310, R369). -/
def nextStep (q : Port) (c : Coll) : Option ChunkIn :=
  if c.snapDone < c.rec_.wrap / 16 then none
  else if c.rec_.cls = 0 then c.shut.head?
  else c.partial_.find? (fun x => !smem c.seen x.step && stepWhole c.rec_ x && !noRoom q c x)

/-- A chunk is combined, placed in the buffer, landed if it is to land, and acknowledged (R223), where it was lost whole to a
sender that the record may not name (R312, R369). A class 0 block for
which the landing buffer has no room lands as zeros with word 0 (R310).
Log entry 36 (DEDUCED). -/
def receiveStep (s : State) (k : Nat) (c : Coll) (x : ChunkIn) : State :=
  let r := c.rec_
  let d := stepBytes r x
  let m := if r.op = 0 then (d, (0 : Flags)) else combineChunk r.op (chunkBytes r c.snap x.off) d
  let ws := if r.op = 0 then stepWords r x else (stepWords r x).map (fun w => w ||| ownWord r)
  let f := c.flags ||| m.2
  let lands := x.last || r.op == 0
  let fit := roomBlocks (getPort s k) r
  let c1 : Coll := { c with
    buf := storeChunk r c.buf x.off m.1, words := storeWords r c.words x.off ws, got := sinsert c.got x.off, seen := sinsert c.seen x.step,
    partial_ := c.partial_.filter (fun y => y.step != x.step), shut := c.shut.filter (fun y => y.step != x.step),
    flags := if lands then 0 else f }
  let s1 := nextSeq s
  let s2 := onPort s1 k (fun q =>
    { q with
      colls := q.colls.map (fun y => if y.id = c.id then c1 else y),
      land := if lands then q.land ++ [collLand s.seqNo c s.edge f (collLines r x.off (m.1.take (512 * fit) ++ List.replicate (m.1.length - 512 * fit) 0) (ws.take fit))] else q.land })
  emit s2 (if smem c.unnamed x.step then .lostAck k c.ordinal x.step else .chunkAck k x.src c.ordinal x.step)

/-- Receive every step whose turn has come. -/
def receiveAll (fuel : Nat) (s : State) (k id : Nat) : State :=
  match fuel with
  | 0 => s
  | n + 1 =>
    match (getPort s k).colls.find? (fun c => c.id == id) with
    | none => s
    | some c =>
      match nextStep (getPort s k) c with
      | none =>
        let full := c.partial_.any (fun x => stepWhole c.rec_ x && noRoom (getPort s k) c x)
        onPort s k (fun q => { q with colls := q.colls.map (fun y => if y.id = id then { y with full := full } else y) })
      | some x => receiveAll n (receiveStep s k c x) k id

/-- A collective with nothing left to send, receive or have acknowledged is pending no longer (R222). -/
def sweepColls (s : State) (k : Nat) : State :=
  onPort s k (fun q =>
    { q with colls := q.colls.filter (fun c => !(c.unacked.isEmpty && c.sent == c.total && c.seen.length == c.total && decide (c.rec_.wrap / 16 ≤ c.snapDone))) })

/-- Receive what has come, then let finished collectives go. -/
def runColl (s : State) (k id : Nat) : State :=
  match (getPort s k).colls.find? (fun c => c.id == id) with
  | none => s
  | some c =>
    let c1 := if c.rec_.cls = 0 then closeSteps c.partial_.length s.edge c else c
    let s1 := onPort s k (fun q => { q with colls := q.colls.map (fun y => if y.id = id then c1 else y) })
    sweepColls (receiveAll (c1.partial_.length + c1.shut.length + 1) s1 k id) k

/-! ## COLL (R222) -/

/-- Refusals of a COLL in their order (R224). -/
def collRefuse (s : State) (p : Part) (idx x : Nat) : Option (Nat × Nat) :=
  if collBad x then some (0x10, 0x0001)
  else if !atRim idx (collRec x).port then some (0x07, 0x0004)
  else if 16 ≤ (getPort s (portOf p idx (collRec x).port)).colls.length then some (0x10, 0x0003)
  else none

/-- Chunks that a port accepts and that bring nothing: those of a replay, which takes nothing from outside (R403). -/
def ackChunks (s : State) (k : Nat) (xs : List ChunkIn) : State := xs.foldl (fun s x => emit s (.chunkAck k x.src x.ordinal x.step)) s

/-- Start a collective: a class 0 step whose trailer has come already closes at once (R369). In a replay what has come of
it brings nothing (R403). -/
def startColl (s : State) (p : Part) (t : Tile) (idx : Nat) (r : CollRec) (bar : Option Nat) : State :=
  let k := portOf p idx r.port
  let q := getPort s k
  let mine := fun (x : ChunkIn) => x.asid.toNat == p.rec_.asid && x.ordinal == q.ordinal
  let come := q.early.filter mine
  let c0 : Coll := {
    id := s.seqNo, ordinal := q.ordinal, band := p.first, tile := idx, t := p.gcyc, pc := (issueOf t .cp).pc, rec_ := r, bar := bar, snap := [],
    snapDone := 0, buf := [], words := [], got := [], total := if p.rec_.replayRun then 0 else walkTotal r, sent := 0, unacked := [], seen := [],
    partial_ := if p.rec_.replayRun then [] else come.foldl addPartial [], flags := 0, waitEdge := if r.cls = 0 then some s.edge else none, covered := true }
  let c := if r.cls = 0 then closeSteps c0.partial_.length s.edge c0 else c0
  let s1 := onPort (nextSeq s) k (fun q =>
    { q with colls := q.colls ++ [c], ordinal := q.ordinal + 1, early := q.early.filter (fun x => !mine x) })
  if p.rec_.replayRun then ackChunks s1 k come else s1

/-- R222: start a ring sequencer on a record.
Log entry 16 (DEDUCED). -/
def execColl (gu : Guard) (gS gK : BitVec 5) (s : State) : Result :=
  runSlot (.coll gu gS gK)
    (fun p t =>
      let a := regAddr t gS 7
      { sl := .cp, gu := gu, check := moveCheck [(a, 128)] (optBar t gK), reads := [codeG gS.toNat, codeG gK.toNat],
        refuse := collRefuse s p s.cur.idx (descOf t a 8), lines := (upto 8).map (fun k => a + 16 * k) })
    (fun p t s =>
      let a := regAddr t gS 7
      startColl (onTile s s.cur (fun u => markReads u [(a, 128)])) p t s.cur.idx (collRec (descOf t a 8)) (optBar t gK)) s

/-- R223: the sequencer reads one line of its region.
Log entry 32 (DEDUCED). -/
def execCollSnapshotRead (l : Loc) (id line : Nat) (s : State) : Result :=
  match getPart s l.band with
  | none => .next s
  | some p0 =>
    let p := performed (countAct p0 8 1)
    match (bandPorts p).find? (fun k => (getPort s k).colls.any (fun c => c.id == id)) with
    | none => .next s
    | some k =>
      match (getPort s k).colls.find? (fun c => c.id == id) with
      | none => .next s
      | some c =>
        let r := copyRead (getTile p l.idx) (c.rec_.base + 16 * line)
        let c1 := { c with snap := storeBytes c.snap (16 * line) (bytesOf 16 r.2.1.toNat), snapDone := line + 1 }
        let s1 := onPort (setPart s (putTile p l.idx r.1)) k (fun q => { q with colls := q.colls.map (fun y => if y.id = id then c1 else y) })
        .next (runColl s1 k id)

/-- R223: the next step of the walk is sent. -/
def execCollStepSend (port id : Nat) (s : State) : Result :=
  match (getPort s port).colls.find? (fun c => c.id == id) with
  | none => .next s
  | some c =>
    if !canSend c then .next s
    else
      let r := c.rec_
      let off := walkOff r c.sent 0
      let first := walkOuter r c.sent == 0
      let d := if first then chunkBytes r c.snap off else chunkBytes r c.buf off
      let ws := if r.cls != 0 then [] else if first then (upto r.nblk).map (fun _ => ownWord r) else chunkWords r c.words off
      let e : SentStep := { step := c.sent, used := 0, data := d, words := ws }
      let s1 := onPort s port (fun q =>
        { q with colls := q.colls.map (fun y => if y.id = id then { c with sent := c.sent + 1, unacked := c.unacked ++ [e] } else y) })
      let s2 := onPart s1 c.band (fun p => countAct p 11 d.length)
      let asid := ((getPart s c.band).map (fun p => p.rec_.asid)).getD 0
      .next (emit s2 (.chunk port asid c.id c.ordinal c.sent (ringModule r (walkPeer r c.sent)) off (walkLast r c.sent) d ws))

/-- Whether an event stop has cancelled the collective of a chunk, in a resident launch or in one that is swapped out
(R351). -/
def ofCancelled (s : State) (port : Nat) (x : ChunkIn) : Bool :=
  match portPart s port x.asid.toNat with
  | some _ => (getPort s port).cancelled.contains x.ordinal
  | none => s.ctxs.any (fun c => c.rec_.asid == x.asid.toNat && (mfind c.ports port).any (fun q => q.cancelled.contains x.ordinal))

/-- What arrives of a class 0 step after it has closed is discarded; its loss is final, so the step counts
as acknowledged (R312, R369). The steps of a cancelled collective go unacknowledged (R351).
Log entry 37 (DEDUCED). -/
def lateChunk (s : State) (port : Nat) (x : ChunkIn) : State :=
  if x.cls = 0 && !ofCancelled s port x then emit s (.chunkAck port x.src x.ordinal x.step) else s

/-- R223: a step arrives. One for a launch that is not resident, or for a COLL not yet issued, is held
(R221); in class 0 the former is dropped. A replay takes nothing from outside (R403).
Log entry 38 (DEDUCED). -/
def execCollChunkReceive (port : Nat) (x : ChunkIn) (s : State) : Result :=
  let q := getPort s port
  match portPart s port x.asid.toNat with
  | none => .next (if x.cls = 0 then lateChunk s port x else onPort s port (fun q => { q with early := q.early ++ [x] }))
  | some p =>
    if p.rec_.replayRun then .next (emit s (.chunkAck port x.src x.ordinal x.step)) else
    match q.colls.find? (fun c => c.ordinal == x.ordinal && c.band == p.first) with
    | some c =>
      if hasClosed c x.step then .next (lateChunk s port x)
      else
        let s1 := onPort s port (fun q =>
          { q with colls := q.colls.map (fun y => if y.id = c.id then { c with partial_ := addPartial c.partial_ x } else y) })
        .next (runColl s1 port c.id)
    | none => .next (if x.ordinal < q.ordinal then lateChunk s port x else onPort s port (fun q => { q with early := q.early ++ [x] }))

/-- The step of a collective that a class 0 close falls on. -/
def closingNo (c : Coll) : Nat := c.seen.length + c.shut.length

/-- The position whose step k comes to this member, if every member walks with its own coefficients (R223). -/
def ringFrom (r : CollRec) (k : Nat) : Nat := (((r.rank : Int) - (walkSums r.levels.reverse k).1) % (r.members : Int)).toNat

/-- Whether a member's record tells which module sends it step k: not where all positions name one module, or where the
walk names the member itself, as where `ring_base` is the successor's (R223, R366), unless that module is this one.
Log entry 35 (DEDUCED). -/
def namesSender (module : Nat) (r : CollRec) (k : Nat) : Bool :=
  (r.ringStep != 0 && ringFrom r k != r.rank) || ringModule r (ringFrom r k) == module

/-- The step that a class 0 collective takes at its close (R369): what has arrived of it, or nothing but
its place in the ring's walk.
Log entry 35 (DEDUCED). -/
def closingStep (c : Coll) : ChunkIn :=
  let k := closingNo c
  match c.partial_.find? (fun x => x.step == k) with
  | some x => { x with trailer := true }
  | none =>
    { src := ringModule c.rec_ (ringFrom c.rec_ k), asid := 0, cls := 0,
      ordinal := c.ordinal, step := k, off := walkOff c.rec_ k 1, last := walkLast c.rec_ k, nblk := c.rec_.nblk,
      blocks := [], trailer := true }

/-- A step that closes with nothing come of it is noted where the record does not name its sender (R312, R369). -/
def noteUnnamed (module : Nat) (c : Coll) : Coll :=
  if !c.partial_.any (fun x => x.step == closingNo c) && !namesSender module c.rec_ (closingNo c) then
    { c with unnamed := sinsert c.unnamed (closingNo c) } else c

/-- R369: 8 µs after the wait for a step of a class 0 collective began, it closes. -/
def execCollStepCloseTimeout (port id : Nat) (s : State) : Result :=
  match (getPort s port).colls.find? (fun c => c.id == id) with
  | none => .next s
  | some c =>
    if c.rec_.cls = 0 ∧ c.seen.length + c.shut.length < c.total ∧ c.waitEdge.any (fun e => decide (e + closeEdges ≤ s.edge)) then
      let c1 := shutStep s.edge (noteUnnamed s.moduleId c) (closingStep c)
      .next (runColl (onPort s port (fun q => { q with colls := q.colls.map (fun y => if y.id = id then c1 else y) })) port id)
    else .next s

/-- R312: a step of a collective is acknowledged, at its port or in the saved image of its context. -/
def execCollStepAck (port id step : Nat) (s : State) : Result :=
  let s1 : State := { s with ctxs := s.ctxs.map (fun c => { c with ports := c.ports.map (fun e => (e.1, ackStep e.2 id step)) }) }
  .next (sweepColls (onPort s1 port (fun q => ackStep q id step)) port)

/-- A failed step that is sent again, with one retry more used. -/
def usedStep (q : Port) (id step : Nat) : Port :=
  { q with colls := q.colls.map (fun c =>
      if c.id = id then { c with unacked := c.unacked.map (fun u => if u.step = step then { u with used := u.used + 1 } else u) } else c) }

/-- The message that sends a retained step again. -/
def stepAgain (port asid : Nat) (c : Coll) (e : SentStep) : OutMsg :=
  .chunk port asid c.id c.ordinal e.step (ringModule c.rec_ (walkPeer c.rec_ e.step)) (walkOff c.rec_ e.step 0) (walkLast c.rec_ e.step) e.data e.words

/-- A collective and one of its retained steps among a port's. -/
def sentStep (q : Port) (id step : Nat) : Option (Coll × SentStep) :=
  q.colls.findSome? (fun c => if c.id = id then (c.unacked.find? (fun e => e.step == step)).map (fun e => (c, e)) else none)

/-- A step fails that a swapped context sent: the image keeps the retry or the event (R223, R360). -/
def failSwapped (s : State) (port id step : Nat) : State :=
  s.ctxs.foldl (fun s x =>
    match x.saved, sentStep ((mfind x.ports port).getD {}) id step with
    | some p, some (c, e) =>
      if c.rec_.cls = 0 then s
      else if e.used < c.rec_.retries then
        emit (onCtx s x.rec_.token (fun x => { x with ports := x.ports.map (fun e => (e.1, usedStep e.2 id step)) })) (stepAgain port x.rec_.asid c e)
      else onCtx s x.rec_.token (fun x => { x with saved := some (foundAdd p c.tile 0x10 0x0002 (some (c.pc, 6))) })
    | _, _ => s) s

/-- R223: a step fails. A reliable one is resent from its retained source while retries are left. -/
def execCollStepFail (port id step : Nat) (s : State) : Result :=
  match sentStep (getPort s port) id step with
  | none => .next (failSwapped s port id step)
  | some (c, e) =>
    if c.rec_.cls = 0 then .next s
    else if e.used < c.rec_.retries then
      let asid := ((getPart s c.band).map (fun p => p.rec_.asid)).getD 0
      .next (emit (onPort s port (fun q => usedStep q id step)) (stepAgain port asid c e))
    else .next (edgeEvent s { band := c.band, idx := c.tile } 0x10 0x0002 (some (c.pc, 6)))

end Sys2Proof.Machine
end

