-- ==== Sys2Proof/Machine/Sync.lean ====
section
/-! DEFINITION. The SY slot: WAITC, the barrier instructions, WAITB and DRAIN, REALIGN, containment regions,
TRAP, BKPT, HALT, EVT, TMARK and DSCRD (R225 to R240, R244 to R246), and the checks, windows and held
records of pending slots. -/

namespace Sys2Proof.Machine

/-! ## WAITC (R227, R228) -/

/-- The checks of a WAITC in its bundle (R228). -/
def waitcCheck (t : Tile) : Option Nat :=
  let is := issueOf t .sy
  if is.sTransfer then some 0x000A else if is.inDelay then some 0x000E else none

/-- Hold the tile's issue until a cycle. -/
def waitcSlot (i : Instr) (reads : List Nat) (c : Tile → Nat) (s : State) : Result :=
  runSlot i (fun _ t => { sl := .sy, check := waitcCheck t, reads := reads, opens := true })
    (fun _ t s => onIssue s (fun is => { is with waitc := some (c t) })) s

/-- R227: WAITC with an immediate cycle. -/
def execWaitcImm (imm : BitVec 26) (s : State) : Result := waitcSlot (.waitcImm imm) [] (fun _ => imm.toNat) s

/-- R227: WAITC with the cycle in a pair. -/
def execWaitcReg (gp : BitVec 4) (s : State) : Result := waitcSlot (.waitcReg gp) (pairReads gp) (fun t => pairOf t gp) s

/-! ## Barrier records (R229) -/

/-- The bundle that an SY instruction's access at t + 1 names (R226). -/
def syPc (t : Tile) : BitVec 13 := (issueOf t .sy).pc

/-- Note an access at t + 1 (R225). -/
def nextAccess (s : State) (p : Part) (a : NextAcc) : State :=
  onTile s s.cur (fun t => { t with nextAcc := t.nextAcc ++ [(p.gcyc + 1, syPc t, a)] })

/-- BARI and BARX: the address is checked at issue, the record is accessed at t + 1. -/
def barSlot (i : Instr) (gk : BitVec 5) (reads : List Nat) (a : Tile → NextAcc) (s : State) : Result :=
  runSlot i
    (fun _ t =>
      let b := barAddr t gk
      { sl := .sy, check := firstSome [barFault1 b, barFault2 b], reads := reads, auReads := [(b, 16)], auWrites := [(b, 16)] })
    (fun p t s => nextAccess s p (a t)) s

/-- R229: BARI with an immediate count. -/
def execBariImm (gk : BitVec 5) (n : BitVec 21) (s : State) : Result :=
  barSlot (.bariImm gk n) gk [codeG gk.toNat] (fun t => .bari (barAddr t gk) (n.zeroExtend 32)) s

/-- R229: BARI with the count in a register. -/
def execBariReg (gk gn : BitVec 5) (s : State) : Result :=
  barSlot (.bariReg gk gn) gk [codeG gk.toNat, codeG gn.toNat] (fun t => .bari (barAddr t gk) (rg t gn.toNat)) s

/-- R229: BARX. -/
def execBarx (gk : BitVec 5) (s : State) : Result :=
  barSlot (.barx gk) gk [codeG gk.toNat] (fun t => .barx (barAddr t gk)) s

/-! ## Pending slots (R231 to R237) -/

/-- The pending-slot limit (R231, R261). -/
def slotLimit (t : Tile) : Option Nat := if 16 ≤ t.pslots.length then some 0x7000 else none

/-- A due cycle below t + F (R231, R237). -/
def dueBad (p : Part) (d : Nat) : Option Nat := detA (decide (d < p.gcyc + lead p))

/-- Add a pending slot. -/
def addSlot (s : State) (p : Part) (bar : Option Nat) (hi : Bool) (d : Nat) (covers : List Nat) : State :=
  onTile (nextSeq s) s.cur (fun t =>
    { t with pslots := t.pslots ++ [{
        id := s.seqNo, t := p.gcyc, pc := syPc t, bar := bar, ph := hi, due := d, opened := false, window := false, covers := covers, hold := none }] })

/-- WAITB (R231): the record is read at t + 1. -/
def waitbSlot (i : Instr) (gk : BitVec 5) (hi : Bool) (reads : List Nat) (d : Part → Tile → Nat) (s : State) : Result :=
  runSlot i
    (fun p t =>
      let b := barAddr t gk
      { sl := .sy, check := firstSome [dueBad p (d p t), barFault1 b, barFault2 b], reads := reads, busy := slotLimit t, opens := true })
    (fun p t s =>
      let b := barAddr t gk
      nextAccess (addSlot s p (some b) hi (d p t) []) p (.waitb b s.seqNo)) s

/-- R231: WAITB due n cycles after its issue. -/
def execWaitbImm (gk : BitVec 5) (ph : Bool) (n : BitVec 20) (s : State) : Result :=
  waitbSlot (.waitbImm gk ph n) gk ph [codeG gk.toNat] (fun p _ => p.gcyc + n.toNat) s

/-- R231: WAITB due at the cycle in a pair. -/
def execWaitbReg (gk : BitVec 5) (ph : Bool) (gp : BitVec 4) (s : State) : Result :=
  waitbSlot (.waitbReg gk ph gp) gk ph ([codeG gk.toNat] ++ pairReads gp) (fun _ t => pairOf t gp) s

/-- The puts and collectives of a tile that a DRAIN issued now covers (R237). -/
def drainCovers (s : State) (p : Part) (t : Tile) (idx : Nat) : List Nat :=
  (t.puts.filter (fun u => u.covered && decide (u.t < p.gcyc))).map (fun u => u.id) ++
  (bandPorts p).flatMap (fun k =>
    ((getPort s k).colls.filter (fun c => c.covered && c.tile == idx && c.band == p.first && decide (c.t < p.gcyc))).map (fun c => c.id))

/-- DRAIN (R237). Its check falls at d − F, which may be its own cycle.
Log entry 21 (DEDUCED). -/
def drainSlot (i : Instr) (reads : List Nat) (d : Part → Tile → Nat) (s : State) : Result :=
  runSlot i
    (fun p t => { sl := .sy, check := dueBad p (d p t), reads := reads, busy := slotLimit t, opens := true })
    (fun p t s =>
      let s1 := addSlot s p none false (d p t) (drainCovers s p t s.cur.idx)
      if d p t = p.gcyc + lead p then agendaAdd s1 [.drainCheck s.cur s.seqNo] else s1) s

/-- R237: DRAIN due n cycles after its issue. -/
def execDrainImm (n : BitVec 20) (s : State) : Result := drainSlot (.drainImm n) [] (fun p _ => p.gcyc + n.toNat) s

/-- R237: DRAIN due at the cycle in a pair. -/
def execDrainReg (gp : BitVec 4) (s : State) : Result := drainSlot (.drainReg gp) (pairReads gp) (fun _ t => pairOf t gp) s

/-- Raise the hold of a slot, once (R235, R286). -/
def slotHold (p : Part) (idx : Nat) (w : PSlot) : Part :=
  let h : Hold := { by_ := .slot idx w.id, start := w.due, pc := w.pc, count := w.hold.getD 0 }
  if hasHold p h then p else { p with holds := p.holds ++ [h] }

/-- Act on a pending slot of a tile. -/
def onSlot (s : State) (l : Loc) (id : Nat) (f : Part → Tile → PSlot → State) : State :=
  match getPart s l.band with
  | none => s
  | some p =>
    match (getTile p l.idx).pslots.find? (fun w => w.id == id) with
    | none => s
    | some w => f p (getTile p l.idx) w

/-- The first cycle whose windows have still to come: the next one at a check within a cycle, the present one at
the check of a resumption. -/
def fromCycle (s : State) (p : Part) : Nat :=
  match s.phase with
  | .issue _ => p.gcyc + 1
  | .idle | .engine _ | .pool _ => p.gcyc

/-- R235: the check of a landing slot. In a replay the log has the freezes (R403). -/
def execLandingSlotCheck (l : Loc) (id : Nat) (s : State) : Result :=
  .next (onSlot s l id (fun p _ w =>
    if !w.opened then s
    else
      let w1 := { w with need := slotNeed p l.idx w, came := 0 }
      let p1 := modTile p l.idx (fun t => { t with pslots := t.pslots.map (fun x => if x.id = id then w1 else x) })
      setPart s (if p.rec_.replayRun || slotCovered s { p with gcyc := fromCycle s p } l.idx w1 then p1 else slotHold p1 l.idx w1)))

/-- R237: the check of a DRAIN. -/
def execDrainCheck (l : Loc) (id : Nat) (s : State) : Result :=
  .next (onSlot s l id (fun p _ w => if covered s p l.idx w || p.rec_.replayRun then s else setPart s (slotHold p l.idx w)))

/-- A line of a landing window: its port, its landing and the line. -/
structure WinLine where
  port : Nat
  id : Nat
  line : LandLine
  deriving DecidableEq, Repr

/-- Whether a landing is one that a window beginning now writes (R234). -/
def winTakes (p : Part) (idx b : Nat) (e : LandEntry) : Bool :=
  e.closed && e.band == p.first && e.tile == idx && e.bar == some b && e.win.isNone && !e.lines.isEmpty

/-- At its first cycle a window takes every closed transfer held for its barrier.
Log entry 22 (DEDUCED). -/
def takeLandings (s : State) (p : Part) (idx id b : Nat) : State :=
  (bandPorts p).foldl (fun s k =>
    if (getPort s k).land.any (winTakes p idx b) then
      onPort s k (fun q => { q with land := q.land.map (fun e => if winTakes p idx b e then { e with win := some id } else e) })
    else s) s

/-- Lines that a window has still to write, by ascending address. -/
def winLines (s : State) (p : Part) (id : Nat) : List WinLine :=
  sortBy (fun a b => decide (a.line.addr ≤ b.line.addr)) ((bandPorts p).flatMap (fun k =>
    ((getPort s k).land.filter (fun e => e.win == some id)).flatMap (fun e => e.lines.map (fun x => { port := k, id := e.id, line := x }))))

/-- The longest prefix of at most 8 lines in distinct banks. -/
def winGroup (n : Nat) (banks : List Nat) (ls : List WinLine) : List WinLine :=
  match n, ls with
  | 0, _ => []
  | _, [] => []
  | k + 1, x :: r => if smem banks (bankOf x.line.addr) then [] else x :: winGroup k (bankOf x.line.addr :: banks) r

/-- One line of a window: a staging-rank write whose bytes are counted (R234). -/
def winWrite (p : Part) (idx : Nat) (x : LandLine) (bar : Nat) (f : Flags) (src : Nat) : Part :=
  let t0 := orFlags (getTile p idx) f
  match claim t0 x.addr 1 bitStage false with
  | (t, false) => putTile p idx t
  | (t, true) =>
    let t1 := landLine t x
    let p1 := logAdd (putTile p idx (countBytes t1 (some bar) (landBytes x))) 1 idx p.gcyc
      [(0x10, 4, bar), (0x14, 4, x.addr), (0x20, 16, (sramLine t1.sram x.addr).toNat)]
    watchEngine (countAct p1 8 1) idx x.addr 16 (landMask x) 3 src

/-- Write one line of a window and take it off its landing; the first line of a landing brings its flags
(R223). -/
def winStep (idx bar : Nat) (s : State) (band : Nat) (x : WinLine) : State :=
  let f := (((getPort s x.port).land.find? (fun e => e.id == x.id)).map (fun e => if e.first then e.flags else 0)).getD 0
  let s1 := noteLanding (onPart s band (fun p => winWrite (performed p) idx x.line bar f 0)) band
  let took := fun (e : LandEntry) =>
    if e.id = x.id then { e with lines := e.lines.filter (fun y => y != x.line), first := false, flags := 0 } else e
  onPort s1 x.port (fun q => { q with land := (q.land.map took).filter (fun e => !(e.closed && e.lines.isEmpty)) })

/-- Mark a slot's window as running, or as ended. -/
def markSlot (s : State) (l : Loc) (id : Nat) (running : Bool) : State :=
  onTile s l (fun t => { t with pslots := t.pslots.map (fun w => if w.id = id then { w with opened := running, window := running } else w) })

/-- What a slot that has ended did not write waits for the next (R234). -/
def endSlot (s : State) (p : Part) : State :=
  match getPart s p.first with
  | some q => freeLines s q
  | none => s

/-- Whether another transfer of a window writes byte i of a line too (R315). -/
def isRaced (ls : List WinLine) (x : WinLine) (i : Nat) : Bool :=
  (x.line.bytes.getD i none).isSome && ls.any (fun y => y.id != x.id && y.line.addr == x.line.addr && (y.line.bytes.getD i none).isSome)

/-- The line with its raced bytes as drawn. -/
def racedLine (ls : List WinLine) (x : WinLine) (ctr : Nat) : LandLine :=
  { x.line with bytes := (upto 16).map (fun i => if isRaced ls x i then some (Config.racedByte (ctr + i)) else x.line.bytes.getD i none) }

/-- Bytes that two transfers of one window both write are undefined: each line's are drawn as the window begins
(R315). In race-bound mode no value is read that no party wrote (R316): the transfers' lines are written as they are.
Log entry 7 (DESIGN CHOICE). -/
def raceLines (s : State) (p : Part) (id : Nat) : State :=
  let ls := winLines s p id
  (ls.filter (fun x => (upto 16).any (isRaced ls x))).foldl (fun s x =>
    onPort { s with freeCtr := s.freeCtr + 16 } x.port (fun q => { q with land := q.land.map (fun e =>
      if e.id = x.id then { e with lines := e.lines.map (fun y => if y = x.line then racedLine ls x s.freeCtr else y) } else e) })) s

/-- R234: one cycle of a slot's landing window. -/
def execLandingWindow (l : Loc) (id : Nat) (s : State) : Result :=
  .next (onSlot s l id (fun p t w =>
    match w.bar with
    | none => s
    | some b =>
      if !(getRec t b).armed then endSlot (markSlot s l id false) p
      else
      let begun := markSlot (takeLandings s p l.idx id b) l id true
      let s1 := if w.window then s else if p.rec_.raceBound then begun else raceLines begun p id
      let ls := winLines s1 p id
      if ls.isEmpty then markSlot s1 l id false
      else
        let g := winGroup 8 [] ls
        let s2 := g.foldl (fun s x => winStep l.idx b s l.band x) s1
        if (winLines s2 p id).isEmpty then markSlot s2 l id false else s2))

/-- R233: a held record is written back to its line on a groomer edge, one access of its bank (R387). -/
def execHeldRecordWriteback (l : Loc) (addr : Nat) (s : State) : Result :=
  .next (onPart s l.band (fun p =>
    match mfind (getTile p l.idx).held addr with
    | none => p
    | some x => countAct (modTile p l.idx (fun t =>
      let t1 := writeLine t addr x 0
      { t1 with held := merase t1.held addr, heldAt := merase t1.heldAt addr, tainted := t.tainted })) 8 1))

/-! ## REALIGN (R238, R291) -/

/-- The neighbour of a tile inside its partition: 0 north, 1 east, 2 south, 3 west. -/
def neighbour (p : Part) (idx side : Nat) : Option Nat :=
  let x : Int := (tx idx : Int) + (if side = 1 then 1 else if side = 3 then -1 else 0)
  let y : Int := (ty idx : Int) + (if side = 2 then 1 else if side = 0 then -1 else 0)
  if inBand p x y then some (tileIdx x.toNat y.toNat) else none

/-- Whether the neighbour on a side lies across a sheet stitch (R275). -/
def acrossStitch (idx side : Nat) : Bool :=
  match side with
  | 0 => ty idx % 112 == 0
  | 1 => tx idx % 64 == 63
  | 2 => ty idx % 112 == 111
  | _ => tx idx % 64 == 0

/-- The first side, among those given, on which a tile's copy of GCYC differs from its neighbour's.
Log entry 43 (DEDUCED). -/
def misaligned (p : Part) (idx : Nat) (sides : List Nat) : Option Nat :=
  sides.find? (fun d =>
    match neighbour p idx d with
    | some n => (getTile p n).skew != (getTile p idx).skew
    | none => false)

/-- Detail of an alignment event (R291). -/
def alignDetail (idx side : Nat) (realign : Bool) : Nat := 16 * b2n realign + 4 * b2n (acrossStitch idx side) + side

/-- The events of a REALIGN whose copies disagree (R238, R291): the tile's own, which names the REALIGN
(R247), and that of each neighbour whose copy differs, which names the side of the tile.
Log entry 71 (DEDUCED). -/
def realignFound (p : Part) (idx : Nat) (pc : BitVec 13) : List Found :=
  match misaligned p idx [0, 1, 2, 3] with
  | none => []
  | some d =>
    { tile := idx, cause := 0x0F, detail := alignDetail idx d true, epc := some (pc, 7) } ::
    (upto 4).filterMap (fun d => (if (misaligned p idx [d]).isSome then neighbour p idx d else none).map (fun n =>
      { tile := n, cause := 0x0F, detail := alignDetail n ((d + 2) % 4) true, epc := none }))

/-- R238: compare GCYC with the four neighbours. Where copies differ the events are raised at t + 3, as qd lands.
Log entry 71 (DEDUCED). -/
def execRealign (qd : BitVec 4) (s : State) : Result :=
  runSlot (.realign qd) (fun _ _ => { sl := .sy, opens := true })
    (fun p t s =>
      let fs := realignFound p s.cur.idx (syPc t)
      onPart (result s .sy 3 (.q qd.toNat fs.isEmpty) 0) s.cur.band (fun q =>
        if poolBase ≤ s.cur.idx then { q with found := q.found ++ fs }
        else { q with foundLater := q.foundLater ++ fs.map (fun f => (p.gcyc + 3, f)) })) s

/-! ## Containment regions (R239, R240) -/

/-- R239: open a region; the entry is pushed when the bundle ends. -/
def execCropen (handler : BitVec 13) (budget : BitVec 8) (s : State) : Result :=
  runSlot (.cropen handler budget) (fun _ t => { sl := .sy, check := detA (decide (4 ≤ t.regions.length)), opens := true })
    (fun _ _ s => onIssue s (fun is => { is with push := some (handler, budget.toNat) })) s

/-- R240: close the innermost region. -/
def execCrclose (s : State) : Result :=
  runSlot .crclose (fun _ t => { sl := .sy, check := detA t.regions.isEmpty, opens := true })
    (fun _ _ s => onIssue s (fun is => { is with pop := true })) s

/-- R240: stop the partition and fail the launch. The tile issues no bundle after this one, whose other slots have executed.
On a pool tile it ends the replay.
Log entry 42 (DEDUCED). -/
def execCrabort (s : State) : Result :=
  runSlot .crabort (fun _ _ => { sl := .sy, opens := true })
    (fun p _ s =>
      let s1 := onTile s s.cur (fun t => { t with
        raisedAt := if poolBase ≤ s.cur.idx then t.raisedAt else some p.gcyc, seq := { t.seq with stopped := true } })
      if poolBase ≤ s.cur.idx then s1
      else
        match getPart s1 s.cur.band with
        | none => s1
        | some q =>
          let t := getTile q s.cur.idx
          setPart (cancelStop s1 q) (withAbort q (abortStop q s.cur.idx t.evc t.epc t.done 0))) s

/-! ## Explicit events, HALT and records (R244, R245) -/

/-- R244: TRAP raises its event, precise at SY. -/
def execTrap (code : BitVec 16) (s : State) : Result :=
  runSlot (.trap code) (fun _ _ => { sl := .sy, refuse := some (0x0D, code.toNat) }) (fun _ _ s => s) s

/-- R244, R397: BKPT raises its event where the hub has enabled breakpoints. -/
def execBkpt (code : BitVec 16) (s : State) : Result :=
  runSlot (.bkpt code)
    (fun p t => { sl := .sy, refuse := if p.breaks && (issueOf t .sy).muted != some .bkpt then some (0x0C, code.toNat) else none, opens := true })
    (fun _ _ s => s) s

/-- R245: the tile issues no further bundle. -/
def execHalt (s : State) : Result :=
  runSlot .halt (fun _ _ => { sl := .sy, opens := true }) (fun _ _ s => onIssue s (fun is => { is with halt := true })) s

/-- R244: queue a record for the event ring; the ninth undelivered one is dropped and counted. -/
def execEvt (code : BitVec 16) (s : State) : Result :=
  runSlot (.evt code) (fun _ _ => { sl := .sy })
    (fun p _ s =>
      onTile s s.cur (fun t =>
        if t.evts.length < 8 then
          { t with evts := t.evts ++ [{ code := code.toNat, pc := syPc t, gcyc := p.gcyc, wall := wallOf s.edge }] }
        else { t with evtDropped := t.evtDropped + 1 })) s

/-- R244: emit a trace mark. -/
def execTmark (code : BitVec 16) (s : State) : Result :=
  runSlot (.tmark code) (fun _ _ => { sl := .sy })
    (fun p _ s => onTile s s.cur (fun t => traceAdd p t { ty := 2, gcyc := p.gcyc, payload := [(0x18, 4, code.toNat)] })) s

/-- R246: mark a range discardable. -/
def execDscrd (ga gn : BitVec 5) (s : State) : Result :=
  runSlot (.dscrd ga gn)
    (fun _ t =>
      let a := field (rg t ga.toNat).toNat 0 18
      let n := (rg t gn.toNat).toNat
      { sl := .sy, check := firstSome [detA (a % 16 != 0 || n % 16 != 0), det1 (spanBad a n)], reads := [codeG ga.toNat, codeG gn.toNat], opens := true })
    (fun _ t s =>
      let a := field (rg t ga.toNat).toNat 0 18
      let n := (rg t gn.toNat).toNat
      onTile s s.cur (fun u => { u with discard := (upto (n / 16)).foldl (fun l k => sinsert l (a / 16 + k)) u.discard })) s

end Sys2Proof.Machine
end

