-- ==== Sys2Proof/Machine/Freeze.lean ====
section
/-! DEFINITION. Freezes and their ends, the governor and the estimator, cadence, and the stitch exchange
(R284 to R291, R318, R387, R388). -/

namespace Sys2Proof.Machine

/-! ## Freezes -/

/-- A governor pulse that a freeze begins with ends after its whole 64-edge blocks (R286): its release is
seen R edges after it is made. -/
def startPulse (p : Part) (edge : Nat) (h : Hold) : Hold :=
  if h.by_ == .governor && decide (h.start ≤ p.gcyc) && h.released.isNone then { h with released := some (edge + 64 * h.blocks - lead p) } else h

/-- A freeze trace record (R400), of tile (0, 0) of the partition.
Log entry 39 (DEDUCED). -/
def freezeTrace (p : Part) (end_ : Bool) (edges : Nat) : Part :=
  if p.traceOn then
    modTile p 0 (fun t => traceAdd p t { ty := 5, gcyc := p.gcyc, payload := [(0x18, 4, b2n end_), (0x1C, 4, if end_ then edges else 0)] })
  else p

/-- R287: the partition reaches the start cycle of an active hold and is frozen; the edge is its first
freeze cycle. An event found on the edge, before the freeze began, is raised in it (R289). -/
def execFreezeBegin (band : Nat) (s : State) : Result :=
  match getPart s band with
  | none => .next s
  | some p =>
    let p1 := freezeTrace { p with mode := .frozen s.edge, frozenCyc := 0, holds := p.holds.map (startPulse p s.edge) } false 0
    let p2 := countMisses (freezeCycle p1)
    let s1 := raiseFound (setPart s { p2 with found := [] }) band p2.found
    .next (agendaAdd s1 (timeouts p2 ++ replayTimeouts s p2))

/-- Add freeze cycles to the tiles that have not halted (R129, R288, R405).
Log entry 25 (DEDUCED). -/
def countFrozen (p : Part) (n : Nat) : Part :=
  { p with tiles := p.tiles.map (fun e => if e.2.seq.halted then e else (e.1, ltcFreeze e.2 n)) }

/-- Edge at which the freeze in force began. -/
def frozenSince (p : Part) : Nat :=
  match p.mode with
  | .frozen e => e
  | .running => 0
  | .skid => 0
  | .debugHeld => 0
  | .armedStop => 0
  | .failed => 0

/-- A freeze ends, by its release or by a stop: its cycles are counted, and its end is traced and logged (R129,
R288, R400, R402). -/
def endFreeze (p : Part) (edge : Nat) : Part :=
  let p1 := logAdd (freezeTrace (countFrozen p p.frozenCyc) true (edge - frozenSince p)) 2 0 p.gcyc [(0x10, 8, p.frozenCyc)]
  { p1 with frozenCyc := 0 }

/-- R287: every tile sees the last release, and the partition resumes at the same GCYC, unless an event stops it there
(R289). A pre-emption that was asked for in the freeze keeps its own cycle from then on (R385). -/
def execHoldRelease (band : Nat) (s : State) : Result :=
  .next (onPart s band (fun p =>
    if isFrozen p && !stopDue p then
      let p1 := endFreeze p s.edge
      { p1 with
        mode := .running, holds := p1.holds.filter (fun h => !(h.by_ == .replay && decide (h.start ≤ p1.gcyc))),
        stop := p1.stop.map (fun st => { st with frozen := false }) }
    else p))

/-- R288: a landing-slot hold has been active for the freeze limit: its tile raises a freeze timeout. -/
def execFreezeTimeout (l : Loc) (id : Nat) (s : State) : Result :=
  match getPart s l.band with
  | none => .next s
  | some p =>
    let t := getTile p l.idx
    match t.pslots.find? (fun w => w.id == id) with
    | some w => .next (raiseImprecise s l 0x0E (if w.bar.isSome then 0x0001 else 0x0002) (some (w.pc, 7)))
    | none =>
      match t.bursts.find? (fun b => b.id == id) with
      | some b => .next (raiseImprecise s l 0x0E 0x0003 (some (b.pc, 6)))
      | none => .next s

/-- One 64-edge block of a governor pulse from a start cycle on: it joins a pulse that starts there. -/
def addPulse (hs : List Hold) (start : Nat) : List Hold :=
  let mine := fun (h : Hold) => h.by_ == .governor && h.start == start && h.released.isNone
  if hs.any mine then hs.map (fun h => if mine h then { h with blocks := h.blocks + 1 } else h)
  else hs ++ [{ by_ := .governor, start := start, blocks := 1 }]

/-- R286, R388: pulse blocks of the governor, spread over a microsecond.
Log entry 40 (DEDUCED). -/
def execFreezePulse (band blocks : Nat) (s : State) : Result :=
  .next (onPart s band (fun p =>
    let n := minN blocks 20
    let gap := (1300 - 64 * n) * (p.kNext.getLast?.map Prod.fst).getD p.k / 64 / n
    { p with holds := (upto n).foldl (fun hs i => addPulse hs (p.gcyc + lead p + i * gap)) p.holds }))

/-- R286: the hub places a hold, or drops those it has placed. -/
def execHubHold (band s_ : Nat) (on : Bool) (s : State) : Result :=
  .next (onPart s band (fun p =>
    if on then { p with holds := p.holds ++ [{ by_ := .hub, start := maxN s_ (p.gcyc + lead p) }] }
    else { p with holds := p.holds.map (fun h => if h.by_ == .hub && h.released.isNone then { h with released := some s.edge } else h) }))

/-! ## Cadence and power -/

/-- R284: a new cadence applies from its 64-edge block. -/
def execCadenceChange (band : Nat) (s : State) : Result :=
  .next (onPart s band (fun p =>
    match (p.kNext.filter (fun e => decide (e.2 ≤ s.edge))).getLast? with
    | none => p
    | some e =>
      logAdd { p with k := e.1, kNext := p.kNext.filter (fun e => !decide (e.2 ≤ s.edge)) } 5 0 p.gcyc [(0x10, 4, e.1)]))

/-- Energy of a partition's counts (R387), in picojoules. -/
def countEnergy (s : State) (p : Part) : Nat :=
  let n := fun k => mget 0 p.activity k
  (upto 8).foldl (fun a k => a + coef s (1 + k) * n k) 0 + coef s 9 * n 8 + coef s 10 * n 9 + coef s 11 * n 10 + coef s 12 * n 11

/-- Energy of the bursts that a save writes from one edge to another: each a DRAM command and four bank accesses
(R360, R387).
Log entry 10 (DESIGN CHOICE). -/
def saveEnergy (s : State) (p : Part) (lo hi : Nat) : Nat :=
  match s.ctxs.find? (fun c => c.rec_.token == p.rec_.token && c.st == .saving) with
  | none => 0
  | some c => 64 * p.count * ((minN hi c.saveEnd - maxN lo c.saveFrom) / 2) * (coef s 11 + 4 * coef s 9)

/-- Energy of a whole microsecond (R387). -/
def energyOf (s : State) (p : Part) : Nat := coef s 0 * p.count + countEnergy s p + saveEnergy s p (s.edge - 1300) s.edge

/-- Charge picojoules to a partition and its queue (R387). -/
def chargePart (s : State) (p : Part) (e : Nat) : State :=
  let r := p.resid + e
  chargeQueue (setPart s { p with resid := r % 1000000, energy := (p.energy + r / 1000000) % 2 ^ 64, activity := [] }) p.queue (r / 1000000)

/-- A launch that leaves its band in the course of a microsecond is charged what it drew of it (R387), which POWER counts
too (R410). -/
def closeEstimate (s : State) (p : Part) : State :=
  let n := s.edge % 1300
  let e := coef s 0 * p.count * n / 1300 + countEnergy s p + saveEnergy s p (s.edge - n) s.edge
  let s1 := chargePart s p e
  { s1 with leftPower := s1.leftPower + e }

/-- R387: each microsecond the estimator forms energy and power and charges the launch's queue. -/
def execEstimatorUpdate (band : Nat) (s : State) : Result :=
  match getPart s band with
  | none => .next s
  | some p =>
    let e := energyOf s p
    let s1 := chargePart s { p with power := e } e
    .next { s1 with power := modulePower s1 }

/-- The largest cadence of stretch to 60 that meets the cap (R388): powers in pJ per µs. -/
def bestCadence (p : Part) (pStat pd cap : Nat) : Option Nat :=
  ((upto 61).reverse.filter (fun k => decide (p.rec_.stretch ≤ k))).find? (fun k => decide (pStat * p.k + pd * k ≤ cap * p.k))

/-- Pulse blocks where no cadence meets the cap (R388). -/
def pulseBlocks (p : Part) (pStat pd cap : Nat) : Nat :=
  let den := pd * p.rec_.stretch
  if den = 0 then 20
  else
    let excess : Int := 20 * ((den : Int) - ((cap : Int) - (pStat : Int)) * (p.k : Int))
    minN 20 (cdiv excess.toNat den)

/-- R388, R318: each microsecond the governor chooses the next cadence and its pulses.
Log entry 40 (DEDUCED). -/
def execGovernorEvaluation (band : Nat) (s : State) : Result :=
  match getPart s band with
  | none => .next s
  | some p =>
    let pStat := coef s 0 * p.count
    let pd := p.power - pStat
    let cap := p.rec_.cap * 50000000
    let pick := bestCadence p pStat pd cap
    let k1 := minN (pick.getD p.rec_.stretch) (p.k + 8)
    let n1 := if pick.isSome then 0 else pulseBlocks p pStat pd cap
    let n2 := if decide (p.k < 60) && (upto (engineCount p)).any (fun e => decide (6 ≤ maxOwed p (getEngine p e))) then 1 else 0
    let last := (p.kNext.getLast?.map Prod.fst).getD p.k
    let at_ := 64 * cdiv (s.edge + lead p) 64
    let p1 := if k1 = last then p else { p with kNext := p.kNext ++ [(k1, at_)] }
    let n := if p.rec_.replayRun then 0 else minN 20 (n1 + n2)
    .next (agendaAdd (setPart s p1) (if n = 0 then [] else [.freezePulse band n]))

/-! ## Alignment (R291) -/

/-- Tiles whose copy of GCYC differs from the partition's, and their neighbours. -/
def alignSuspects (p : Part) : List Nat :=
  (p.tiles.filter (fun e => e.2.skew != 0)).foldl (fun l e =>
    (upto 4).foldl (fun l d =>
      match neighbour p e.1 d with
      | some n => sinsert l n
      | none => l) (sinsert l e.1)) []

/-- R291: the tiles on stitches compare GCYC with their partners.
Log entry 43 (DEDUCED). -/
def execStitchAlignmentCheck (band : Nat) (s : State) : Result :=
  match getPart s band with
  | none => .next s
  | some p =>
    let s1 := setPart s { p with stitched := (p.gcyc - 1) / 65536 }
    .next ((alignSuspects p).foldl (fun s i =>
      match misaligned p i ((upto 4).filter (acrossStitch i)) with
      | some d => edgeEvent s { band, idx := i } 0x0F (alignDetail i d false) none
      | none => s) s1)

end Sys2Proof.Machine
end

