-- ==== Sys2Proof/Machine/HubOps.lean ====
section
/-! DEFINITION. The hub's shared operations: host memory, the journal, the debug controls, the event records,
and the end of a launch (R343, R378, R391, R393). -/

namespace Sys2Proof.Machine

/-! ## Host memory -/

/-- A number of n bytes in host memory.
Log entry 4 (DESIGN CHOICE). -/
def hostN (s : State) (a n : Nat) : Nat := ofBytes (sramBytes s.hostMem a n)

/-- Write bytes to host memory. -/
def hostPut (s : State) (a : Nat) (bs : List Byte) : State := { s with hostMem := storeBytes s.hostMem a bs }

/-! ## Journal (R391) -/

/-- Whether the journal holds the intent of a change. -/
def hasIntent (s : State) (w : JWhat) : Bool := s.journal.any (fun e => e.what == w && !e.committed)

/-- A host-visible change: its entry is written first; its commit word and the change follow when the hub comes
back to it, an edge later.
Log entry 58 (DEDUCED). -/
def journaled (s : State) (w : JWhat) (f : State → State) : State := if hasIntent s w then f (commit s w) else intend s w

/-- The hub comes back to a step at the next edge. -/
def again (s : State) (i : Instr) : State := { s with inputs := s.inputs ++ [(s.edge + 1, i)] }

/-- `journaled`, of a step that nothing else brings back. -/
def journaledBy (s : State) (w : JWhat) (i : Instr) (f : State → State) : State :=
  if hasIntent s w then f (commit s w) else again (intend s w) i

/-! ## Events of the hub (R345) -/

/-- The hub raises an event on a tile: a host-visible stop, which the journal has first (R391), and a hub act, which the
replay log has (R402). It is raised in the cycle that comes, as any event found between cycles is, or at once in a
freeze, in the cycles of a stop and under debug hold; its record is of kind 2. -/
def hubEvent (s : State) (l : Loc) (cause detail : Nat) (named : Option (BitVec 13 × Nat)) : State :=
  match getPart s l.band with
  | none => s
  | some p =>
    let s1 := if eventStop p then s else journal s (.stop p.rec_.token p.gcyc none)
    let p1 := logAdd p 4 l.idx p.gcyc [(0x10, 4, (evcOf cause detail false).toNat)]
    match p.mode with
    | .running | .armedStop => setPart s1 { p1 with found := p1.found ++ [{ tile := l.idx, cause, detail, epc := named, hub := true }] }
    | .frozen _ | .skid | .debugHeld => raiseImpreciseAs true (setPart s1 p1) l cause detail named
    | .failed => s

/-! ## Live launches -/

/-- The live launch of a token. -/
def ctxOf (s : State) (token : Nat) : Option Ctx := s.ctxs.find? (fun c => c.rec_.token == token)

/-- A queue's descriptor. -/
def getQueue (s : State) (q : Nat) : Queue := (mfind s.queues q).getD {}

/-- Whether a waiting launch's predecessors have all ended, and how (R382). -/
def afterState (s : State) (r : LaunchRec) : LState × Bool :=
  let st := r.after.map (fun t => (s.seen.find? (fun e => e.1 == t)).map Prod.snd)
  if st.any (fun x => x.any (fun v => v != 0)) then (.waiting, true)
  else if st.all (fun x => x.isSome) then (.eligible, false)
  else (.waiting, false)

/-- Landings of a band that a port holds: transfers of which something has arrived (R234, R245).
Log entry 46 (DEDUCED). -/
def heldAtPort (q : Port) (band : Nat) : Nat :=
  (q.land.filter (fun e => e.band == band && (e.get.isNone || e.closed || !e.blocks.isEmpty || !e.lost.isEmpty))).length

/-- Number of the held landings of a resident launch (R245). -/
def heldLandings (s : State) (p : Part) : Nat := (bandPorts p).foldl (fun a k => a + heldAtPort (getPort s k) p.first) 0

/-- Number of the held landings of a swapped launch, which its image holds (R360). -/
def savedLandings (c : Ctx) : Nat := c.ports.foldl (fun a e => a + heldAtPort e.2 c.rec_.first) 0

/-- Clear a band's ports of what belongs to its launch. -/
def clearPorts (s : State) (p : Part) : State :=
  (bandPorts p).foldl (fun s k =>
    onPort s k (fun q => { q with
      land := q.land.filter (fun e => e.band != p.first), colls := q.colls.filter (fun c => c.band != p.first),
      early := q.early.filter (fun x => x.asid.toNat != p.rec_.asid), serve := q.serve.filter (fun v => v.band != p.first),
      ordinal := 0, cancelled := [] })) s

/-- Deliver one EVT record of a tile to the event ring (R244, R343). -/
def deliverEvt (s : State) (p : Part) (idx : Nat) (e : EvtRec) : State :=
  let s1 := ringAdd s p idx 0 (BitVec.ofNat 32 e.code) (epcOf e.pc 7) 0 true e.gcyc e.wall
  match s1.ring.getLast? with
  | some r => onPart s1 p.first (fun p => modTile p idx (fun t => traceAdd p t (eventTrace r)))
  | none => s1

/-- Deliver every EVT record still queued. -/
def deliverAll (s : State) (p : Part) : State :=
  let s1 := p.tiles.foldl (fun s e => e.2.evts.foldl (fun s r => deliverEvt s p e.1 r) s) s
  onPart s1 p.first (fun p => { p with tiles := p.tiles.map (fun e => (e.1, { e.2 with evts := [] })) })

/-- Waiting launches whose predecessors have ended go on, or end with status 4 (R382, R379). -/
def wakeWaiting (fuel : Nat) (s : State) : State :=
  match fuel with
  | 0 => s
  | n + 1 =>
    match s.ctxs.find? (fun c => c.st == .waiting && ((afterState s c.rec_).2 || (afterState s c.rec_).1 == .eligible)) with
    | none => s
    | some c =>
      if (afterState s c.rec_).2 then
        let d : Completion := { queue := c.queue, token := c.rec_.token, status := 4, wall := wallOf s.edge }
        wakeWaiting n { s with
          done := s.done ++ [d], seen := s.seen.filter (fun e => e.1 != c.rec_.token) ++ [(c.rec_.token, 4)],
          ctxs := s.ctxs.filter (fun x => x.rec_.token != c.rec_.token) }
      else wakeWaiting n (onCtx s c.rec_.token (fun x => { x with st := .eligible, since := s.edge }))

/-- End a launch: its completion record is formed (R378), its token has ended, and launches that wait on it
are looked at again. -/
def endToken (s : State) (d : Completion) : State :=
  let s1 : State := { s with
    done := s.done ++ [d], seen := (s.seen.filter (fun e => e.1 != d.token)) ++ [(d.token, d.status)],
    ctxs := s.ctxs.filter (fun c => c.rec_.token != d.token) }
  let s2 := wakeWaiting s1.ctxs.length s1
  agendaAdd s2 (passes s2)

/-- The completion record of a launch that has started, with the number of its held landings (R378). Counts
of 16 bits are kept modulo 2^16.
Log entries 66 (DEDUCED) and 93 (DEDUCED). -/
def completionOf (s : State) (p : Part) (status gcycEnd held : Nat) : Completion :=
  let ev := p.lastEvent
  { queue := p.queue, token := p.rec_.token, status := status,
    evtDropped := p.tiles.foldl (fun a e => a + e.2.evtDropped) 0 % 65536, landings := held,
    evc := (ev.map (fun e => e.evc)).getD 0, epc := (ev.map (fun e => e.epc)).getD 0, done := (ev.map (fun e => e.done)).getD 0,
    gcycEnd := gcycEnd, energy := p.energy, audit := p.audit.map (fun n => n % 65536), 
    tile := (ev.map (fun e => e.tile)).getD 0, wall := wallOf s.edge }

/-- The completion record of a launch that ends while it is swapped out. -/
def savedCompletion (s : State) (c : Ctx) (p : Part) (status : Nat) : Completion :=
  { completionOf s p status p.gcyc (savedLandings c) with energy := c.energy }

/-- Whether every entry of a launch's replay log has been written (R404). -/
def logWhole (p : Part) : Bool := p.logOpen && p.logDone == p.log.length

/-- Bytes of a replay-log entry (R404). -/
def logUnits (ty : Nat) : Nat := if ty = 1 then 3 else 2

/-- A payload laid out from an offset: fields of (offset, bytes, value). -/
def payloadBytes (start len : Nat) (fs : List (Nat × Nat × Nat)) : List Byte :=
  (upto len).map (fun i =>
    match fs.find? (fun f => decide (f.1 ≤ start + i) && decide (start + i < f.1 + f.2.1)) with
    | some f => BitVec.ofNat 8 (f.2.2 >>> (8 * (start + i - f.1)))
    | none => 0)

/-- An entry of the log as bytes. -/
def logBytes (e : LogEntry) : List Byte :=
  bytesOf 4 (e.ty + logUnits e.ty * 256) ++ bytesOf 4 (tx e.tile + 1024 * ty e.tile) ++ bytesOf 8 e.gcyc ++
  payloadBytes 0x10 (16 * (logUnits e.ty - 1)) e.payload

/-- Bytes that the first n entries of a log occupy. -/
def logSize (l : List LogEntry) (n : Nat) : Nat := (l.take n).foldl (fun a e => a + 16 * logUnits e.ty) 0

/-! ## The hub's own areas of DRAM (R393)

They lie in the upper stack of the band's first sheet column, laid out as R209 lays out virtual addresses from a row
on. -/

/-- The flat DRAM address of a byte of such an area.
Log entry 44 (DESIGN CHOICE). -/
def hubAt (first row off : Nat) : Nat := burstAddr first (vaPchan off) (vaBank off) (row + off / 2 ^ 21) (vaCol off) + off % 64

/-- Bytes written to such an area from an offset on. -/
def putHub (m : SMap Byte) (first row off : Nat) (bs : List Byte) : SMap Byte :=
  match bs with
  | [] => m
  | b :: r => putHub (mset 0 m (hubAt first row off) b) first row (off + 1) r

/-- Bytes written to the area of a launch, if the hub has found a place for it. -/
def storeHub (s : State) (p : Part) (row : Option Nat) (off : Nat) (bs : List Byte) : State :=
  match row with
  | some r => { s with dram := putHub s.dram p.first r off bs }
  | none => s

/-- Whether a row is reserved to another live launch on columns of a launch (R363). -/
def reservedTo (s : State) (r : LaunchRec) (c : Ctx) (row : Nat) : Bool :=
  reserves c && (colsOf c.rec_).any (smem (colsOf r)) && ownsRow s c row

/-- The rows that follow a launch's range entries. -/
def rangeEnds (r : LaunchRec) : List Nat :=
  r.dram.map (fun e => ((e.base + e.offset) % 2 ^ 48 / 2 ^ 21 + (e.limit - e.base) / 2 ^ 21) % 2 ^ 27)

/-- Whether a band's rows from r on, n of them, are free for the hub: outside the launch's range entries, rows that it
has placed for it already, its save area's among them, and rows reserved to other live launches on those columns (R363, R393). -/
def rowsFree (s : State) (p : Part) (r n : Nat) : Bool :=
  decide (r + n ≤ 32768) &&
  (hubRows p).all (fun h => decide (r + n ≤ h.1) || decide (h.1 + h.2 ≤ r)) &&
  (upto n).all (fun k =>
    !mapsRow p.rec_.dram (r + k) &&
    !s.ctxs.any (fun c => if c.rec_.token = p.rec_.token then savesRow c (r + k) else reservedTo s p.rec_ c (r + k)))

/-- The rows that follow areas that the hub has placed for a launch. -/
def areaEnds (p : Part) : List Nat := (hubRows p).map (fun h => h.1 + h.2)

/-- The rows that follow the range entries and areas of live launches. -/
def rowEnds (s : State) : List Nat :=
  s.ctxs.flatMap (fun c => rangeEnds c.rec_ ++ (c.saveRow.map (fun r => r + saveRows)).toList ++ (partOf s c).toList.flatMap areaEnds)

/-- The row from which on the hub places n bytes for a launch: where Config has it, if that is free, else the first
place that is.
Log entry 44 (DESIGN CHOICE). -/
def placeRows (s : State) (p : Part) (want n : Nat) : Option Nat :=
  (want % 32768 :: 0 :: rangeEnds p.rec_ ++ areaEnds p ++ rowEnds s).find? (fun r => rowsFree s p r (rowsOf n))

/-- Whether a launch's save area may begin at a row: outside its range entries and, unless it has the stacks alone, outside
rows reserved to other live launches on those columns (R360, R363). -/
def saveFits (s : State) (c : Ctx) (alone : Bool) (r : Nat) : Bool :=
  decide (r + saveRows ≤ 32768) &&
  (upto saveRows).all (fun k => !mapsRow c.rec_.dram (r + k) &&
    (alone || !s.ctxs.any (fun x => x.rec_.token != c.rec_.token && reservedTo s c.rec_ x (r + k))))

/-- The row at which the hub reserves the save area of a launch that it places: where Config has it, if that is free, else the
first place that is. One that has its area keeps it.
Log entry 44 (DESIGN CHOICE). -/
def placeSave (s : State) (c : Ctx) : Option Nat :=
  if c.saveRow.isSome then c.saveRow
  else (Config.saveRow c.rec_.asid % 32768 :: 0 :: rangeEnds c.rec_ ++ rowEnds s).find? (saveFits s c false)

/-- Whether a launch need not wait for its save area: it has one or there is room for it, or its range entries leave no room
even on stacks of its own.
Log entry 44 (DESIGN CHOICE). -/
def saveReady (s : State) (c : Ctx) : Bool := (placeSave s c).isSome || !(0 :: rangeEnds c.rec_).any (saveFits s c true)

/-- One more entry of a log reaches the host buffer, by way of its staging area; where the buffer is full recording stops
and no more is written (R404).
Log entry 44 (DESIGN CHOICE). -/
def drainEntry (x : State × Part) (e : LogEntry) : State × Part :=
  let q := x.2
  let at_ := 64 + logSize q.log q.logDone
  let n := 16 * logUnits e.ty
  if q.logFull then x
  else if q.rec_.replayLen < at_ + n then (x.1, { q with logOpen := false, logFull := true })
  else
    let s0 := storeHub x.1 q q.stageRow (at_ - 64) (logBytes e)
    (hostPut (hostPut s0 (q.rec_.replayLog + at_) (logBytes e)) (q.rec_.replayLog + 0x10) (bytesOf 8 (at_ + n - 64)),
      { q with logDone := q.logDone + 1 })

/-- Write the log's entries that have not reached the host buffer. -/
def drainLog (s : State) (p : Part) (most : Nat) : State × Part := ((p.log.drop p.logDone).take most).foldl drainEntry (s, p)

/-- At the end of a launch that recorded, resident or not, its log is written out, and the header says whether it is whole
(R404). -/
def closeLog (s : State) (p : Part) : State :=
  if p.rec_.replay then
    let x := drainLog s p p.log.length
    if logWhole x.2 then hostPut x.1 (p.rec_.replayLog + 4) (bytesOf 4 1) else x.1
  else s

/-- A swapped launch ends: its log is written out (R404), and a replay that has not come to an event of its log diverges
(R403). -/
def endSaved (s : State) (c : Ctx) (p : Part) (status : Nat) : State :=
  endToken (noteLostSaved (closeLog s p) p) (savedCompletion s c p status)

/-! ## The trace buffer (R399 to R401) -/

/-- A word of an ASID's debug block (R411). -/
def dbgWord (s : State) (asid off : Nat) : Nat := (mget 0 s.debug (64 * asid + off / 4)).toNat

/-- Write a word of it. -/
def setDbg (s : State) (asid off : Nat) (x : Nat) : State :=
  { s with debug := mset 0 s.debug (64 * asid + off / 4) (BitVec.ofNat 32 x) }

/-- Units of 16 bytes of a trace record (R400). -/
def traceUnits (ty : Nat) : Nat := if ty = 3 then 3 else if ty = 4 then 4 else 2

/-- The header of a trace record, up to its payload (R399). -/
def traceHead (pcol idx ty units gcyc : Nat) : List Byte :=
  bytesOf 4 (0xD7C3 * 2 ^ 16 + ty * 2 ^ 12 + units) ++ bytesOf 4 (tx idx + 1024 * Machine.ty idx) ++
  bytesOf 4 (pcol + 1024 * Machine.ty idx) ++ bytesOf 4 0 ++ bytesOf 8 gcyc

/-- A trace record as bytes. -/
def traceBytes (pcol idx : Nat) (r : TraceRec) : List Byte :=
  traceHead pcol idx r.ty (traceUnits r.ty) r.gcyc ++ payloadBytes 0x18 (16 * traceUnits r.ty - 0x18) r.payload

/-- The oldest-record pointer, and the records left, once a number of bytes is free in a buffer (R401). -/
def traceRoom (size n old : Nat) (lens : List Nat) : Nat × List Nat :=
  match lens with
  | [] => (old, [])
  | x :: r => if r.foldl (fun a y => a + y) x + n ≤ size then (old, x :: r) else traceRoom size n ((old + x) % size) r

/-- Take n bytes of the buffer at the write pointer, which they do not pass its end from. -/
def traceSkip (s : State) (p : Part) (n : Nat) : State :=
  let r := traceRoom p.traceSize n p.traceOld p.traceLens
  setPart s { p with traceW := (p.traceW + n) % p.traceSize, traceOld := r.1, traceLens := r.2 ++ [n] }

/-- Write bytes at the write pointer. -/
def tracePut (s : State) (p : Part) (bs : List Byte) : State :=
  traceSkip (storeHub s p p.traceRow p.traceW bs) p bs.length

/-- Write a record of a tile; one that does not fit before the buffer's end goes to its start, after a pad record
(R401), of a type that has its own enable (R411): without it the remainder is left as it is.
Log entry 85 (DEDUCED). -/
def traceWrite (s : State) (band idx : Nat) (r : TraceRec) : State :=
  match getPart s band with
  | none => s
  | some p =>
    let bs := traceBytes (physCol s p.first idx) idx r
    let left := p.traceSize - p.traceW
    if left < bs.length then
      let pad := (traceHead (physCol s p.first idx) idx 7 (left / 16) r.gcyc ++ List.replicate left 0).take left
      let s1 := if bitN p.traceMask 6 then tracePut s p pad else traceSkip s p left
      tracePut s1 ((getPart s1 band).getD p) bs
    else tracePut s p bs

/-- The oldest queued record of each tile goes to the buffer (R401), whose pointers the host reads (R411). -/
def drainTraces (s : State) (band : Nat) : State :=
  match getPart s band with
  | none => s
  | some p =>
    let s1 := (p.tiles.filter (fun e => !e.2.traces.isEmpty)).foldl (fun s e =>
      match e.2.traces with
      | [] => s
      | r :: rest => traceWrite (onTile s { band, idx := e.1 } (fun t => { t with traces := rest })) band e.1 r) s
    match getPart s1 band with
    | none => s1
    | some q => setDbg (setDbg s1 q.rec_.asid 0x18 q.traceW) q.rec_.asid 0x1C q.traceOld

/-- Every queued record goes to the buffer: a queue holds eight, and one lost record. -/
def drainAllTraces (s : State) (band : Nat) : State := forN 9 (fun _ s => drainTraces s band) s

/-- End a resident launch and free its band. What its log still holds is written first, and the header says
whether it is whole (R404); trace records still queued reach their buffer, which outlives the launch (R401). -/
def endLaunch (sa : State) (pa : Part) (status gcycEnd : Nat) : State :=
  let s := noteLost (closeEstimate sa pa) pa (fun _ => true)
  let p := (getPart s pa.first).getD pa
  let s0 := deliverAll s p
  let s1 := if p.traceOn then drainAllTraces s0 p.first else s0
  let q1 := (getPart s1 p.first).getD p
  let s3 := closeLog s1 q1
  let d := completionOf s3 q1 status gcycEnd (heldLandings s3 q1)
  let s4 := clearPorts s3 q1
  let s5 : State := { s4 with parts := merase s4.parts p.first, pending := sremove s4.pending p.first }
  endToken { s5 with todo := s5.todo.filter (fun l => l.band != p.first) } d

/-! ## Debug controls (R393, R411) -/

/-- The slot breakpoints of a block (R394). -/
def dbgBreaks (s : State) (asid : Nat) : List (Nat × Option Nat × Nat × Nat) :=
  (upto 8).filterMap (fun i =>
    let w := dbgWord s asid (0x40 + 8 * i)
    let v := dbgWord s asid (0x44 + 8 * i)
    if bitN w 21 then some (i, if bitN w 22 then none else some (tileIdx (field v 0 10) (field v 10 10)), field w 0 13, field w 13 8) else none)

/-- An entry of the watchpoint table: tile, number, enable and the watchpoint. -/
def watchEntry (s : State) (a : Nat) : Nat × Nat × Bool × Watch :=
  let w := hostN s a 4
  (tileIdx (field w 0 10) (field w 10 10), field w 20 3, bitN w 23,
    { base := field (hostN s (a + 4) 4) 0 18, lines := field (hostN s (a + 8) 4) 0 5, mask := hostN s (a + 0x10) 32 })

/-- Whether a reserved bit of an entry is set (R8, R411). -/
def watchReserved (s : State) (a : Nat) : Bool :=
  field (hostN s a 4) 24 8 != 0 || field (hostN s (a + 4) 4) 18 14 != 0 || field (hostN s (a + 8) 4) 5 27 != 0 || hostN s (a + 0x0C) 4 != 0

/-- Whether a watchpoint keeps the limits of R393. -/
def watchOk (w : Watch) : Bool := w.base % 16 == 0 && decide (1 ≤ w.lines) && decide (w.lines ≤ 16) && decide (w.base + 16 * w.lines ≤ sramEnd)

/-- Read the watchpoint table from an entry on; `seen` holds the tiles and numbers of earlier entries. A refused
entry is named on the event ring, and its record is traced (R400, R411).
Log entry 45 (DEDUCED). -/
def readWatches (n : Nat) (s : State) (band a : Nat) (seen : List (Nat × Nat)) : State :=
  match n with
  | 0 => s
  | k + 1 =>
    let e := watchEntry s a
    if watchReserved s a || !watchOk e.2.2.2 || seen.any (fun x => x == (e.1, e.2.1)) then
      let s1 := match getPart s band with
        | some p =>
          let r := ringAdd s p e.1 2 (evcOf 0x0B e.2.1 false) 0 0 false p.gcyc (wallOf s.edge)
          setPart r (traceRing r p e.1)
        | none => s
      readWatches k s1 band (a + 48) (seen ++ [(e.1, e.2.1)])
    else
      let s1 := if e.2.2.1 then onPart s band (fun p => modTile p e.1 (fun t => { t with watches := mput t.watches e.2.1 e.2.2.2 })) else s
      readWatches k s1 band (a + 48) (seen ++ [(e.1, e.2.1)])

/-- The debug controls of a launch take effect (R393).
Log entry 45 (DEDUCED). -/
def applyDebug (s : State) (band : Nat) : State :=
  match getPart s band with
  | none => s
  | some p0 =>
    let a := p0.rec_.asid
    let w := dbgWord s a 0
    let size := dbgWord s a 8
    let on := bitN w 2 && decide (65536 ≤ size) && size % 4096 == 0
    let inj := dbgWord s a 0x20
    let fresh := !p0.traceOn || p0.traceSize != size
    let p : Part := if fresh then { p0 with traceRow := none } else p0
    let row := if fresh && on then placeRows s p (Config.traceRow a) size else p.traceRow
    let base := (row.map (fun r => hubAt p.first r 0)).getD 0
    let p1 : Part := { p with
      breaks := bitN w 0, debugHold := bitN w 1, traceOn := on, traceMask := field w 3 8, traceSize := size, traceRow := row,
      traceW := if fresh then 0 else p.traceW, traceOld := if fresh then 0 else p.traceOld, traceLens := if fresh then [] else p.traceLens,
      tracePeriod := if bitN w 17 then some (1300 * 2 ^ (field w 12 5)) else none, sampleAt := s.edge + 1300 * 2 ^ (field w 12 5),
      slotBreaks := dbgBreaks s a,
      inject := if bitN inj 20 then
          some (tileIdx (field inj 0 10) (field inj 10 10), field (dbgWord s a 0x24) 0 15, dbgWord s a 0x28 + 2 ^ 32 * dbgWord s a 0x2C) else none,
      tiles := p.tiles.map (fun e => (e.1, { e.2 with watches := [] })) }
    let s0 := setDbg (setDbg (setPart s p1) a 0x10 (base % 2 ^ 32)) a 0x14 (base / 2 ^ 32)
    let s1 := setDbg (setDbg s0 a 0x18 p1.traceW) a 0x1C p1.traceOld
    readWatches (dbgWord s a 0x38) s1 band (dbgWord s a 0x30 + 2 ^ 32 * dbgWord s a 0x34) []

end Sys2Proof.Machine
end

