-- ==== Sys2Proof/Machine/Stop.lean ====
section
/-! DEFINITION. Event stops and unwinds, cycle-armed stops, pre-emption and resumption (R240, R263 to R266,
R345 to R353, R359 to R364, R385, R396, R397). -/

namespace Sys2Proof.Machine

/-! ## The event stop (R346 to R349) -/

/-- A tile that raised counts the cycles from its raise to s − 1 as empty (R348); the cycle of the raise
has been counted already where its bundle ended, or a WAITC held it.
Log entry 25 (DEDUCED). -/
def countRaised (s : Nat) (t : Tile) : Tile :=
  match t.raisedAt with
  | none => t
  | some c =>
    if t.seq.halted || !t.seq.stopped then t
    else
      let n := s - c - b2n (t.seq.lastCyc == some c || decide (c < t.seq.hold))
      forN 8 (fun k a => ltcAdd a (0x81 + 16 * ltcLevel t.loop + 2 * k) n) t

/-- What an event stop discards at s (R346): results, streams, copies and bursts that are due, and the
accesses of SY instructions. A put that has started goes on, and no DRAIN covers it (R351).
Log entry 41 (DEDUCED). -/
def discardTile (t : Tile) : Tile :=
  { t with
    flight := [], mx := [], copies := [], bursts := [], depWait := [], nextAcc := [], accs := [], counts := [], dropBars := [], dropNext := [], barWrote := [],
    rankBusy := 0, termBusy := 0, copyBusy := 0,
    puts := t.puts.map (fun u => { u with covered := false }) }

/-- Cancel at s the LNKG requests that have not completed and the collectives of a launch, whose steps go unacknowledged
from then on (R351). -/
def cancelLinks (s : State) (p : Part) : State :=
  (bandPorts p).foldl (fun s k =>
    onPort s k (fun q => { q with
      land := (q.land.filter (fun e => !(e.band == p.first && e.get.isSome && !e.closed))).map (fun e => if e.band = p.first then { e with win := none } else e),
      colls := q.colls.filter (fun c => c.band != p.first),
      cancelled := (q.colls.filter (fun c => c.band == p.first)).foldl (fun l c => sinsert l c.ordinal) q.cancelled })) s

/-- A tile that has not halted and raised no event takes the primary event's cause and detail (R347), where there is one. -/
def takePrimary (st : Stop) (t : Tile) : Tile :=
  if t.seq.halted || t.evRec || !st.raised then t
  else { t with evc := st.evc &&& 0xFFFFFEFF, epc := epcOf t.seq.pc 0, done := 0xFF }

/-- Drop the regions with no retries left (R240, R349).
Log entry 65 (DEDUCED). -/
def pruneRegions (t : Tile) : Tile := { t with regions := t.regions.filter (fun r => decide (0 < r.retries)) }

/-- Whether the launch escalates, once the spent regions are dropped: a tile that has not halted has no region left, or every tile has halted
(R349). -/
def escalates (p : Part) : Bool :=
  p.tiles.all (fun e => e.2.seq.halted) || p.tiles.any (fun e => !e.2.seq.halted && e.2.regions.isEmpty)

/-- Change every tile. -/
def mapTiles (p : Part) (f : Tile → Tile) : Part := { p with tiles := p.tiles.map (fun e => (e.1, f e.2)) }

/-- Open audit units that a stop abandons (R243, R350). -/
def abandonUnits (p : Part) : Part := (p.tiles.filter (fun e => e.2.unit.isSome)).foldl (fun p e => skipUnit p e.1) p

/-- The launch has failed at s: the partition stays stopped until its band is released (R349). -/
def failAt (p : Part) (status : Nat) : Part := { abandonUnits p with mode := .failed, failStatus := status, holds := [] }

/-- The puts of a launch that has failed are read to their end as its SRAM stands, and sent (R351).
Log entry 41 (DEDUCED). -/
def finishPuts (s : State) (p : Part) : State :=
  (p.tiles.flatMap (fun e => (e.2.puts.filter (fun u => u.data.length != u.n / 16)).map (fun u => (e.2, u)))).foldl (fun s x =>
    sendPut s p { x.2 with data := (upto (x.2.n / 16)).foldl (fun m k =>
      if (mfind m k).isSome then m else mput m k (readLine x.1 (x.2.src + 16 * k), 0)) x.2.data }) s

/-- The launch fails: a change of its state, which brings a placement pass (R349, R382, R384). -/
def failNow (s : State) (p : Part) (status : Nat) : State :=
  let q := failAt p status
  let s1 := finishPuts (setPart s q) q
  agendaAdd s1 (passes s1)

/-- Discard at s and either begin the 64 cycles of R348 or escalate (R346, R349). `counted` says that the
edge is itself the first of those cycles.
Log entry 24 (DEDUCED). -/
def beginUnwind (s : State) (p : Part) (st : Stop) (counted : Bool) : State :=
  let s1 := cancelLinks s p
  let p1 := { mapTiles p (fun t => discardTile (if t.seq.halted then t else pruneRegions t)) with flits := [], holds := [], foundLater := [] }
  let failed := failNow s1 p1
  if st.abort then failed (if p.audPolicyFail && p.rec_.auditPolicy == 2 then 9 else 2)
  else if escalates p1 then failed 1
  else
    let p2 := { p1 with mode := .skid, stop := some { st with at_ := p.gcyc } }
    if counted then skidCycle s1 p2 else setPart s1 p2

/-- Whether debug hold keeps a stop from its unwind (R396). -/
def holdsStop (p : Part) (st : Stop) : Bool :=
  p.debugHold && !st.abort && (field st.evc.toNat 0 8 == 0x0B || field st.evc.toNat 0 8 == 0x0C)

/-- R346: the partition stops at s. Under debug hold it stays there with its state intact (R396). -/
def execStopCycle (band : Nat) (s : State) : Result :=
  match getPart s band with
  | none => .next s
  | some p =>
    match p.stop with
    | none => .next s
    | some st =>
      if hasStopped p ∨ p.gcyc < st.at_ then .next s
      else
        let p1 := if isFrozen p then endFreeze p s.edge else p
        let p2 := { mapTiles p1 (fun t => takePrimary st (countRaised p.gcyc t)) with holds := [] }
        if holdsStop p st then
          let p3 := { p2 with mode := .debugHeld, stop := some { st with at_ := p.gcyc } }
          .next (raiseFound (setPart s { p3 with found := [] }) band p3.found)
        else .next (beginUnwind s p2 st (!isFrozen p))

/-- The region entry that a tile unwinds into, with one retry used (R240, R350). -/
def unwindTile (t : Tile) : Tile :=
  match t.regions with
  | [] => t
  | r :: rest =>
    { t with
      g := r.g, q := r.q, loop := r.loop, regions := { r with retries := r.retries - 1 } :: rest,
      seq := { pc := r.handler, lastPc := t.seq.lastPc, lastCyc := t.seq.lastCyc },
      evRec := false, raisedAt := none, regErr := t.regErr.filter (fun c => !(decide (0x600 ≤ c) && decide (c < 0x630))) }

/-- By u every staging engine has closed its banks (R348). -/
def closeBanks (p : Part) : Part :=
  { p with engines := p.engines.map (fun e => (e.1, { e.2 with banks := e.2.banks.map (fun b => (b.1, { b.2 with row := none })) })) }

/-- The requests that a stop kept waiting are armed when it is over (R385, R395). -/
def rearms (band : Nat) (st : Stop) : List Instr := st.req.map (fun r => .preemptArm band r.1 r.2)

/-- R349, R350: at u every tile that has not halted issues its innermost handler. Pending slots and open audit units of
tiles that halted before s are cancelled with those of the others.
Log entry 87 (DEDUCED). -/
def execUnwind (band : Nat) (s : State) : Result :=
  match getPart s band with
  | none => .next s
  | some p =>
    if p.mode != .skid then .next s
    else
      let p1 := closeBanks (abandonUnits (countFrozen p 64))
      let p2 := mapTiles p1 (fun t =>
        let t1 := { t with pslots := [], evRec := false, raisedAt := none }
        if t.seq.halted then { t1 with seq := { t1.seq with stopped := false } } else unwindTile t1)
      let rearm := match p.stop with
        | some st => rearms band st
        | none => []
      let s1 := setPart s { p2 with mode := .running, stop := none }
      .next { agendaAdd s1 rearm with pending := band :: sremove s1.pending band }

/-- R345: the hub raises an event by a stop request. A code that R28 does not list is never produced. -/
def execHubStopRequest (band : Nat) (cause : BitVec 8) (detail : BitVec 16) (loc : Nat) (s : State) : Result :=
  match getPart s band with
  | none => .next s
  | some p =>
    if cause = 0 ∨ 0x11 < cause.toNat ∨ !inBand p (tx loc) (ty loc) then .next s
    else .next (hubEvent s { band, idx := loc } cause.toNat detail.toNat none)

/-! ## Cycle-armed stops (R265, R359, R385, R395) -/

/-- Whether a stop stands for a request, or keeps it waiting. -/
def hasReq (st : Stop) (why : StopWhy) (s_ : Nat) : Bool :=
  (reqsOf st).any (fun r => r.2 == why && (why == .preempt || r.1 == s_))

/-- R359, R395: the hub arms a stop for a cycle at or after x + F. One that meets an event stop is held until the
handlers issue (R385); of two that meet, the earlier is armed first and the other when it is over. The journal has the
stop first (R391).
Log entry 58 (DEDUCED).
Log entry 78 (DEDUCED). -/
def execPreemptArm (band s_ : Nat) (why : StopWhy) (s : State) : Result :=
  match getPart s band with
  | none => .next s
  | some p =>
    let at_ := maxN s_ (p.gcyc + lead p)
    let armed := fun (g : Nat) => ({ at_ := g, event := false, c1 := s.edge, why := some why, frozen := isFrozen p && why == .preempt } : Stop)
    match p.stop with
    | some st =>
      if hasReq st why s_ then .next s
      else if st.event || p.mode == .armedStop || decide (st.at_ ≤ at_) then .next (setPart s { p with stop := some { st with req := st.req ++ [(s_, why)] } })
      else .next (armStop s p { armed at_ with req := reqsOf st })
    | none => .next (armStop s p (armed at_))
where
  /-- The stop armed, and a launch that it pre-empts is stopping (R382, R391). -/
  armStop (s : State) (p : Part) (st : Stop) : State :=
    journaledBy s (.stop p.rec_.token s_ (some why)) (.preemptArm band s_ why) (fun s =>
      let s1 := setPart s { p with stop := some st }
      if why = .preempt then
        let s2 := onCtx s1 p.rec_.token (fun c => { c with st := .stopping })
        agendaAdd s2 (passes s2)
      else s1)

/-- Freeze counts of the holds of a tile's slots and bursts, kept over a stop (R385). -/
def keepCounts (p : Part) : Part :=
  p.holds.foldl (fun p h =>
    match h.by_ with
    | .slot i id => modTile p i (fun t => { t with pslots := t.pslots.map (fun w => if w.id = id then { w with hold := some h.count } else w) })
    | .drd i id => modTile p i (fun t => { t with bursts := t.bursts.map (fun b => if b.id = id then { b with frz := h.count } else b) })
    | .governor => p
    | .hub => p
    | .replay => p) p

/-- The banks of a partition as its engines hold them at a stop: a row that an engine has closed at the limit stays
closed (R320, R359). -/
def closeStale (edge : Nat) (p : Part) : Part :=
  { p with engines := p.engines.map (fun e =>
      (e.1, { e.2 with banks := e.2.banks.map (fun b => (b.1, { b.2 with row := openRow p edge p.gcyc b.2 })) })) }

/-- What is left of a freeze that a replay follows, as an entry of its log: its freeze cycles, and those it has counted
(R385, R403). -/
def restOfFreeze (p : Part) : List LogEntry :=
  (p.holds.filter (fun h => h.by_ == .replay && decide (h.start ≤ p.gcyc) && decide (p.frozenCyc < h.blocks))).map (fun h =>
    { ty := 2, tile := 0, gcyc := p.gcyc, payload := [(0x10, 8, h.blocks - p.frozenCyc), (0x18, 8, h.count)] })

/-- R265: at s no bundle issues, and what is in flight is captured as it stands. Hub acts of a replay that are due then
come first (R403).
Log entry 99 (DEDUCED). -/
def execCycleArmedStop (band : Nat) (s : State) : Result :=
  match getPart s band with
  | none => .next s
  | some p =>
    match p.stop with
    | none => .next s
    | some st =>
      if st.event || hasStopped p || !(dueActs p).isEmpty then .next s
      else
        let p1 := if isFrozen p then endFreeze p s.edge else p
        let p2 := { keepCounts (closeStale s.edge p1) with
          mode := .armedStop, holds := [], stop := some { st with at_ := p.gcyc },
          replay := p1.frozenActs ++ restOfFreeze p ++ p1.replay, frozenActs := [] }
        .next (setPart s p2)

/-- Open slots hold their records again (R233). -/
def reholdTile (t : Tile) : Tile :=
  t.pslots.foldl (fun t w =>
    match w.bar with
    | some b => if w.opened && (mfind t.held b).isNone then
        { t with held := mput t.held b (readLine t b), heldAt := mput t.heldAt b (readLine t b) } else t
    | none => t) t

/-- Checks of pending slots that fell before the stop and are made again at the resumption (R385). -/
def recheck (p : Part) : List Instr :=
  p.tiles.flatMap (fun e =>
    (e.2.pslots.filter (fun w => decide (checkCyc p w < p.gcyc) && decide (p.gcyc ≤ w.due))).map (fun w =>
      match w.bar with
      | some _ => Instr.landingSlotCheck (locOf p e.1) w.id
      | none => Instr.drainCheck (locOf p e.1) w.id))

/-- A partition issues again at GCYC s, with every copy of GCYC set to s and aligned (R266, R290, R359). -/
def resumePart (s : State) (p : Part) : State :=
  let p1 := mapTiles p (fun t => auditOpen { reholdTile t with skew := 0, evRec := false })
  let p2 := addLate { p1 with mode := .running, stop := none, quantum := s.edge, expired := false }
  agendaAdd (setPart s p2) (recheck p2 ++ (match p.stop with
    | some st => rearms p.first st
    | none => []))

/-- R266, R395: a partition stopped at a cycle breakpoint goes on; its debug controls take effect. -/
def execResumption (band : Nat) (s : State) : Result :=
  match getPart s band with
  | none => .next s
  | some p => .next (if p.mode == .armedStop && !preempted p then applyDebug (resumePart s p) band else s)

/-! ## Pre-emption (R359 to R364) -/

/-- Bytes of a tile's part of the image: its fixed part, and each 64-byte burst of its SRAM that holds a line whose
discard bit is clear (R360, R361). -/
def tileImage (t : Tile) : Nat :=
  let full := (t.discard.filter (fun l => l % 4 == 0 && burstDiscarded t (l / 4))).length
  38912 + 163840 - 64 * full

/-- Bytes of a sheet column's part of the image (R360). -/
def columnImage (p : Part) (c : Nat) : Nat :=
  let mine := p.tiles.filter (fun e => tx e.1 / 64 == c)
  (50176 - mine.length) * 202752 + mine.foldl (fun a e => a + tileImage e.2) 0

/-- Edges that the save of a sheet column takes: 64 bytes per pseudo-channel per 2 edges (R359, R360).
Log entry 54 (DEDUCED). -/
def columnSave (p : Part) (c : Nat) : Nat := cdiv (columnImage p c) 2048

/-- Edges that the save of a band takes. -/
def saveEdges (p : Part) : Nat := (upto p.count).foldl (fun a c => maxN a (columnSave p c)) 0

/-- R360: the band's engines begin to write the context image, which takes its time.
Log entry 44 (DESIGN CHOICE). -/
def execContextSave (band : Nat) (s : State) : Result :=
  match getPart s band with
  | none => .next s
  | some p =>
    if preempted p && s.ctxs.any (fun c => c.rec_.token == p.rec_.token && c.st == .stopping) then
      let s1 := onCtx s p.rec_.token (fun c => { c with st := .saving, saveFrom := s.edge, saveEnd := s.edge + saveEdges p })
      .next (agendaAdd s1 (passes s1))
    else .next s

/-- The port sections of a context's image (R360). -/
def portSections (s : State) (p : Part) : SMap Port := (bandPorts p).map (fun k => (k, portSection s p k))

/-- Bursts that hold the port sections of an image (R360). -/
def sectionBursts (ports : SMap Port) : Nat :=
  ports.foldl (fun a e => a + cdiv (sectionBytes e.2) 64) 0

/-- R359: the save is complete and the band is free; the context is swapped. A launch that has failed ends
and leaves its band. The journal has the release first (R391).
Log entry 58 (DEDUCED). -/
def execBandRelease (band : Nat) (s : State) : Result :=
  match getPart s band with
  | none => .next s
  | some p =>
    if p.mode == .failed then .next (journaled s (.release p.rec_.token) (fun s => endLaunch s p p.failStatus p.gcyc))
    else if preempted p && s.ctxs.any (fun c => c.rec_.token == p.rec_.token && c.st == .saving) then .next (journaled s (.release p.rec_.token) (fun s => swapOut s p))
    else .next s
where
  /-- The context leaves its band: its image stands in its save area, and what it holds is kept with the live launch. -/
  swapOut (sa : State) (pa : Part) : State :=
    let ports := portSections sa pa
    let s := closeEstimate sa (countAct pa 10 (sectionBursts ports))
    let p := (getPart s band).getD pa
    let s1 := onCtx s p.rec_.token (fun c => { c with st := .swapped, since := s.edge, saved := some p, energy := p.energy, ports := ports })
    let s2 := clearPorts s1 p
    let s3 : State := { s2 with
      parts := merase s2.parts band, pending := sremove s2.pending band, dram := writeImage s2.dram p ports ((ctxOf s p.rec_.token).bind (fun c => c.saveRow)) }
    agendaAdd { s3 with todo := s3.todo.filter (fun l => l.band != band) } (passes s3)

/-- A put of which nothing had come before its context was swapped out, with the blocks lost meanwhile as zeros
(R362). -/
def missedLand (id : Nat) (p : Part) (m : Missed) : LandEntry :=
  { newLand id p m.tile m.addr m.n 0 m.bar none none m.src m.xid m.issued with lost := m.blocks }

/-- Note the blocks of a put that were lost while its context was swapped out (R362): in its landing, or in one that it
begins at the port to which they came. -/
def noteMissed (s : State) (p : Part) (m : Missed) : State :=
  if (getPort s m.port).land.any (isPutOf m.src m.xid) then
    onPort s m.port (fun q => { q with land := q.land.map (fun y =>
      if isPutOf m.src m.xid y && !y.closed then { y with lost := m.blocks.foldl sinsert y.lost } else y) })
  else
    onPort (nextSeq s) m.port (fun q => { q with land := q.land ++ [missedLand s.seqNo p m], begun := q.begun ++ [(m.src, m.xid)] })

/-- At a restore a class 0 transfer closes of which every block is in or lost, or whose 8 µs have passed (R220, R362).
A put is acknowledged then, unless it has been while its context was swapped out (R221, R312). -/
def settleLands (s : State) (p : Part) : State :=
  (bandPorts p).foldl (fun s k =>
    ((getPort s k).land.filter (fun y => y.band == p.first && y.cls == 0 && !y.closed && y.coll.isNone)).foldl (fun s y =>
      if !allBlocks y && decide (s.edge < y.edge0 + closeEdges) then s
      else if p.missed.any (fun m => m.acked && isPutOf m.src m.xid y) then
        onPort s k (fun q => { q with land := q.land.map (fun x => if x.id = y.id then closeLand x else x) })
      else closeAt s k y.id) s) s

/-- Energy of the bursts with which an image is read back: each a DRAM command, and four bank accesses where it goes to a
tile (R360, R387).
Log entry 10 (DESIGN CHOICE). -/
def restoreEnergy (s : State) (p : Part) (ports : SMap Port) : Nat :=
  (upto p.count).foldl (fun a c => a + cdiv (columnImage p c) 64) 0 * (coef s 11 + 4 * coef s 9) + coef s 11 * sectionBursts ports

/-- Put a context's port sections back, with what was lost meanwhile. -/
def restorePorts (s : State) (p : Part) (ports : SMap Port) : State :=
  let s1 := ports.foldl (fun s e => onPort s e.1 (fun q =>
    { q with
      land := q.land ++ e.2.land, colls := e.2.colls, ordinal := e.2.ordinal, cancelled := e.2.cancelled, early := q.early ++ e.2.early, serve := q.serve ++ e.2.serve })) s
  settleLands (p.missed.foldl (fun s m => noteMissed s p m) s1) p

/-- The numbers first, first + step, … up to last hold a number (R86). -/
def inSteps (first last step x : Nat) : Bool := decide (first ≤ x) && decide (x ≤ last) && (x - first) % step == 0

/-- The IMEM that a launch's image map gives a tile (R86, R375). -/
def imemOf (r : LaunchRec) (idx : Nat) : SMap Word :=
  match r.images.find? (fun i => inSteps i.tx0 i.tx1 i.txs (tx idx) && inSteps i.ty0 i.ty1 i.tys (ty idx)) with
  | some i => i.imem
  | none => (haltTile r idx).imem

/-- IMEM is reloaded from the image map (R31, R359). -/
def reloadImem (p : Part) : Part :=
  { p with tiles := p.tiles.map (fun e => (e.1, { e.2 with imem := imemOf p.rec_ e.1, imemErr := [] })) }

/-- The pages of a launch after the hub has moved some of them and pinned them anew (R325): a page by its virtual
address goes to an aligned physical address. -/
def movePages (moved : List (Nat × Nat)) (r : LaunchRec) : LaunchRec :=
  { r with pages := r.pages.map (fun g =>
      match moved.find? (fun m => m.1 == g.va && m.2 % 2 ^ g.bits == 0) with
      | some m => { g with pa := m.2 }
      | none => g) }

/-- Whether the caps of the resident launches and of one more stay inside the budget (R413). -/
def fitsBudget (s : State) (r : LaunchRec) : Bool := decide (s.parts.foldl (fun a e => a + e.2.rec_.cap) r.cap ≤ s.budget)

/-- The resume preamble of an engine: every row that was open at the stop is activated again (R321). -/
def preambleEngine (edge : Nat) (e : Engine) : Engine :=
  (e.banks.filter (fun b => b.2.row.isSome)).foldl (fun e b => reactivate e b.1 edge) { e with guard := edge }

/-- The resume preamble (R321). -/
def preamble (edge : Nat) (p : Part) : Part := { p with engines := p.engines.map (fun e => (e.1, preambleEngine edge e.2)) }

/-- The first edge at which a restored launch may issue: 486 edges after its preamble (R321).
Log entry 67 (DEDUCED). -/
def readyEdge (p : Part) : Nat := guardEnd p + 486

/-- Early chunks for a restored collective are taken up; in a replay they count as accepted and bring nothing (R403). -/
def takeEarly (s : State) (p : Part) : State :=
  (bandPorts p).foldl (fun s k =>
    (getPort s k).colls.foldl (fun s c =>
      if c.band != p.first then s
      else
        let mine := fun (x : ChunkIn) => x.asid.toNat == p.rec_.asid && x.ordinal == c.ordinal
        let xs := (getPort s k).early.filter mine
        let s1 := onPort s k (fun q => { q with
          early := q.early.filter (fun x => !mine x),
          colls := q.colls.map (fun y => if y.id = c.id && !p.rec_.replayRun then { y with partial_ := xs.foldl addPartial y.partial_ } else y) })
        runColl (if p.rec_.replayRun then ackChunks s1 k xs else s1) k c.id) s) s

/-- R359, R364: a swapped context is read back onto its own band, unless an uncorrectable granule aborts
the restore, whose ring record is traced (R400); pages that the hub moved meanwhile are pinned where they are now (R325). While a launch in its way still
holds the band, or its power, it waits (R384, R413). -/
def execContextRestore (token : BitVec 64) (scan : RestoreScan) (s : State) : Result :=
  match ctxOf s token.toNat with
  | none => .next s
  | some c =>
    match c.saved with
    | none => .next s
    | some p =>
      if c.st != .restoring then .next s
      else if (colsOf p.rec_).any (fun j => s.parts.any (fun e => decide (e.2.first ≤ j) && decide (j < e.2.first + e.2.count))) || !fitsBudget s p.rec_ then
        .next (again s (.contextRestore token scan))
      else
        match scan.bad.filter (fun f => !f.discardable) with
        | some f =>
          let idx := tileIdx f.tx f.ty
          let s1 := ringAdd s p idx 3 (evcOf 0x09 (f.part % 16) false) 0 0 false p.gcyc (wallOf s.edge)
          let s2 := if p.traceOn then { drainAllTraces (setPart s1 (traceRing s1 p idx)) p.first with parts := s.parts } else s1
          .next (endSaved s2 c p 6)
        | none =>
          let r := movePages scan.moved p.rec_
          let s0 := chargeImage s c (restoreEnergy s p c.ports)
          let paid := (ctxOf s0 token.toNat).getD c
          let p0 := { reloadImem (mapTiles p zeroDiscarded) with
            mode := .armedStop, missed := [], rec_ := r, energy := paid.energy, resid := p.resid + paid.resid }
          let p1 := preamble s.edge p0
          let s1 := setPart (onCtx s0 token.toNat (fun c => { c with saved := none, ports := [], rec_ := r, resid := 0 })) p1
          let s2 := restorePorts s1 p c.ports
          .next { s2 with inputs := s2.inputs ++ [(maxN s.edge (readyEdge p1), .contextResume p.first)] }

/-- R359: GCYC is set to s on every tile, and the first bundles issue, once the preamble is 486 edges past (R321). -/
def execContextResume (band : Nat) (s : State) : Result :=
  match getPart s band with
  | none => .next s
  | some p =>
    if s.ctxs.any (fun c => c.rec_.token == p.rec_.token && c.st == .restoring) && decide (readyEdge p ≤ s.edge) then
      let s1 := onCtx s p.rec_.token (fun c => { c with st := .running })
      let s2 := applyDebug (resumePart s1 p) band
      match getPart s2 band with
      | some q =>
        let s3 := journal (takeEarly s2 q) (.start p.rec_.token [])
        .next (agendaAdd s3 (passes s3))
      | none => .next s2
    else .next s

/-! ## Debug commands (R396, R397, R411) -/

/-- The partition of an ASID that debug hold keeps stopped. -/
def heldPart (s : State) (asid : Nat) : Option Part :=
  (s.parts.find? (fun e => e.2.rec_.asid == asid && e.2.mode == .debugHeld)).map Prod.snd

/-- R396: the unwind command lets the 64 cycles of R348 pass and the unwind follow. -/
def execDebugUnwind (asid : BitVec 14) (s : State) : Result :=
  match heldPart s asid.toNat with
  | none => .next s
  | some p =>
    match p.stop with
    | none => .next s
    | some st => .next (beginUnwind s p st false)

/-- R396: the fail command ends the launch with status 1. -/
def execDebugFail (asid : BitVec 14) (s : State) : Result :=
  match heldPart s asid.toNat with
  | none => .next s
  | some p => .next (failNow s p 1)

/-- A raising tile issues its bundle once more with the slots that are done suppressed; one that stopped
imprecisely goes on with its next bundle (R264, R397). -/
def reissueTile (t : Tile) : Tile :=
  match t.raisedAt with
  | none => t
  | some _ =>
    let precise := t.evc.getLsbD 8
    { t with
      raisedAt := none,
      seq := { t.seq with
        stopped := false, resumeDone := if precise then some t.done else none, kept := if precise then t.seq.kept else none } }

/-- Whether a tile raised its event in a delay bundle of a taken transfer: the transfer has delay bundles left,
or, where the tile stopped after its cycle, the cycle's bundle was one of them (R119, R121). -/
def stoppedInDelay (t : Tile) : Bool :=
  t.raisedAt.isSome && t.seq.xfer.any (fun x => if t.evc.getLsbD 8 then decide (0 < x.delay) else decide (x.delay < 2))

/-- R397: the resume command restarts the partition at s. Recording ends there. A stop in a delay bundle
resumes only by unwinding, so the command then does nothing (R121).
Log entry 72 (DEDUCED). -/
def execDebugResume (asid : BitVec 14) (s : State) : Result :=
  match heldPart s asid.toNat with
  | none => .next s
  | some p =>
    if p.tiles.any (fun e => stoppedInDelay e.2) then .next s
    else .next (resumePart s { mapTiles p reissueTile with logOpen := false })

end Sys2Proof.Machine
end

