-- ==== Sys2Proof/Machine/Audit.lean ====
section
/-! DEFINITION. Audit units and their replay on pool tiles: AUDO, AUDC, and the audit engines' copies, replays
and comparisons (R241 to R243, R279, R356 to R358). -/

namespace Sys2Proof.Machine

/-! ## Pool tiles (R279) -/

/-- Number of a pool tile: segment (col, row), spare k. -/
def poolNum (col row k : Nat) : Nat := poolBase + 2 * (784 * col + row) + k

/-- Pool tiles of one sheet: those that repair leaves and that passed self-test (R279, R409). -/
def sheetPool (s : State) (col sheetRow : Nat) : List Nat :=
  (upto 112).flatMap (fun r =>
    let row := 112 * sheetRow + r
    ((upto (2 - (deadOf s.store col row).length)).map (poolNum col row)).filter (fun n => !smem s.poolBad n))

/-- Physical column and row of a pool tile: the live positions past the 64 logical ones (R276). -/
def poolPos (s : State) (n : Nat) : Nat × Nat :=
  let m := n - poolBase
  let col := m / 2 / 784
  let row := m / 2 % 784
  (66 * col + physPos (deadOf s.store col row) (64 + m % 2), row)

/-- The sheet row of a tile (R275). -/
def sheetRow (idx : Nat) : Nat := ty idx / 112

/-- Samples that the audit engine of a sheet row holds. -/
def rowSamples (p : Part) (row : Nat) : List Sample := p.samples.filter (fun x => sheetRow x.tile == row)

/-- The pool tile for a unit (R357): a free one of its own sheet, else a free one of the sheet row in the band;
where none is free, one that holds a unit already.
Log entry 51 (DEDUCED). -/
def choosePool (s : State) (p : Part) (idx : Nat) : Option Nat :=
  let own := p.first + tx idx / 64
  let all := sheetPool s own (sheetRow idx) ++
    ((colsOf p.rec_).filter (fun c => c != own)).flatMap (fun c => sheetPool s c (sheetRow idx))
  match all.find? (fun n => !p.samples.any (fun x => x.poolIdx == n)) with
  | some n => some n
  | none => all.head?

/-! ## AUDO and AUDC (R241 to R243) -/

/-- The record address of an AUDO (R241). -/
def audAddr (t : Tile) (ga : BitVec 5) : Nat := alignDown 6 (field (rg t ga.toNat).toNat 0 18)

/-- Whether the unit with an ordinal is sampled (R356). -/
def isSampled (p : Part) (idx n : Nat) : Bool :=
  let m := field p.rec_.seed.toNat 0 16 ^^^ tx idx ^^^ (ty idx <<< 6)
  p.rec_.auditOn && (n ^^^ m) % 2 ^ p.rec_.auditK == 0

/-- Lines that the AUDO's own bundle and cycle accessed, and whether each was written. -/
def earlyLines (t : Tile) (is : Issue) : List (Nat × Bool) :=
  is.loc.map (fun e => (e.line, e.slot == 5)) ++
  (t.accs.filter (fun e => e.bits / bitMx % 2 == 1)).map (fun e => (e.line, e.rank != 9))

/-- Engine writes that a closed unit does not receive: deposits, landings, DRD windows and copies (R242). -/
def engineWrote (t : Tile) : Bool := t.accs.any (fun e => e.won && (e.rank == 1 || (decide (4 ≤ e.rank) && decide (e.rank < 9))))

/-- R241: a unit opens; one that is open already is abandoned (R243). The audit engine takes a sample where
it has room and a pool tile (R357). -/
def openUnit (s : State) (p : Part) (idx uid : Nat) : Part :=
  let p0 := skipUnit p idx
  let t := getTile p0 idx
  let is := issueOf t .sy
  let sel := isSampled p0 idx t.units
  let pool := if decide (8 ≤ (rowSamples p0 (sheetRow idx)).length) then none else choosePool s p0 idx
  let u : Unit_ := {
    uid := uid, ordinal := t.units, openPc := is.pc, openCyc := p.gcyc, readAt := false, malformed := false,
    closed := !is.ranCp && !engineWrote t, serial := t.regions.head?.map (fun r => r.serial), selected := sel,
    sampled := sel && pool.isSome, early := earlyLines t is }
  let p1 := putTile p0 idx { t with unit := some u }
  match sel, pool with
  | true, some n => { p1 with samples := p1.samples ++ [{ tile := idx, unit := u, snap := { replays := some idx }, poolIdx := n }] }
  | true, none => countAudit p1 cntUnserviced
  | false, _ => p1

/-- R241: AUDO. Its record is read at t + 1. On a pool tile it opens nothing. -/
def execAudo (ga : BitVec 5) (uid : BitVec 16) (s : State) : Result :=
  runSlot (.audo ga uid)
    (fun _ t => { sl := .sy, check := det1 (decide (sramEnd ≤ audAddr t ga)), reads := [codeG ga.toNat] })
    (fun p t s =>
      if poolBase ≤ s.cur.idx then s
      else nextAccess (onPart s s.cur.band (fun q => openUnit s q s.cur.idx uid.toNat)) p (.audo (audAddr t ga) uid.toNat)) s

/-- Whether a unit is closed at its AUDC (R242): nothing has broken its conditions, this cycle included. -/
def unitClosed (p : Part) (idx : Nat) (u : Unit_) : Bool :=
  u.closed && u.readAt && !u.malformed && !p.found.any (fun f => f.tile == idx) && (lostBanks (getTile p idx)).isEmpty

/-- R243: an AUDC closes the open unit, or abandons it.
Log entry 49 (DEDUCED). -/
def closeUnit (p : Part) (idx uid : Nat) : Part :=
  let t := getTile p idx
  match t.unit with
  | none => p
  | some u =>
    if u.uid = uid && unitClosed p idx u then
      let p1 := putTile p idx { t with unit := none, units := t.units + 1 }
      let p2 := if u.selected then countAudit p1 cntSampled else p1
      if u.sampled then
        onSamples p2 idx (fun l => l.map (fun x =>
          if isOpen idx x then { x with closedAt := some (p.gcyc, (issueOf t .sy).pc), outLines := rangeLines u.outs } else x))
      else p2
    else skipUnit p idx

/-- R243: AUDC. On a pool tile it ends the replay of its unit (R357). -/
def execAudc (uid : BitVec 16) (s : State) : Result :=
  runSlot (.audc uid) (fun _ _ => { sl := .sy })
    (fun _ _ s =>
      if poolBase ≤ s.cur.idx then onIssue s (fun is => { is with halt := true })
      else onPart s s.cur.band (fun q => closeUnit q s.cur.idx uid.toNat)) s

/-! ## The audit engines (R357) -/

/-- Whether a sample has a line to move. -/
def hasLines (x : Sample) : Bool := !x.todoLines.isEmpty || !x.outLines.isEmpty

/-- The line that a sample moves next, where it is one of the tile's SRAM. -/
def nextLine (x : Sample) : Option Nat :=
  match x.todoLines with
  | a :: _ => if codeTag ≤ a then none else some a
  | [] => x.outLines.head?

/-- The tile after an audit engine's read of that line, which finds what any read does (R169). -/
def auditRead (t : Tile) (x : Sample) : Tile :=
  match nextLine x with
  | some a => markRec t a
  | none => t

/-- Move one line of a sample: a code or input line to the pool tile, or an output line to the signature. -/
def moveLine (t : Tile) (x : Sample) : Sample :=
  match x.todoLines with
  | a :: r =>
    let y := { x with todoLines := r, copied := r.isEmpty }
    if decide (codeTag ≤ a) then y
    else
      let w := linePoison t a
      let bad := (if bitN w 0 then [a / 8] else []) ++ (if bitN w 1 then [a / 8 + 1] else [])
      { y with snap := { y.snap with sram := storeBytes y.snap.sram a (bytesOf 16 (readLine t a).toNat), poison := bad.foldl sinsert y.snap.poison } }
  | [] =>
    match x.outLines with
    | a :: r =>
      let m := storeBytes x.outData a (bytesOf 16 (readLine t a).toNat)
      { x with outLines := r, outData := m, sig := if r.isEmpty then some (crcRanges m x.unit.outs) else none }
    | [] => x

/-- One sample of which a line was overtaken is given up, and counted (R357). -/
def giveUp (p : Part) (x : Sample) : Part :=
  let q := if x.closedAt.isNone then modTile p x.tile (fun t => { t with unit := t.unit.map (fun u => { u with sampled := false }) }) else p
  countAudit (dropSamples q x.tile (fun y => y.tile == x.tile && y.closedAt == x.closedAt && y.unit.openCyc == x.unit.openCyc)) cntOvertaken

/-- One groomer edge of the audit engine of a sheet row: a line of its oldest unit that has one; a line of data SRAM is an
access of its bank (R387). -/
def engineStep (p : Part) (row : Nat) : Part :=
  match (rowSamples p row).find? hasLines with
  | none => p
  | some x =>
    let same := fun (y : Sample) => y.tile == x.tile && y.unit.openCyc == x.unit.openCyc
    let q := onSamples p x.tile (fun l => l.map (fun y => if same y then moveLine (getTile p x.tile) y else y))
    countAct (modTile q x.tile (fun t => auditRead t x)) 8 (b2n (nextLine x).isSome)

/-- R357: the audit engines of the band, on a groomer edge. -/
def execAuditCopy (band : Nat) (s : State) : Result :=
  .next (onPart s band (fun p =>
    let p1 := p.samples.foldl (fun p x => noteDirty p x.tile) p
    let p2 := (p1.samples.filter (fun x => x.overtaken)).foldl giveUp p1
    (upto 7).foldl engineStep p2))

/-- The samples that pool tiles replay: the oldest of each pool tile that is copied. -/
def underReplay (l : List Sample) : List Sample :=
  (l.filter (fun x => x.copied && x.replaySig.isNone)).foldl (fun a x => if a.any (fun y => y.poolIdx == x.poolIdx) then a else a ++ [x]) []

/-- Load a pool tile with the unit it is to replay. -/
def loadPool (p : Part) (x : Sample) : Part :=
  if x.loaded then p
  else
    { p with
      pool := mput p.pool x.poolIdx x.snap,
      samples := p.samples.map (fun y => if y.tile = x.tile && y.unit.openCyc = x.unit.openCyc then { y with loaded := true } else y) }

/-- Begin a bundle of a pool tile: the accesses that fall due in its own cycle. -/
def poolStart (p : Part) (n : Nat) : Part := { barStart { p with gcyc := cycOf p n } n with gcyc := p.gcyc }

/-- R357: each pool tile that holds a copied unit issues one bundle of its replay. -/
def execAuditReplayBundle (band : Nat) (s : State) : Result :=
  match getPart s band with
  | none => .next s
  | some p =>
    let xs := underReplay p.samples
    let p1 := xs.foldl loadPool p
    let p2 := xs.foldl (fun p x => poolStart p x.poolIdx) p1
    let ls := xs.map (fun x => locOf p2 x.poolIdx)
    let ev := ls.flatMap (fun l => tileEvents l (getTile p2 l.idx) (cycOf p2 l.idx))
    let before := match s.phase with
      | .pool l => l
      | .idle | .engine _ | .issue _ => []
    let s1 := agendaAdd (setPart s p2) ev
    .next { s1 with todo := s1.todo ++ ls, phase := .pool (before ++ ls) }

/-! ## Comparison (R358) -/

/-- A unit whose signatures differ: the hub records it. Where its region is still open the tile takes an event,
otherwise the ring takes a record and the tenant's policy decides; a stop that the policy calls is journaled and logged
as a stop request (R391, R402).
Log entry 50 (DEDUCED). -/
def mismatch (s : State) (band : Nat) (x : Sample) : State :=
  match getPart s band with
  | none => s
  | some p =>
    let c := x.closedAt.getD (0, 0)
    let pos := poolPos s x.poolIdx
    let m : Mismatch := {
      asid := p.rec_.asid, uid := x.unit.uid, gcyc := c.1, sig := x.sig.getD 0, replaySig := x.replaySig.getD 0,
      col := physCol s p.first x.tile, row := ty x.tile, poolCol := pos.1, poolRow := pos.2 }
    let s1 : State := { s with mismatches := s.mismatches ++ [m] }
    if (getTile p x.tile).regions.any (fun r => x.unit.serial == some r.serial) then
      hubEvent s1 { band, idx := x.tile } 0x11 x.unit.uid (some (c.2, 7))
    else
      let evc := evcOf 0x11 x.unit.uid false
      let s2 := ringAdd s1 p x.tile 2 evc (epcOf c.2 7) 0xFF false p.gcyc (wallOf s.edge)
      let p1 : Part := { traceRing s2 p x.tile with audPolicyFail := true }
      if p.rec_.auditPolicy = 2 && !hasStopped p then
        setPart (cancelStop (journal s2 (.stop p.rec_.token p.gcyc none)) p)
          (logAdd (withAbort p1 (abortStop p1 x.tile evc (epcOf c.2 7) 0xFF s.ringNo)) 4 x.tile p.gcyc [(0x10, 4, 0)])
      else setPart s2 p1

/-- R358: signatures are compared. -/
def execAuditCompare (band : Nat) (s : State) : Result :=
  match getPart s band with
  | none => .next s
  | some p =>
    let ready := fun (x : Sample) => x.sig.isSome && x.replaySig.isSome
    let xs := p.samples.filter ready
    .next (xs.foldl (fun s x =>
      let s1 := onPart s band (fun p =>
        countAudit (dropSamples p x.tile (fun y => y.tile == x.tile && y.unit.openCyc == x.unit.openCyc))
          (if x.sig = x.replaySig then cntMatched else cntMismatched))
      if x.sig = x.replaySig then s1 else mismatch s1 band x) s)

end Sys2Proof.Machine
end

