-- ==== Sys2Proof/Machine/Shake.lean ====
section
/-! DEFINITION. SHAKE256 (R381, R390, R402), the function of FIPS 202 that the spec names. -/

namespace Sys2Proof.Machine

/-! ## The permutation

A state is 25 lanes of 64 bits, lane x + 5 · y at that index. -/

/-- By how many bits each lane is rotated. -/
def laneRot : List Nat := [0, 1, 62, 28, 27, 36, 44, 6, 55, 20, 3, 10, 43, 25, 39, 41, 45, 15, 21, 8, 18, 2, 61, 56, 14]

/-- The constants of the 24 rounds. -/
def roundConst : List DWord :=
  [0x0000000000000001, 0x0000000000008082, 0x800000000000808A, 0x8000000080008000, 0x000000000000808B, 0x0000000080000001,
   0x8000000080008081, 0x8000000000008009, 0x000000000000008A, 0x0000000000000088, 0x0000000080008009, 0x000000008000000A] ++
  [0x000000008000808B, 0x800000000000008B, 0x8000000000008089, 0x8000000000008003, 0x8000000000008002, 0x8000000000000080,
   0x000000000000800A, 0x800000008000000A, 0x8000000080008081, 0x8000000000008080, 0x0000000080000001, 0x8000000080008008]

/-- A lane of a state. -/
def lane (a : List DWord) (i : Nat) : DWord := a.getD i 0

/-- The parity of each column mixed into every lane. -/
def mixColumns (a : List DWord) : List DWord :=
  let c := (upto 5).map (fun x => (upto 5).foldl (fun w y => w ^^^ lane a (x + 5 * y)) 0)
  let d := (upto 5).map (fun x => lane c ((x + 4) % 5) ^^^ (lane c ((x + 1) % 5)).rotateLeft 1)
  (upto 25).map (fun i => lane a i ^^^ lane d (i % 5))

/-- Every lane rotated and moved: lane (x, y) goes to (y, 2x + 3y). -/
def moveLanes (a : List DWord) : List DWord :=
  (upto 25).map (fun i =>
    let j := (3 * (i / 5) + i % 5) % 5 + 5 * (i % 5)
    (lane a j).rotateLeft (laneRot.getD j 0))

/-- One round. -/
def keccakRound (a : List DWord) (rc : DWord) : List DWord :=
  let b := moveLanes (mixColumns a)
  (upto 25).map (fun i =>
    let y := 5 * (i / 5)
    let w := lane b i ^^^ (~~~ (lane b ((i + 1) % 5 + y)) &&& lane b ((i + 2) % 5 + y))
    if i = 0 then w ^^^ rc else w)

/-- The permutation of 24 rounds. -/
def keccak (a : List DWord) : List DWord := roundConst.foldl keccakRound a

/-! ## The sponge -/

/-- Bytes of a block of SHAKE256. -/
def shakeRate : Nat := 136

/-- A message padded to whole blocks. -/
def shakePad (m : List Byte) : List Byte :=
  let r := shakeRate - m.length % shakeRate
  m ++ (if r = 1 then [0x9F] else 0x1F :: List.replicate (r - 2) 0 ++ [0x80])

/-- Mix a block of bytes into a state. -/
def mixBlock (a : List DWord) (b : List Byte) : List DWord :=
  (upto 25).map (fun i => lane a i ^^^ BitVec.ofNat 64 (ofBytes ((b.drop (8 * i)).take 8)))

/-- Take the blocks of a padded message in. -/
def absorb (n : Nat) (a : List DWord) (m : List Byte) : List DWord :=
  match n with
  | 0 => a
  | k + 1 => absorb k (keccak (mixBlock a (m.take shakeRate))) (m.drop shakeRate)

/-- n blocks of output. -/
def squeeze (n : Nat) (a : List DWord) : List Byte :=
  match n with
  | 0 => []
  | k + 1 => (a.flatMap (fun w => bytesOf 8 w.toNat)).take shakeRate ++ squeeze k (keccak a)

/-- The first n bytes of SHAKE256 of a message. -/
def shake256 (n : Nat) (m : List Byte) : List Byte :=
  let p := shakePad m
  (squeeze (cdiv n shakeRate) (absorb (p.length / shakeRate) (List.replicate 25 0) p)).take n

/-- A SHAKE256 digest of 32 bytes, as a number whose lowest byte is the first. -/
def digest32 (m : List Byte) : Nat := ofBytes (shake256 32 m)

end Sys2Proof.Machine
end

