-- ==== Sys2Proof/Machine/SlhDsa.lean ====
section
/-! DEFINITION. SLH-DSA-SHAKE-256s signatures (R381, R390), verified and made as FIPS 205 defines it: n = 32, 8 layers of
height 8, 22 trees of height 14, digits of 4 bits. -/

namespace Sys2Proof.Machine

/-- The n bytes of a string from an offset. -/
def sub (m : List Byte) (off n : Nat) : List Byte := (m.drop off).take n

/-- The bytes of a number, most significant first, and the number that such bytes spell. -/
def bigBytes (n x : Nat) : List Byte := (bytesOf n x).reverse
def bigNat (m : List Byte) : Nat := ofBytes m.reverse

/-- The i-th digit of b bits of a string, most significant first. -/
def digit (m : List Byte) (b i : Nat) : Nat := bigNat m / 2 ^ (8 * m.length - b * (i + 1)) % 2 ^ b

/-- An address: layer, tree, type, and three words that depend on the type. -/
structure Adrs where
  layer : Nat := 0
  tree : Nat := 0
  type : Nat := 0       -- 0 chain, 1 its public key, 2 tree, 3 few-time tree, 4 few-time roots, 5 chain secret, 6 few-time secret
  w1 : Nat := 0
  w2 : Nat := 0
  w3 : Nat := 0
  deriving DecidableEq, Repr

/-- An address as 32 bytes. -/
def Adrs.bytes (a : Adrs) : List Byte :=
  bigBytes 4 a.layer ++ bigBytes 12 a.tree ++ bigBytes 4 a.type ++ bigBytes 4 a.w1 ++ bigBytes 4 a.w2 ++ bigBytes 4 a.w3

/-- The hash of a string at an address, under a public seed. -/
def hashAt (seed : List Byte) (a : Adrs) (m : List Byte) : List Byte := shake256 32 (seed ++ a.bytes ++ m)

/-- n steps of a chain from its step i. -/
def chain (seed : List Byte) (a : Adrs) (n i : Nat) (x : List Byte) : List Byte :=
  match n with
  | 0 => x
  | k + 1 => chain seed a k (i + 1) (hashAt seed { a with w3 := i } x)

/-- The root above a node: `idx` its place on its level, `k` that level, and the siblings on the way up. -/
def climb (seed : List Byte) (a : Adrs) (k idx : Nat) (node : List Byte) (path : List (List Byte)) : List Byte :=
  match path with
  | [] => node
  | s :: r =>
    let m := if idx % 2 = 0 then node ++ s else s ++ node
    climb seed a (k + 1) (idx / 2) (hashAt seed { a with w2 := k + 1, w3 := idx / 2 } m) r

/-- The siblings of a path of height h from an offset of a signature. -/
def path (sig : List Byte) (off h : Nat) : List (List Byte) := (upto h).map (fun j => sub sig (off + 32 * j) 32)

/-- The 67 digits that a 32-byte message signs: its own 64, and 3 of their checksum. -/
def chainDigits (m : List Byte) : List Nat :=
  let ds := (upto 64).map (digit m 4)
  let sum := ds.foldl (fun a d => a + (15 - d)) 0
  ds ++ (upto 3).map (digit (bigBytes 2 (sum * 16)) 4)

/-- The one-time public key that a signature of 67 chains gives. -/
def chainKey (seed : List Byte) (a : Adrs) (sig : List Byte) (off : Nat) (m : List Byte) : List Byte :=
  let tops := (chainDigits m).zipIdx.flatMap (fun (e : Nat × Nat) =>
    chain seed { a with type := 0, w2 := e.2, w3 := 0 } (15 - e.1) e.1 (sub sig (off + 32 * e.2) 32))
  hashAt seed { a with type := 1, w2 := 0, w3 := 0 } tops

/-- The root of one layer's tree that a signature gives: 67 chains and a path of height 8. -/
def layerRoot (seed : List Byte) (layer tree leaf : Nat) (sig : List Byte) (off : Nat) (m : List Byte) : List Byte :=
  let node := chainKey seed { layer := layer, tree := tree, w1 := leaf } sig off m
  climb seed { layer := layer, tree := tree, type := 2 } 0 leaf node (path sig (off + 67 * 32) 8)

/-- The root of the layers from one on. -/
def topRoot (seed : List Byte) (n layer tree leaf : Nat) (sig : List Byte) (off : Nat) (m : List Byte) : List Byte :=
  match n with
  | 0 => m
  | k + 1 =>
    topRoot seed k (layer + 1) (tree / 2 ^ 8) (tree % 2 ^ 8) sig (off + 75 * 32) (layerRoot seed layer tree leaf sig off m)

/-- The few-time public key that a signature gives: 22 leaves, each with a path of height 14. -/
def fewKey (seed : List Byte) (tree leaf : Nat) (sig : List Byte) (off : Nat) (md : List Byte) : List Byte :=
  let a : Adrs := { tree := tree, type := 3, w1 := leaf }
  let roots := (upto 22).flatMap (fun i =>
    let at_ := off + 480 * i
    let idx := i * 2 ^ 14 + digit md 14 i
    climb seed a 0 idx (hashAt seed { a with w3 := idx } (sub sig at_ 32)) (path sig (at_ + 32) 14))
  hashAt seed { a with type := 4, w2 := 0, w3 := 0 } roots

/-- Whether a signature of a message verifies under a public key of 64 bytes, in the pure form with an empty context.
Log entry 9 (PRESUMED). -/
def slhVerify (key msg sig : List Byte) : Bool :=
  let seed := key.take 32
  let root := sub key 32 32
  let d := shake256 47 (sig.take 32 ++ seed ++ root ++ [0, 0] ++ msg)
  let tree := bigNat (sub d 39 7)
  let leaf := bigNat (sub d 46 1)
  sig.length == 29792 && topRoot seed 8 0 tree leaf sig 10592 (fewKey seed tree leaf sig 32 (d.take 39)) == root

/-! ## Signing (R390) -/

/-- The secret value with which chain i of a one-time key begins. -/
def chainSecret (sk seed : List Byte) (a : Adrs) (i : Nat) : List Byte := hashAt seed { a with type := 5, w2 := i, w3 := 0 } sk

/-- A one-time public key: the ends of its 67 chains. -/
def ownKey (sk seed : List Byte) (a : Adrs) : List Byte :=
  hashAt seed { a with type := 1, w2 := 0, w3 := 0 }
    ((upto 67).flatMap (fun i => chain seed { a with type := 0, w2 := i, w3 := 0 } 15 0 (chainSecret sk seed a i)))

/-- A one-time signature of 32 bytes. -/
def chainSign (sk seed : List Byte) (a : Adrs) (m : List Byte) : List Byte :=
  (chainDigits m).zipIdx.flatMap (fun (e : Nat × Nat) =>
    chain seed { a with type := 0, w2 := e.2, w3 := 0 } e.1 0 (chainSecret sk seed a e.2))

/-- Node i of level z of a tree over leaves. -/
def treeNode (seed : List Byte) (a : Adrs) (leaf : Nat → List Byte) (z i : Nat) : List Byte :=
  match z with
  | 0 => leaf i
  | k + 1 => hashAt seed { a with w2 := k + 1, w3 := i } (treeNode seed a leaf k (2 * i) ++ treeNode seed a leaf k (2 * i + 1))

/-- The siblings on the way up from a leaf, over h levels. -/
def siblings (seed : List Byte) (a : Adrs) (leaf : Nat → List Byte) (h idx : Nat) : List Byte :=
  (upto h).flatMap (fun j => treeNode seed a leaf j (idx / 2 ^ j ^^^ 1))

/-- One layer's signature of 32 bytes. -/
def layerSign (sk seed : List Byte) (layer tree leaf : Nat) (m : List Byte) : List Byte :=
  chainSign sk seed { layer := layer, tree := tree, w1 := leaf } m ++
  siblings seed { layer := layer, tree := tree, type := 2 } (fun i => ownKey sk seed { layer := layer, tree := tree, w1 := i }) 8 leaf

/-- The signatures of n layers from one on. -/
def topSign (sk seed : List Byte) (n layer tree leaf : Nat) (m : List Byte) : List Byte :=
  match n with
  | 0 => []
  | k + 1 =>
    let x := layerSign sk seed layer tree leaf m
    x ++ topSign sk seed k (layer + 1) (tree / 2 ^ 8) (tree % 2 ^ 8) (layerRoot seed layer tree leaf x 0 m)

/-- The few-time signature of a digest. -/
def fewSign (sk seed : List Byte) (tree leaf : Nat) (md : List Byte) : List Byte :=
  let a : Adrs := { tree := tree, type := 3, w1 := leaf }
  let secret := fun (i : Nat) => hashAt seed { a with type := 6, w3 := i } sk
  (upto 22).flatMap (fun i =>
    let idx := i * 2 ^ 14 + digit md 14 i
    secret idx ++ siblings seed a (fun j => hashAt seed { a with w3 := j } (secret j)) 14 idx)

/-- The signature of a message under a private key of 128 bytes (secret seed, message key, public seed, root), with 32 bytes
of randomness, in the pure form with an empty context.
Log entry 9 (PRESUMED). -/
def slhSign (key rnd msg : List Byte) : List Byte :=
  let sk := key.take 32
  let seed := sub key 64 32
  let r := shake256 32 (sub key 32 32 ++ rnd ++ [0, 0] ++ msg)
  let d := shake256 47 (r ++ seed ++ sub key 96 32 ++ [0, 0] ++ msg)
  let tree := bigNat (sub d 39 7)
  let leaf := bigNat (sub d 46 1)
  let few := fewSign sk seed tree leaf (d.take 39)
  r ++ few ++ topSign sk seed 8 0 tree leaf (fewKey seed tree leaf few 0 (d.take 39))

end Sys2Proof.Machine
end

