-- ==== Sys2Proof/Machine/Records.lean ====
section
/-! DEFINITION. Launch records in host memory: their fields and tables, their images, and validation (R374, R375,
R380, R381). -/

namespace Sys2Proof.Machine

/-! ## Fields (R374) -/

/-- A number of n bytes of a record at an offset. -/
def recN (s : State) (a off n : Nat) : Nat := hostN s (a + off) n

/-- Counts and places of a record's tables. -/
def nDram (s : State) (a : Nat) : Nat := field (recN s a 0x34 4) 0 7
def nLink (s : State) (a : Nat) : Nat := field (recN s a 0x34 4) 8 7
def nPages (s : State) (a : Nat) : Nat := field (recN s a 0x34 4) 16 13
def dramOff (s : State) (a : Nat) : Nat := recN s a 0x30 4
def linkOff (s : State) (a : Nat) : Nat := recN s a 0x38 4
def pageOff (s : State) (a : Nat) : Nat := recN s a 0x3C 4
def imageOff (s : State) (a : Nat) : Nat := recN s a 0x40 4
def imageLen (s : State) (a : Nat) : Nat := recN s a 0x44 4
def discardOff (s : State) (a : Nat) : Nat := recN s a 0x48 4
def discardLen (s : State) (a : Nat) : Nat := recN s a 0x4C 4
def sigOff (s : State) (a : Nat) : Nat := recN s a 0x50 4
def sigLen (s : State) (a : Nat) : Nat := recN s a 0x54 4
def nImages (s : State) (a : Nat) : Nat := imageLen s a / 48

/-- The DRAM range, link range and page tables (R375). -/
def dramEntry (s : State) (a : Nat) : DRange :=
  { base := field (hostN s a 4) 0 27 * 2 ^ 21, limit := field (hostN s (a + 4) 4) 0 27 * 2 ^ 21, offset := field (hostN s (a + 8) 4) 0 27 * 2 ^ 21 }
def linkEntry (s : State) (a : Nat) : LRange :=
  { base := hostN s a 8, limit := hostN s (a + 8) 8, offset := hostN s (a + 16) 8, bar := field (hostN s (a + 24) 4) 0 18 }
def pageBits (k : Nat) : Nat := match k with
  | 0 => 12
  | 1 => 16
  | 2 => 21
  | _ => 30
def pageEntry (s : State) (a : Nat) : Page :=
  { va := hostN s a 8 / 4 * 4, bits := pageBits (hostN s a 8 % 4), pa := hostN s (a + 8) 8 }

/-- Entries of a table. -/
def tableOf {α : Type} (a n size : Nat) (f : Nat → α) : List α := (upto n).map (fun i => f (a + size * i))
def dramTable (s : State) (a : Nat) : List DRange := tableOf (a + dramOff s a) (nDram s a) 16 (dramEntry s)
def linkTable (s : State) (a : Nat) : List LRange := tableOf (a + linkOff s a) (nLink s a) 32 (linkEntry s)
def pageTable (s : State) (a : Nat) : List Page := tableOf (a + pageOff s a) (nPages s a) 16 (pageEntry s)

/-- Nonzero words of an image in host memory, as IMEM. -/
def imageWords (s : State) (a n : Nat) : SMap Word :=
  (upto n).filterMap (fun i => let w : Word := BitVec.ofNat 32 (hostN s (a + 4 * i) 4); if w = 0 then none else some (i, w))

/-- Nonzero bytes of an image in host memory, as data SRAM. -/
def imageBytes (s : State) (a n : Nat) : SMap Byte :=
  (upto n).filterMap (fun i => let b : Byte := mget 0 s.hostMem (a + i); if b = 0 then none else some (i, b))

/-- Lines that an image entry's discard map sets (R375, R360). -/
def discardLines (s : State) (a : Nat) : List Nat := (upto 10240).filter (fun l => bitN (hostN s (a + l / 8) 1) (l % 8))

/-- Entry i of the image map with its image (R375, R86).
Log entry 94 (DEDUCED). -/
def imageEntry (s : State) (a i : Nat) : Image :=
  let e := a + imageOff s a + 48 * i
  let x := hostN s e 4
  let y := hostN s (e + 4) 4
  { tx0 := field x 0 10, tx1 := field x 10 10, txs := field x 20 10 + 1, ty0 := field y 0 10, ty1 := field y 10 10, tys := field y 20 10 + 1,
    stage := field (hostN s (e + 8) 4) 0 8, imem := imageWords s (hostN s (e + 0x10) 8) (hostN s (e + 0x0C) 4),
    sram := imageBytes s (hostN s (e + 0x20) 8) (hostN s (e + 0x18) 4), sramLen := hostN s (e + 0x18) 4,
    discard := if discardLen s a = 0 then [] else discardLines s (a + discardOff s a + 1280 * i) }

/-- Bytes of host memory. -/
def hostBytes (s : State) (a n : Nat) : List Byte := sramBytes s.hostMem a n

/-- The images' bytes in the order of the image map (R381). -/
def allImageBytes (s : State) (a : Nat) : List Byte :=
  (upto (nImages s a)).flatMap (fun i =>
    let e := a + imageOff s a + 48 * i
    hostBytes s (hostN s (e + 0x10) 8) (4 * hostN s (e + 0x0C) 4) ++ hostBytes s (hostN s (e + 0x20) 8) (hostN s (e + 0x18) 4))

/-- The launch record at a host address (R374). -/
def readRec (s : State) (a : Nat) : LaunchRec :=
  let w0 := recN s a 0 4
  let w1 := recN s a 4 4
  { asid := field w0 18 14, first := field w0 14 4, count := field w0 10 4, prio := field w0 7 3, replay := bitN w0 6, raceBound := bitN w0 5,
    after := (upto (field w0 2 3)).map (fun i => recN s a (0x10 + 8 * i) 8), replayRun := bitN w0 1,
    auditPolicy := field w1 30 2, cap := field w1 12 10, stretch := field w1 6 6, auditOn := bitN w1 5, auditK := field w1 0 5,
    freezeLimit := recN s a 8 4, seed := BitVec.ofNat 32 (recN s a 0x0C 4),
    dram := dramTable s a, links := linkTable s a, pages := pageTable s a, images := (upto (nImages s a)).map (imageEntry s a),
    token := recN s a 0x58 8, replayLog := recN s a 0x60 8, replayLen := recN s a 0x68 4,
    digest := digest32 (hostBytes s (a + imageOff s a) (imageLen s a) ++ allImageBytes s a) }

/-! ## Validation (R380) -/

/-- Whether a table lies inside the record. -/
def fits (len off n : Nat) : Bool := n == 0 || decide (off + n ≤ len)

/-- The tables that reach past the record's length (code 2). -/
def tablesFit (s : State) (a len : Nat) : Bool :=
  fits len (dramOff s a) (16 * nDram s a) && fits len (linkOff s a) (32 * nLink s a) && fits len (pageOff s a) (16 * nPages s a) &&
  fits len (imageOff s a) (imageLen s a) && fits len (discardOff s a) (discardLen s a) && fits len (sigOff s a) (sigLen s a)

/-- A reserved bit, or a field outside its range, in a table that lies inside the record (R375). -/
def tableReserved (s : State) (a len : Nat) : Bool :=
  (fits len (dramOff s a) (16 * nDram s a) &&
    (tableOf (a + dramOff s a) (nDram s a) 16 id).any (fun e =>
      (upto 3).any (fun k => field (hostN s (e + 4 * k) 4) 27 5 != 0) || hostN s (e + 12) 4 != 0)) ||
  (fits len (linkOff s a) (32 * nLink s a) &&
    (tableOf (a + linkOff s a) (nLink s a) 32 id).any (fun e =>
      field (hostN s (e + 24) 4) 18 14 != 0 || hostN s (e + 28) 4 != 0 || decide (sramEnd ≤ field (hostN s (e + 24) 4) 0 18))) ||
  (fits len (imageOff s a) (imageLen s a) &&
    (tableOf (a + imageOff s a) (nImages s a) 48 id).any (fun e =>
      field (hostN s e 4) 30 2 != 0 || field (hostN s (e + 4) 4) 30 2 != 0 || field (hostN s (e + 8) 4) 8 24 != 0 ||
      hostN s (e + 0x28) 8 != 0 || hostN s (e + 0x0C) 4 == 0))

/-- The replay log buffer of a record (R374, R404). -/
def replayBad (r : LaunchRec) : Bool :=
  if r.replay || r.replayRun then r.replayLog % 4096 != 0 || r.replayLen % 4096 != 0 || decide (r.replayLen < 65536)
  else r.replayLog != 0 || r.replayLen != 0

/-- A field outside its range, or a reserved bit set (code 1). -/
def fieldsBad (s : State) (a len rsv : Nat) (r : LaunchRec) : Bool :=
  let w0 := recN s a 0 4
  let w1 := recN s a 4 4
  let w34 := recN s a 0x34 4
  a % 64 != 0 || decide (len < 128) || decide (2 ^ 24 < len) || rsv != 0 ||
  r.count == 0 || decide (12 < r.first + r.count) || decide (4 < field w0 2 3) || bitN w0 0 || (r.replay && r.replayRun) ||
  r.auditPolicy == 3 || field w1 22 8 != 0 || r.cap == 0 || decide (720 < r.cap) || decide (r.stretch < 8) || decide (60 < r.stretch) ||
  decide (16 < r.auditK) || r.freezeLimit == 0 ||
  (upto 4).any (fun i => decide (field w0 2 3 ≤ i) && recN s a (0x10 + 8 * i) 8 != 0) ||
  decide (64 < nDram s a) || bitN w34 7 || decide (64 < nLink s a) || bitN w34 15 || decide (4096 < nPages s a) || field w34 29 3 != 0 ||
  imageLen s a == 0 || imageLen s a % 48 != 0 || !(discardLen s a == 0 || discardLen s a == 1280 * nImages s a) ||
  !(sigLen s a == 0 || sigLen s a == 29792) || replayBad r ||
  (upto 20).any (fun k => recN s a (0x6C + k) 1 != 0) ||
  tableReserved s a len

/-- Whether the bytes at a host address are a log entry of R404: a type that is written, its length, and reserved
bits that are 0; bits that R404 gives to no field are not looked at.
Log entry 55 (DEDUCED). -/
def entryFormed (s : State) (a : Nat) : Bool :=
  let ty := hostN s a 1
  ty != 0 && decide (ty ≤ 5) && hostN s (a + 1) 1 == logUnits ty && hostN s (a + 2) 2 == 0 && (ty != 1 || hostN s (a + 0x18) 8 == 0)

/-- Whether a log's bytes are entries of R404, one after another. -/
def logFormed (fuel : Nat) (s : State) (a left : Nat) : Bool :=
  match fuel with
  | 0 => left == 0
  | k + 1 =>
    let n := 16 * hostN s (a + 1) 1
    left == 0 || (entryFormed s a && decide (n ≤ left) && logFormed k s (a + n) (left - n))

/-- Whether a replay launch's buffer may be replayed (R404): its marker and version, reserved bits that are 0 (R8), room
for the divergence record, and entries as R404 lays them out.
Log entry 55 (DEDUCED). -/
def replayHeader (s : State) (r : LaunchRec) : Bool :=
  let len := hostN s (r.replayLog + 0x10) 8
  !r.replayRun ||
  (hostN s r.replayLog 4 == 0xD7C5 * 2 ^ 16 + 1 && hostN s (r.replayLog + 4) 4 / 2 == 0 && hostN s (r.replayLog + 0x18) 8 == 0 &&
    decide (64 + len + 80 ≤ r.replayLen) && logFormed (len / 16) s (r.replayLog + 64) len)

/-- A DRAM limit at or below its base, or a misaligned entry (code 3). -/
def entriesBad (r : LaunchRec) : Bool :=
  r.dram.any (fun e => decide (e.limit ≤ e.base)) ||
  r.links.any (fun e => e.base % 4096 != 0 || e.limit % 4096 != 0 || e.offset % 4096 != 0 || e.bar % 16 != 0) ||
  r.pages.any (fun e => e.va % 2 ^ e.bits != 0 || e.pa % 2 ^ e.bits != 0)

/-- The numbers first, first + step, … up to last (R86). -/
def steps (first last step : Nat) : List Nat := if last < first then [] else (upto ((last - first) / step + 1)).map (fun k => first + step * k)

/-- Tiles of an image entry (R86). -/
def imageTiles (i : Image) : List Nat := (steps i.ty0 i.ty1 i.tys).flatMap (fun y => (steps i.tx0 i.tx1 i.txs).map (fun x => tileIdx x y))

/-- Whether two entries name one tile. -/
def sharesTile (i j : Image) : Bool :=
  (steps i.tx0 i.tx1 i.txs).any (fun x => (steps j.tx0 j.tx1 j.txs).any (fun y => x == y)) &&
  (steps i.ty0 i.ty1 i.tys).any (fun x => (steps j.ty0 j.ty1 j.tys).any (fun y => x == y))

/-- Whether two entries of a list name one tile. -/
def anyShared (l : List Image) : Bool :=
  match l with
  | [] => false
  | i :: r => r.any (sharesTile i) || anyShared r

/-- Overlapping tiles, a coordinate outside the band, or an image too large (code 4). -/
def imagesBad (s : State) (a : Nat) (r : LaunchRec) : Bool :=
  anyShared r.images ||
  r.images.any (fun i => (steps i.tx0 i.tx1 i.txs).any (fun x => decide (64 * r.count ≤ x)) || (steps i.ty0 i.ty1 i.tys).any (fun y => decide (ph ≤ y))) ||
  (tableOf (a + imageOff s a) (nImages s a) 48 id).any (fun e => decide (8192 < hostN s (e + 0x0C) 4) || decide (sramEnd < hostN s (e + 0x18) 4))

/-- The message that a record's signature is made on: a digest of 64 bytes (R381). -/
def signedMessage (s : State) (a len : Nat) : List Byte :=
  let bytes := (upto len).map (fun i =>
    if (sigOff s a ≤ i ∧ i < sigOff s a + sigLen s a) ∨ (0x58 ≤ i ∧ i < 0x60) then (0 : Byte) else mget 0 s.hostMem (a + i))
  shake256 64 (bytes ++ allImageBytes s a)

/-- A signature that is required and absent, or that fails to verify (code 5).
Log entry 9 (PRESUMED). -/
def signatureBad (s : State) (a len : Nat) (r : LaunchRec) : Bool :=
  let e := (mget 0 s.tenants r.asid).toNat
  let key := sramBytes s.keys (64 * field e 0 8) 64
  if sigLen s a = 0 then bitN e 15
  else !slhVerify key (signedMessage s a len) (hostBytes s (a + sigOff s a) (sigLen s a))

/-- ASIDs of the live launches. -/
def liveAsids (s : State) : List Nat := s.ctxs.foldl (fun l c => sinsert l c.rec_.asid) []

/-- The refusal code of a record, if it is refused: the lowest that applies (R380).
Log entry 55 (DEDUCED). -/
def refusalOf (s : State) (a len rsv : Nat) (r : LaunchRec) : Option Nat :=
  if fieldsBad s a len rsv r then some 1
  else if !tablesFit s a len || !replayHeader s r then some 2
  else if entriesBad r then some 3
  else if imagesBad s a r then some 4
  else if signatureBad s a len r then some 5
  else if decide (16384 ≤ (liveAsids s).length) && !smem (liveAsids s) r.asid then some 6
  else if r.token == 0 || (ctxOf s r.token).isSome then some 7
  else none

end Sys2Proof.Machine
end

