-- ==== Sys2Proof/Machine/Hub.lean ====
section
/-! DEFINITION. The hub: kicks and submission, placement, the start, completion and cancellation of launches,
completion records, attestation and take-over (R290, R376 to R392, R402 to R404). -/

namespace Sys2Proof.Machine

/-! ## Kicks and submission (R376, R377) -/

/-- Change a queue's descriptor. -/
def onQueue (s : State) (q : Nat) (f : Queue → Queue) : State := { s with queues := mput s.queues q (f (getQueue s q)) }

/-- A write of q to KICK sets its pending bit (R377). -/
def setKick (s : State) (q : Nat) : State := if s.powered then { s with kicks := sinsert s.kicks q } else s

/-- R377: the host kicks a queue. -/
def execKick (q : BitVec 12) (s : State) : Result := .next (setKick s q.toNat)

/-- Whether a launch names a column of a faulted band (R386). -/
def namesFaulted (s : State) (r : LaunchRec) : Bool := (colsOf r).any (smem s.bandFault)

/-- A record that never becomes a launch: its completion record. Its token has ended, unless a live launch holds
it. -/
def rejectRec (s : State) (q token status refusal : Nat) : State :=
  let d : Completion := { queue := q, token := token, status := status, refusal := refusal, wall := wallOf s.edge }
  if token = 0 ∨ (ctxOf s token).isSome then { s with done := s.done ++ [d] } else endToken s d

/-- A validated record becomes a live launch (R382). -/
def enrol (s : State) (q : Nat) (r : LaunchRec) : State :=
  { s with ctxs := s.ctxs ++ [{ rec_ := r, queue := q, st := (afterState s r).1, since := s.edge, saved := none }] }

/-- Take one submission entry (R376, R380, R386).
Log entry 55 (DEDUCED). -/
def takeEntry (s : State) (q k : Nat) : State :=
  let d := getQueue s q
  let e := d.ringBase + 16 * (k % 2 ^ d.ringLog2)
  let a := hostN s e 8
  let len := hostN s (e + 8) 4
  let r := readRec s a
  match refusalOf s a len (hostN s (e + 12) 4) r with
  | some c => rejectRec s q r.token 3 c
  | none =>
    if namesFaulted s r then rejectRec s q r.token 5 0
    else if (afterState s r).2 then rejectRec s q r.token 4 0
    else enrol s q r

/-- Whether a queue's ring can be read: its size is one that R376 allows.
Log entry 57 (DEDUCED). -/
def ringReadable (d : Queue) : Bool := decide (4 ≤ d.ringLog2) && decide (d.ringLog2 ≤ 16) && d.ringBase % 4096 == 0

/-- The intent to advance a queue's head that the journal holds. -/
def headIntent (s : State) (q : Nat) : Option Nat :=
  s.journal.findSome? (fun e =>
    match e.what with
    | .setHead q1 n => if q1 = q ∧ !e.committed then some n else none
    | .completion _ | .start _ _ | .stop _ _ _ | .release _ => none)

/-- The hub clears the bit, reads tail, and consumes the entries from head to tail; their placement is looked at
(R377, R384). -/
def takeKick (s : State) (q : BitVec 12) : State :=
  let s0 : State := { s with kicks := sremove s.kicks q.toNat }
  let d := getQueue s0 q.toNat
  let n := (d.tail + 2 ^ 32 - d.head) % 2 ^ 32
  if d.st ≠ 1 then s0
  else if !ringReadable d then onQueue s0 q.toNat (fun d => { d with st := 2 })
  else if n = 0 then agendaAdd s0 (passes s0)
  else
    let s1 := forN n (fun i s => takeEntry s q.toNat (d.head + i)) s0
    let s2 := again (intend s1 (.setHead q.toNat d.tail)) (.kickService q)
    agendaAdd s2 (passes s2)

/-- R377: a kick is taken, and the head advances when the journal has it (R391).
Log entry 58 (DEDUCED). -/
def execKickService (q : BitVec 12) (s : State) : Result :=
  match headIntent s q.toNat with
  | some n => .next (onQueue (commit s (.setHead q.toNat n)) q.toNat (fun d => { d with head := n }))
  | none => .next (takeKick s q)

/-! ## Placement (R383, R384) -/

/-- Effective priority of a candidate (R383): one more for each 200 ms it has waited. -/
def effPrio (s : State) (c : Ctx) : Nat := minN 7 (c.rec_.prio + (s.edge - c.since) / 260000000)

/-- Place in the round-robin order of a priority: the queue after the last placed comes first (R384). -/
def robin (s : State) (c : Ctx) : Nat := (c.queue + 4095 - mget 4095 s.lastQ (effPrio s c)) % 4096

/-- A candidate of a placement pass (R384). -/
def isCandidate (c : Ctx) : Bool := c.st == .eligible || c.st == .swapped

/-- The candidates in their order.
Log entry 68 (DEDUCED). -/
def candidates (s : State) : List Ctx :=
  sortBy (fun a b => decide (effPrio s b < effPrio s a) || (effPrio s a == effPrio s b && decide (robin s a ≤ robin s b))) (s.ctxs.filter isCandidate)

/-- Whether two lists of columns meet. -/
def colsMeet (a b : List Nat) : Bool := a.any (smem b)

/-- Columns that placed launches claim. -/
def claimed (s : State) : List Nat := (s.ctxs.filter isComing).flatMap (fun c => colsOf c.rec_)

/-- Resident launches on any of some columns. -/
def onCols (s : State) (cs : List Nat) : List Part := (s.parts.map Prod.snd).filter (fun p => colsMeet (colsOf p.rec_) cs)

/-- A resident launch gives way to a candidate: lower priority, or equal with an expired quantum (R383, R384). -/
def givesWay (eff : Nat) (p : Part) : Bool := decide (p.rec_.prio < eff) || (p.rec_.prio == eff && p.expired)

/-- Whether two live launches have one row of one stack (R363). -/
def rowsMeet (s : State) (a b : Ctx) : Bool :=
  colsMeet (colsOf a.rec_) (colsOf b.rec_) && (upto 32768).any (fun row => ownsRow s a row && ownsRow s b row)

/-- The sum of power caps that a candidate would make, with those it pre-empts left out (R384). -/
def capSum (s : State) (c : Ctx) : Nat :=
  let cs := claimed s ++ colsOf c.rec_
  c.rec_.cap + ((s.ctxs.filter isComing).foldl (fun a x => a + x.rec_.cap) 0) +
  (((s.parts.map Prod.snd).filter (fun p => !colsMeet (colsOf p.rec_) cs)).foldl (fun a p => a + p.rec_.cap) 0)

/-- Whether a candidate can be placed now (R363, R384). -/
def placeable (s : State) (c : Ctx) : Bool :=
  !colsMeet (colsOf c.rec_) (claimed s) &&
  (onCols s (colsOf c.rec_)).all (givesWay (effPrio s c)) &&
  decide (capSum s c ≤ s.budget) &&
  !s.ctxs.any (fun x => x.rec_.token != c.rec_.token && reserves x && rowsMeet s x c) && saveReady s c

/-- Consider one candidate: on a faulted band it ends with status 5 (R386, R414); otherwise it is placed where it
can be, and its save area is reserved (R363).
Log entry 60 (DEDUCED). -/
def consider (s : State) (c : Ctx) : State :=
  if namesFaulted s c.rec_ then
    match c.saved with
    | some p => endSaved s c p 5
    | none => endToken s { queue := c.queue, token := c.rec_.token, status := 5, wall := wallOf s.edge }
  else if placeable s c then
    let eff := effPrio s c
    let s1 := onCtx s c.rec_.token (fun x => { x with st := if c.st == .swapped then .restoring else .loading, saveRow := placeSave s c })
    { s1 with lastQ := mput s1.lastQ eff c.queue }
  else s

/-- Stops of the launches that stand in the way of a placed one (R384, R385). -/
def armStops (s : State) : List Instr :=
  (onCols s (claimed s)).filterMap (fun p =>
    if !(p.stop.any (fun st => hasReq st .preempt 0)) && p.mode != .failed then some (.preemptArm p.first 0 .preempt) else none)

/-- R384: a placement pass; one that places a launch, which changes its state, brings another. -/
def execPlacementPass (s : State) : Result :=
  if !s.status.ready then .next s
  else
    let s1 := (candidates s).foldl consider s
    let placed := s1.ctxs.any (fun c => isComing c && !s.ctxs.any (fun x => x.rec_.token == c.rec_.token && isComing x))
    .next (agendaAdd s1 (armStops s1 ++ if placed then passes s1 else []))

/-- R383: a resident launch's quantum has expired. -/
def execQuantumExpiry (band : Nat) (s : State) : Result := .next (onPart s band (fun p => { p with expired := true }))

/-! ## Launch start (R290, R375, R402 to R404) -/

/-- A tile at GCYC 0 with its image (R11, R86). -/
def imageTile (r : LaunchRec) (i : Image) (idx : Nat) : Tile :=
  { freshTile r idx with imem := i.imem, sram := i.sram, stage := BitVec.ofNat 8 i.stage, discard := i.discard }

/-- The tiles that images name. -/
def imagesTiles (r : LaunchRec) : SMap Tile :=
  r.images.foldl (fun m i => (imageTiles i).foldl (fun m idx => mput m idx (imageTile r i idx)) m) []

/-- The byte of DRAM at a virtual address of a sheet column and rim, where an entry maps it (R209, R322). -/
def rangeByte (s : State) (e : DRange) (col rim va : Nat) : List Byte :=
  let row := (va + e.offset) % 2 ^ 48 / 2 ^ 21
  if 32767 < row then [] else [mget 0 s.dram (burstAddr 0 (vaPchan va + 32 * rim + 64 * col) (vaBank va) row (vaCol va) + va % 64)]

/-- The bytes of a launch's DRAM ranges: by sheet column, rim, range entry and address (R402).
Log entry 9 (PRESUMED). -/
def rangeBytes (s : State) (r : LaunchRec) : List Byte :=
  (colsOf r).flatMap (fun col => (upto 2).flatMap (fun rim => r.dram.flatMap (fun e =>
    (upto (e.limit - e.base)).flatMap (fun i => rangeByte s e col rim (e.base + i)))))

/-- The digest of a launch's DRAM ranges (R402). -/
def dramDigest (s : State) (r : LaunchRec) : Nat := digest32 (rangeBytes s r)

/-- The header of a replay log that begins (R404). -/
def logHeader (token digest : Nat) : List Byte :=
  bytesOf 4 (0xD7C5 * 2 ^ 16 + 1) ++ bytesOf 4 0 ++ bytesOf 8 token ++ bytesOf 8 0 ++ bytesOf 8 0 ++ bytesOf 32 digest

/-- One entry of a log in host memory. -/
def logEntryAt (s : State) (a : Nat) : LogEntry :=
  let ty := hostN s a 1
  { ty := ty, tile := field (hostN s (a + 4) 4) 0 20, gcyc := hostN s (a + 8) 8,
    payload :=
      if ty = 1 then [(0x10, 4, hostN s (a + 0x10) 4), (0x14, 4, hostN s (a + 0x14) 4), (0x20, 16, hostN s (a + 0x20) 16)]
      else if ty = 2 then [(0x10, 8, hostN s (a + 0x10) 8)] else [(0x10, 4, hostN s (a + 0x10) 4)] }

/-- The entries of a log in host memory. -/
def logEntries (fuel : Nat) (s : State) (a left : Nat) : List LogEntry :=
  match fuel with
  | 0 => []
  | k + 1 =>
    let n := 16 * hostN s (a + 1) 1
    if n = 0 ∨ left < n then [] else logEntryAt s a :: logEntries k s (a + n) (left - n)

/-- Slots that fill the first cycle of the tiles that no image names: each issues HALT (R86, R387). -/
def startCounts (r : LaunchRec) : SMap Nat :=
  let n := 50176 * r.count - (imagesTiles r).length
  if n = 0 then [] else [(7, n)]

/-- Energy of the bank accesses with which the images are brought into data SRAM: one for each line of each tile that they
name (R387).
Log entry 10 (DESIGN CHOICE). -/
def loadEnergy (s : State) (r : LaunchRec) : Nat :=
  coef s 9 * r.images.foldl (fun a i => a + (imageTiles i).length * cdiv i.sramLen 16) 0

/-- The partition of a launch at GCYC 0 (R290). -/
def startPart (s : State) (c : Ctx) : Part :=
  let r := c.rec_
  let len := hostN s (r.replayLog + 0x10) 8
  let log := if r.replayRun then logEntries (len / 16) s (r.replayLog + 64) len else []
  let p : Part := {
    first := r.first, count := r.count, rec_ := r, queue := c.queue, tiles := imagesTiles r, startEdge := s.edge, quantum := s.edge,
    logOpen := r.replay, replay := log,
    divergeAt := if r.replayRun then
        some (r.replayLog + 64 + len,
          if bitN (hostN s (r.replayLog + 4) 4) 0 then none else some ((log.getLast?.map (fun e => e.gcyc)).getD 0))
      else none,
    energy := c.energy, resid := c.resid,
    activity := startCounts r }
  if r.replay then { p with stageRow := placeRows s p (Config.stageRow r.asid) r.replayLen } else p

/-- Whether a replay launch's DRAM is as it was recorded (R403).
Log entry 56 (DEDUCED). -/
def digestAgrees (s : State) (r : LaunchRec) : Bool :=
  !r.replayRun || hostN s (r.replayLog + 0x20) 32 == dramDigest s r

/-- The alignment exchange of a start, with the copies of GCYC that are not what the hub set (R290): the first tile
that finds a difference, and its detail (R291).
Log entry 43 (DEDUCED). -/
def startAlign (p : Part) (skews : List (Nat × Int)) : Option (Nat × Nat) :=
  let q := skews.foldl (fun p k => if inBand p (tx k.1) (ty k.1) then modTile p k.1 (fun t => { t with skew := k.2 }) else p) p
  (alignSuspects q).findSome? (fun i => (misaligned q i [0, 1, 2, 3]).map (fun d => (i, 8 + alignDetail i d false)))

/-- A live launch once it has been charged for its load (R387), with the state after the charge. -/
def chargeLoad (s : State) (c : Ctx) : State × Ctx :=
  let s1 := chargeImage s c (loadEnergy s c.rec_)
  (s1, (ctxOf s1 c.rec_.token).getD c)

/-- A loaded launch starts on its free band, unless the alignment exchange fails: then no bundle issues and its
columns are faulted (R290, R386). -/
def startOn (sa : State) (ca : Ctx) (skews : List (Nat × Int)) : State :=
  let s := (chargeLoad sa ca).1
  let c := (chargeLoad sa ca).2
  let p := startPart s c
  match startAlign p skews with
  | some (tile, detail) =>
    let s1 : State := { s with bandFault := (colsOf p.rec_).foldl sinsert s.bandFault }
    endToken s1 { queue := c.queue, token := c.rec_.token, status := 7, align_ := detail, tile := tile, energy := c.energy, wall := wallOf s.edge }
  | none =>
    let s1 := if c.rec_.replay then hostPut s c.rec_.replayLog (logHeader c.rec_.token (dramDigest s c.rec_)) else s
    let s2 := setPart s1 p
    let s3 := onCtx { s2 with pending := s2.pending ++ [p.first] } c.rec_.token (fun x => { x with st := .running })
    let s4 := applyDebug s3 p.first
    agendaAdd s4 (passes s4)

/-- R290, R382: loading has ended and GCYC 0 issues; loading lasts at least until the launches in the way are
gone and its power is free (R384, R413). A replay
launch whose DRAM digest differs is refused with divergence at GCYC 0 (R403). The journal has the start first (R391).
Log entry 2 (DESIGN CHOICE).
Log entry 54 (DEDUCED).
Log entry 58 (DEDUCED). -/
def execLaunchStart (test : StartTest) (s : State) : Result :=
  match ctxOf s test.token.toNat with
  | none => .next s
  | some c =>
    if c.st != .loading then .next s
    else if !(onCols s (colsOf c.rec_)).isEmpty || !fitsBudget s c.rec_ then .next (again s (.launchStart test))
    else if digestAgrees s c.rec_ then
      .next (journaledBy s (.start c.rec_.token test.skews) (.launchStart test) (fun s => startOn s c test.skews))
    else
      let at_ := c.rec_.replayLog + 64 + hostN s (c.rec_.replayLog + 0x10) 8
      let x := chargeLoad s c
      let s1 := hostPut x.1 at_ (List.replicate 80 0)
      .next (endToken s1 { queue := c.queue, token := test.token.toNat, status := 3, refusal := 2, energy := x.2.energy, wall := wallOf s.edge })

/-! ## Completion and cancellation (R245, R378, R382) -/

/-- R245: a launch completes; a mismatch may fail it by its audit policy (R374). The journal has the release of its
band first (R391).
Log entry 50 (DEDUCED).
Log entry 58 (DEDUCED). -/
def execLaunchCompletion (band : Nat) (s : State) : Result :=
  match getPart s band with
  | none => .next s
  | some p =>
    .next (journaled s (.release p.rec_.token) (fun s =>
      let q := abandonUnits p
      endLaunch (setPart s q) q (if q.audPolicyFail && q.rec_.auditPolicy != 0 then 9 else 0) (q.lastPerf + 1)))

/-- The 64 bytes of a completion record (R378). -/
def completionBytes (c : Completion) : List Byte :=
  bytesOf 8 c.token ++ bytesOf 1 c.status ++ bytesOf 1 c.refusal ++ bytesOf 2 c.evtDropped ++ bytesOf 4 c.landings ++
  bytesOf 4 c.evc.toNat ++ bytesOf 2 c.epc.toNat ++ bytesOf 2 c.done.toNat ++ bytesOf 8 c.gcycEnd ++ bytesOf 8 c.energy ++
  (upto 6).flatMap (fun i => bytesOf 2 (c.audit.getD i 0)) ++
  bytesOf 4 (field c.align_ 0 5 * 2 ^ 27 + ty c.tile * 1024 + tx c.tile) ++ bytesOf 8 c.wall

/-- R378: one completion record goes to its queue's ring, which has room, when the journal has it (R391).
Log entry 58 (DEDUCED). -/
def execCompletionRecordWrite (s : State) : Result :=
  match s.done.find? (ringRoom s) with
  | none => .next s
  | some c =>
    .next (journaled s (.completion c) (fun s =>
      let d := getQueue s c.queue
      let s1 := hostPut s (d.cqBase + 64 * (d.cqTail % 2 ^ d.cqLog2)) (completionBytes c)
      onQueue { s1 with done := s1.done.erase c } c.queue (fun d => { d with cqTail := (d.cqTail + 1) % 2 ^ 32 })))

/-- R382: the host cancels a waiting, eligible or swapped launch. -/
def execLaunchCancel (token : BitVec 64) (s : State) : Result :=
  match ctxOf s token.toNat with
  | none => .next s
  | some c =>
    if c.st == .waiting || c.st == .eligible then .next (endToken s { queue := c.queue, token := token.toNat, status := 8, wall := wallOf s.edge })
    else
      match c.st == .swapped, c.saved with
      | true, some p => .next (endSaved s c p 8)
      | _, _ => .next s

/-! ## Attestation and take-over (R390 to R392) -/

/-- R390: a report on a live launch, signed with the module's identity key.
Log entry 9 (PRESUMED). -/
def execAttestationReport (token nonce : BitVec 64) (s : State) : Result :=
  match ctxOf s token.toNat with
  | none => .next s
  | some c =>
    let fw := digest32 (bytesOf (s.store.firmware.log2 / 8 + 1) s.store.firmware)
    let msg := bytesOf 4 s.moduleId ++ bytesOf 8 nonce.toNat ++ bytesOf 32 fw ++ bytesOf 2 c.rec_.asid ++ bytesOf 8 token.toNat ++
      bytesOf 32 c.rec_.digest
    let sig := ofBytes (slhSign (bytesOf 128 s.store.key) (bytesOf 32 (Config.signRandom s.freeCtr).toNat) msg)
    .next (sendOut (drawFree s) (.report s.moduleId nonce.toNat fw c.rec_.asid token.toNat c.rec_.digest sig))

/-- The step that leaves a launch's band: of one that failed or is pre-empted, or of one that is complete. -/
def releaseStep (s : State) (token : Nat) : List Instr :=
  ((s.parts.filter (fun e => e.2.rec_.token == token)).map (fun e =>
    if e.2.mode == .failed || preempted e.2 then Instr.bandRelease e.1 else .launchCompletion e.1))

/-- The band of a resident launch. -/
def bandsOf (s : State) (token : Nat) : List Nat := (s.parts.filter (fun e => e.2.rec_.token == token)).map Prod.fst

/-- The step that redoes an intent of the journal, which it then commits (R391, R392): each is idempotent. -/
def redo (s : State) (e : JEntry) : List Instr :=
  if e.committed then []
  else
    match e.what with
    | .setHead q _ => [.kickService (BitVec.ofNat 12 q)]
    | .completion _ => [.completionRecordWrite]
    | .start token skews => [.launchStart { token := BitVec.ofNat 64 token, skews := skews }]
    | .stop token s_ why =>
      match why with
      | some w => (bandsOf s token).map (fun b => .preemptArm b s_ w)
      | none => []
    | .release token => releaseStep s token

/-- R392: the standby core redoes the intents, scans bitmap and tails again and takes the kicks that it finds, and resumes
placement.
Log entry 58 (DEDUCED). -/
def execCoreTakeover (s : State) : Result :=
  if !s.status.standby then .next s
  else
    let late := (s.queues.filter (fun e => e.2.st == 1 && e.2.tail != e.2.head)).map Prod.fst
    let kicks := late.foldl sinsert s.kicks
    .next { s with
      status := { s.status with core := !s.status.core, standby := false }, kicks := kicks,
      agenda := s.journal.flatMap (redo s) ++ kicks.map (fun q => .kickService (BitVec.ofNat 12 q)) ++ passes s ++ s.agenda }

end Sys2Proof.Machine
end

