-- ==== Sys2Proof/Machine/LoadStore.lean ====
section
/-! DEFINITION. The LD and ST slots (R161 to R166, R170, R171), and the landing of results (R257, R27). -/

namespace Sys2Proof.Machine

/-- Detail 0x0001 of the first element address past the data SRAM (R161). -/
def addrBad (as : List Nat) : Option Nat := det1 (as.any (fun a => decide (sramEnd ≤ a)))

/-- Bits that an E-byte access clears (R161). -/
def sizeBits (n : Nat) : Nat := Nat.log2 n

/-- The element addresses of a strided access (R161). -/
def stridedAddrs (base : Word) (off : BitVec 18) (stride : Word) (n : Nat) : List Nat :=
  (upto (16 / n)).map (fun i => effAddr base (off18 off) (((i : Nat) : Int) * stride.toInt) (sizeBits n))

/-- The four element addresses of a gathered or scattered access (R161). -/
def indexedAddrs (base : Word) (off : Int) (vi : Line) : List Nat :=
  (upto 4).map (fun i => effAddr base off (sgn 32 (elem 32 vi i)) 2)

/-- A load (R162): its element addresses and the bytes of each; every load lands at t + 3. -/
def loadSlot (i : Instr) (gu : Guard) (reads : Tile → List Nat) (addrs : Tile → List Nat) (n : Nat)
    (f : Tile → List Nat → Dest) (s : State) : Result :=
  runSlot i
    (fun _ t => {
      sl := .ld, gu := gu, check := addrBad (addrs t), reads := reads t, lines := addrs t, mreads := (addrs t).map (fun a => (a, n)) })
    (fun _ t s => result s .ld 3 (f t ((addrs t).map (fun a => readN t a n))) 0) s

/-- A vector load's destination from its element values. -/
def loadV (t : Tile) (d : BitVec 11) (n : Nat) (xs : List Nat) : Dest := .v (vphys t.loop d.toNat) (lineOf (8 * n) xs)

/-- R162: LDV. -/
def execLdv (gu : Guard) (d : BitVec 11) (gB : BitVec 5) (off : BitVec 18) (s : State) : Result :=
  loadSlot (.ldv gu d gB off) gu (fun _ => [codeG gB.toNat]) (fun t => [effAddr (rg t gB.toNat) (off18 off) 0 4]) 16
    (fun t xs => loadV t d 16 xs) s

/-- R162: LDVS strided. -/
def execLdvsStrided (gu : Guard) (d : BitVec 11) (gB : BitVec 5) (off : BitVec 18) (gs : BitVec 5) (esz : BitVec 2) (s : State) : Result :=
  loadSlot (.ldvsStrided gu d gB off gs esz) gu (fun _ => [codeG gB.toNat, codeG gs.toNat])
    (fun t => stridedAddrs (rg t gB.toNat) off (rg t gs.toNat) (2 ^ esz.toNat)) (2 ^ esz.toNat)
    (fun t xs => loadV t d (2 ^ esz.toNat) xs) s

/-- R162: LDVS gathered. -/
def execLdvsGathered (gu : Guard) (d : BitVec 11) (gB : BitVec 5) (off : BitVec 18) (vi : BitVec 11) (s : State) : Result :=
  loadSlot (.ldvsGathered gu d gB off vi) gu (fun t => [codeG gB.toNat, codeV t vi])
    (fun t => indexedAddrs (rg t gB.toNat) (off18 off) (vop t vi)) 4 (fun t xs => loadV t d 4 xs) s

/-- R162: LDG. -/
def execLdg (gu : Guard) (gd gB : BitVec 5) (off : BitVec 18) (s : State) : Result :=
  loadSlot (.ldg gu gd gB off) gu (fun _ => [codeG gB.toNat]) (fun t => [effAddr (rg t gB.toNat) (off18 off) 0 2]) 4
    (fun _ xs => .g gd.toNat (BitVec.ofNat 32 (xs.headD 0))) s

/-- R162: LDB. -/
def execLdb (gu : Guard) (d : BitVec 11) (gB : BitVec 5) (off : BitVec 18) (esz : BitVec 2) (s : State) : Result :=
  loadSlot (.ldb gu d gB off esz) gu (fun _ => [codeG gB.toNat])
    (fun t => [effAddr (rg t gB.toNat) (off18 off) 0 esz.toNat]) (2 ^ esz.toNat)
    (fun t xs => loadV t d (2 ^ esz.toNat) ((upto (16 / 2 ^ esz.toNat)).map (fun _ => xs.headD 0))) s

/-- R162: LDQ. -/
def execLdq (gu : Guard) (qd : BitVec 4) (gB : BitVec 5) (off : BitVec 18) (s : State) : Result :=
  loadSlot (.ldq gu qd gB off) gu (fun _ => [codeG gB.toNat]) (fun t => [effAddr (rg t gB.toNat) (off18 off) 0 0]) 1
    (fun _ xs => .q qd.toNat (bitN (xs.headD 0) 0)) s

/-- R162: LDM. -/
def execLdm (gu : Guard) (md : BitVec 3) (gB : BitVec 5) (off : BitVec 18) (s : State) : Result :=
  loadSlot (.ldm gu md gB off) gu (fun _ => [codeG gB.toNat]) (fun t => [effAddr (rg t gB.toNat) (off18 off) 0 1]) 2
    (fun _ xs => .m md.toNat (BitVec.ofNat 16 (xs.headD 0))) s

/-! ## Stores (R164) -/

/-- One element of a store: its address, its bytes and the mask of those written. -/
structure StoreEl where
  addr : Nat
  bytes : List Byte
  mask : Nat
  deriving DecidableEq, Repr

/-- The byte that a store's elements write at an address, the element of higher index prevailing (R164). -/
def storedAt (es : List StoreEl) (a : Nat) : Option Byte :=
  es.foldl (fun o e =>
    if e.addr ≤ a ∧ a < e.addr + e.bytes.length ∧ bitN e.mask (a - e.addr) then some (e.bytes.getD (a - e.addr) 0) else o) none

/-- The bytes of a line that a store writes, and which. -/
def storedLine (es : List StoreEl) (line : Nat) : Line :=
  lineOf 8 ((upto 16).map (fun i => ((storedAt es (line + i)).getD 0).toNat))
def storedMask (es : List StoreEl) (line : Nat) : BitVec 16 :=
  BitVec.ofBoolListLE ((upto 16).map (fun i => (storedAt es (line + i)).isSome))

/-- Lines that a store writes, ascending in the order of its elements, each once; an element of which no
byte is written makes no access (R164).
Log entry 11 (DEDUCED). -/
def storeLines (es : List StoreEl) : List Nat :=
  (es.filter (fun e => decide (e.mask ≠ 0))).foldl (fun l e => if smem l (lineOfAddr e.addr) then l else l ++ [lineOfAddr e.addr]) []

/-- Write a store's elements: one access per line (R164). -/
def storeAll (t : Tile) (es : List StoreEl) : Tile :=
  (storeLines es).foldl (fun t line => writeMasked t line (storedLine es line) (storedMask es line)) t

/-- A store (R164): the bank is written at issue.
Log entry 29 (DEDUCED). -/
def storeSlot (i : Instr) (gu : Guard) (reads : Tile → List Nat) (els : Tile → List StoreEl) (s : State) : Result :=
  runSlot i
    (fun _ t =>
      let es := els t
      { sl := .st, gu := gu, check := addrBad (es.map (fun e => e.addr)), reads := reads t, lines := storeLines es,
        watch := es.map (fun e => (e.addr, e.bytes.length, e.mask)),
        auWrites := (es.filter (fun e => decide (e.mask ≠ 0))).map (fun e => (e.addr, e.bytes.length)) })
    (fun _ t s =>
      onPart s s.cur.band (fun p =>
        modTile (if poolBase ≤ s.cur.idx then p else performedNext p) s.cur.idx (fun u => storeAll u (els t)))) s

/-- The one element of a whole-line store. -/
def lineEl (a : Nat) (x : Line) (mask : Nat) : List StoreEl := [{ addr := a, bytes := bytesOf 16 x.toNat, mask := mask }]

/-- The four elements of a scatter, with four mask bits each (R164). -/
def scatterEls (as : List Nat) (x : Line) (mask : Nat) : List StoreEl :=
  (upto 4).map (fun i => { addr := as.getD i 0, bytes := bytesOf 4 (elem 32 x i), mask := field mask (4 * i) 4 })

/-- R164: STV with an offset. -/
def execStvOffset (gu : Guard) (vs : BitVec 11) (gB : BitVec 5) (off : BitVec 18) (s : State) : Result :=
  storeSlot (.stvOffset gu vs gB off) gu (fun t => [codeV t vs, codeG gB.toNat])
    (fun t => lineEl (effAddr (rg t gB.toNat) (off18 off) 0 4) (vop t vs) 0xFFFF) s

/-- R164: STV scattered. -/
def execStvScatter (gu : Guard) (vs : BitVec 11) (gB : BitVec 5) (vi : BitVec 11) (s : State) : Result :=
  storeSlot (.stvScatter gu vs gB vi) gu (fun t => [codeV t vs, codeG gB.toNat, codeV t vi])
    (fun t => scatterEls (indexedAddrs (rg t gB.toNat) 0 (vop t vi)) (vop t vs) 0xFFFF) s

/-- R164: STVM with an offset. -/
def execStvmOffset (gu : Guard) (vs : BitVec 11) (gB : BitVec 5) (off : BitVec 18) (m : BitVec 3) (s : State) : Result :=
  storeSlot (.stvmOffset gu vs gB off m) gu (fun t => [codeV t vs, codeG gB.toNat, codeM m.toNat])
    (fun t => lineEl (effAddr (rg t gB.toNat) (off18 off) 0 4) (vop t vs) (rm t m.toNat).toNat) s

/-- R164: STVM scattered. -/
def execStvmScatter (gu : Guard) (vs : BitVec 11) (gB : BitVec 5) (vi : BitVec 11) (m : BitVec 3) (s : State) : Result :=
  storeSlot (.stvmScatter gu vs gB vi m) gu (fun t => [codeV t vs, codeG gB.toNat, codeV t vi, codeM m.toNat])
    (fun t => scatterEls (indexedAddrs (rg t gB.toNat) 0 (vop t vi)) (vop t vs) (rm t m.toNat).toNat) s

/-- R164: STG. -/
def execStg (gu : Guard) (gs gB : BitVec 5) (off : BitVec 18) (s : State) : Result :=
  storeSlot (.stg gu gs gB off) gu (fun _ => [codeG gs.toNat, codeG gB.toNat])
    (fun t => [{ addr := effAddr (rg t gB.toNat) (off18 off) 0 2, bytes := bytesOf 4 (rg t gs.toNat).toNat, mask := 0xF }]) s

/-- R164: STQ. -/
def execStq (gu : Guard) (qs : BitVec 4) (gB : BitVec 5) (off : BitVec 18) (s : State) : Result :=
  storeSlot (.stq gu qs gB off) gu (fun _ => [codeQ qs.toNat, codeG gB.toNat])
    (fun t => [{ addr := effAddr (rg t gB.toNat) (off18 off) 0 0, bytes := bytesOf 1 (b2n (rq t qs.toNat)), mask := 1 }]) s

/-- R257: the results due at a tile's cycle land, before anything of the cycle reads them. -/
def execResultLanding (l : Loc) (s : State) : Result :=
  .next (onPart s l.band (fun p => modTile (if poolBase ≤ l.idx then p else performed p) l.idx (fun t => landDue t (cycOf p l.idx))))

end Sys2Proof.Machine
end

