-- ==== Sys2Proof/Machine/Matrix.lean ====
section
/-! DEFINITION. The matrix unit: address generators, matrix steps, quantized steps, accumulator loads and
stores (R172 to R184), and the steps of MX streams after issue. -/

namespace Sys2Proof.Machine

/-! ## Operand blocks and generators -/

/-- Depth of a matrix step (R172). -/
def mmaDepth (ta : Nat) : Nat := 16 / tyWidth ta
def mmaqDepth (ta tb : Nat) : Nat := if tyWidth ta = 4 ∧ tyWidth tb = 4 then 4 else 2

/-- Bytes of a block of 16 rows or columns (R172). -/
def blockBytes (d t : Nat) : Nat := 2 * d * tyWidth t

/-- Address of a generator's block (R172). -/
def blockAddr (t : Tile) (ma : BitVec 2) (n : Nat) : Nat :=
  alignDown (Nat.log2 n) (mget 0 t.ma (8 * ma.toNat)).toNat

/-- Consecutive lines as one number. -/
def linesNum (t : Tile) (a n : Nat) : Nat :=
  (upto n).foldl (fun acc k => acc + (readLine t (a + 16 * k)).toNat * 2 ^ (128 * k)) 0

/-- A block's bytes as one number. -/
def blockNum (t : Tile) (a n : Nat) : Nat := if n < 16 then readN t a n else linesNum t a (n / 16)

/-- The deepest open level that will loop back (R173). -/
def stepLevel (lp : LoopSt) : Option Nat :=
  (upto lp.levels.length).reverse.find? (fun j => decide (1 < (mget 0 lp.lc j).toNat))

/-- Advance one generator (R173). -/
def advanceMa (t : Tile) (ma : BitVec 2) : Tile :=
  match stepLevel t.loop with
  | none => t
  | some j => { t with ma := mset 0 t.ma (8 * ma.toNat) (mget 0 t.ma (8 * ma.toNat) + mget 0 t.ma (8 * ma.toNat + 1 + j)) }

/-- Advance the generators a step names (R173). -/
def advanceBoth (t : Tile) (a b : BitVec 2) : Tile := if a = b then advanceMa t a else advanceMa (advanceMa t a) b

/-- Rows and columns of a shape (R175). -/
def shapeRows (sh : Nat) : Nat := if sh < 2 then 16 else 8
def shapeCols (sh : Nat) : Nat := if sh % 2 = 0 then 16 else 8

/-- Key of an accumulator element. -/
def zKey (z r c : Nat) : Nat := 256 * z + 16 * r + c

/-- Keys of the active elements. -/
def zKeys (z sh : Nat) : List Nat := (upto (shapeRows sh)).flatMap (fun r => (upto (shapeCols sh)).map (fun c => zKey z r c))

/-- Keys under which errors of zp elements are kept (R354). -/
def zpErrKey (k : Nat) : Nat := 1024 + k

/-! ## The MX state of the scoreboard (R190) -/

/-- The last cycle at which an operation under way changes row r of accumulator z; an RKACC counts as changing it by each of
its terms, whatever their indices.
Log entry 89 (DEDUCED). -/
def changeAt (op : MxOp) (z r : Nat) : Option Nat :=
  match op.kind with
  | .clr z1 what => if z1 = z ∧ bitN what 0 then some (op.t + 1) else none
  | .zld z1 _ => if z1 = z then some (op.t + 4 + r / 2) else none
  | .zst _ _ _ _ _ => none
  | .mma z1 _ _ sh _ _ => if z1 = z ∧ r < shapeRows sh then some (op.t + 6) else none
  | .mmaq _ _ _ _ _ _ _ _ _ => none
  | .scalc z1 sh _ _ => if z1 = z ∧ r < shapeRows sh then some (op.t + 6) else none
  | .attld _ _ _ => none
  | .rank _ _ _ _ _ _ => none
  | .rkacc z1 row _ n _ _ => if z1 = z ∧ row = r then some (op.t + 5 + n) else none
  | .unrank _ _ _ _ _ => none

/-- The cycle at which a ZLD under way writes row r of accumulator z. -/
def loadAt (op : MxOp) (z r : Nat) : Option Nat :=
  match op.kind with
  | .zld z1 _ => if z1 = z then some (op.t + 4 + r / 2) else none
  | .clr _ _ | .zst _ _ _ _ _ | .mma _ _ _ _ _ _ | .mmaq _ _ _ _ _ _ _ _ _ | .scalc _ _ _ _ | .attld _ _ _
  | .rank _ _ _ _ _ _ | .rkacc _ _ _ _ _ _ | .unrank _ _ _ _ _ => none

/-- The cycle at which an ATTLD under way lands table entry e. -/
def attAt (op : MxOp) (e : Nat) : Option Nat :=
  match op.kind with
  | .attld first c _ => if first ≤ e ∧ e < first + c then some (op.t + cdiv c 8 + 1) else none
  | .clr _ _ | .zld _ _ | .zst _ _ _ _ _ | .mma _ _ _ _ _ _ | .mmaq _ _ _ _ _ _ _ _ _ | .scalc _ _ _ _
  | .rank _ _ _ _ _ _ | .rkacc _ _ _ _ _ _ | .unrank _ _ _ _ _ => none

/-- Whether some operation under way has such a cycle after `g`. -/
def anyAfter (t : Tile) (g : Nat) (f : MxOp → Option Nat) : Bool :=
  t.mx.any (fun o => (f o).any (fun x => decide (g < x)))

/-- Detail of kind 2 (R261). -/
def rowDetail (z r : Nat) : Nat := 0x2000 + 16 * z + r

/-- A ZLD issued before writes a row after the change that is to perform on it (R190): the lowest such row.
Log entry 88 (DEDUCED). -/
def lostRow (t : Tile) (z : Nat) (rows : List Nat) (at_ : Nat) : Option Nat :=
  (rows.find? (fun r => anyAfter t at_ (fun o => loadAt o z r))).map (rowDetail z)

/-- A row of a ZST that an earlier change reaches after it is read (R190): the lowest such row.
Log entry 88 (DEDUCED). -/
def staleRow (t : Tile) (z g : Nat) : Option Nat :=
  ((upto 16).find? (fun r => anyAfter t (g + r / 2) (fun o => changeAt o z r))).map (rowDetail z)

/-! ## Operations under way -/

/-- Put an MX operation under way at the current tile. -/
def pushMx (s : State) (k : MxKind) (buf : SMap Nat) : State :=
  let s1 := nextSeq s
  match getPart s1 s1.cur.band with
  | none => s1
  | some p => setPart s1 (modTile p s.cur.idx (fun t =>
      { t with mx := t.mx ++ [{ id := s.seqNo, t := cycOf p s.cur.idx, pc := (issueOf t .mx).pc, kind := k, buf := buf }] }))

/-- Replace an operation by its number. -/
def setMx (t : Tile) (op : MxOp) : Tile := { t with mx := t.mx.map (fun o => if o.id = op.id then op else o) }

/-- Run a step of an MX operation that is still under way, at the tile's own cycle. -/
def onMx (s : State) (l : Loc) (id : Nat) (f : Part → Tile → MxOp → Part) : State :=
  match getPart s l.band with
  | none => s
  | some p =>
    match (getTile p l.idx).mx.find? (fun o => o.id == id) with
    | none => s
    | some op => setPart s (f (if poolBase ≤ l.idx then p else performed p) (getTile p l.idx) op)

/-- Whether a step of an operation no longer performs (R183, R187).
Log entry 19 (DEDUCED). -/
def deadAt (op : MxOp) (k : Nat) : Bool := op.dead.any (fun d => decide (d ≤ k))

/-- Land flags with a change (R175, R187). -/
def landFlags (t : Tile) (f : Flags) : Tile := orFlags t f

/-- Engine reads of lines by an MX stream (R182): the tile after them, the lines as one number with a
dropped read as zeros (R167), and the first poisoned granule. -/
def streamReads (t : Tile) (as : List Nat) : Tile × Nat × Option Nat :=
  let r := as.foldl (fun (acc : Tile × Nat × Nat × Option Nat) a =>
    match claim acc.1 a 9 (bitRead ||| bitMx) false with
    | (t1, false) => (t1, acc.2.1, acc.2.2.1 + 1, acc.2.2.2)
    | (t1, true) =>
      let t2 := auditMem (markReads t1 [(lineOfAddr a, 16)]) [(lineOfAddr a, 16)] []
      (t2, acc.2.1 + (readLine t1 a).toNat * 2 ^ (128 * acc.2.2.1), acc.2.2.1 + 1, firstSome [acc.2.2.2, consumed t1 [(lineOfAddr a, 16)]]))
    (t, 0, 0, none)
  (r.1, r.2.1, r.2.2.2)

/-- A stream read that is step `k` of an operation, kept under a key of its buffer; poison ends the
operation from `k` on and raises one imprecise event that names it (R183). -/
def streamStep (p : Part) (idx : Nat) (t : Tile) (op : MxOp) (as : List Nat) (key k : Nat) : Part :=
  let r := streamReads t as
  let p1 := countAct p 8 as.length
  match r.2.2 with
  | none => putTile p1 idx (setMx r.1 { op with buf := mput op.buf key r.2.1 })
  | some a =>
    if op.dead.isSome then putTile p1 idx r.1
    else foundAdd (putTile p1 idx (setMx r.1 { op with dead := some k })) idx 0x09 (a / 8) (some (op.pc, 3))

/-- Write bytes from a line's start as an engine write of the matrix or rank unit (R182): dropped where
another access has the bank (R167). -/
def streamWrite (p : Part) (idx rank a : Nat) (bs : List Byte) : Part :=
  match claim (getTile p idx) a rank bitMx false with
  | (t1, false) => putTile p idx t1
  | (t1, true) =>
    let t2 := auditMem (writeBytes t1 a bs) [] [(a, bs.length)]
    watchEngine (countAct (putTile p idx t2) 8 1) idx a bs.length (2 ^ bs.length - 1) 3 0

/-- Write several lines. -/
def streamWrites (p : Part) (idx rank a n x : Nat) : Part :=
  (upto (cdiv n 16)).foldl (fun p k => streamWrite p idx rank (a + 16 * k) (bytesOf (minN 16 (n - 16 * k)) (x >>> (128 * k)))) p

/-! ## Slot instructions -/

/-- Detail 0x0001 of a range of bytes. -/
def rangeDet (a n : Nat) : Option Nat := det1 (rangeBad a n)

/-- Addresses of the lines of a block or stream line range, in order. -/
def lineList (a n : Nat) : List Nat := (upto (cdiv n 16)).map (fun k => lineOfAddr a + 16 * k)

/-- R175: one matrix step.
Log entry 11 (DEDUCED). -/
def execMma (gu : Guard) (z maa mab : BitVec 2) (ta tb : BitVec 4) (shape : BitVec 2) (s : State) : Result :=
  let d := mmaDepth ta.toNat
  let na := blockBytes d ta.toNat
  let nb := blockBytes d tb.toNat
  runSlot (.mma gu z maa mab ta tb shape)
    (fun p t =>
      let a := blockAddr t maa na
      let b := blockAddr t mab nb
      { sl := .mx, gu := gu, check := firstSome [rangeDet a na, rangeDet b nb],
        mxBad := lostRow t z.toNat (upto (shapeRows shape.toNat)) (p.gcyc + 6),
        lines := lineList a na ++ lineList b nb, mreads := [(a, na), (b, nb)],
        zreads := zKeys z.toNat shape.toNat })
    (fun _ t s =>
      let a := blockAddr t maa na
      let b := blockAddr t mab nb
      pushMx (onTile s s.cur (fun u => advanceBoth u maa mab))
        (.mma z.toNat ta.toNat tb.toNat shape.toNat (blockNum t a na) (blockNum t b nb)) []) s

/-- The group whose zero points a quantized step uses (R176). -/
def stepGroup (t : Tile) (z glen : BitVec 2) (grp : BitVec 5) : Nat :=
  grp.toNat + mget 0 t.kc z.toNat / (32 * 2 ^ glen.toNat)

/-- The scale-layout checks of two tiles (R63): alignment, then the group index.
Log entry 76 (DESIGN CHOICE). -/
def layoutBad (a b bits detail g : Nat) : Option Nat :=
  firstSome [if a % 2 ^ bits ≠ 0 ∨ b % 2 ^ bits ≠ 0 then some detail else none, if 16 ≤ g then some 0x0003 else none]

/-- R176: one quantized step.
Log entry 76 (DESIGN CHOICE). -/
def execMmaq (gu : Guard) (z maa mab : BitVec 2) (ta tb : BitVec 4) (shape glen : BitVec 2) (gza gzb grp : BitVec 5) (s : State) : Result :=
  let d := mmaqDepth ta.toNat tb.toNat
  let na := blockBytes d ta.toNat
  let nb := blockBytes d tb.toNat
  runSlot (.mmaq gu z maa mab ta tb shape glen gza gzb grp)
    (fun _ t =>
      let a := blockAddr t maa na
      let b := blockAddr t mab nb
      let ta_ := regAddr t gza 0
      let tb_ := regAddr t gzb 0
      let g := stepGroup t z glen grp
      { sl := .mx, gu := gu,
        check := firstSome [rangeDet a na, rangeDet b nb, rangeDet (alignDown 8 ta_) 256, rangeDet (alignDown 8 tb_) 256],
        scale := layoutBad ta_ tb_ 8 0x0002 g,
        reads := [codeG gza.toNat, codeG gzb.toNat],
        lines := lineList a na ++ lineList b nb ++ [ta_ + 16 * g],
        mreads := [(a, na), (b, nb), (ta_ + 16 * g, 16)],
        zreads := (zKeys z.toNat shape.toNat).map zpErrKey })
    (fun _ t s =>
      let a := blockAddr t maa na
      let b := blockAddr t mab nb
      let g := stepGroup t z glen grp
      pushMx (onTile s s.cur (fun u =>
          { advanceBoth u maa mab with kc := mset 0 u.kc z.toNat (mget 0 u.kc z.toNat + d) }))
        (.mmaq z.toNat ta.toNat tb.toNat shape.toNat (blockNum t a na) (blockNum t b nb)
          (readLine t (regAddr t gza 0 + 16 * g)).toNat (regAddr t gzb 0 + 16 * g) g) []) s

/-- R177: apply one group's scales. -/
def execScalc (gu : Guard) (z shape : BitVec 2) (gsa gsb grp : BitVec 5) (s : State) : Result :=
  runSlot (.scalc gu z shape gsa gsb grp)
    (fun p t =>
      let a := regAddr t gsa 0
      let b := regAddr t gsb 0
      { sl := .mx, gu := gu,
        check := firstSome [rangeDet (alignDown 9 a) 512, rangeDet (alignDown 9 b) 512],
        scale := layoutBad a b 9 0x0001 grp.toNat,
        reads := [codeG gsa.toNat, codeG gsb.toNat],
        mxBad := lostRow t z.toNat (upto (shapeRows shape.toNat)) (p.gcyc + 6),
        lines := lineList (a + 32 * grp.toNat) 32, mreads := [(a + 32 * grp.toNat, 32)],
        zreads := zKeys z.toNat shape.toNat ++ (zKeys z.toNat shape.toNat).map zpErrKey })
    (fun _ t s =>
      pushMx (onTile s s.cur (fun u => { u with kc := mset 0 u.kc z.toNat 0 }))
        (.scalc z.toNat shape.toNat (linesNum t (regAddr t gsa 0 + 32 * grp.toNat) 2) (regAddr t gsb 0 + 32 * grp.toNat)) []) s

/-- R179: clear z, zp or both. -/
def execZclr (gu : Guard) (z what : BitVec 2) (s : State) : Result :=
  runSlot (.zclr gu z what)
    (fun p t => {
      sl := .mx, gu := gu, mxBad := if what.getLsbD 0 then lostRow t z.toNat (upto 16) (p.gcyc + 1) else none })
    (fun _ _ s =>
      pushMx (onTile s s.cur (fun u => if what.getLsbD 1 then { u with kc := mset 0 u.kc z.toNat 0 } else u))
        (.clr z.toNat what.toNat) []) s

/-- R180: load an accumulator. -/
def execZld (gu : Guard) (z : BitVec 2) (gB : BitVec 5) (off : BitVec 18) (s : State) : Result :=
  runSlot (.zld gu z gB off)
    (fun _ t =>
      let ea := effAddr (rg t gB.toNat) (off18 off) 0 6
      { sl := .mx, gu := gu, check := rangeDet ea 1024, reads := [codeG gB.toNat],
        lines := lineList ea 128, mreads := [(ea, 128)] })
    (fun _ t s =>
      let ea := effAddr (rg t gB.toNat) (off18 off) 0 6
      pushMx s (.zld z.toNat ea) [(0, linesNum t ea 8)]) s

/-- Bits that ZST clears of its address (R181). -/
def zstBits (t : Nat) : Nat := if tyWidth t = 32 then 6 else if tyWidth t = 16 then 5 else 4

/-- Whether ZST converts (R181). -/
def zstConverts (t : Nat) : Bool := decide (8 ≤ t) && decide (t ≤ 11)

/-- The draws of one column, in ascending row order, and its LFSR after them (R50). -/
def colDraws (n : Nat) (x : Word) : List Nat × Word :=
  (upto n).foldl (fun a _ =>
    let y := lfsrAdvance a.2
    (a.1 ++ [y.toNat], y)) ([], x)

/-- All 256 draws of a ZST, column by column (R181), and the LFSRs after them. -/
def allDraws (lf : SMap Word) : List Nat × SMap Word :=
  (upto 16).foldl (fun a c =>
    let r := colDraws 16 (mget 0 a.2 (16 + c))
    (a.1 ++ r.1, mset 0 a.2 (16 + c) r.2)) ([], lf)

/-- One element of a ZST (R181). -/
def zstElem (t : Nat) (mode : Rnd) (draw : Nat) (x : Word) : Nat × Flags :=
  if zstConverts t then cvtFF Ty.f32.fmt (tyIs (BitVec.ofNat 4 t)).fmt mode draw x.toNat else (x.toNat, fNone)
where
  /-- The type a code names. -/
  tyIs (ty : BitVec 4) : Ty := (tyOf ty.toNat).getD .f32

/-- Row pair c of a ZST in its format (R181): the bytes as a number, and the flags. -/
def zstPair (t : Tile) (z ty : Nat) (mode : Rnd) (draws : List Nat) (c : Nat) : Nat × Flags :=
  let r := splitFlags ((upto 32).map (fun i =>
    let row := 2 * c + i / 16
    zstElem ty mode (draws.getD (16 * (i % 16) + row) 0) (mget 0 t.z (zKey z row (i % 16)))))
  (packElems (tyWidth ty) r.1, r.2)

/-- Read row pair c of a ZST; its flags land at t + 8 with all the others (R181). -/
def zstRead (t : Tile) (op : MxOp) (c seq : Nat) : Tile :=
  match op.kind with
  | .zst z _ ty mode draws =>
    let r := zstPair t z ty mode draws c
    let t1 := setMx t { op with buf := mput op.buf c r.1 }
    if r.2 = 0 then t1 else fly t1 { issued := op.t, due := op.t + 8, slot := 3, seq := seq, dest := .flags, flags := r.2 }
  | .clr _ _ | .zld _ _ | .mma _ _ _ _ _ _ | .mmaq _ _ _ _ _ _ _ _ _ | .scalc _ _ _ _ | .attld _ _ _
  | .rank _ _ _ _ _ _ | .rkacc _ _ _ _ _ _ | .unrank _ _ _ _ _ => t

/-- R181: store an accumulator; row pair 0 is read at issue. -/
def execZst (gu : Guard) (z : BitVec 2) (t : BitVec 4) (rnd : BitVec 3) (gB : BitVec 5) (off : BitVec 18) (s : State) : Result :=
  runSlot (.zst gu z t rnd gB off)
    (fun p u =>
      let ea := effAddr (rg u gB.toNat) (off18 off) 0 (zstBits t.toNat)
      { sl := .mx, gu := gu, check := rangeDet ea (zstBytes t.toNat), reads := [codeG gB.toNat],
        mxBad := staleRow u z.toNat p.gcyc, zreads := zKeys z.toNat 0 })
    (fun _ u s =>
      let ea := effAddr (rg u gB.toNat) (off18 off) 0 (zstBits t.toNat)
      let mode := if zstConverts t.toNat then rndOf u rnd.toNat else .rne
      let dr := if mode = .sr then allDraws u.lfsr else ([], u.lfsr)
      let pair := zstPair u z.toNat t.toNat mode dr.1 0
      let s1 := pushMx (onTile s s.cur (fun u => { u with lfsr := dr.2 })) (.zst z.toNat ea t.toNat mode dr.1) [(0, pair.1)]
      onPart s1 s.cur.band (fun p => modTile (if poolBase ≤ s.cur.idx then p else performed p) s.cur.idx (fun v =>
        if pair.2 = 0 then v
        else fly v { issued := cycOf p s.cur.idx, due := cycOf p s.cur.idx + 8, slot := 3, seq := s.seqNo, dest := .flags, flags := pair.2 }))) s

/-- Write one field of a generator (R174): it lands at t + 1 (R257). -/
def putMa (s : State) (ma : BitVec 2) (fld : BitVec 3) (x : BitVec 18) : State :=
  result s .mx 1 (.ma (8 * ma.toNat + fld.toNat) x) 0

/-- R174: a generator's field from a register. -/
def execMxagReg (gu : Guard) (ma : BitVec 2) (fld : BitVec 3) (ga : BitVec 5) (s : State) : Result :=
  runSlot (.mxagReg gu ma fld ga) (fun _ _ => { sl := .mx, gu := gu, reads := [codeG ga.toNat] })
    (fun _ t s => putMa s ma fld ((rg t ga.toNat).truncate 18)) s

/-- R174: a generator's field from an immediate. -/
def execMxagImm (gu : Guard) (ma : BitVec 2) (fld : BitVec 3) (imm : BitVec 18) (s : State) : Result :=
  runSlot (.mxagImm gu ma fld imm) (fun _ _ => { sl := .mx, gu := gu }) (fun _ _ s => putMa s ma fld imm) s

/-! ## Changes (R178) -/

/-- Change the active elements of a map of accumulator elements, gathering flags. -/
def stepElems (z sh : Nat) (m : SMap Word) (f : Nat → Nat → Word → Nat × Flags) : SMap Word × Flags :=
  (upto (shapeRows sh)).foldl (fun acc r => (upto (shapeCols sh)).foldl (fun acc c =>
    let k := zKey z r c
    let q := f r c (mget 0 acc.1 k)
    (mset 0 acc.1 k (BitVec.ofNat 32 q.1), acc.2 ||| q.2)) acc) (m, 0)

/-- Element e of a block. -/
def blockElem (t x e : Nat) : Nat := field x (tyWidth t * e) (tyWidth t)

/-- Integer value of a block's element. -/
def blockInt (t x e : Nat) : Int := ((tyOf t).getD .i32).intVal (blockElem t x e)

/-- Value of a block's floating-point element. -/
def blockF (t x e : Nat) : FVal := fdecode ((tyOf t).getD .f32).fmt (blockElem t x e)

/-- One element of an MMA (R175). -/
def mmaElem (ta tb a b r c : Nat) (z : Word) : Nat × Flags :=
  let d := mmaDepth ta
  if 8 ≤ ta then stepF32 z.toNat ((upto d).map (fun j => (blockF ta a (r * d + j), blockF tb b (c * d + j))))
  else
    let x := z.toInt + (upto d).foldl (fun acc j => acc + blockInt ta a (r * d + j) * blockInt tb b (c * d + j)) 0
    ((wrap32 x).toNat, wrapFlag x)

/-- A zero point of lane l in its group's line (R59, R62). -/
def zeroPoint (t line g l : Nat) : Int :=
  let b := field line (8 * (l ^^^ g)) 8
  if t % 2 = 0 then sgn 8 b else (b : Int)

/-- One element of an MMAQ (R176). -/
def mmaqElem (ta tb a b za zb g r c : Nat) (zp : Word) : Nat × Flags :=
  let d := mmaqDepth ta tb
  let x := zp.toInt + (upto d).foldl (fun acc j =>
    acc + (blockInt ta a (r * d + j) - zeroPoint ta za g r) * (blockInt tb b (c * d + j) - zeroPoint tb zb g c)) 0
  ((wrap32 x).toNat, wrapFlag x)

/-- A scale of lane l in the two lines of group g (R62). -/
def scaleOf (x g l : Nat) : FVal :=
  fdecode Ty.f16.fmt (field x (8 * (16 * (l / 8) + 2 * ((l % 8) ^^^ (g % 8)))) 16)

/-- One element of a SCALC (R61).
Log entry 75 (DESIGN CHOICE). -/
def scalcElem (sa sb : FVal) (p z : Word) : Nat × Flags :=
  if sa.isNan || sb.isNan then (fnan Ty.f32.fmt, fInvalid)
  else
    let zv := fdecode Ty.f32.fmt z.toNat
    let pe : Ex := if p = 0 then .zero false else .fin p.toInt 0
    let m1 := pe.mul sa.ex
    let m2 := m1.1.mul sb.ex
    let inv := m1.2 || m2.2
    let q := exSum false [zv.ex, m2.1]
    if zv.isNan || inv || q.2 then (fnan Ty.f32.fmt, snanFlag [zv] ||| flagIf (inv || (q.2 && !zv.isNan)) fInvalid)
    else froundFlush q.1

/-- Remove the elements of one accumulator. -/
def clearZ (m : SMap Word) (z : Nat) : SMap Word := m.filter (fun e => e.1 / 256 != z)

/-- An accumulator element that is written has fresh ECC (R354). -/
def cleanZ (t : Tile) (ks : List Nat) : Tile := if t.zErr.isEmpty then t else { t with zErr := t.zErr.filter (fun k => !smem ks k) }

/-- The change of an operation that performs on all its rows at once (R178). -/
def performChange (t : Tile) (op : MxOp) : Tile :=
  match op.kind with
  | .clr z what =>
    let t1 := if bitN what 0 then cleanZ { t with z := clearZ t.z z } (zKeys z 0) else t
    if bitN what 1 then cleanZ { t1 with zp := clearZ t1.zp z } ((zKeys z 0).map zpErrKey) else t1
  | .mma z ta tb sh a b =>
    let r := stepElems z sh t.z (fun r c x => mmaElem ta tb a b r c x)
    landFlags { t with z := r.1 } r.2
  | .mmaq z ta tb sh a b za _ g =>
    let zb := mget 0 op.buf 0
    let r := stepElems z sh t.zp (fun r c x => mmaqElem ta tb a b za zb g r c x)
    landFlags { t with zp := r.1 } r.2
  | .scalc z sh sa sbAddr =>
    let g := sbAddr / 32 % 16
    let sb := mget 0 op.buf 0
    let r := stepElems z sh t.z (fun r c x => scalcElem (scaleOf sa g r) (scaleOf sb g c) (mget 0 t.zp (zKey z r c)) x)
    landFlags { t with z := r.1, zp := (zKeys z sh).foldl merase t.zp } r.2
  | .zld _ _ | .zst _ _ _ _ _ | .attld _ _ _ | .rank _ _ _ _ _ _ | .rkacc _ _ _ _ _ _ | .unrank _ _ _ _ _ => t

/-- Lines that an operation reads one cycle after issue (R176, R177). -/
def secondReads (k : MxKind) : List Nat :=
  match k with
  | .mmaq _ _ _ _ _ _ _ zb _ => [zb]
  | .scalc _ _ _ sb => [sb, sb + 16]
  | .clr _ _ | .zld _ _ | .zst _ _ _ _ _ | .mma _ _ _ _ _ _ | .attld _ _ _ | .rank _ _ _ _ _ _ | .rkacc _ _ _ _ _ _
  | .unrank _ _ _ _ _ => []

/-- R178: an operation's change performs on all its rows; or its second operand read at t + 1. -/
def execAccumulatorChange (l : Loc) (id : Nat) (read : Bool) (s : State) : Result :=
  .next (onMx s l id (fun p t op =>
    if read then streamStep p l.idx t op (secondReads op.kind) 0 0
    else if deadAt op 0 then p
    else putTile p l.idx (performChange t op)))

/-- Write row pair c of an accumulator (R180). -/
def writePair (t : Tile) (z c x : Nat) : Tile :=
  cleanZ { t with z := (upto 32).foldl (fun m i => mset 0 m (256 * z + 32 * c + i) (BitVec.ofNat 32 (field x (32 * i) 32))) t.z }
    ((upto 32).map (fun i => 256 * z + 32 * c + i))

/-- R180: row pair c of a ZLD is read, or written into its accumulator. -/
def execZldRowPair (l : Loc) (id c : Nat) (write : Bool) (s : State) : Result :=
  .next (onMx s l id (fun p t op =>
    match op.kind with
    | .zld z ea =>
      if write then (if deadAt op c then p else putTile p l.idx (writePair t z c (mget 0 op.buf c)))
      else streamStep p l.idx t op (lineList (ea + 128 * c) 128) c c
    | .clr _ _ | .zst _ _ _ _ _ | .mma _ _ _ _ _ _ | .mmaq _ _ _ _ _ _ _ _ _ | .scalc _ _ _ _ | .attld _ _ _
    | .rank _ _ _ _ _ _ | .rkacc _ _ _ _ _ _ | .unrank _ _ _ _ _ => p))

/-- R181: row pair c of a ZST is read from its accumulator, or written to SRAM. -/
def execZstRowPair (l : Loc) (id c : Nat) (write : Bool) (s : State) : Result :=
  let s1 := nextSeq s
  .next (onMx s1 l id (fun p t op =>
    match op.kind with
    | .zst _ ea ty _ _ =>
      if write then streamWrites p l.idx 2 (ea + 4 * tyWidth ty * c) (4 * tyWidth ty) (mget 0 op.buf c)
      else putTile p l.idx (zstRead t op c s.seqNo)
    | .clr _ _ | .zld _ _ | .mma _ _ _ _ _ _ | .mmaq _ _ _ _ _ _ _ _ _ | .scalc _ _ _ _ | .attld _ _ _
    | .rank _ _ _ _ _ _ | .rkacc _ _ _ _ _ _ | .unrank _ _ _ _ _ => p))

end Sys2Proof.Machine
end

