-- ==== Sys2Proof/Machine/Rank.lean ====
section
/-! DEFINITION. The attenuation table and the rank unit (R185 to R190). -/

namespace Sys2Proof.Machine

/-- Details of the busy spans (R189, R261). -/
def netBusy (t : Tile) (g : Nat) : Option Nat := if g < t.rankBusy then some 0x4000 else none
def streamBusy (t : Tile) (g : Nat) : Option Nat := if g < t.termBusy then some 0x5000 else none

/-- The table entry of the lowest of n ranks that an ATTLD lands after its read (R190).
Log entry 88 (DEDUCED). -/
def lateEntry (t : Tile) (n : Nat) (at_ : Nat → Nat) : Option Nat :=
  ((upto n).find? (fun k => anyAfter t (at_ k) (fun o => attAt o (minN k 255)))).map (fun k => 0x3000 + minN k 255)

/-- Keys under which errors of table entries are kept (R354). -/
def atErrKey (e : Nat) : Nat := 2048 + e

/-- R185: load the attenuation table. -/
def execAttld (gu : Guard) (first cnt : BitVec 8) (gB : BitVec 5) (off : BitVec 18) (s : State) : Result :=
  runSlot (.attld gu first cnt gB off)
    (fun _ t =>
      let ea := effAddr (rg t gB.toNat) (off18 off) 0 4
      { sl := .mx, gu := gu, check := rangeDet ea (2 * (cnt.toNat + 1)), reads := [codeG gB.toNat],
        lines := [ea], mreads := [(ea, 16)] })
    (fun _ t s =>
      let ea := effAddr (rg t gB.toNat) (off18 off) 0 4
      pushMx s (.attld first.toNat (cnt.toNat + 1) ea) [(0, linesNum t ea 1)]) s

/-- Set table entries from the lines read, as far as they perform.
Log entry 19 (DEDUCED). -/
def attLand (t : Tile) (op : MxOp) (first c : Nat) : Tile :=
  let is := (upto c).filter (fun i => !deadAt op (i / 8))
  { t with
    at_ := is.foldl (fun m i => mset 0 m (first + i) (BitVec.ofNat 16 (field (mget 0 op.buf (i / 8)) (16 * (i % 8)) 16))) t.at_,
    zErr := t.zErr.filter (fun k => !is.any (fun i => atErrKey (first + i) == k)) }

/-- R185: a further line of an ATTLD is read, or its entries land. -/
def execAttldEntryLand (l : Loc) (id : Nat) (line : Option Nat) (s : State) : Result :=
  .next (onMx s l id (fun p t op =>
    match op.kind with
    | .attld first c ea =>
      match line with
      | some j => streamStep p l.idx t op [ea + 16 * j] j j
      | none => putTile p l.idx (attLand t op first c)
    | .clr _ _ | .zld _ _ | .zst _ _ _ _ _ | .mma _ _ _ _ _ _ | .mmaq _ _ _ _ _ _ _ _ _ | .scalc _ _ _ _
    | .rank _ _ _ _ _ _ | .rkacc _ _ _ _ _ _ | .unrank _ _ _ _ _ => p))

/-! ## RANK (R186) -/

/-- Bytes of a block of 16 values, and the lines of block j that hold some of the n values. -/
def rankBlockBytes (t : Nat) : Nat := 2 * tyWidth t
def rankBlockLines (t n gb j : Nat) : List Nat :=
  lineList (gb + rankBlockBytes t * j) (minN 16 (n - 16 * j) * tyWidth t / 8)

/-- The shared form of RANK: `th` is the threshold's register.
Log entry 12 (DEDUCED). -/
def rankSlot (i : Instr) (gu : Guard) (t : BitVec 4) (n k : BitVec 10) (gt : Option (BitVec 5)) (ga gb : BitVec 5) (s : State) : Result :=
  let nn := n.toNat + 1
  let kk := k.toNat + 1
  let es := tyWidth t.toNat / 8
  runSlot i
    (fun p u =>
      let la := regAddr u ga 4
      let ab := regAddr u gb 4
      let lines := rankBlockLines t.toNat nn ab 0
      { sl := .mx, gu := gu,
        check := firstSome [rangeDet ab (nn * es), rangeDet la (16 * rankLines kk)],
        reads := (match gt with
          | some g => [codeG g.toNat]
          | none => []) ++ [codeG ga.toNat, codeG gb.toNat],
        busy := netBusy u p.gcyc,
        lines := lines, mreads := lines.map (fun a => (a, 16)) })
    (fun p u s =>
      let la := regAddr u ga 4
      let ab := regAddr u gb 4
      let s1 := onTile s s.cur (fun v => { v with rankBusy := p.gcyc + 3 * rankBlocks nn })
      pushMx s1 (.rank t.toNat nn kk la ab (gt.map (fun g => (rg u g.toNat).toNat)))
        [(0, linesNum u ab (rankBlockLines t.toNat nn ab 0).length)]) s

/-- R186: rank values into a list. -/
def execRank (gu : Guard) (t : BitVec 4) (n k : BitVec 10) (ga gb : BitVec 5) (s : State) : Result :=
  rankSlot (.rank gu t n k ga gb) gu t n k none ga gb s

/-- R186: rank values that reach a threshold. -/
def execRankThreshold (gu : Guard) (t : BitVec 4) (n k : BitVec 10) (gt ga gb : BitVec 5) (s : State) : Result :=
  rankSlot (.rankThreshold gu t n k gt ga gb) gu t n k (some gt) ga gb s

/-- R186: a later block of a RANK is read. -/
def execRankBlockRead (l : Loc) (id j : Nat) (s : State) : Result :=
  .next (onMx s l id (fun p t op =>
    match op.kind with
    | .rank ty n _ _ gb _ => streamStep p l.idx t op (rankBlockLines ty n gb j) j 0
    | .clr _ _ | .zld _ _ | .zst _ _ _ _ _ | .mma _ _ _ _ _ _ | .mmaq _ _ _ _ _ _ _ _ _ | .scalc _ _ _ _
    | .attld _ _ _ | .rkacc _ _ _ _ _ _ | .unrank _ _ _ _ _ => p))

/-- The values of a RANK: element i widened exactly to f32. -/
def rankVal (ty : Nat) (buf : SMap Nat) (i : Nat) : FVal :=
  let x := field (mget 0 buf (i / 16)) (tyWidth ty * (i % 16)) (tyWidth ty)
  fdecode ((tyOf ty).getD .f32).fmt x

/-- The ranked indices (R186): not NaN, by value descending, then by index ascending. -/
def rankOrder (xs : List (Nat × FVal)) : List (Nat × FVal) :=
  sortBy (fun a b => decide (0 ≤ exCmp a.2.ex b.2.ex)) (xs.filter (fun e => !e.2.isNan))

/-- Whether a value reaches a threshold; a NaN threshold passes none. -/
def reaches (th : Option Nat) (x : FVal) : Bool :=
  match th with
  | none => true
  | some b =>
    let v := fdecode Ty.f32.fmt b
    !v.isNan && decide (0 ≤ exCmp x.ex v.ex)

/-- The header and list of a RANK as one number (R186).
Log entry 13 (DEDUCED). -/
def rankList (ty n k : Nat) (th : Option Nat) (buf : SMap Nat) : Nat :=
  let xs := (upto n).map (fun i => (i, rankVal ty buf i))
  let nan := (xs.filter (fun e => e.2.isNan)).length
  let l := (((rankOrder xs).takeWhile (fun e => reaches th e.2)).take k).map Prod.fst
  let full := l ++ (upto (k - l.length)).map (fun _ => 0xFFFF)
  l.length + nan * 2 ^ 16 + packElems 16 full * 2 ^ 64

/-- Where a finished list is kept in an operation's buffer. -/
def listKey : Nat := 4096

/-- R186: line i of a RANK's list is written. -/
def execRankListWrite (l : Loc) (id i : Nat) (s : State) : Result :=
  .next (onMx s l id (fun p t op =>
    match op.kind with
    | .rank ty n k ga _ th =>
      if deadAt op 0 then p
      else
        let x := (mfind op.buf listKey).getD (rankList ty n k th op.buf)
        let p1 := putTile p l.idx (setMx t { op with buf := mput op.buf listKey x })
        let len := 8 + 2 * k - 16 * i
        streamWrite p1 l.idx 3 (ga + 16 * i) (bytesOf (minN 16 len) (x >>> (128 * i)))
    | .clr _ _ | .zld _ _ | .zst _ _ _ _ _ | .mma _ _ _ _ _ _ | .mmaq _ _ _ _ _ _ _ _ _ | .scalc _ _ _ _
    | .attld _ _ _ | .rkacc _ _ _ _ _ _ | .unrank _ _ _ _ _ => p))

/-! ## RKACC (R187) -/

/-- Bytes of a weight row. -/
def rowBytes (t : Nat) : Nat := 2 * tyWidth t

/-- R187: add rank terms into one accumulator row. Its row is checked before its table entries (R190), and as if term 0
changed it, whatever index the list holds there.
Log entries 88 (DEDUCED) and 89 (DEDUCED). -/
def execRkacc (gu : Guard) (z : BitVec 2) (row t : BitVec 4) (n : BitVec 10) (ga gb : BitVec 5) (s : State) : Result :=
  let nn := n.toNat + 1
  runSlot (.rkacc gu z row t n ga gb)
    (fun p u =>
      let la := regAddr u ga 3
      { sl := .mx, gu := gu, check := rangeDet la (2 * nn), reads := [codeG ga.toNat, codeG gb.toNat],
        mxBad := firstSome [lostRow u z.toNat [row.toNat] (p.gcyc + 6), lateEntry u nn (fun k => p.gcyc + 1 + k)],
        busy := streamBusy u p.gcyc,
        lines := [lineOfAddr la], mreads := [(lineOfAddr la, 16)],
        zreads := (upto 16).map (fun c => zKey z.toNat row.toNat c) ++ (upto nn).map (fun k => atErrKey (minN k 255)) })
    (fun p u s =>
      let la := regAddr u ga 3
      let s1 := onTile s s.cur (fun v => { v with termBusy := p.gcyc + nn + 1 })
      pushMx s1 (.rkacc z.toNat row.toNat t.toNat nn la (regAddr u gb (Nat.log2 (rowBytes t.toNat))))
        [(0, (readLine u la).toNat)]) s

/-- Halfword h of a list that starts at halfword o of line 0. -/
def listHalf (buf : SMap Nat) (o k : Nat) : Nat := field (mget 0 buf ((o + k) / 8)) (16 * ((o + k) % 8)) 16

/-- Where a term's weights and its table entry are kept. -/
def weightKey (k : Nat) : Nat := 8192 + 2 * k
def entryKey (k : Nat) : Nat := 8193 + 2 * k

/-- The operand reads of term k (R187). After the instruction has been ended a row whose index is in hand is still read.
Log entry 19 (DEDUCED). -/
def termRead (p : Part) (idx : Nat) (t : Tile) (op : MxOp) (ty ga gb k : Nat) : Part :=
  let i := listHalf op.buf (listOff ga) k
  let ended := deadAt op k
  if i = 0xFFFF ∨ (ended ∧ (mfind op.buf ((listOff ga + k) / 8)).isNone) then p
  else
    let a := field (gb + i * rowBytes ty) 0 18
    if sramEnd ≤ a then
      if ended then p else foundAdd (putTile p idx (setMx t { op with dead := some k })) idx 0x01 0x0001 (some (op.pc, 3))
    else
      let at_ := (mget 0 t.at_ (minN k 255)).toNat
      streamStep p idx t { op with buf := mput op.buf (entryKey k) at_ } (lineList a (rowBytes ty)) (weightKey k) k

/-- Term k performs on its row (R187). -/
def termPerform (t : Tile) (op : MxOp) (z row ty k : Nat) : Tile :=
  match mfind op.buf (weightKey k) with
  | none => t
  | some w =>
    if deadAt op k then t
    else
      let a := fdecode Ty.bf16.fmt (mget 0 op.buf (entryKey k))
      let r := (upto 16).foldl (fun (acc : SMap Word × Flags) c =>
        let key := zKey z row c
        let q := stepF32 (mget 0 acc.1 key).toNat [(a, blockF ty w c)]
        (mset 0 acc.1 key (BitVec.ofNat 32 q.1), acc.2 ||| q.2)) (t.z, 0)
      landFlags (cleanZ { t with z := r.1 } ((upto 16).map (fun c => zKey z row c))) r.2

/-- R187: a list line of an RKACC, a term's reads, or a term's change. -/
def execRkaccTerm (l : Loc) (id k : Nat) (ph : TermPhase) (s : State) : Result :=
  .next (onMx s l id (fun p t op =>
    match op.kind with
    | .rkacc z row ty _ ga gb =>
      match ph with
      | .list => streamStep p l.idx t op [lineOfAddr ga + 16 * k] k (8 * k - listOff ga)
      | .read => termRead p l.idx t op ty ga gb k
      | .perform => putTile p l.idx (termPerform t op z row ty k)
    | .clr _ _ | .zld _ _ | .zst _ _ _ _ _ | .mma _ _ _ _ _ _ | .mmaq _ _ _ _ _ _ _ _ _ | .scalc _ _ _ _
    | .attld _ _ _ | .rank _ _ _ _ _ _ | .unrank _ _ _ _ _ => p))

/-! ## UNRANK (R188) -/

/-- R188: write a dense vector from a list. -/
def execUnrank (gu : Guard) (t : BitVec 4) (n len : BitVec 10) (ga gb : BitVec 5) (s : State) : Result :=
  let nn := n.toNat + 1
  let ll := len.toNat + 1
  runSlot (.unrank gu t n len ga gb)
    (fun p u =>
      let la := regAddr u ga 3
      let da := regAddr u gb 4
      { sl := .mx, gu := gu, check := firstSome [rangeDet la (2 * nn), rangeDet da (ll * tyWidth t.toNat / 8)],
        reads := [codeG ga.toNat, codeG gb.toNat],
        mxBad := lateEntry u nn (fun _ => p.gcyc + listLines la nn),
        busy := streamBusy u p.gcyc,
        lines := [lineOfAddr la], mreads := [(lineOfAddr la, 16)],
        zreads := (upto nn).map (fun k => atErrKey (minN k 255)) })
    (fun p u s =>
      let la := regAddr u ga 3
      let s1 := onTile s s.cur (fun v => { v with termBusy := p.gcyc + listLines la nn + 1 + denseLines t.toNat ll })
      pushMx s1 (.unrank t.toNat nn ll la (regAddr u gb 4)) [(0, (readLine u la).toNat)]) s

/-- A table entry in a dense vector's format (R188): bf16 widened exactly, a NaN with its sign and payload.
Log entry 96 (DEDUCED). -/
def denseElem (ty : Nat) (x : BitVec 16) : Nat := if tyWidth ty = 32 then x.toNat * 2 ^ 16 else x.toNat

/-- The dense vector as one number (R188): a repeated index takes the higher rank. -/
def denseVec (t : Tile) (op : MxOp) (ty n len ga : Nat) : Nat :=
  let m := (upto n).foldl (fun (m : SMap Nat) k =>
    let i := listHalf op.buf (listOff ga) k
    if i ≠ 0xFFFF ∧ i < len then mput m i (denseElem ty (mget 0 t.at_ (minN k 255))) else m) []
  packElems (tyWidth ty) ((upto len).map (fun i => mget 0 m i))

/-- R188: a list line of an UNRANK, its table reads, or a dense line's write. -/
def execUnrankLineWrite (l : Loc) (id i : Nat) (ph : TermPhase) (s : State) : Result :=
  .next (onMx s l id (fun p t op =>
    match op.kind with
    | .unrank ty n len ga gb =>
      match ph with
      | .list => streamStep p l.idx t op [lineOfAddr ga + 16 * i] i 0
      | .read => putTile p l.idx (setMx t { op with buf := mput op.buf listKey (denseVec t op ty n len ga) })
      | .perform =>
        if deadAt op 0 then p
        else
          let bytes := len * tyWidth ty / 8
          streamWrite p l.idx 3 (gb + 16 * i) (bytesOf (minN 16 (bytes - 16 * i)) (mget 0 op.buf listKey >>> (128 * i)))
    | .clr _ _ | .zld _ _ | .zst _ _ _ _ _ | .mma _ _ _ _ _ _ | .mmaq _ _ _ _ _ _ _ _ _ | .scalc _ _ _ _
    | .attld _ _ _ | .rank _ _ _ _ _ _ | .rkacc _ _ _ _ _ _ => p))

end Sys2Proof.Machine
end

