-- ==== Sys2Proof/Machine/Registers.lean ====
section
/-! DEFINITION. Bring-up, the management registers and the hub window (R406 to R414). -/

namespace Sys2Proof.Machine

/-! ## Bring-up (R407, R409) -/

/-- Whether a word of the repair map keeps the rules of R407. -/
def repairOk (w : Nat) : Bool :=
  let d0 := field w 0 7
  let d1 := field w 7 7
  let fine := fun (d : Nat) => decide (d < 66) || d == 0x7F
  field w 14 2 == 0 && fine d0 && fine d1 && (d1 == 0x7F || (d0 != 0x7F && decide (d0 + 1 < d1)))

/-- The ports of a sheet column after their training: down where it fails, else up (R409, R414). -/
def setPorts (s : State) (col : Nat) (failed : List Nat) : State :=
  (upto 4).foldl (fun s k => onPort s (4 * col + k) (fun q => { q with down := failed.contains (4 * col + k) })) s

/-- Columns become faulted. -/
def faultCols (s : State) (cols : List Nat) : State :=
  { s with bandFault := (cols.filter (fun j => decide (j < 12))).foldl sinsert s.bandFault }

/-- STATUS goes on to another stage. -/
def toStage (s : State) (n : Nat) : State := { s with status := { s.status with stage := n } }

/-- Bring-up stops with a fail code; STATUS keeps the stage that failed (R409). -/
def failStage (s : State) (code : Nat) : State := { s with status := { s.status with fail := code } }

/-- The bytes of the repair map (R407). -/
def repairBytes (st : Store) : List Byte := (upto 9408).flatMap (fun k => bytesOf 2 ((mfind st.repair k).getD 0x3FFF))

/-- The stage in progress passes or fails (R409): the state after it, and whether bring-up goes on.
Log entry 61 (DESIGN CHOICE). -/
def bringStage (r : BringUp) (s : State) : State × Bool :=
  match s.status.stage with
  | 0 => (toStage s 1, true)
  | 1 => if r.railsOk then (toStage s 2, true) else ({ s with powered := false }, false)
  | 2 =>
    if Config.firmwareSigned s.store.firmware then (toStage { s with status := { s.status with standby := true } } 3, true)
    else (failStage s 1, false)
  | 3 =>
    if s.store.repair.all (fun e => repairOk e.2) then (toStage { s with repairSum := digest32 (repairBytes s.store) } 4, true)
    else (failStage s 2, false)
  | 4 => (toStage (faultCols { s with poolBad := r.poolFail.foldl sinsert s.poolBad } r.tileFail) 5, true)
  | 5 => (toStage (faultCols s r.stackFail) 6, true)
  | 6 =>
    let s1 := (upto 12).foldl (fun s j => setPorts s j r.portFail) (faultCols s (r.portFail.map (fun k => k / 4)))
    (toStage { s1 with status := { s1.status with bridge := s1.store.bridge } } 7, true)
  | 7 =>
    let s1 := toStage { s with
      queues := s.queues.map (fun e => (e.1, { e.2 with st := 0 })), moduleId := s.store.moduleId, status := { s.status with ready := true } } 8
    (agendaAdd s1 (passes s1), false)
  | _ => (s, false)

/-- R409: bring-up from power-on: one stage, and then the next.
Log entry 61 (DESIGN CHOICE). -/
def execBringUp (r : BringUp) (s : State) : Result :=
  if !s.powered || s.status.fail ≠ 0 then .next s
  else
    match bringStage r s with
    | (s1, true) => .next (again s1 (.bringUp r))
    | (s1, false) => .next s1

/-! ## Management registers (R410, R413, R414) -/

/-- The caps that a budget must cover (R413): those of the resident launches, and those there will be when the launches
already placed have started.
Log entry 59 (DEDUCED). -/
def placedCaps (s : State) : Nat :=
  let coming := s.ctxs.filter (fun c => isComing c && !s.parts.any (fun e => e.2.rec_.token == c.rec_.token))
  let staying := (s.parts.map Prod.snd).filter (fun p => !colsMeet (colsOf p.rec_) (coming.flatMap (fun c => colsOf c.rec_)))
  maxN (s.parts.foldl (fun a e => a + e.2.rec_.cap) 0)
    (coming.foldl (fun a c => a + c.rec_.cap) 0 + staying.foldl (fun a p => a + p.rec_.cap) 0)

/-- A write to BUDGET: its 10-bit value is taken where it lies in 1 to 720 and covers the caps (R413).
Log entry 59 (DEDUCED). -/
def writeBudget (s : State) (x : Nat) : State :=
  let v := field x 0 10
  let caps := placedCaps s
  if !s.powered ∨ v = 0 ∨ 720 < v ∨ v < caps then s else { s with budget := v }

/-- R413: the host writes BUDGET. -/
def execBudgetWrite (x : Word) (s : State) : Result := .next (writeBudget s x.toNat)

/-- A write to MODULE_ID is taken while no launch is resident, and updates the store (R410). -/
def writeModuleId (s : State) (x : Nat) : State :=
  if s.powered ∧ s.parts.isEmpty then { s with moduleId := field x 0 20, store := { s.store with moduleId := field x 0 20 } } else s

/-- R410: the host writes MODULE_ID. -/
def execModuleIdWrite (x : Word) (s : State) : Result := .next (writeModuleId s x.toNat)

/-- Edges of 100 ms (R414). -/
def retrainEdges : Nat := 130000000

/-- A write to BAND_FAULT starts the retraining of every faulted column whose bit it sets (R414). -/
def writeBandFault (s : State) (x : Nat) : State :=
  let cols := (upto 12).filter (fun j => s.powered && bitN x j && smem s.bandFault j && !s.retrain.any (fun e => e.1 == j))
  { s with retrain := s.retrain ++ cols.map (fun j => (j, s.edge + retrainEdges)) }

/-- R414: the host writes BAND_FAULT. -/
def execBandFaultWrite (x : Word) (s : State) : Result := .next (writeBandFault s x.toNat)

/-- R414: the retraining of a column ends: its ports are up or down as their training went (stage 6), and its bit
clears only if both stages pass. -/
def execBandRetrainEnd (col : Nat) (found : Retrained) (s : State) : Result :=
  if s.retrain.any (fun e => e.1 == col) then
    let s1 := setPorts { s with retrain := s.retrain.filter (fun e => e.1 != col) } col found.portFail
    .next (if found.stacksOk && found.portFail.all (fun k => k / 4 != col) then { s1 with bandFault := sremove s1.bandFault col } else s1)
  else .next s

/-- R411, R23: a read of the low half of a queue's energy keeps its high half for the next read. -/
def execQueueEnergyRead (q : BitVec 12) (s : State) : Result :=
  .next (onQueue s q.toNat (fun d => { d with snap := BitVec.ofNat 32 (d.energy / 2 ^ 32) }))

/-! ## The hub window (R411) -/

/-- One half of a 64-bit field replaced. -/
def halfSet (x : Nat) (hi : Bool) (w : Nat) : Nat := if hi then x % 2 ^ 32 + 2 ^ 32 * w else x / 2 ^ 32 * 2 ^ 32 + w

/-- A log2 value that a write sets, where it lies in 4 to 16. -/
def log2Set (old v : Nat) : Nat := if v < 4 ∨ 16 < v then old else v

/-- A write of a queue's state: 2 is the hub's to set, 3 is discarded, and a faulted queue is disabled before it
is enabled again (R376, R411).
Log entry 57 (DEDUCED). -/
def stateSet (old v : Nat) : Nat := if v = 0 then 0 else if v = 1 then (if old = 2 then 2 else 1) else old

/-- A write of one word of a queue descriptor (R411). -/
def queueWord (d : Queue) (off w : Nat) : Queue :=
  let off0 := fun (e : Queue) => if d.st = 0 then e else d
  match off with
  | 0x00 => { d with st := stateSet d.st (w % 4) }
  | 0x04 => off0 { d with ringLog2 := log2Set d.ringLog2 (field w 0 5), cqLog2 := log2Set d.cqLog2 (field w 8 5) }
  | 0x08 => off0 { d with ringBase := halfSet d.ringBase false w }
  | 0x0C => off0 { d with ringBase := halfSet d.ringBase true w }
  | 0x10 => { d with tail := w }
  | 0x18 => off0 { d with cqBase := halfSet d.cqBase false w }
  | 0x1C => off0 { d with cqBase := halfSet d.cqBase true w }
  | 0x24 => { d with cqHead := w }
  | _ => d

/-- The bits of a debug block's word that a write sets; none where it is read-only or reserved (R411). -/
def debugMask (off : Nat) : Nat :=
  if off = 0x00 then 0x3F7FF else if off = 0x20 then 0xFFFFF else if off = 0x24 then 0x7FFF
  else if off = 0x08 ∨ (0x28 ≤ off ∧ off ≤ 0x38) then 0xFFFFFFFF
  else if 0x40 ≤ off ∧ off < 0x80 then (if off % 8 = 0 then 0x7FFFFF else 0xFFFFF)
  else 0

/-- A write of one word of a debug block: a command acts, an injection becomes pending, anything else is kept
(R393, R396, R411). -/
def debugWrite (s : State) (asid off w : Nat) : State :=
  if off = 0x80 then
    agendaAdd s (match w % 4 with
      | 1 => [.debugUnwind (BitVec.ofNat 14 asid)]
      | 2 => [.debugFail (BitVec.ofNat 14 asid)]
      | 3 => [.debugResume (BitVec.ofNat 14 asid)]
      | _ => [])
  else if debugMask off = 0 then s
  else setDbg s asid off ((w &&& debugMask off) + (if off = 0x20 then 2 ^ 20 else 0))

/-- A write of one aligned 32-bit word of the window. -/
def windowWord (s : State) (off w : Nat) : State :=
  if off = 0x004 then writeModuleId s w
  else if off = 0x008 then writeBudget s w
  else if off = 0x00C then writeBandFault s w
  else if off = 0x018 then setKick s (field w 0 12)
  else if 0x008000 ≤ off ∧ off < 0x00C000 then { s with keys := storeBytes s.keys (off - 0x008000) (bytesOf 4 w) }
  else if 0x010000 ≤ off ∧ off < 0x050000 then
    onQueue s ((off - 0x010000) / 64) (fun d => queueWord d ((off - 0x010000) % 64) w)
  else if 0x050000 ≤ off ∧ off < 0x058000 then
    let a := (off - 0x050000) / 2
    { s with tenants := mset 0 (mset 0 s.tenants a (BitVec.ofNat 16 (w &&& 0x80FF))) (a + 1) (BitVec.ofNat 16 (w >>> 16 &&& 0x80FF)) }
  else if 0x100000 ≤ off ∧ off < 0x500000 then debugWrite s ((off - 0x100000) / 256) ((off - 0x100000) % 256) w
  else s

/-- A write of one entry of the tenant map, or one key byte. -/
def windowSmall (s : State) (off bytes : Nat) (x : Nat) : State :=
  if 0x008000 ≤ off ∧ off + bytes ≤ 0x00C000 then { s with keys := storeBytes s.keys (off - 0x008000) (bytesOf bytes x) }
  else if 0x050000 ≤ off ∧ off < 0x058000 ∧ bytes = 2 ∧ off % 2 = 0 then
    { s with tenants := mset 0 s.tenants ((off - 0x050000) / 2) (BitVec.ofNat 16 (x &&& 0x80FF)) }
  else s

/-! ## Host writes (R389, R410, R411) -/

/-- Bytes of the window space that one module's window takes in the bridge's.
Log entry 81 (DESIGN CHOICE). -/
def windowStride : Nat := 8388608

/-- A host write at an offset of the bridge's window: the module it names, and the offset in that module's window; none for
one in this module's own. -/
def otherModule (s : State) (off : Nat) : Option (Nat × Nat) :=
  if off < windowStride then none
  else
    let m := off / windowStride - 1
    if m = s.moduleId then none else some (m, off % windowStride)

/-- R410, R411: the host writes 4 or 8 aligned bytes of the hub window, a tenant-map entry, or bytes of a key. An
unpowered module answers nothing (R409). The bridge forwards a write to another module's window, in the order written
(R389).
Log entry 81 (DESIGN CHOICE). -/
def execRegisterWrite (off bytes : Nat) (x : BitVec 64) (s : State) : Result :=
  if !s.powered then .next s
  else
    match otherModule s off with
    | some (m, o) => .next (if s.status.bridge then sendOut s (.hubWrite m o bytes x.toNat) else s)
    | none => .next (ownWrite (off % windowStride))
where
  /-- A write to this module's own window. -/
  ownWrite (off : Nat) : State :=
    if bytes = 4 ∧ off % 4 = 0 then windowWord s off (field x.toNat 0 32)
    else if bytes = 8 ∧ off % 8 = 0 then windowWord (windowWord s off (field x.toNat 0 32)) (off + 4) (field x.toNat 32 32)
    else windowSmall s off bytes x.toNat

/-! ## What the host reads (R410 to R412) -/

/-- The STATUS word (R412). -/
def statusWord (x : Status) : Nat :=
  256 * x.fail + 16 * x.stage + 8 * b2n x.standby + 4 * b2n x.core + 2 * b2n x.bridge + b2n x.ready

/-- Sheet columns as bits. -/
def columnBits (cs : List Nat) : Nat := (upto 12).foldl (fun a j => if smem cs j then a + 2 ^ j else a) 0

/-- BAND_BUSY: the columns on which a launch is resident (R410). -/
def bandBusy (s : State) : Nat :=
  columnBits ((upto 12).filter (fun j => s.parts.any (fun e => decide (e.2.first ≤ j) && decide (j < e.2.first + e.2.count))))

/-- A word of a queue descriptor as it reads (R411). -/
def queueRead (d : Queue) (off : Nat) : Nat :=
  match off with
  | 0x00 => d.st
  | 0x04 => d.ringLog2 + 256 * d.cqLog2
  | 0x08 => field d.ringBase 0 32
  | 0x0C => field d.ringBase 32 32
  | 0x10 => d.tail
  | 0x14 => d.head
  | 0x18 => field d.cqBase 0 32
  | 0x1C => field d.cqBase 32 32
  | 0x20 => d.cqTail
  | 0x24 => d.cqHead
  | 0x28 => field d.energy 0 32
  | 0x2C => d.snap.toNat
  | _ => 0

/-- What a debug block reads of its ASID's stop state: whether debug hold keeps a launch of it stopped, and the cause of
the event that stopped it (R411). -/
def stopWord (s : State) (asid : Nat) : Nat :=
  match heldPart s asid with
  | some p => 1 + 256 * ((p.stop.map (fun st => field st.evc.toNat 0 8)).getD 0)
  | none => 0

/-- The aligned word at an offset of this module's own window as the host reads it; offsets that are not listed read 0
(R410, R411). That a read of a queue's energy keeps its high half is `execQueueEnergyRead`. -/
def ownRead (s : State) (off : Nat) : Word :=
  BitVec.ofNat 32 (
    if off = 0x000 then statusWord s.status
    else if off = 0x004 then s.moduleId
    else if off = 0x008 then s.budget
    else if off = 0x00C then columnBits s.bandFault
    else if off = 0x010 then bandBusy s
    else if off = 0x014 then field s.power 0 20
    else if 0x008000 ≤ off ∧ off < 0x00C000 then ofBytes (sramBytes s.keys (off - 0x008000) 4)
    else if 0x010000 ≤ off ∧ off < 0x050000 then queueRead (getQueue s ((off - 0x010000) / 64)) ((off - 0x010000) % 64)
    else if 0x050000 ≤ off ∧ off < 0x058000 then
      (mget 0 s.tenants ((off - 0x050000) / 2)).toNat + 2 ^ 16 * (mget 0 s.tenants ((off - 0x050000) / 2 + 1)).toNat
    else if 0x100000 ≤ off ∧ off < 0x500000 then
      let a := (off - 0x100000) / 256
      let o := (off - 0x100000) % 256
      if o = 0x80 then 0
      else if o = 0x84 then stopWord s a
      else dbgWord s a o
    else 0)

/-- The aligned word at an offset of the bridge's window (R389), in which the modules' windows lie by module ID: of this
module's own. Another module answers a read of its own itself, and an unpowered one does not answer (R409).
Log entry 81 (DESIGN CHOICE). -/
def windowRead (s : State) (off : Nat) : Option Word :=
  if s.powered && (otherModule s off).isNone then some (ownRead s (off % windowStride)) else none

end Sys2Proof.Machine
end

