-- ==== Sys2Proof/Machine/Scalar.lean ====
section
/-! DEFINITION. The S slot: scalar, predicate, special-register, control and loop instructions
(R111 to R129). -/

namespace Sys2Proof.Machine

/-- A register-register integer instruction (R112): both sources read at issue, the result in flight. -/
def aluRR (i : Instr) (gu : Guard) (gd ga gb : BitVec 5) (lat : Nat) (f : Word → Word → Word) (s : State) : Result :=
  runSlot i (fun _ _ => { sl := .s, gu := gu, reads := [codeG ga.toNat, codeG gb.toNat] })
    (fun _ t s => result s .s lat (.g gd.toNat (f (rg t ga.toNat) (rg t gb.toNat))) 0) s

/-- A one-source integer instruction, or one with an immediate (R112, R113). -/
def aluR (i : Instr) (gu : Guard) (gd ga : BitVec 5) (f : Word → Word) (s : State) : Result :=
  runSlot i (fun _ _ => { sl := .s, gu := gu, reads := [codeG ga.toNat] })
    (fun _ t s => result s .s 1 (.g gd.toNat (f (rg t ga.toNat))) 0) s

/-- Count of leading zero bits (R112). -/
def clz32 (a : Word) : Word := BitVec.ofNat 32 (clzN 32 a.toNat)

/-- Count of one bits (R112). -/
def popc32 (a : Word) : Word := BitVec.ofNat 32 (popcount 32 a.toNat)

/-- The upper half of the signed product (R112). -/
def mulHigh (a b : Word) : Word := BitVec.ofInt 32 ((a.toInt * b.toInt) / 2 ^ 32)

/-- The upper half of the unsigned product (R112). -/
def mulHighN (a b : Word) : Word := BitVec.ofNat 32 (a.toNat * b.toNat / 2 ^ 32)

/-- The conditions of CMP by code (R96, R115). -/
def cmpCond (cc : Nat) (a b : Word) : Bool :=
  match cc with
  | 0 => a == b
  | 1 => a != b
  | 2 => decide (a.toInt < b.toInt)
  | 3 => decide (a.toInt ≤ b.toInt)
  | 4 => decide (b.toInt < a.toInt)
  | 5 => decide (b.toInt ≤ a.toInt)
  | 6 => decide (a.toNat < b.toNat)
  | 7 => decide (a.toNat ≤ b.toNat)
  | 8 => decide (b.toNat < a.toNat)
  | _ => decide (b.toNat ≤ a.toNat)

/-! ## Special registers (R23 to R30, R117) -/

/-- Whether an index is assigned (R25, R29). -/
def sregKnown (i : Nat) : Bool := decide (i ≤ 0x14) || (decide (0x80 ≤ i) && decide (i ≤ 0xE5))

/-- Whether an index may be written (R25). -/
def sregWritable (i : Nat) : Bool := i == 0x0C || i == 0x0D || i == 0x0E

/-- MODE's value (R26). -/
def modeOf (t : Tile) : Word :=
  BitVec.ofNat 32 (t.sbCount * 2 ^ 20 + t.dramCount * 2 ^ 8 + b2n t.raceBound * 4 + b2n t.dramMode * 2 + b2n t.sbMode)

/-- CRH's value: the innermost open region (R26). -/
def crhOf (t : Tile) : Word :=
  match t.regions with
  | [] => 0
  | r :: _ => BitVec.ofNat 32 (r.retries * 2 ^ 24 + r.handler.toNat)

/-- The tile's copy of GCYC at issue (R25, R290). -/
def gcycOf (p : Part) (l : Loc) (t : Tile) : Nat := if poolBase ≤ l.idx then p.gcyc else wrapN 64 ((p.gcyc : Int) + t.skew)

/-- The tile whose coordinates a program reads: on a pool tile that of the unit it replays (R25, R357). -/
def homeIdx (l : Loc) (t : Tile) : Nat := t.replays.getD l.idx

/-- A special register's 64 bits (R25, R26, R29); a narrow one is zero-extended. -/
def sregRead (s : State) (l : Loc) (p : Part) (t : Tile) (i : Nat) : Nat :=
  if i = 0x00 then gcycOf p l t
  else if i = 0x02 then wallOf s.edge
  else if i = 0x04 then tx (homeIdx l t)
  else if i = 0x05 then ty (homeIdx l t)
  else if i = 0x06 then tx (homeIdx l t) / 64
  else if i = 0x07 then ty (homeIdx l t) / 112
  else if i = 0x08 then t.stage.toNat
  else if i = 0x09 then pw p
  else if i = 0x0A then ph
  else if i = 0x0B then p.rec_.asid
  else if i = 0x0C then t.flg.toNat
  else if i = 0x0D then t.fpm.toNat
  else if i = 0x0E then (modeOf t).toNat
  else if i = 0x0F then p.rec_.seed.toNat
  else if i = 0x10 then t.regions.length
  else if i = 0x11 then (crhOf t).toNat
  else if i = 0x12 then t.evc.toNat
  else if i = 0x13 then t.epc.toNat
  else if i = 0x14 then t.done.toNat
  else (mget 0 t.ltc i).toNat

/-- The indices whose low-half read takes a snapshot (R23, R29). -/
def sregWide (i : Nat) : Bool := i == 0x00 || i == 0x02 || decide (0x80 ≤ i)

/-- What RDS reads (R23): a low half, or the snapshot at a high half's index. -/
def rdsValue (s : State) (l : Loc) (p : Part) (t : Tile) (i : Nat) : Word :=
  if i = 0x01 ∨ i = 0x03 then t.snap else BitVec.ofNat 32 (sregRead s l p t i)

/-- The snapshot after an RDS (R23). -/
def rdsSnap (s : State) (l : Loc) (p : Part) (t : Tile) (i : Nat) : Word :=
  if sregWide i then BitVec.ofNat 32 (sregRead s l p t i / 2 ^ 32) else t.snap

/-- Detail 0x000C of a special-register index (R24). -/
def detC (c : Bool) : Option Nat := if c then some 0x000C else none

/-! ## Control (R118 to R121) -/

/-- Detail 0x000E: a transfer in a delay bundle (R121). -/
def delayBad (t : Tile) : Option Nat := if (issueOf t .s).inDelay then some 0x000E else none

/-- Take a transfer: two delay bundles, then the target (R119). A CALL's carries its return address (R120). -/
def takeXfer (s : State) (target : BitVec 13) (closes : Bool) (link : Option (BitVec 13)) : State :=
  onIssue s (fun is => { is with xfer := some { target := target, delay := 2, from_ := is.pc, closes := closes, link := link } })

/-! ## Loops (R122, R123) -/

/-- Levels open once the bundle's own le has been applied (R18, R123). -/
def levelsAfterLe (t : Tile) (is : Issue) : Nat :=
  if is.le && !is.inDelay then (loopBack 7 t.loop is.pc).1.levels.length else t.loop.levels.length

/-- The run-time checks of a LOOP: 0x000D, then 0x000A for an end below the start (R109, R123). -/
def loopBad (t : Tile) (end_ : BitVec 13) : Option Nat :=
  let is := issueOf t .s
  firstSome [if 6 ≤ levelsAfterLe t is then some 0x000D else none, detA (decide (end_.toNat < is.next.toNat))]

/-- What is noted of a level that opens at an address (R123). -/
def loopNote (start end_ : BitVec 13) (rp rv : Bool) (wsz : BitVec 3) (n d : Nat) : LoopOpen :=
  { lev := { start := start, end_ := end_, d := d, rp := rp, rv := rv, window := if rv then 8 * 2 ^ wsz.toNat else 0 },
    trips := BitVec.ofNat 32 (n + d), n := n }

/-- Open a level at the end of the bundle (R123). -/
def openLoop (s : State) (end_ : BitVec 13) (rp rv : Bool) (wsz : BitVec 3) (n d : Nat) : State :=
  onIssue s (fun is => { is with loopOpen := some (loopNote is.next end_ rp rv wsz n d) })


/-- R112: (a + b) mod 2^32. -/
def execAdd (gu : Guard) (gd ga gb : BitVec 5) (s : State) : Result :=
  aluRR (.add gu gd ga gb) gu gd ga gb 1 (fun a b => a + b) s

/-- R112: (a - b) mod 2^32. -/
def execSub (gu : Guard) (gd ga gb : BitVec 5) (s : State) : Result :=
  aluRR (.sub gu gd ga gb) gu gd ga gb 1 (fun a b => a - b) s

/-- R112: bitwise and. -/
def execAnd (gu : Guard) (gd ga gb : BitVec 5) (s : State) : Result :=
  aluRR (.and_ gu gd ga gb) gu gd ga gb 1 (fun a b => a &&& b) s

/-- R112: bitwise or. -/
def execOr (gu : Guard) (gd ga gb : BitVec 5) (s : State) : Result :=
  aluRR (.or_ gu gd ga gb) gu gd ga gb 1 (fun a b => a ||| b) s

/-- R112: bitwise exclusive or. -/
def execXor (gu : Guard) (gd ga gb : BitVec 5) (s : State) : Result :=
  aluRR (.xor_ gu gd ga gb) gu gd ga gb 1 (fun a b => a ^^^ b) s

/-- R112: left shift by b[4:0]. -/
def execShl (gu : Guard) (gd ga gb : BitVec 5) (s : State) : Result :=
  aluRR (.shl gu gd ga gb) gu gd ga gb 1 (fun a b => a <<< (b.toNat % 32)) s

/-- R112: logical right shift by b[4:0]. -/
def execShr (gu : Guard) (gd ga gb : BitVec 5) (s : State) : Result :=
  aluRR (.shr gu gd ga gb) gu gd ga gb 1 (fun a b => a >>> (b.toNat % 32)) s

/-- R112: arithmetic right shift by b[4:0]. -/
def execSar (gu : Guard) (gd ga gb : BitVec 5) (s : State) : Result :=
  aluRR (.sar gu gd ga gb) gu gd ga gb 1 (fun a b => a.sshiftRight (b.toNat % 32)) s

/-- R112: low half of the product. -/
def execMul (gu : Guard) (gd ga gb : BitVec 5) (s : State) : Result :=
  aluRR (.mul gu gd ga gb) gu gd ga gb 2 (fun a b => a * b) s

/-- R112: high half of the signed product. -/
def execMulh (gu : Guard) (gd ga gb : BitVec 5) (s : State) : Result :=
  aluRR (.mulh gu gd ga gb) gu gd ga gb 2 (mulHigh) s

/-- R112: high half of the unsigned product. -/
def execMulhn (gu : Guard) (gd ga gb : BitVec 5) (s : State) : Result :=
  aluRR (.mulhn gu gd ga gb) gu gd ga gb 2 (mulHighN) s

/-- R112: signed minimum. -/
def execMin (gu : Guard) (gd ga gb : BitVec 5) (s : State) : Result :=
  aluRR (.min gu gd ga gb) gu gd ga gb 1 (fun a b => if a.toInt ≤ b.toInt then a else b) s

/-- R112: signed maximum. -/
def execMax (gu : Guard) (gd ga gb : BitVec 5) (s : State) : Result :=
  aluRR (.max gu gd ga gb) gu gd ga gb 1 (fun a b => if a.toInt ≤ b.toInt then b else a) s

/-- R112: unsigned minimum. -/
def execMinn (gu : Guard) (gd ga gb : BitVec 5) (s : State) : Result :=
  aluRR (.minn gu gd ga gb) gu gd ga gb 1 (fun a b => if a.toNat ≤ b.toNat then a else b) s

/-- R112: unsigned maximum. -/
def execMaxn (gu : Guard) (gd ga gb : BitVec 5) (s : State) : Result :=
  aluRR (.maxn gu gd ga gb) gu gd ga gb 1 (fun a b => if a.toNat ≤ b.toNat then b else a) s

/-- R112: leading zeros. -/
def execClz (gu : Guard) (gd ga : BitVec 5) (s : State) : Result :=
  aluR (.clz gu gd ga) gu gd ga clz32 s

/-- R112: one bits. -/
def execPopc (gu : Guard) (gd ga : BitVec 5) (s : State) : Result :=
  aluR (.popc gu gd ga) gu gd ga popc32 s

/-- R113: a + e with the sign-extended immediate. -/
def execAddi (gu : Guard) (gd ga : BitVec 5) (imm : BitVec 24) (s : State) : Result :=
  aluR (.addi gu gd ga imm) gu gd ga (fun a => a + sext32 imm) s

/-- R113: bitwise and with the sign-extended immediate. -/
def execAndi (gu : Guard) (gd ga : BitVec 5) (imm : BitVec 24) (s : State) : Result :=
  aluR (.andi gu gd ga imm) gu gd ga (fun a => a &&& sext32 imm) s

/-- R113: bitwise or with the sign-extended immediate. -/
def execOri (gu : Guard) (gd ga : BitVec 5) (imm : BitVec 24) (s : State) : Result :=
  aluR (.ori gu gd ga imm) gu gd ga (fun a => a ||| sext32 imm) s

/-- R113: bitwise exclusive or with the sign-extended immediate. -/
def execXori (gu : Guard) (gd ga : BitVec 5) (imm : BitVec 24) (s : State) : Result :=
  aluR (.xori gu gd ga imm) gu gd ga (fun a => a ^^^ sext32 imm) s

/-- R113: left shift by the immediate. -/
def execShli (gu : Guard) (gd ga sh : BitVec 5) (s : State) : Result :=
  aluR (.shli gu gd ga sh) gu gd ga (fun a => a <<< sh.toNat) s

/-- R113: logical right shift by the immediate. -/
def execShri (gu : Guard) (gd ga sh : BitVec 5) (s : State) : Result :=
  aluR (.shri gu gd ga sh) gu gd ga (fun a => a >>> sh.toNat) s

/-- R113: arithmetic right shift by the immediate. -/
def execSari (gu : Guard) (gd ga sh : BitVec 5) (s : State) : Result :=
  aluR (.sari gu gd ga sh) gu gd ga (fun a => a.sshiftRight sh.toNat) s

/-- R113: the sign-extended immediate. -/
def execLi (gu : Guard) (gd : BitVec 5) (imm : BitVec 24) (s : State) : Result :=
  runSlot (.li gu gd imm) (fun _ _ => { sl := .s, gu := gu })
    (fun _ _ s => result s .s 1 (.g gd.toNat (sext32 imm)) 0) s

/-- R113: the immediate above the low half of gd, which is a source. -/
def execLih (gu : Guard) (gd : BitVec 5) (imm : BitVec 16) (s : State) : Result :=
  runSlot (.lih gu gd imm) (fun _ _ => { sl := .s, gu := gu, reads := [codeG gd.toNat] })
    (fun _ t s => result s .s 1 (.g gd.toNat ((imm.zeroExtend 32 <<< 16) ||| (rg t gd.toNat &&& 0xFFFF))) 0) s

/-- R114: a when qs is true, else b. -/
def execSel (gu : Guard) (gd ga gb : BitVec 5) (qs : BitVec 4) (s : State) : Result :=
  runSlot (.sel gu gd ga gb qs)
    (fun _ _ => { sl := .s, gu := gu, reads := [codeG ga.toNat, codeG gb.toNat, codeQ qs.toNat] })
    (fun _ t s => result s .s 1 (.g gd.toNat (if rq t qs.toNat then rg t ga.toNat else rg t gb.toNat)) 0) s

/-- R115: compare two registers. -/
def execCmpReg (gu : Guard) (qd cc : BitVec 4) (ga gb : BitVec 5) (s : State) : Result :=
  runSlot (.cmpReg gu qd cc ga gb) (fun _ _ => { sl := .s, gu := gu, reads := [codeG ga.toNat, codeG gb.toNat] })
    (fun _ t s => result s .s 1 (.q qd.toNat (cmpCond cc.toNat (rg t ga.toNat) (rg t gb.toNat))) 0) s

/-- R115: compare a register with the sign-extended immediate. -/
def execCmpImm (gu : Guard) (qd cc : BitVec 4) (ga : BitVec 5) (imm : BitVec 20) (s : State) : Result :=
  runSlot (.cmpImm gu qd cc ga imm) (fun _ _ => { sl := .s, gu := gu, reads := [codeG ga.toNat] })
    (fun _ t s => result s .s 1 (.q qd.toNat (cmpCond cc.toNat (rg t ga.toNat) (sext32 imm))) 0) s

/-- R116: conjunction. -/
def execQand (gu : Guard) (qd qa qb : BitVec 4) (s : State) : Result :=
  runSlot (.qand gu qd qa qb) (fun _ _ => { sl := .s, gu := gu, reads := [codeQ qa.toNat, codeQ qb.toNat] })
    (fun _ t s => result s .s 1 (.q qd.toNat (rq t qa.toNat && rq t qb.toNat)) 0) s

/-- R116: disjunction. -/
def execQor (gu : Guard) (qd qa qb : BitVec 4) (s : State) : Result :=
  runSlot (.qor gu qd qa qb) (fun _ _ => { sl := .s, gu := gu, reads := [codeQ qa.toNat, codeQ qb.toNat] })
    (fun _ t s => result s .s 1 (.q qd.toNat (rq t qa.toNat || rq t qb.toNat)) 0) s

/-- R116: negation. -/
def execQnot (gu : Guard) (qd qa : BitVec 4) (s : State) : Result :=
  runSlot (.qnot gu qd qa) (fun _ _ => { sl := .s, gu := gu, reads := [codeQ qa.toNat] })
    (fun _ t s => result s .s 1 (.q qd.toNat (!rq t qa.toNat)) 0) s

/-- R117: read a special register under the snapshot rule of R23. -/
def execRds (gu : Guard) (g : BitVec 5) (sidx : BitVec 8) (s : State) : Result :=
  runSlot (.rds gu g sidx)
    (fun _ _ => { sl := .s, gu := gu, check := detC (!sregKnown sidx.toNat), opens := sregWide sidx.toNat || sidx == 1 || sidx == 3 })
    (fun p t s0 =>
      let s1 := onTile s0 s0.cur (fun u => { u with snap := rdsSnap s0 s0.cur p t sidx.toNat })
      result s1 .s 1 (.g g.toNat (rdsValue s0 s0.cur p t sidx.toNat)) 0) s

/-- R117: write a special register; it lands at t + 1 (R27). -/
def execWrs (gu : Guard) (g : BitVec 5) (sidx : BitVec 8) (s : State) : Result :=
  runSlot (.wrs gu g sidx)
    (fun _ _ => { sl := .s, gu := gu, check := detC (!sregWritable sidx.toNat), reads := [codeG g.toNat] })
    (fun _ t s => result s .s 1 (.sreg sidx.toNat (rg t g.toNat)) 0) s

/-- R117: all 64 bits of GCYC into an even pair, with no snapshot (R23). -/
def execRdcyc (gu : Guard) (g : BitVec 5) (s : State) : Result :=
  runSlot (.rdcyc gu g) (fun _ _ => { sl := .s, gu := gu, opens := true })
    (fun p t s =>
      let x := gcycOf p s.cur t
      result (result s .s 1 (.g g.toNat (BitVec.ofNat 32 x)) 0) .s 1 (.g (g.toNat + 1) (BitVec.ofNat 32 (x / 2 ^ 32))) 0) s

/-! ## The return address of a CALL (R120) -/

/-- What a scalar, predicate or special-register instruction does. -/
def runS (i : Instr) (s : State) : Result :=
  match i with
  | .add gu gd ga gb => execAdd gu gd ga gb s
  | .sub gu gd ga gb => execSub gu gd ga gb s
  | .and_ gu gd ga gb => execAnd gu gd ga gb s
  | .or_ gu gd ga gb => execOr gu gd ga gb s
  | .xor_ gu gd ga gb => execXor gu gd ga gb s
  | .shl gu gd ga gb => execShl gu gd ga gb s
  | .shr gu gd ga gb => execShr gu gd ga gb s
  | .sar gu gd ga gb => execSar gu gd ga gb s
  | .min gu gd ga gb => execMin gu gd ga gb s
  | .max gu gd ga gb => execMax gu gd ga gb s
  | .minn gu gd ga gb => execMinn gu gd ga gb s
  | .maxn gu gd ga gb => execMaxn gu gd ga gb s
  | .clz gu gd ga => execClz gu gd ga s
  | .popc gu gd ga => execPopc gu gd ga s
  | .addi gu gd ga imm => execAddi gu gd ga imm s
  | .andi gu gd ga imm => execAndi gu gd ga imm s
  | .ori gu gd ga imm => execOri gu gd ga imm s
  | .xori gu gd ga imm => execXori gu gd ga imm s
  | .shli gu gd ga sh => execShli gu gd ga sh s
  | .shri gu gd ga sh => execShri gu gd ga sh s
  | .sari gu gd ga sh => execSari gu gd ga sh s
  | .li gu gd imm => execLi gu gd imm s
  | .lih gu gd imm => execLih gu gd imm s
  | .sel gu gd ga gb qs => execSel gu gd ga gb qs s
  | .cmpReg gu qd cc ga gb => execCmpReg gu qd cc ga gb s
  | .cmpImm gu qd cc ga imm => execCmpImm gu qd cc ga imm s
  | .qand gu qd qa qb => execQand gu qd qa qb s
  | .qor gu qd qa qb => execQor gu qd qa qb s
  | .qnot gu qd qa => execQnot gu qd qa s
  | .rds gu g sidx => execRds gu g sidx s
  | .wrs gu g sidx => execWrs gu g sidx s
  | .rdcyc gu g => execRdcyc gu g s
  | _ => .next s

/-- The S slot of a bundle, if it has one that holds an instruction. -/
def sSlot (t : Tile) (pc : BitVec 13) : Option Instr :=
  let h := headerAt t pc
  match (cutSlots h.mask (bodyWords t pc h.mask)).find? (fun e => e.1 == .s) with
  | some (_, w) => (decodeSlot .s w).toOption
  | none => none

/-- What a LOOP or LOOPI of a bundle notes, where its guard is true (R123). -/
def loopOf (t : Tile) (pc : BitVec 13) : Option LoopOpen :=
  match sSlot t pc with
  | some (.loop gu end_ rp rv wsz ga) =>
    let a := (rg t ga.toNat).toNat
    let note := loopNote (afterBundle t pc) end_ rp rv wsz
    if guardTrue t gu then some (if rp then note (field a 0 29) (field a 29 3) else note a 0) else none
  | some (.loopi gu end_ rp rv wsz count) =>
    let a := count.toNat
    let note := loopNote (afterBundle t pc) end_ rp rv wsz
    if guardTrue t gu then some (if rp then note (field a 0 13) (field a 13 3) else note a 0) else none
  | _ => none

/-- Where a LOOP or LOOPI with a trip count of 0 in a bundle leads (R123): past the bundle at its end. -/
def zeroLoop (t : Tile) (pc : BitVec 13) : Option (BitVec 13) :=
  ((loopOf t pc).filter (fun o => o.trips == 0)).map (afterLoop t)

/-- The tile with the level open that a bundle has noted, if any (R123). -/
def withLevel (t : Tile) (o : Option LoopOpen) : Tile :=
  match o with
  | some o => { t with loop := openLevel t.loop o }
  | none => t

/-- The next position of ordinary sequencing: a header address and the empty bundles of its fold still
to issue (R90, R119). -/
def walkOne (t : Tile) (pos : BitVec 13 × Option Nat) : BitVec 13 × Option Nat :=
  let h := headerAt t pos.1
  if h.mask = 0 then
    let left := match pos.2 with
      | some n => n - 1
      | none => h.fold
    if left = 0 then (pos.1 + 1, none) else (pos.1, some left)
  else ((zeroLoop t pos.1).getD (afterBundle t pos.1), none)

/-- The edge of the next issue at a cadence (R282). -/
def nextEdge (k edge : Nat) : Nat := (((upto 128).map (fun i => edge + 1 + i)).find? (isIssueEdge k)).getD (edge + 1)

/-- The current tile as the next bundle's reads find it, in the state of that cycle: what is due has landed. -/
def laterTile (s : State) : State :=
  let k := ((getPart s s.cur.band).map (fun p => p.k)).getD 60
  onPart { s with edge := nextEdge k s.edge } s.cur.band (fun p =>
    { modTile p s.cur.idx (fun t =>
        let u := landDue t (cycOf p s.cur.idx + 1)
        if poolBase ≤ s.cur.idx then { u with skew := u.skew + 1 } else u) with gcyc := p.gcyc + 1 })

/-- The current tile of a state. -/
def curTile (s : State) (t : Tile) : Tile := ((tileAt s s.cur).map Prod.snd).getD t

/-- The results of the VEXTs that the CALL's bundle has still to issue: they land for the second delay bundle (R139). -/
def vextsOf (s : State) (t : Tile) (is : Issue) (g : Nat) : List Landing :=
  is.slots.filterMap (fun e =>
    match decodeSlot e.1 e.2 with
    | .ok (.vext sl gu ty _ gd a lane) =>
      if guardTrue t gu then
        some { issued := g, due := g + 2, slot := slotNum (vslot sl), seq := s.seqNo,
               dest := .g gd.toNat (extend ty (elem (tyWidth ty.toNat) (vop t a) lane.toNat)), flags := 0 }
      else none
    | _ => none)

/-- A bundle with the region that its SY slot, still to issue, opens or closes (R239, R240). -/
def withRegion (t : Tile) (is : Issue) : Issue :=
  is.slots.foldl (fun is e =>
    match decodeSlot e.1 e.2 with
    | .ok (.cropen handler budget) => if t.regions.length < 4 then { is with push := some (handler, budget.toNat) } else is
    | .ok .crclose => { is with pop := !t.regions.isEmpty }
    | _ => is) is

/-- The state in which the CALL's bundle has ended (`closeBundle`): it is counted, its le has acted on the loops and its
SY slot on the regions, and what its slots bring to registers is in flight, with `link` as the address that the CALL
itself writes. -/
def afterCall (s : State) (t : Tile) (is : Issue) (link : BitVec 13) : State :=
  onPart s s.cur.band (fun p =>
    let g := cycOf p s.cur.idx
    modTile p s.cur.idx (fun u =>
      let ended := closeBundle { p with gcyc := g } { t with flight := u.flight ++ vextsOf s t is g ++
        [{ issued := g, due := g + 1, slot := 0, seq := s.seqNo, dest := .g 31 (link.zeroExtend 32), flags := 0 }] } (withRegion t is)
      { ended with seq := u.seq }))

/-- The walk past the two delay bundles of a CALL that writes `link`. The count and the guard of a LOOP among them are
read as the delay bundle will find them; the first one's own S result, and the level that it opens, are among what the
second finds. -/
def returnWalk (s : State) (t : Tile) (is : Issue) (link : BitVec 13) : BitVec 13 :=
  let first := if is.le && !is.inDelay then (loopBack 7 t.loop is.pc).2.getD is.next else is.next
  let s1 := laterTile (afterCall s t is link)
  let t1 := curTile s1 t
  let p1 := walkOne t1 (first, none)
  let s2 := match (if (headerAt t1 first).mask = 0 then none else sSlot t1 first) with
    | some i => match runS i s1 with
      | .next u => laterTile u
      | .fault _ | .refused _ => laterTile s1
    | none => laterTile s1
  let p2 := walkOne (withLevel (curTile s2 t1) (loopOf t1 first)) p1
  if p2.2.isSome then p2.1 + 1 else p2.1

/-- The return address of a CALL (R120), as the delay bundles find it in g31: a LOOP on g31 among them finds that
address itself. Where ordinary sequencing comes elsewhere, `fixLink` puts g31 right.
Log entry 26 (DEDUCED). -/
def returnAddr (s : State) (t : Tile) (is : Issue) : BitVec 13 := returnWalk s t is (returnWalk s t is is.next)

/-- R118: branch. -/
def execBr (gu : Guard) (target : BitVec 13) (s : State) : Result :=
  runSlot (.br gu target) (fun _ t => { sl := .s, gu := gu, check := delayBad t }) (fun _ _ s => takeXfer s target true none) s

/-- R118: branch on a predicate. -/
def execBrq (gu : Guard) (target : BitVec 13) (qa : BitVec 4) (nq : Bool) (s : State) : Result :=
  runSlot (.brq gu target qa nq) (fun _ t => { sl := .s, gu := gu, check := delayBad t, reads := [codeQ qa.toNat] })
    (fun _ t s => if rq t qa.toNat != nq then takeXfer s target true none else s) s

/-- R118, R120: call; g31 takes the return address at t + 1. -/
def execCall (gu : Guard) (target : BitVec 13) (s : State) : Result :=
  runSlot (.call gu target) (fun _ t => { sl := .s, gu := gu, check := delayBad t })
    (fun _ t u =>
      let a := returnAddr s t (issueOf t .s)
      result (takeXfer u target false (some a)) .s 1 (.g 31 (a.zeroExtend 32)) 0) s

/-- R118: return through a register. No record of it is traced.
Log entry 84 (DEDUCED). -/
def execRet (gu : Guard) (ga : BitVec 5) (s : State) : Result :=
  runSlot (.ret gu ga) (fun _ t => { sl := .s, gu := gu, check := delayBad t, reads := [codeG ga.toNat] })
    (fun _ t s => takeXfer s ((rg t ga.toNat).truncate 13) false none) s

/-- R118: jump through a register. No record of it is traced.
Log entry 84 (DEDUCED). -/
def execJmpg (gu : Guard) (ga : BitVec 5) (s : State) : Result :=
  runSlot (.jmpg gu ga) (fun _ t => { sl := .s, gu := gu, check := delayBad t, reads := [codeG ga.toNat] })
    (fun _ t s => takeXfer s ((rg t ga.toNat).truncate 13) true none) s

/-- R122, R123: a loop whose count is in a register. -/
def execLoop (gu : Guard) (end_ : BitVec 13) (rp rv : Bool) (wsz : BitVec 3) (ga : BitVec 5) (s : State) : Result :=
  runSlot (.loop gu end_ rp rv wsz ga)
    (fun _ t => { sl := .s, gu := gu, check := loopBad t end_, reads := [codeG ga.toNat] })
    (fun _ t s =>
      let a := (rg t ga.toNat).toNat
      if rp then openLoop s end_ rp rv wsz (field a 0 29) (field a 29 3) else openLoop s end_ rp rv wsz a 0) s

/-- R122, R123: a loop whose count is an immediate. -/
def execLoopi (gu : Guard) (end_ : BitVec 13) (rp rv : Bool) (wsz : BitVec 3) (count : BitVec 16) (s : State) : Result :=
  runSlot (.loopi gu end_ rp rv wsz count) (fun _ t => { sl := .s, gu := gu, check := loopBad t end_ })
    (fun _ _ s =>
      let a := count.toNat
      if rp then openLoop s end_ rp rv wsz (field a 0 13) (field a 13 3) else openLoop s end_ rp rv wsz a 0) s

end Sys2Proof.Machine
end

