-- ==== Sys2Proof/Machine/Upkeep.lean ====
section
/-! DEFINITION. What happens on groomer edges beside the partition's cycles: EVT records, trace records, the
replay log, scrubbing, error injection (R244, R343, R355, R393, R399 to R404). -/

namespace Sys2Proof.Machine

/-! ## EVT records (R244, R343) -/

/-- R244: one queued record of each tile reaches the event ring. -/
def execEvtDrain (band : Nat) (s : State) : Result :=
  match getPart s band with
  | none => .next s
  | some p =>
    .next ((p.tiles.filter (fun e => !e.2.evts.isEmpty)).foldl (fun s e =>
      match e.2.evts with
      | [] => s
      | r :: rest => onTile (deliverEvt s p e.1 r) { band, idx := e.1 } (fun t => { t with evts := rest })) s)

/-! ## Trace records (R400, R401) -/

/-- R401: a queued record of each tile goes to the buffer; the host sees the pointers (R411).
Log entry 52 (DEDUCED). -/
def execTraceDrain (band : Nat) (s : State) : Result := .next (drainTraces s band)

/-- R400: at each sample period every tile that has not halted queues a record of its last bundle. -/
def execTraceSample (band : Nat) (s : State) : Result :=
  .next (onPart s band (fun p =>
    let q := { p with sampleAt := p.sampleAt + (p.tracePeriod.getD 0) }
    { q with tiles := q.tiles.map (fun e =>
        match e.2.seq.lastCyc with
        | some c => if e.2.seq.halted then e else (e.1, traceAdd q e.2 { ty := 6, gcyc := c, payload := [(0x18, 4, e.2.seq.lastPc.toNat)] })
        | none => e) }))

/-! ## The replay log (R402, R404) -/

/-- R404: staged entries go to the host buffer. -/
def execReplayLogDrain (band : Nat) (s : State) : Result :=
  match getPart s band with
  | none => .next s
  | some p => let x := drainLog s p p.log.length; .next (setPart x.1 x.2)

/-! ## Scrubbing and injection (R355, R393) -/

/-- Whether a granule lies in the lines that the scrubbers read at an edge: one line of each bank, in turn.
Log entry 53 (DEDUCED). -/
def inScrub (edge gr : Nat) : Bool := gr / 16 == edge / 16 % 1280

/-- One tile's scrub: what can be corrected is, and what cannot is poisoned.
Log entry 28 (DESIGN CHOICE). -/
def scrubTile (edge : Nat) (t : Tile) : Tile :=
  { t with
    corr := t.corr.filter (fun gr => !inScrub edge gr), uncorr := t.uncorr.filter (fun gr => !inScrub edge gr),
    poison := (t.uncorr.filter (inScrub edge)).foldl sinsert t.poison }

/-- One partition's scrub: granules poisoned and corrected are logged (R169, R355, R402). -/
def scrubPart (s : State) (p : Part) : State :=
  let bad := p.tiles.flatMap (fun e => (e.2.uncorr.filter (inScrub s.edge)).map (fun gr => (e.1, gr)))
  let q := bad.foldl (fun p b => logAdd p 3 b.1 p.gcyc [(0x10, 4, b.2)]) p
  let fixed := p.tiles.flatMap (fun e => (e.2.corr.filter (inScrub s.edge)).map (fun gr => (e.1, gr)))
  let at_ := fun (b : Nat × Nat) => (physCol s p.first b.1, ty b.1, b.2)
  setPart { s with scrubLog := s.scrubLog ++ bad.map at_, corrLog := s.corrLog ++ fixed.map at_ }
    { q with tiles := q.tiles.map (fun e => (e.1, scrubTile s.edge e.2)) }

/-- R355: on a groomer edge every scrubber reads one line of each bank. -/
def execScrub (s : State) : Result := .next (s.parts.foldl (fun s e => scrubPart s e.2) s)

/-- R393: the hub poisons the chosen granule on the groomer edge after its GCYC, while debug hold is set; the
control's pending bit clears.
Log entry 28 (DESIGN CHOICE). -/
def execErrorInjection (band : Nat) (s : State) : Result :=
  match getPart s band with
  | none => .next s
  | some p =>
    match p.inject with
    | none => .next s
    | some i =>
      if p.debugHold then
        let gr := i.2.1
        let q := logAdd (modTile { p with inject := none } i.1 (fun t =>
          if 8 * gr < sramEnd then { t with poison := sinsert t.poison gr } else t)) 3 i.1 p.gcyc [(0x10, 4, gr)]
        let w := dbgWord s p.rec_.asid 0x20
        .next (setDbg (setPart s q) p.rec_.asid 0x20 (if bitN w 20 then w - 2 ^ 20 else w))
      else .next s

end Sys2Proof.Machine
end

