-- ==== Sys2Proof/Machine/Vector.lean ====
section
/-! DEFINITION. The vector slots: integer, compare, select, lane-movement and binned-record instructions
(R130 to R145, R155 to R158). -/

namespace Sys2Proof.Machine

/-- Issue-to-landing cycles of a vector result: one more across clusters (R13, R130). -/
def vecLat (sl : VSlot) (d : BitVec 11) (lat : Nat) : Nat :=
  match sl with
  | .va => if d.toNat < 768 then lat else lat + 1
  | .vb => if d.toNat < 768 then lat + 1 else lat

/-- The stochastic-rounding state of the lanes after a vector instruction (R50). -/
def setLfsr (s : State) (lf : SMap Word) : State := onTile s s.cur (fun t => { t with lfsr := lf })

/-- A vector result in flight: register, flags and lane LFSRs (R130, R133). -/
def vecResult (s : State) (t : Tile) (sl : VSlot) (d : BitVec 11) (lat : Nat) (x : Line) (f : Flags) : State :=
  result s (vslot sl) (vecLat sl d lat) (.v (vphys t.loop d.toNat) x) f

/-- A vector instruction of vector sources that sets no flag (R130): the sources in field order, other
registers read, and the result from the sources' values. -/
def vecPlain (i : Instr) (sl : VSlot) (gu : Guard) (d : BitVec 11) (srcs : List (BitVec 11)) (more : List Nat) (lat : Nat)
    (f : Tile → List Line → Line) (s : State) : Result :=
  runSlot i (fun _ t => { sl := vslot sl, gu := gu, reads := srcs.map (codeV t) ++ more })
    (fun _ t s => vecResult s t sl d lat (f t (srcs.map (vop t))) 0) s

/-- Element i of source k. -/
def srcElem (w : Nat) (xs : List Line) (k i : Nat) : Nat := elem w (xs.getD k 0) i

/-- The type a code names; codes that name none are refused before this is used. -/
def tyIs (ty : BitVec 4) : Ty := (tyOf ty.toNat).getD .n32

/-- An integer element operation on up to three sources read by the type's signedness (R134): the exact
result is kept modulo 2^w. -/
def intMap (ty : BitVec 4) (f : Ty → Int → Int → Int → Int) (xs : List Line) : Line :=
  let t := tyIs ty
  lineOf t.width ((upto (128 / t.width)).map (fun i =>
    wrapN t.width (f t (t.intVal (srcElem t.width xs 0 i)) (t.intVal (srcElem t.width xs 1 i)) (t.intVal (srcElem t.width xs 2 i)))))

/-- A bit-field element operation with a count (R135). -/
def bitMap (ty : BitVec 4) (f : Nat → Nat → Nat) (xs : List Line) : Line :=
  let w := tyWidth ty.toNat
  lineOf w ((upto (128 / w)).map (fun i => f w (srcElem w xs 0 i)))

/-- The relations of VCMP by code (R99, R136). -/
def intRel (cc : Nat) (a b : Int) : Bool :=
  match cc with
  | 0 => decide (a = b)
  | 1 => decide (a ≠ b)
  | 2 => decide (a < b)
  | 3 => decide (a ≤ b)
  | 4 => decide (b < a)
  | _ => decide (b ≤ a)

/-- The byte-lane mask of a test on elements (R136): an element of w bits or more than one byte governs
its byte lanes; a lane of two 4-bit elements takes both. -/
def laneMask (w : Nat) (p : Nat → Bool) : BitVec 16 :=
  BitVec.ofNat 16 ((upto 16).foldl (fun a j =>
    if (if w = 4 then p (2 * j) && p (2 * j + 1) else p (j / (w / 8))) then a + 2 ^ j else a) 0)

/-- A mask result in flight; it has no cluster term (R130). -/
def maskResult (s : State) (sl : VSlot) (md : BitVec 3) (lat : Nat) (x : BitVec 16) (f : Flags) : State :=
  result s (vslot sl) lat (.m md.toNat x) f

/-- Bytes of a line chosen by a mask (R137). -/
def selectBytes (m : BitVec 16) (x y : Line) : Line :=
  lineOf 8 ((upto 16).map (fun j => if m.getLsbD j then elem 8 x j else elem 8 y j))

/-- One value in every element. -/
def splat (w x : Nat) : Line := lineOf w ((upto (128 / w)).map (fun _ => x))

/-- VINS: one element replaced (R139). -/
def insertElem (w lane x : Nat) (v : Line) : Line :=
  lineOf w ((upto (128 / w)).map (fun i => if i = lane then x else elem w v i))

/-- VSHUF's byte j (R140). -/
def shuffle (xs : List Line) : Line :=
  lineOf 8 ((upto 16).map (fun j =>
    let s := srcElem 8 xs 2 j
    if bitN s 7 then 0 else if field s 0 5 < 16 then srcElem 8 xs 0 (field s 0 5) else srcElem 8 xs 1 (field s 0 5 - 16)))

/-- VROT (R141). -/
def rotate (w n : Nat) (x : Line) : Line :=
  lineOf w ((upto (128 / w)).map (fun i => elem w x ((i + n) % (128 / w))))

/-- VZIP and VUNZIP (R142). -/
def zipElems (w h : Nat) (xs : List Line) : Line :=
  let n := 128 / w
  lineOf w ((upto n).map (fun i => if i % 2 = 0 then srcElem w xs 0 (h * n / 2 + i / 2) else srcElem w xs 1 (h * n / 2 + i / 2)))
def unzipElems (w h : Nat) (xs : List Line) : Line :=
  let n := 128 / w
  lineOf w ((upto n).map (fun i =>
    let k := 2 * i + h
    if k < n then srcElem w xs 0 k else srcElem w xs 1 (k - n)))

/-- VPART: the true elements, then the others, each in order (R143). -/
def partition (w : Nat) (m : BitVec 16) (x : Line) : Line :=
  let is := upto (128 / w)
  let pred := fun (i : Nat) => m.getLsbD (w / 8 * i)
  lineOf w ((is.filter pred ++ is.filter (fun i => !pred i)).map (elem w x))

/-- VLI's element (R98, R145). -/
def vliElem (ty : BitVec 4) (imm : BitVec 22) : Nat :=
  if ty.toNat = 6 ∨ ty.toNat = 7 then (imm.signExtend 32).toNat
  else if ty.toNat = 12 then imm.toNat * 1024
  else imm.toNat

/-- R134: sum modulo 2^w. -/
def execVadd (sl : VSlot) (gu : Guard) (ty : BitVec 4) (rnd : BitVec 3) (d a b : BitVec 11) (s : State) : Result :=
  vecPlain (.vadd sl gu ty rnd d a b) sl gu d [a, b] [] 1
    (fun _ xs => intMap ty (fun _ a b _ => a + b) xs) s

/-- R134: difference modulo 2^w. -/
def execVsub (sl : VSlot) (gu : Guard) (ty : BitVec 4) (rnd : BitVec 3) (d a b : BitVec 11) (s : State) : Result :=
  vecPlain (.vsub sl gu ty rnd d a b) sl gu d [a, b] [] 1
    (fun _ xs => intMap ty (fun _ a b _ => a - b) xs) s

/-- R134: product modulo 2^w. -/
def execVmul (sl : VSlot) (gu : Guard) (ty : BitVec 4) (rnd : BitVec 3) (d a b : BitVec 11) (s : State) : Result :=
  vecPlain (.vmul sl gu ty rnd d a b) sl gu d [a, b] [] 3
    (fun _ xs => intMap ty (fun _ a b _ => a * b) xs) s

/-- R134: upper half of the exact product. -/
def execVmulh (sl : VSlot) (gu : Guard) (ty : BitVec 4) (rnd : BitVec 3) (d a b : BitVec 11) (s : State) : Result :=
  vecPlain (.vmulh sl gu ty rnd d a b) sl gu d [a, b] [] 3
    (fun _ xs => intMap ty (fun t a b _ => a * b / ((2 ^ t.width : Nat) : Int)) xs) s

/-- R134: product plus c modulo 2^w. -/
def execVmac (sl : VSlot) (gu : Guard) (ty : BitVec 4) (rnd : BitVec 3) (d a b c : BitVec 11) (s : State) : Result :=
  vecPlain (.vmac sl gu ty rnd d a b c) sl gu d [a, b, c] [] 3
    (fun _ xs => intMap ty (fun _ a b c => a * b + c) xs) s

/-- R134: the lesser. -/
def execVmin (sl : VSlot) (gu : Guard) (ty : BitVec 4) (rnd : BitVec 3) (d a b : BitVec 11) (s : State) : Result :=
  vecPlain (.vmin sl gu ty rnd d a b) sl gu d [a, b] [] 1
    (fun _ xs => intMap ty (fun _ a b _ => if a ≤ b then a else b) xs) s

/-- R134: the greater. -/
def execVmax (sl : VSlot) (gu : Guard) (ty : BitVec 4) (rnd : BitVec 3) (d a b : BitVec 11) (s : State) : Result :=
  vecPlain (.vmax sl gu ty rnd d a b) sl gu d [a, b] [] 1
    (fun _ xs => intMap ty (fun _ a b _ => if a ≤ b then b else a) xs) s

/-- R134: magnitude modulo 2^w. -/
def execVabs (sl : VSlot) (gu : Guard) (ty : BitVec 4) (rnd : BitVec 3) (d a : BitVec 11) (s : State) : Result :=
  vecPlain (.vabs sl gu ty rnd d a) sl gu d [a] [] 1
    (fun _ xs => intMap ty (fun _ a _ _ => if a < 0 then -a else a) xs) s

/-- R134: negation modulo 2^w. -/
def execVneg (sl : VSlot) (gu : Guard) (ty : BitVec 4) (rnd : BitVec 3) (d a : BitVec 11) (s : State) : Result :=
  vecPlain (.vneg sl gu ty rnd d a) sl gu d [a] [] 1
    (fun _ xs => intMap ty (fun _ a _ _ => -a) xs) s

/-- R134: sum saturated to the type. -/
def execVadds (sl : VSlot) (gu : Guard) (ty : BitVec 4) (rnd : BitVec 3) (d a b : BitVec 11) (s : State) : Result :=
  vecPlain (.vadds sl gu ty rnd d a b) sl gu d [a, b] [] 1
    (fun _ xs => intMap ty (fun t a b _ => t.saturate (a + b)) xs) s

/-- R134: difference saturated to the type. -/
def execVsubs (sl : VSlot) (gu : Guard) (ty : BitVec 4) (rnd : BitVec 3) (d a b : BitVec 11) (s : State) : Result :=
  vecPlain (.vsubs sl gu ty rnd d a b) sl gu d [a, b] [] 1
    (fun _ xs => intMap ty (fun t a b _ => t.saturate (a - b)) xs) s

/-- R135: left shift. -/
def execVshl (sl : VSlot) (gu : Guard) (ty : BitVec 4) (rnd : BitVec 3) (d a n : BitVec 11) (s : State) : Result :=
  vecPlain (.vshl sl gu ty rnd d a n) sl gu d [a] [] 1 (fun _ xs => bitMap ty (fun w x => (x <<< n.toNat) % 2 ^ w) xs) s

/-- R135: logical right shift. -/
def execVshr (sl : VSlot) (gu : Guard) (ty : BitVec 4) (rnd : BitVec 3) (d a n : BitVec 11) (s : State) : Result :=
  vecPlain (.vshr sl gu ty rnd d a n) sl gu d [a] [] 1 (fun _ xs => bitMap ty (fun w x => x % 2 ^ w / 2 ^ n.toNat) xs) s

/-- R135: arithmetic right shift. -/
def execVsar (sl : VSlot) (gu : Guard) (ty : BitVec 4) (rnd : BitVec 3) (d a n : BitVec 11) (s : State) : Result :=
  vecPlain (.vsar sl gu ty rnd d a n) sl gu d [a] [] 1 (fun _ xs => bitMap ty (fun w x => wrapN w (sgn w x / ((2 ^ n.toNat : Nat) : Int))) xs) s

/-- R135: bitwise and. -/
def execVand (sl : VSlot) (gu : Guard) (ty : BitVec 4) (rnd : BitVec 3) (d a b : BitVec 11) (s : State) : Result :=
  vecPlain (.vand sl gu ty rnd d a b) sl gu d [a, b] [] 1 (fun _ xs => xs.getD 0 0 &&& xs.getD 1 0) s

/-- R135: bitwise or. -/
def execVor (sl : VSlot) (gu : Guard) (ty : BitVec 4) (rnd : BitVec 3) (d a b : BitVec 11) (s : State) : Result :=
  vecPlain (.vor sl gu ty rnd d a b) sl gu d [a, b] [] 1 (fun _ xs => xs.getD 0 0 ||| xs.getD 1 0) s

/-- R135: bitwise exclusive or. -/
def execVxor (sl : VSlot) (gu : Guard) (ty : BitVec 4) (rnd : BitVec 3) (d a b : BitVec 11) (s : State) : Result :=
  vecPlain (.vxor sl gu ty rnd d a b) sl gu d [a, b] [] 1 (fun _ xs => xs.getD 0 0 ^^^ xs.getD 1 0) s

/-- R135: bitwise not. -/
def execVnot (sl : VSlot) (gu : Guard) (ty : BitVec 4) (rnd : BitVec 3) (d a : BitVec 11) (s : State) : Result :=
  vecPlain (.vnot sl gu ty rnd d a) sl gu d [a] [] 1 (fun _ xs => ~~~(xs.getD 0 0)) s

/-- R136: compare elements into a mask. -/
def execVcmp (sl : VSlot) (gu : Guard) (ty : BitVec 4) (rnd md : BitVec 3) (a b : BitVec 11) (cc : BitVec 4) (s : State) : Result :=
  runSlot (.vcmp sl gu ty rnd md a b cc) (fun _ t => { sl := vslot sl, gu := gu, reads := [codeV t a, codeV t b] })
    (fun _ t s =>
      let k := tyIs ty
      maskResult s sl md 1 (laneMask k.width (fun i =>
        intRel cc.toNat (k.intVal (elem k.width (vop t a) i)) (k.intVal (elem k.width (vop t b) i)))) 0) s

/-- R137: byte lanes chosen by a mask. -/
def execVsel (sl : VSlot) (gu : Guard) (ty : BitVec 4) (rnd : BitVec 3) (d a b : BitVec 11) (m : BitVec 3) (s : State) : Result :=
  vecPlain (.vsel sl gu ty rnd d a b m) sl gu d [a, b] [codeM m.toNat] 1
    (fun t xs => selectBytes (rm t m.toNat) (xs.getD 0 0) (xs.getD 1 0)) s

/-- R138: a scalar register in every element. -/
def execVbcastScalar (sl : VSlot) (gu : Guard) (ty : BitVec 4) (rnd : BitVec 3) (d : BitVec 11) (ga : BitVec 5) (s : State) : Result :=
  vecPlain (.vbcastScalar sl gu ty rnd d ga) sl gu d [] [codeG ga.toNat] 2
    (fun t _ => splat (tyWidth ty.toNat) (rg t ga.toNat).toNat) s

/-- R138: one element in every element. -/
def execVbcastVector (sl : VSlot) (gu : Guard) (ty : BitVec 4) (rnd : BitVec 3) (d a : BitVec 11) (lane : BitVec 5) (s : State) : Result :=
  vecPlain (.vbcastVector sl gu ty rnd d a lane) sl gu d [a] [] 2
    (fun _ xs => splat (tyWidth ty.toNat) (srcElem (tyWidth ty.toNat) xs 0 lane.toNat)) s

/-- R139: one element to a scalar register; no cluster term. -/
def execVext (sl : VSlot) (gu : Guard) (ty : BitVec 4) (rnd : BitVec 3) (gd : BitVec 5) (a : BitVec 11) (lane : BitVec 5) (s : State) : Result :=
  runSlot (.vext sl gu ty rnd gd a lane) (fun _ t => { sl := vslot sl, gu := gu, reads := [codeV t a] })
    (fun _ t s => result s (vslot sl) 2 (.g gd.toNat (extend ty (elem (tyWidth ty.toNat) (vop t a) lane.toNat))) 0) s

/-- R139: one element from a scalar register; vd is a source. -/
def execVins (sl : VSlot) (gu : Guard) (ty : BitVec 4) (rnd : BitVec 3) (d : BitVec 11) (ga lane : BitVec 5) (s : State) : Result :=
  vecPlain (.vins sl gu ty rnd d ga lane) sl gu d [d] [codeG ga.toNat] 2
    (fun t xs => insertElem (tyWidth ty.toNat) lane.toNat (rg t ga.toNat).toNat (xs.getD 0 0)) s

/-- R140: bytes chosen from two registers. -/
def execVshuf (sl : VSlot) (gu : Guard) (ty : BitVec 4) (rnd : BitVec 3) (d a b c : BitVec 11) (s : State) : Result :=
  vecPlain (.vshuf sl gu ty rnd d a b c) sl gu d [a, b, c] [] 2 (fun _ xs => shuffle xs) s

/-- R141: elements rotated. -/
def execVrot (sl : VSlot) (gu : Guard) (ty : BitVec 4) (rnd : BitVec 3) (d a n : BitVec 11) (s : State) : Result :=
  vecPlain (.vrot sl gu ty rnd d a n) sl gu d [a] [] 2 (fun _ xs => rotate (tyWidth ty.toNat) n.toNat (xs.getD 0 0)) s

/-- R142: halves interleaved. -/
def execVzip (sl : VSlot) (gu : Guard) (ty : BitVec 4) (rnd : BitVec 3) (d a b : BitVec 11) (h : Bool) (s : State) : Result :=
  vecPlain (.vzip sl gu ty rnd d a b h) sl gu d [a, b] [] 2 (fun _ xs => zipElems (tyWidth ty.toNat) (b2n h) xs) s

/-- R142: every second element. -/
def execVunzip (sl : VSlot) (gu : Guard) (ty : BitVec 4) (rnd : BitVec 3) (d a b : BitVec 11) (h : Bool) (s : State) : Result :=
  vecPlain (.vunzip sl gu ty rnd d a b h) sl gu d [a, b] [] 2 (fun _ xs => unzipElems (tyWidth ty.toNat) (b2n h) xs) s

/-- R143: stable partition by a mask. -/
def execVpart (sl : VSlot) (gu : Guard) (ty : BitVec 4) (rnd : BitVec 3) (d a : BitVec 11) (m : BitVec 3) (s : State) : Result :=
  vecPlain (.vpart sl gu ty rnd d a m) sl gu d [a] [codeM m.toNat] 4
    (fun t xs => partition (tyWidth ty.toNat) (rm t m.toNat) (xs.getD 0 0)) s

/-- R144: the count of nonzero elements in every element.
Log entry 74 (DEDUCED). -/
def execVcnt (sl : VSlot) (gu : Guard) (ty : BitVec 4) (rnd : BitVec 3) (d a : BitVec 11) (s : State) : Result :=
  vecPlain (.vcnt sl gu ty rnd d a) sl gu d [a] [] 2
    (fun _ xs =>
      let w := tyWidth ty.toNat
      splat w ((elems w (xs.getD 0 0)).filter (fun x => x != 0)).length) s

/-- R145: all 128 bits. -/
def execVmov (sl : VSlot) (gu : Guard) (ty : BitVec 4) (rnd : BitVec 3) (d a : BitVec 11) (s : State) : Result :=
  vecPlain (.vmov sl gu ty rnd d a) sl gu d [a] [] 1 (fun _ xs => xs.getD 0 0) s

/-- R145: an immediate in every element. -/
def execVli (sl : VSlot) (gu : Guard) (ty : BitVec 4) (rnd : BitVec 3) (d : BitVec 11) (imm : BitVec 22) (s : State) : Result :=
  vecPlain (.vli sl gu ty rnd d imm) sl gu d [] [] 1 (fun _ _ => splat (tyWidth ty.toNat) (vliElem ty imm)) s

/-- R155: a fresh record. -/
def execVbini (sl : VSlot) (gu : Guard) (ty : BitVec 4) (rnd : BitVec 3) (d : BitVec 11) (anchor : BitVec 8) (s : State) : Result :=
  vecPlain (.vbini sl gu ty rnd d anchor) sl gu d [] [] 1 (fun _ _ => BitVec.ofNat 128 (binBits (binNew anchor.toNat))) s

/-- R156: a record with elements added. -/
def execVbinaddValue (sl : VSlot) (gu : Guard) (ty : BitVec 4) (rnd : BitVec 3) (d a b : BitVec 11) (s : State) : Result :=
  vecPlain (.vbinaddValue sl gu ty rnd d a b) sl gu d [a, b] [] 3
    (fun _ xs => BitVec.ofNat 128 (binBits (binAddAll (tyIs ty).fmt (binOf (xs.getD 0 0).toNat) (elems (tyWidth ty.toNat) (xs.getD 1 0))))) s

/-- R156: two records merged. -/
def execVbinaddMerge (sl : VSlot) (gu : Guard) (ty : BitVec 4) (rnd : BitVec 3) (d a b : BitVec 11) (s : State) : Result :=
  vecPlain (.vbinaddMerge sl gu ty rnd d a b) sl gu d [a, b] [] 3
    (fun _ xs => BitVec.ofNat 128 (binBits (binMerge (binOf (xs.getD 0 0).toNat) (binOf (xs.getD 1 0).toNat)))) s

/-- R157: a record to element 0. -/
def execVbincvt (sl : VSlot) (gu : Guard) (ty : BitVec 4) (rnd : BitVec 3) (d a : BitVec 11) (s : State) : Result :=
  runSlot (.vbincvt sl gu ty rnd d a) (fun _ t => { sl := vslot sl, gu := gu, reads := [codeV t a] })
    (fun _ t s =>
      let r := binConvert (tyIs ty).fmt (binOf (vop t a).toNat)
      vecResult s t sl d 3 (BitVec.ofNat 128 r.1) r.2) s

end Sys2Proof.Machine
end

