-- ==== Sys2Proof/Machine/VecFloat.lean ====
section
/-! DEFINITION. The vector slots: floating-point arithmetic, conversions and reductions
(R146 to R154), with the draws of stochastic rounding (R20, R48 to R50). -/

namespace Sys2Proof.Machine

/-- The draw of an element (R20, R48): the lane's LFSR advances, and its new state is used. -/
def drawLane (mode : Rnd) (lf : SMap Word) (e : Nat) : SMap Word × Nat :=
  match mode with
  | .sr =>
    let x := lfsrAdvance (mget 0 lf (e % 4))
    (mset 0 lf (e % 4) x, x.toNat)
  | .rne => (lf, 0)
  | .rtz => (lf, 0)
  | .rup => (lf, 0)
  | .rdn => (lf, 0)

/-- Round n elements in ascending order, each with its draw: the encodings, the flags, the LFSRs. -/
def roundElems (mode : Rnd) (lf : SMap Word) (n : Nat) (f : Nat → Nat → Nat × Flags) : List Nat × Flags × SMap Word :=
  (upto n).foldl (fun a e =>
    let d := drawLane mode a.2.2 e
    let r := f d.2 e
    (a.1 ++ [r.1], a.2.1 ||| r.2, d.1)) ([], 0, lf)

/-- A rounding vector instruction on its sources' encodings: `f` gives element e from the mode, the
format, the draw and the three sources' elements (R131, R146). -/
def vecRound (i : Instr) (sl : VSlot) (gu : Guard) (ty : BitVec 4) (rnd : BitVec 3) (d : BitVec 11) (srcs : List (BitVec 11))
    (lat : Nat) (f : Fmt → Rnd → Nat → (Nat → Nat) → Nat × Flags) (s : State) : Result :=
  runSlot i (fun _ t => { sl := vslot sl, gu := gu, reads := srcs.map (codeV t) })
    (fun _ t s =>
      let w := tyWidth ty.toNat
      let mode := rndOf t rnd.toNat
      let xs := srcs.map (vop t)
      let r := roundElems mode t.lfsr (128 / w) (fun lf e => f (tyIs ty).fmt mode lf (fun k => srcElem w xs k e))
      vecResult (setLfsr s r.2.2) t sl d lat (lineOf w r.1) r.2.1) s

/-- A floating-point vector instruction that does not round (R147, R150). -/
def vecExact (i : Instr) (sl : VSlot) (gu : Guard) (ty : BitVec 4) (d : BitVec 11) (srcs : List (BitVec 11))
    (lat : Nat) (f : Fmt → (Nat → Nat) → Nat × Flags) (s : State) : Result :=
  runSlot i (fun _ t => { sl := vslot sl, gu := gu, reads := srcs.map (codeV t) })
    (fun _ t s =>
      let w := tyWidth ty.toNat
      let xs := srcs.map (vop t)
      let r := splitFlags ((upto (128 / w)).map (fun e => f (tyIs ty).fmt (fun k => srcElem w xs k e)))
      vecResult s t sl d lat (lineOf w r.1) r.2) s

/-- VFABS and VFNEG on one encoding (R147). -/
def signOp (f : Fmt) (flip : Bool) (x : Nat) : Nat × Flags :=
  match fdecode f x with
  | .nan s => (fnan f, flagIf s fInvalid)
  | .inf _ | .zero _ | .fin _ _ _ =>
    let mag := field x 0 (f.mb + f.eb)
    (mag + fsign f (flip && !bitN x (f.mb + f.eb)), fNone)

/-- The relations of VFCMP by code (R99, R148). -/
def fpRel (cc : Nat) (r : Option Int) : Bool :=
  match r with
  | none => cc == 1 || cc == 6
  | some c =>
    match cc with
    | 0 => decide (c = 0)
    | 1 => decide (c ≠ 0)
    | 2 => decide (c < 0)
    | 3 => decide (c ≤ 0)
    | 4 => decide (0 < c)
    | 5 => decide (0 ≤ c)
    | _ => false

/-- VMEANM on one element (R154): a sum over its count of contributors. -/
def meanV (f : Fmt) (mode : Rnd) (lf : Nat) (x c : Nat) : Nat × Flags :=
  match fdecode f x with
  | .nan s => (fnan f, flagIf s fInvalid)
  | .inf s => if c = 0 then (fnan f, fInvalid) else (finf f s, fNone)
  | .zero s => if c = 0 then (fnan f, fInvalid) else (fzero f s, fNone)
  | .fin s m e => if c = 0 then (fnan f, fInvalid) else froundMag f mode lf s (magDiv m e c 0)

/-- A scaling exponent (R151): every finite number scaled beyond 2^±1024 overflows, or lies below half
the least subnormal, alike. -/
def clampExp (n : Int) : Int := if n < -1024 then -1024 else if 1024 < n then 1024 else n

/-- VHSUM: the exact sum of all elements, rounded once (R153).
Log entry 75 (DESIGN CHOICE). -/
def hsum (f : Fmt) (mode : Rnd) (lf : Nat) (xs : List Nat) : Nat × Flags :=
  let vs := xs.map (fdecode f)
  let r := exSum (mode = .rdn) (vs.map FVal.ex)
  if vs.any FVal.isNan then (fnan f, snanFlag vs)
  else
    let q := fround f mode lf r.1
    (q.1, q.2 ||| flagIf r.2 fInvalid)

/-- Elements that a conversion converts (R152). -/
def cvtCount (a b : Nat) : Nat := 128 / maxN (tyWidth a) (tyWidth b)

/-- R146: a + b. -/
def execVfadd (sl : VSlot) (gu : Guard) (ty : BitVec 4) (rnd : BitVec 3) (d a b : BitVec 11) (s : State) : Result :=
  vecRound (.vfadd sl gu ty rnd d a b) sl gu ty rnd d [a, b] 3
    (fun f md lf x => fAddV f md lf (fdecode f (x 0)) (fdecode f (x 1))) s

/-- R146: a - b. -/
def execVfsub (sl : VSlot) (gu : Guard) (ty : BitVec 4) (rnd : BitVec 3) (d a b : BitVec 11) (s : State) : Result :=
  vecRound (.vfsub sl gu ty rnd d a b) sl gu ty rnd d [a, b] 3
    (fun f md lf x => fAddV f md lf (fdecode f (x 0)) (fdecode f (x 1)).negate) s

/-- R146: a · b. -/
def execVfmul (sl : VSlot) (gu : Guard) (ty : BitVec 4) (rnd : BitVec 3) (d a b : BitVec 11) (s : State) : Result :=
  vecRound (.vfmul sl gu ty rnd d a b) sl gu ty rnd d [a, b] 3
    (fun f md lf x => fMulV f md lf (fdecode f (x 0)) (fdecode f (x 1))) s

/-- R146: a · b + c. -/
def execVfma (sl : VSlot) (gu : Guard) (ty : BitVec 4) (rnd : BitVec 3) (d a b c : BitVec 11) (s : State) : Result :=
  vecRound (.vfma sl gu ty rnd d a b c) sl gu ty rnd d [a, b, c] 4
    (fun f md lf x => fFmaV f md lf false false (fdecode f (x 0)) (fdecode f (x 1)) (fdecode f (x 2))) s

/-- R146: a · b - c. -/
def execVfms (sl : VSlot) (gu : Guard) (ty : BitVec 4) (rnd : BitVec 3) (d a b c : BitVec 11) (s : State) : Result :=
  vecRound (.vfms sl gu ty rnd d a b c) sl gu ty rnd d [a, b, c] 4
    (fun f md lf x => fFmaV f md lf false true (fdecode f (x 0)) (fdecode f (x 1)) (fdecode f (x 2))) s

/-- R146: c - a · b. -/
def execVfnma (sl : VSlot) (gu : Guard) (ty : BitVec 4) (rnd : BitVec 3) (d a b c : BitVec 11) (s : State) : Result :=
  vecRound (.vfnma sl gu ty rnd d a b c) sl gu ty rnd d [a, b, c] 4
    (fun f md lf x => fFmaV f md lf true false (fdecode f (x 0)) (fdecode f (x 1)) (fdecode f (x 2))) s

/-- R147: the lesser operand. -/
def execVfmin (sl : VSlot) (gu : Guard) (ty : BitVec 4) (rnd : BitVec 3) (d a b : BitVec 11) (s : State) : Result :=
  vecExact (.vfmin sl gu ty rnd d a b) sl gu ty d [a, b] 3 (fun f x => fMinMax f false (x 0) (x 1)) s

/-- R147: the greater operand. -/
def execVfmax (sl : VSlot) (gu : Guard) (ty : BitVec 4) (rnd : BitVec 3) (d a b : BitVec 11) (s : State) : Result :=
  vecExact (.vfmax sl gu ty rnd d a b) sl gu ty d [a, b] 3 (fun f x => fMinMax f true (x 0) (x 1)) s

/-- R147: sign cleared. -/
def execVfabs (sl : VSlot) (gu : Guard) (ty : BitVec 4) (rnd : BitVec 3) (d a : BitVec 11) (s : State) : Result :=
  vecExact (.vfabs sl gu ty rnd d a) sl gu ty d [a] 1 (fun f x => signOp f false (x 0)) s

/-- R147: sign inverted. -/
def execVfneg (sl : VSlot) (gu : Guard) (ty : BitVec 4) (rnd : BitVec 3) (d a : BitVec 11) (s : State) : Result :=
  vecExact (.vfneg sl gu ty rnd d a) sl gu ty d [a] 1 (fun f x => signOp f true (x 0)) s

/-- R148: compare elements into a mask. -/
def execVfcmp (sl : VSlot) (gu : Guard) (ty : BitVec 4) (rnd md : BitVec 3) (a b : BitVec 11) (cc : BitVec 4) (s : State) : Result :=
  runSlot (.vfcmp sl gu ty rnd md a b cc) (fun _ t => { sl := vslot sl, gu := gu, reads := [codeV t a, codeV t b] })
    (fun _ t s =>
      let w := tyWidth ty.toNat
      let rel := fun (i : Nat) => fRel (tyIs ty).fmt (elem w (vop t a) i) (elem w (vop t b) i)
      maskResult s sl md 3 (laneMask w (fun i => fpRel cc.toNat (rel i).1))
        (joinFlags ((upto (128 / w)).map (fun i => (rel i).2)))) s

/-- R149: quotient. -/
def execVfdiv (sl : VSlot) (gu : Guard) (ty : BitVec 4) (rnd : BitVec 3) (d a b : BitVec 11) (s : State) : Result :=
  vecRound (.vfdiv sl gu ty rnd d a b) sl gu ty rnd d [a, b] 14
    (fun f md lf x => fDivV f md lf (fdecode f (x 0)) (fdecode f (x 1))) s

/-- R149: square root. -/
def execVfsqrt (sl : VSlot) (gu : Guard) (ty : BitVec 4) (rnd : BitVec 3) (d a : BitVec 11) (s : State) : Result :=
  vecRound (.vfsqrt sl gu ty rnd d a) sl gu ty rnd d [a] 14
    (fun f md lf x => fSqrtV f md lf (fdecode f (x 0))) s

/-- R149: reciprocal square root. -/
def execVfrsq (sl : VSlot) (gu : Guard) (ty : BitVec 4) (rnd : BitVec 3) (d a : BitVec 11) (s : State) : Result :=
  vecRound (.vfrsq sl gu ty rnd d a) sl gu ty rnd d [a] 7
    (fun f md lf x => fRsqV f md lf (fdecode f (x 0))) s

/-- R149: reciprocal. -/
def execVfrcp (sl : VSlot) (gu : Guard) (ty : BitVec 4) (rnd : BitVec 3) (d a : BitVec 11) (s : State) : Result :=
  vecRound (.vfrcp sl gu ty rnd d a) sl gu ty rnd d [a] 7
    (fun f md lf x => fRcpV f md lf (fdecode f (x 0))) s

/-- R150: class codes. -/
def execVfclass (sl : VSlot) (gu : Guard) (ty : BitVec 4) (rnd : BitVec 3) (d a : BitVec 11) (s : State) : Result :=
  vecExact (.vfclass sl gu ty rnd d a) sl gu ty d [a] 1 (fun f x => (fClass f (x 0), fNone)) s

/-- R151: scale by a power of two, the exponent read as an integer of the element width. -/
def execVfscl (sl : VSlot) (gu : Guard) (ty : BitVec 4) (rnd : BitVec 3) (d a b : BitVec 11) (s : State) : Result :=
  vecRound (.vfscl sl gu ty rnd d a b) sl gu ty rnd d [a, b] 3
    (fun f md lf x => fScale f md lf (x 0) (clampExp (sgn (tyWidth ty.toNat) (x 1)))) s

/-- R152: conversion; elements above those converted are cleared. -/
def execVcvt (sl : VSlot) (gu : Guard) (ty : BitVec 4) (rnd : BitVec 3) (d a : BitVec 11) (st : BitVec 4) (s : State) : Result :=
  runSlot (.vcvt sl gu ty rnd d a st) (fun _ t => { sl := vslot sl, gu := gu, reads := [codeV t a] })
    (fun _ t s =>
      let ints := decide (st.toNat < 8) && decide (ty.toNat < 8)
      let mode := if ints then Rnd.rne else rndOf t rnd.toNat
      let r := roundElems mode t.lfsr (cvtCount st.toNat ty.toNat)
        (fun lf e => cvt (tyIs st) (tyIs ty) mode lf (elem (tyWidth st.toNat) (vop t a) e))
      vecResult (setLfsr s r.2.2) t sl d 3 (lineOf (tyWidth ty.toNat) r.1) r.2.1) s

/-- R153: exact sum of all elements in element 0. -/
def execVhsum (sl : VSlot) (gu : Guard) (ty : BitVec 4) (rnd : BitVec 3) (d a : BitVec 11) (s : State) : Result :=
  runSlot (.vhsum sl gu ty rnd d a) (fun _ t => { sl := vslot sl, gu := gu, reads := [codeV t a] })
    (fun _ t s =>
      let mode := rndOf t rnd.toNat
      let r := roundElems mode t.lfsr 1 (fun lf _ => hsum (tyIs ty).fmt mode lf (elems (tyWidth ty.toNat) (vop t a)))
      vecResult (setLfsr s r.2.2) t sl d 3 (lineOf 128 r.1) r.2.1) s

/-- R154: sums over counts of valid contributors. -/
def execVmeanm (sl : VSlot) (gu : Guard) (ty : BitVec 4) (rnd : BitVec 3) (d a b : BitVec 11) (s : State) : Result :=
  vecRound (.vmeanm sl gu ty rnd d a b) sl gu ty rnd d [a, b] 14
    (fun f md lf x => meanV f md lf (x 0) (popcount (tyWidth ty.toNat) (x 1))) s

end Sys2Proof.Machine
end

