-- ==== Sys2Proof/Machine/Dispatch.lean ====
section
/-! DEFINITION. The dispatch: one arm per constructor, each one direct call of its meaning. -/

namespace Sys2Proof.Machine

/-- The meaning of every instruction and every step of the hardware. -/
def exec (i : Instr) (s : State) : Host.Outcome State Fault Refusal :=
  match i with
  | .add gu gd ga gb => Sys2Proof.Machine.execAdd gu gd ga gb s
  | .sub gu gd ga gb => Sys2Proof.Machine.execSub gu gd ga gb s
  | .and_ gu gd ga gb => Sys2Proof.Machine.execAnd gu gd ga gb s
  | .or_ gu gd ga gb => Sys2Proof.Machine.execOr gu gd ga gb s
  | .xor_ gu gd ga gb => Sys2Proof.Machine.execXor gu gd ga gb s
  | .shl gu gd ga gb => Sys2Proof.Machine.execShl gu gd ga gb s
  | .shr gu gd ga gb => Sys2Proof.Machine.execShr gu gd ga gb s
  | .sar gu gd ga gb => Sys2Proof.Machine.execSar gu gd ga gb s
  | .mul gu gd ga gb => Sys2Proof.Machine.execMul gu gd ga gb s
  | .mulh gu gd ga gb => Sys2Proof.Machine.execMulh gu gd ga gb s
  | .mulhn gu gd ga gb => Sys2Proof.Machine.execMulhn gu gd ga gb s
  | .min gu gd ga gb => Sys2Proof.Machine.execMin gu gd ga gb s
  | .max gu gd ga gb => Sys2Proof.Machine.execMax gu gd ga gb s
  | .minn gu gd ga gb => Sys2Proof.Machine.execMinn gu gd ga gb s
  | .maxn gu gd ga gb => Sys2Proof.Machine.execMaxn gu gd ga gb s
  | .clz gu gd ga => Sys2Proof.Machine.execClz gu gd ga s
  | .popc gu gd ga => Sys2Proof.Machine.execPopc gu gd ga s
  | .addi gu gd ga imm => Sys2Proof.Machine.execAddi gu gd ga imm s
  | .andi gu gd ga imm => Sys2Proof.Machine.execAndi gu gd ga imm s
  | .ori gu gd ga imm => Sys2Proof.Machine.execOri gu gd ga imm s
  | .xori gu gd ga imm => Sys2Proof.Machine.execXori gu gd ga imm s
  | .shli gu gd ga sh => Sys2Proof.Machine.execShli gu gd ga sh s
  | .shri gu gd ga sh => Sys2Proof.Machine.execShri gu gd ga sh s
  | .sari gu gd ga sh => Sys2Proof.Machine.execSari gu gd ga sh s
  | .li gu gd imm => Sys2Proof.Machine.execLi gu gd imm s
  | .lih gu gd imm => Sys2Proof.Machine.execLih gu gd imm s
  | .sel gu gd ga gb qs => Sys2Proof.Machine.execSel gu gd ga gb qs s
  | .cmpReg gu qd cc ga gb => Sys2Proof.Machine.execCmpReg gu qd cc ga gb s
  | .cmpImm gu qd cc ga imm => Sys2Proof.Machine.execCmpImm gu qd cc ga imm s
  | .qand gu qd qa qb => Sys2Proof.Machine.execQand gu qd qa qb s
  | .qor gu qd qa qb => Sys2Proof.Machine.execQor gu qd qa qb s
  | .qnot gu qd qa => Sys2Proof.Machine.execQnot gu qd qa s
  | .rds gu g sidx => Sys2Proof.Machine.execRds gu g sidx s
  | .wrs gu g sidx => Sys2Proof.Machine.execWrs gu g sidx s
  | .rdcyc gu g => Sys2Proof.Machine.execRdcyc gu g s
  | .br gu target => Sys2Proof.Machine.execBr gu target s
  | .brq gu target qa nq => Sys2Proof.Machine.execBrq gu target qa nq s
  | .call gu target => Sys2Proof.Machine.execCall gu target s
  | .ret gu ga => Sys2Proof.Machine.execRet gu ga s
  | .jmpg gu ga => Sys2Proof.Machine.execJmpg gu ga s
  | .loop gu end_ rp rv wsz ga => Sys2Proof.Machine.execLoop gu end_ rp rv wsz ga s
  | .loopi gu end_ rp rv wsz count => Sys2Proof.Machine.execLoopi gu end_ rp rv wsz count s
  | .emptyBundle fold le tt => Sys2Proof.Machine.execEmptyBundle fold le tt s
  | .vadd sl gu ty rnd d a b => Sys2Proof.Machine.execVadd sl gu ty rnd d a b s
  | .vsub sl gu ty rnd d a b => Sys2Proof.Machine.execVsub sl gu ty rnd d a b s
  | .vmul sl gu ty rnd d a b => Sys2Proof.Machine.execVmul sl gu ty rnd d a b s
  | .vmulh sl gu ty rnd d a b => Sys2Proof.Machine.execVmulh sl gu ty rnd d a b s
  | .vmac sl gu ty rnd d a b c => Sys2Proof.Machine.execVmac sl gu ty rnd d a b c s
  | .vmin sl gu ty rnd d a b => Sys2Proof.Machine.execVmin sl gu ty rnd d a b s
  | .vmax sl gu ty rnd d a b => Sys2Proof.Machine.execVmax sl gu ty rnd d a b s
  | .vabs sl gu ty rnd d a => Sys2Proof.Machine.execVabs sl gu ty rnd d a s
  | .vneg sl gu ty rnd d a => Sys2Proof.Machine.execVneg sl gu ty rnd d a s
  | .vadds sl gu ty rnd d a b => Sys2Proof.Machine.execVadds sl gu ty rnd d a b s
  | .vsubs sl gu ty rnd d a b => Sys2Proof.Machine.execVsubs sl gu ty rnd d a b s
  | .vshl sl gu ty rnd d a n => Sys2Proof.Machine.execVshl sl gu ty rnd d a n s
  | .vshr sl gu ty rnd d a n => Sys2Proof.Machine.execVshr sl gu ty rnd d a n s
  | .vsar sl gu ty rnd d a n => Sys2Proof.Machine.execVsar sl gu ty rnd d a n s
  | .vand sl gu ty rnd d a b => Sys2Proof.Machine.execVand sl gu ty rnd d a b s
  | .vor sl gu ty rnd d a b => Sys2Proof.Machine.execVor sl gu ty rnd d a b s
  | .vxor sl gu ty rnd d a b => Sys2Proof.Machine.execVxor sl gu ty rnd d a b s
  | .vnot sl gu ty rnd d a => Sys2Proof.Machine.execVnot sl gu ty rnd d a s
  | .vcmp sl gu ty rnd md a b cc => Sys2Proof.Machine.execVcmp sl gu ty rnd md a b cc s
  | .vsel sl gu ty rnd d a b m => Sys2Proof.Machine.execVsel sl gu ty rnd d a b m s
  | .vbcastScalar sl gu ty rnd d ga => Sys2Proof.Machine.execVbcastScalar sl gu ty rnd d ga s
  | .vbcastVector sl gu ty rnd d a lane => Sys2Proof.Machine.execVbcastVector sl gu ty rnd d a lane s
  | .vext sl gu ty rnd gd a lane => Sys2Proof.Machine.execVext sl gu ty rnd gd a lane s
  | .vins sl gu ty rnd d ga lane => Sys2Proof.Machine.execVins sl gu ty rnd d ga lane s
  | .vshuf sl gu ty rnd d a b c => Sys2Proof.Machine.execVshuf sl gu ty rnd d a b c s
  | .vrot sl gu ty rnd d a n => Sys2Proof.Machine.execVrot sl gu ty rnd d a n s
  | .vzip sl gu ty rnd d a b h => Sys2Proof.Machine.execVzip sl gu ty rnd d a b h s
  | .vunzip sl gu ty rnd d a b h => Sys2Proof.Machine.execVunzip sl gu ty rnd d a b h s
  | .vpart sl gu ty rnd d a m => Sys2Proof.Machine.execVpart sl gu ty rnd d a m s
  | .vcnt sl gu ty rnd d a => Sys2Proof.Machine.execVcnt sl gu ty rnd d a s
  | .vmov sl gu ty rnd d a => Sys2Proof.Machine.execVmov sl gu ty rnd d a s
  | .vli sl gu ty rnd d imm => Sys2Proof.Machine.execVli sl gu ty rnd d imm s
  | .vfadd sl gu ty rnd d a b => Sys2Proof.Machine.execVfadd sl gu ty rnd d a b s
  | .vfsub sl gu ty rnd d a b => Sys2Proof.Machine.execVfsub sl gu ty rnd d a b s
  | .vfmul sl gu ty rnd d a b => Sys2Proof.Machine.execVfmul sl gu ty rnd d a b s
  | .vfma sl gu ty rnd d a b c => Sys2Proof.Machine.execVfma sl gu ty rnd d a b c s
  | .vfms sl gu ty rnd d a b c => Sys2Proof.Machine.execVfms sl gu ty rnd d a b c s
  | .vfnma sl gu ty rnd d a b c => Sys2Proof.Machine.execVfnma sl gu ty rnd d a b c s
  | .vfmin sl gu ty rnd d a b => Sys2Proof.Machine.execVfmin sl gu ty rnd d a b s
  | .vfmax sl gu ty rnd d a b => Sys2Proof.Machine.execVfmax sl gu ty rnd d a b s
  | .vfabs sl gu ty rnd d a => Sys2Proof.Machine.execVfabs sl gu ty rnd d a s
  | .vfneg sl gu ty rnd d a => Sys2Proof.Machine.execVfneg sl gu ty rnd d a s
  | .vfcmp sl gu ty rnd md a b cc => Sys2Proof.Machine.execVfcmp sl gu ty rnd md a b cc s
  | .vfdiv sl gu ty rnd d a b => Sys2Proof.Machine.execVfdiv sl gu ty rnd d a b s
  | .vfsqrt sl gu ty rnd d a => Sys2Proof.Machine.execVfsqrt sl gu ty rnd d a s
  | .vfrsq sl gu ty rnd d a => Sys2Proof.Machine.execVfrsq sl gu ty rnd d a s
  | .vfrcp sl gu ty rnd d a => Sys2Proof.Machine.execVfrcp sl gu ty rnd d a s
  | .vfclass sl gu ty rnd d a => Sys2Proof.Machine.execVfclass sl gu ty rnd d a s
  | .vfscl sl gu ty rnd d a b => Sys2Proof.Machine.execVfscl sl gu ty rnd d a b s
  | .vcvt sl gu ty rnd d a st => Sys2Proof.Machine.execVcvt sl gu ty rnd d a st s
  | .vhsum sl gu ty rnd d a => Sys2Proof.Machine.execVhsum sl gu ty rnd d a s
  | .vmeanm sl gu ty rnd d a b => Sys2Proof.Machine.execVmeanm sl gu ty rnd d a b s
  | .vbini sl gu ty rnd d anchor => Sys2Proof.Machine.execVbini sl gu ty rnd d anchor s
  | .vbinaddValue sl gu ty rnd d a b => Sys2Proof.Machine.execVbinaddValue sl gu ty rnd d a b s
  | .vbinaddMerge sl gu ty rnd d a b => Sys2Proof.Machine.execVbinaddMerge sl gu ty rnd d a b s
  | .vbincvt sl gu ty rnd d a => Sys2Proof.Machine.execVbincvt sl gu ty rnd d a s
  | .ldv gu d gB off => Sys2Proof.Machine.execLdv gu d gB off s
  | .ldvsStrided gu d gB off gs esz => Sys2Proof.Machine.execLdvsStrided gu d gB off gs esz s
  | .ldvsGathered gu d gB off vi => Sys2Proof.Machine.execLdvsGathered gu d gB off vi s
  | .ldg gu gd gB off => Sys2Proof.Machine.execLdg gu gd gB off s
  | .ldb gu d gB off esz => Sys2Proof.Machine.execLdb gu d gB off esz s
  | .ldq gu qd gB off => Sys2Proof.Machine.execLdq gu qd gB off s
  | .ldm gu md gB off => Sys2Proof.Machine.execLdm gu md gB off s
  | .stvOffset gu vs gB off => Sys2Proof.Machine.execStvOffset gu vs gB off s
  | .stvScatter gu vs gB vi => Sys2Proof.Machine.execStvScatter gu vs gB vi s
  | .stvmOffset gu vs gB off m => Sys2Proof.Machine.execStvmOffset gu vs gB off m s
  | .stvmScatter gu vs gB vi m => Sys2Proof.Machine.execStvmScatter gu vs gB vi m s
  | .stg gu gs gB off => Sys2Proof.Machine.execStg gu gs gB off s
  | .stq gu qs gB off => Sys2Proof.Machine.execStq gu qs gB off s
  | .resultLanding l => Sys2Proof.Machine.execResultLanding l s
  | .mma gu z maa mab ta tb shape => Sys2Proof.Machine.execMma gu z maa mab ta tb shape s
  | .mmaq gu z maa mab ta tb shape glen gza gzb grp => Sys2Proof.Machine.execMmaq gu z maa mab ta tb shape glen gza gzb grp s
  | .scalc gu z shape gsa gsb grp => Sys2Proof.Machine.execScalc gu z shape gsa gsb grp s
  | .zclr gu z what => Sys2Proof.Machine.execZclr gu z what s
  | .zld gu z gB off => Sys2Proof.Machine.execZld gu z gB off s
  | .zst gu z t rnd gB off => Sys2Proof.Machine.execZst gu z t rnd gB off s
  | .mxagReg gu ma fld ga => Sys2Proof.Machine.execMxagReg gu ma fld ga s
  | .mxagImm gu ma fld imm => Sys2Proof.Machine.execMxagImm gu ma fld imm s
  | .attld gu first cnt gB off => Sys2Proof.Machine.execAttld gu first cnt gB off s
  | .rank gu t n k ga gb => Sys2Proof.Machine.execRank gu t n k ga gb s
  | .rankThreshold gu t n k gt ga gb => Sys2Proof.Machine.execRankThreshold gu t n k gt ga gb s
  | .rkacc gu z row t n ga gb => Sys2Proof.Machine.execRkacc gu z row t n ga gb s
  | .unrank gu t n len ga gb => Sys2Proof.Machine.execUnrank gu t n len ga gb s
  | .accumulatorChange l id read => Sys2Proof.Machine.execAccumulatorChange l id read s
  | .zldRowPair l id c write => Sys2Proof.Machine.execZldRowPair l id c write s
  | .zstRowPair l id c write => Sys2Proof.Machine.execZstRowPair l id c write s
  | .attldEntryLand l id line => Sys2Proof.Machine.execAttldEntryLand l id line s
  | .rankBlockRead l id j => Sys2Proof.Machine.execRankBlockRead l id j s
  | .rankListWrite l id j => Sys2Proof.Machine.execRankListWrite l id j s
  | .rkaccTerm l id k ph => Sys2Proof.Machine.execRkaccTerm l id k ph s
  | .unrankLineWrite l id j ph => Sys2Proof.Machine.execUnrankLineWrite l id j ph s
  | .send gu dop dx dy w gS gD gK => Sys2Proof.Machine.execSend gu dop dx dy w gS gD gK s
  | .sendNb gu dop dx dy w gS gD => Sys2Proof.Machine.execSendNb gu dop dx dy w gS gD s
  | .sendv gu dop dx dy w gD gK vs => Sys2Proof.Machine.execSendv gu dop dx dy w gD gK vs s
  | .sendvNb gu dop dx dy w gD vs => Sys2Proof.Machine.execSendvNb gu dop dx dy w gD vs s
  | .cpy gu gS gK => Sys2Proof.Machine.execCpy gu gS gK s
  | .cpg gu gS gD gK gi n5 rlen => Sys2Proof.Machine.execCpg gu gS gD gK gi n5 rlen s
  | .rksend gu dx dy nb gS gD gK n10 => Sys2Proof.Machine.execRksend gu dx dy nb gS gD gK n10 s
  | .dact gu gp => Sys2Proof.Machine.execDact gu gp s
  | .drd gu gp gS gK => Sys2Proof.Machine.execDrd gu gp gS gK s
  | .dwr gu gp gS => Sys2Proof.Machine.execDwr gu gp gS s
  | .dpre gu gp => Sys2Proof.Machine.execDpre gu gp s
  | .dprea gu => Sys2Proof.Machine.execDprea gu s
  | .dref gu => Sys2Proof.Machine.execDref gu s
  | .drefb gu bank => Sys2Proof.Machine.execDrefb gu bank s
  | .lnkp gu port cls gp gS gn => Sys2Proof.Machine.execLnkp gu port cls gp gS gn s
  | .lnkg gu port cls gp gD gK gn => Sys2Proof.Machine.execLnkg gu port cls gp gD gK gn s
  | .coll gu gS gK => Sys2Proof.Machine.execColl gu gS gK s
  | .flitHop band fid => Sys2Proof.Machine.execFlitHop band fid s
  | .depositWrite band fid => Sys2Proof.Machine.execDepositWrite band fid s
  | .copyUnit l u => Sys2Proof.Machine.execCopyUnit l u s
  | .cpgLine l n write => Sys2Proof.Machine.execCpgLine l n write s
  | .rksendFlit l f => Sys2Proof.Machine.execRksendFlit l f s
  | .drdWindow l id => Sys2Proof.Machine.execDrdWindow l id s
  | .dwrRead l id => Sys2Proof.Machine.execDwrRead l id s
  | .refreshTick band => Sys2Proof.Machine.execRefreshTick band s
  | .engineSelfRefresh band eng bank => Sys2Proof.Machine.execEngineSelfRefresh band eng bank s
  | .refreshGuard band => Sys2Proof.Machine.execRefreshGuard band s
  | .lnkpSourceRead l id line => Sys2Proof.Machine.execLnkpSourceRead l id line s
  | .lnkgServeRead port => Sys2Proof.Machine.execLnkgServeRead port s
  | .inboundTransferArrival port x => Sys2Proof.Machine.execInboundTransferArrival port x s
  | .noModuleReport l id step => Sys2Proof.Machine.execNoModuleReport l id step s
  | .transferClose port id => Sys2Proof.Machine.execTransferClose port id s
  | .class0CloseTimeout port id => Sys2Proof.Machine.execClass0CloseTimeout port id s
  | .putAcknowledge l id => Sys2Proof.Machine.execPutAcknowledge l id s
  | .barrierlessLandingWrite port => Sys2Proof.Machine.execBarrierlessLandingWrite port s
  | .raceBoundLandingWrite port => Sys2Proof.Machine.execRaceBoundLandingWrite port s
  | .collSnapshotRead l id line => Sys2Proof.Machine.execCollSnapshotRead l id line s
  | .collStepSend port id => Sys2Proof.Machine.execCollStepSend port id s
  | .collChunkReceive port x => Sys2Proof.Machine.execCollChunkReceive port x s
  | .collStepCloseTimeout port id => Sys2Proof.Machine.execCollStepCloseTimeout port id s
  | .collStepAck port id step => Sys2Proof.Machine.execCollStepAck port id step s
  | .collStepFail port id step => Sys2Proof.Machine.execCollStepFail port id step s
  | .waitcImm imm => Sys2Proof.Machine.execWaitcImm imm s
  | .waitcReg gp => Sys2Proof.Machine.execWaitcReg gp s
  | .waitbImm gk ph n => Sys2Proof.Machine.execWaitbImm gk ph n s
  | .waitbReg gk ph gp => Sys2Proof.Machine.execWaitbReg gk ph gp s
  | .bariImm gk n => Sys2Proof.Machine.execBariImm gk n s
  | .bariReg gk gn => Sys2Proof.Machine.execBariReg gk gn s
  | .barx gk => Sys2Proof.Machine.execBarx gk s
  | .drainImm n => Sys2Proof.Machine.execDrainImm n s
  | .drainReg gp => Sys2Proof.Machine.execDrainReg gp s
  | .realign qd => Sys2Proof.Machine.execRealign qd s
  | .cropen handler budget => Sys2Proof.Machine.execCropen handler budget s
  | .audo ga uid => Sys2Proof.Machine.execAudo ga uid s
  | .audc uid => Sys2Proof.Machine.execAudc uid s
  | .trap code => Sys2Proof.Machine.execTrap code s
  | .bkpt code => Sys2Proof.Machine.execBkpt code s
  | .evt code => Sys2Proof.Machine.execEvt code s
  | .tmark code => Sys2Proof.Machine.execTmark code s
  | .dscrd ga gn => Sys2Proof.Machine.execDscrd ga gn s
  | .landingSlotCheck l id => Sys2Proof.Machine.execLandingSlotCheck l id s
  | .drainCheck l id => Sys2Proof.Machine.execDrainCheck l id s
  | .landingWindow l id => Sys2Proof.Machine.execLandingWindow l id s
  | .heldRecordWriteback l addr => Sys2Proof.Machine.execHeldRecordWriteback l addr s
  | .holdRelease band => Sys2Proof.Machine.execHoldRelease band s
  | .freezeTimeout l id => Sys2Proof.Machine.execFreezeTimeout l id s
  | .freezePulse band blocks => Sys2Proof.Machine.execFreezePulse band blocks s
  | .cadenceChange band => Sys2Proof.Machine.execCadenceChange band s
  | .governorEvaluation band => Sys2Proof.Machine.execGovernorEvaluation band s
  | .estimatorUpdate band => Sys2Proof.Machine.execEstimatorUpdate band s
  | .stitchAlignmentCheck band => Sys2Proof.Machine.execStitchAlignmentCheck band s
  | .evtDrain band => Sys2Proof.Machine.execEvtDrain band s
  | .traceDrain band => Sys2Proof.Machine.execTraceDrain band s
  | .traceSample band => Sys2Proof.Machine.execTraceSample band s
  | .replayLogDrain band => Sys2Proof.Machine.execReplayLogDrain band s
  | .stopCycle band => Sys2Proof.Machine.execStopCycle band s
  | .unwind band => Sys2Proof.Machine.execUnwind band s
  | .cycleArmedStop band => Sys2Proof.Machine.execCycleArmedStop band s
  | .resumption band => Sys2Proof.Machine.execResumption band s
  | .preemptArm band c why => Sys2Proof.Machine.execPreemptArm band c why s
  | .contextSave band => Sys2Proof.Machine.execContextSave band s
  | .bandRelease band => Sys2Proof.Machine.execBandRelease band s
  | .contextRestore token scan => Sys2Proof.Machine.execContextRestore token scan s
  | .contextResume band => Sys2Proof.Machine.execContextResume band s
  | .auditCopy band => Sys2Proof.Machine.execAuditCopy band s
  | .auditReplayBundle band => Sys2Proof.Machine.execAuditReplayBundle band s
  | .auditCompare band => Sys2Proof.Machine.execAuditCompare band s
  | .kick q => Sys2Proof.Machine.execKick q s
  | .kickService q => Sys2Proof.Machine.execKickService q s
  | .quantumExpiry band => Sys2Proof.Machine.execQuantumExpiry band s
  | .launchStart test => Sys2Proof.Machine.execLaunchStart test s
  | .launchCompletion band => Sys2Proof.Machine.execLaunchCompletion band s
  | .launchCancel token => Sys2Proof.Machine.execLaunchCancel token s
  | .hubStopRequest band cause detail loc => Sys2Proof.Machine.execHubStopRequest band cause detail loc s
  | .attestationReport token nonce => Sys2Proof.Machine.execAttestationReport token nonce s
  | .bringUp r => Sys2Proof.Machine.execBringUp r s
  | .budgetWrite x => Sys2Proof.Machine.execBudgetWrite x s
  | .moduleIdWrite x => Sys2Proof.Machine.execModuleIdWrite x s
  | .bandFaultWrite x => Sys2Proof.Machine.execBandFaultWrite x s
  | .bandRetrainEnd col found => Sys2Proof.Machine.execBandRetrainEnd col found s
  | .queueEnergyRead q => Sys2Proof.Machine.execQueueEnergyRead q s
  | .debugUnwind asid => Sys2Proof.Machine.execDebugUnwind asid s
  | .debugFail asid => Sys2Proof.Machine.execDebugFail asid s
  | .debugResume asid => Sys2Proof.Machine.execDebugResume asid s
  | .errorInjection band => Sys2Proof.Machine.execErrorInjection band s
  | .registerWrite off bytes x => Sys2Proof.Machine.execRegisterWrite off bytes x s
  | .freezeBegin band => Sys2Proof.Machine.execFreezeBegin band s
  | .hubHold band c on => Sys2Proof.Machine.execHubHold band c on s
  | .drdBurstHeld l id bad => Sys2Proof.Machine.execDrdBurstHeld l id bad s
  | .unassignedOpcode sl op => Sys2Proof.Machine.execUnassignedOpcode sl op s
  | .crclose => Sys2Proof.Machine.execCrclose s
  | .crabort => Sys2Proof.Machine.execCrabort s
  | .halt => Sys2Proof.Machine.execHalt s
  | .scrub => Sys2Proof.Machine.execScrub s
  | .placementPass => Sys2Proof.Machine.execPlacementPass s
  | .completionRecordWrite => Sys2Proof.Machine.execCompletionRecordWrite s
  | .coreTakeover => Sys2Proof.Machine.execCoreTakeover s

end Sys2Proof.Machine
end

