-- ==== Sys2Proof/Machine/Place.lean ====
section
/-! DEFINITION. A program placed from outside: a launch that has been loaded and started, with one bundle
where its tile fetches next. It stands for the hub's load of an image (R382, R290). -/

namespace Sys2Proof.Machine

/-- The words of a bundle that holds one slot (R89, R91). -/
def oneSlotBundle (sl : Slot) (w : Nat) : List Word :=
  BitVec.ofNat 32 (headerWord (2 ^ slotNum sl) 0 false false) :: streamWords [(sl, w)]

/-- Words written into IMEM from an address. -/
def loadWords (m : SMap Word) (a : Nat) (ws : List Word) : SMap Word :=
  match ws with
  | [] => m
  | w :: r => loadWords (mset 0 m a w) (a + 1) r

/-- The launch that stands for a loaded program: band 0, one sheet column. -/
def placedRec : LaunchRec := {}

/-- The partition of a placed program: the one there is in band 0, or a launch just started. -/
def placedPart (s : State) : Part :=
  match getPart s 0 with
  | some p => { p with mode := .running, stop := none, holds := [] }
  | none => { rec_ := placedRec, startEdge := s.edge, quantum := s.edge }

/-- Tile (0, 0) ready to fetch a bundle of the given words where its sequencer stands. -/
def placedTile (t : Tile) (ws : List Word) : Tile :=
  { t with
    imem := loadWords t.imem t.seq.pc.toNat ws,
    seq := { pc := t.seq.pc, lastPc := t.seq.lastPc, lastCyc := t.seq.lastCyc } }

/-- The tile a placed program starts from: the one there is, or one at GCYC 0. -/
def placedFrom (p : Part) : Tile := (mfind p.tiles 0).getD (freshTile p.rec_ 0)

/-- The slot that a table word belongs to: the one in which it decodes, or the first of that length. -/
def wordSlot (nbits w : Nat) : Slot :=
  match firstDecode (tableSlots nbits) w with
  | some (sl, _) => sl
  | none => (tableSlots nbits).headD .sy

/-- Store a bundle of one slot where tile (0, 0) of band 0 fetches next, with that tile next to issue.
Log entry 2 (DESIGN CHOICE). -/
def placeWord (s : State) (nbits w : Nat) : State :=
  let p := placedPart s
  let t := placedTile (placedFrom p) (oneSlotBundle (wordSlot nbits w) w)
  let s1 := setPart s (putTile p 0 t)
  { s1 with agenda := [], phase := .issue 0, todo := [{ band := 0, idx := 0 }], cur := { band := 0, idx := 0 }, pending := [] }

end Sys2Proof.Machine
end

