-- ==== Sys2Proof/Machine/Step.lean ====
section
/-! DEFINITION. One step of the machine, and the placing of an instruction where it is fetched next. -/

namespace Sys2Proof.Machine

/-- One step: the next step of the hardware that is due, the next slot of a bundle under issue, or the
bookkeeping of a cycle or an edge. -/
def step (s : State) : Host.Outcome State Fault Refusal := stepWith exec s

/-- The state with a slot word of `nbits` bits where the next step fetches.
Log entry 2 (DESIGN CHOICE). -/
def State.withFetchWord (s : State) (nbits w : Nat) : State := placeWord s nbits w

end Sys2Proof.Machine
end

