-- ==== Sys2Proof/Safety.lean ====
section
/-! DEFINITION. What claims about runs are stated in: the canonical form of every memory of a state,
what a tile holds before and after a step, and when an instruction's issue checks pass. -/

namespace Sys2Proof.Machine

/-! ## Canonical form -/

/-- The maps of a tile are in their canonical form. -/
def tileWf (t : Tile) : Bool :=
  memWf t.sram && mwf 0 t.g && mwf false t.q && mwf 0 t.v && mwf 0 t.m && mwf 0 t.imem && mwf 0 t.z && mwf 0 t.zp && mwf 0 t.kc &&
  mwf 0 t.ma && mwf 0 t.at_ && msorted t.lfsr

/-- A partition's tiles are in canonical form, and so are the keys that name them. -/
def partWf (p : Part) : Bool := msorted p.tiles && p.tiles.all (fun e => tileWf e.2)

/-- Loop state: the counters are in canonical form, and at most six levels are open (R123). -/
def loopWf (lp : LoopSt) : Bool := mwf 0 lp.lc && decide (lp.levels.length ≤ 6)

/-- A region entry: its saved registers and loop state are in form. -/
def regionWf (r : Region) : Bool := mwf 0 r.g && mwf false r.q && loopWf r.loop

/-- What every step keeps of a tile: the canonical form of its register files and memories, of its counters and of the
lines that its barrier unit holds, and the form of its loop state and of its regions. -/
def tileInv (t : Tile) : Bool := tileWf t && mwf 0 t.ltc && msorted t.held && loopWf t.loop && t.regions.all regionWf

/-- The images of a launch record are in canonical form. -/
def recWf (r : LaunchRec) : Bool := r.images.all (fun i => mwf 0 i.imem && memWf i.sram)

/-- What every step keeps of a launch: its tiles, the pool tiles that replay its units, what its samples hold, its
engines' banks and its images. -/
def partInv (p : Part) : Bool :=
  partWf p && p.tiles.all (fun e => tileInv e.2) && p.pool.all (fun e => tileInv e.2) &&
  p.samples.all (fun x => tileInv x.snap && memWf x.outData) && p.engines.all (fun e => msorted e.2.banks) && recWf p.rec_

/-- Memory's canonical form: keys strictly rise, no entry holds what an unlisted address reads as, in
DRAM, host memory and every tile. -/
def Memory.wf (s : State) : Bool := memWf s.dram && memWf s.hostMem && msorted s.parts && s.parts.all (fun e => partWf e.2)

/-- Every resident launch is listed under its first sheet column, columns rising (R280), and the module's
two byte memories are in canonical form. -/
def ModuleInv (s : State) : Prop :=
  (msorted s.parts = true ∧ ∀ e ∈ s.parts, e.2.first = e.1) ∧ memWf s.dram = true ∧ memWf s.hostMem = true

/-- The module's invariant, with the debug blocks in canonical form and all that each live launch, on its band or swapped
out, holds. -/
def Inv (s : State) : Prop :=
  ModuleInv s ∧ msorted s.debug = true ∧ (∀ e ∈ s.parts, partInv e.2 = true) ∧
  ∀ c ∈ s.ctxs, recWf c.rec_ = true ∧ ∀ p, c.saved = some p → partInv p = true

/-! ## Looking at a state -/

/-- The tile at a place, none where no resident launch holds it. -/
def tileOf (s : State) (l : Loc) : Option Tile := (tileAt s l).map Prod.snd

/-- One byte of a tile's data SRAM as a reader sees it. -/
def readByte (t : Tile) (a : Nat) : Nat := readN t a 1

/-- The registers of a tile that instructions read and write, and its special registers, are as before
(R11, R25, R26). -/
structure SameRegs (t u : Tile) : Prop where
  g : u.g = t.g
  q : u.q = t.q
  v : u.v = t.v
  m : u.m = t.m
  z : u.z = t.z
  zp : u.zp = t.zp
  kc : u.kc = t.kc
  ma : u.ma = t.ma
  at_ : u.at_ = t.at_
  loop : u.loop = t.loop
  flg : u.flg = t.flg
  fpm : u.fpm = t.fpm
  modes : u.sbMode = t.sbMode ∧ u.dramMode = t.dramMode ∧ u.raceBound = t.raceBound
  regions : u.regions = t.regions
  counts : u.sbCount = t.sbCount ∧ u.dramCount = t.dramCount ∧ u.stage = t.stage ∧ u.ltc = t.ltc
  snap : u.snap = t.snap
  lfsr : u.lfsr = t.lfsr

/-- The registers of an event, and its record, are as before (R26, R341). -/
structure SameEvent (t u : Tile) : Prop where
  evc : u.evc = t.evc
  epc : u.epc = t.epc
  done : u.done = t.done

/-- The memories of a tile are as before: its data SRAM, what the barrier unit holds of it, and its
instruction memory. -/
structure SameMem (t u : Tile) : Prop where
  sram : u.sram = t.sram
  held : u.held = t.held
  heldAt : u.heldAt = t.heldAt
  imem : u.imem = t.imem

/-- Nothing outside one tile has changed: no other tile, no memory of the module, no port, no part of
the hub, and no event has been recorded. -/
structure OnlyTile (s u : State) (l : Loc) : Prop where
  tiles : ∀ k, k ≠ l → tileOf u k = tileOf s k
  dram : u.dram = s.dram
  host : u.hostMem = s.hostMem
  ports : u.ports = s.ports
  hub : u.queues = s.queues ∧ u.ctxs = s.ctxs ∧ u.status = s.status ∧ u.store = s.store ∧ u.debug = s.debug
  ring : u.ring = s.ring
  clock : u.edge = s.edge
  cur : u.cur = s.cur

/-- Nothing but one partition, and no memory of the module, has changed. -/
structure OnlyPart (s u : State) (band : Nat) : Prop where
  parts : ∀ b, b ≠ band → getPart u b = getPart s b
  dram : u.dram = s.dram
  host : u.hostMem = s.hostMem
  ports : u.ports = s.ports
  hub : u.queues = s.queues ∧ u.ctxs = s.ctxs ∧ u.status = s.status ∧ u.store = s.store ∧ u.debug = s.debug
  clock : u.edge = s.edge

/-! ## When an instruction's issue checks pass (R415) -/

/-- The current slot belongs to tile `t` of partition `p`; its guard is true; neither the guard's
predicate nor a register it reads is late (R259), and none of them is in error (R354). -/
structure Ready (s : State) (p : Part) (t : Tile) (gu : Guard) (codes : List Nat) : Prop where
  here : tileAt s s.cur = some (p, t)
  keyed : p.first = s.cur.band
  guard : guardTrue t gu = true
  timely : ∀ c ∈ guardReads gu ++ codes, isLate t p.gcyc c = false
  sound : ∀ c ∈ guardReads gu ++ codes, smem t.regErr c = false

/-- The slot's own bank accesses find their banks free (R159, R160, R166), and no granule it reads is
poisoned or holds an error that cannot be corrected (R169, R170). -/
structure Clear (t : Tile) (sl : Slot) (lines : List Nat) (reads : List (Nat × Nat)) : Prop where
  banks : (localScan t (issueOf t sl) (slotNum sl) lines).2 = none
  clean : consumed t reads = none

/-- The guard of a slot's word (R92): the six bits below the opcode; a SY word has none. -/
def guardIn (sl : Slot) (w : Nat) : Guard :=
  match sl with
  | .s => guardOf (w / 2 ^ 34 % 64)
  | .va => guardOf (w / 2 ^ 51 % 64)
  | .vb => guardOf (w / 2 ^ 51 % 64)
  | .mx => guardOf (w / 2 ^ 68 % 64)
  | .ld => guardOf (w / 2 ^ 54 % 64)
  | .st => guardOf (w / 2 ^ 38 % 64)
  | .cp => guardOf (w / 2 ^ 69 % 64)
  | .sy => { neg := false, kind := false, idx := 0 }

/-- The registers that an instruction reads besides its guard, in field order (R259). -/
def operandsOf (t : Tile) (i : Instr) : List Nat :=
  let g := fun (n : BitVec 5) => 0x600 + n.toNat
  let q := fun (n : BitVec 4) => 0x620 + n.toNat
  let m := fun (n : BitVec 3) => 0x630 + n.toNat
  let v := fun (n : BitVec 11) => vphys t.loop n.toNat
  let pair := fun (n : BitVec 4) => [0x600 + 2 * n.toNat, 0x600 + (2 * n.toNat + 1)]
  match i with
  | .add _ _ a b | .sub _ _ a b | .and_ _ _ a b | .or_ _ _ a b | .xor_ _ _ a b | .shl _ _ a b | .shr _ _ a b | .sar _ _ a b
  | .mul _ _ a b | .mulh _ _ a b | .mulhn _ _ a b | .min _ _ a b | .max _ _ a b | .minn _ _ a b | .maxn _ _ a b
  | .cmpReg _ _ _ a b => [g a, g b]
  | .clz _ _ a | .popc _ _ a | .shli _ _ a _ | .shri _ _ a _ | .sari _ _ a _ => [g a]
  | .addi _ _ a _ | .andi _ _ a _ | .ori _ _ a _ | .xori _ _ a _ => [g a]
  | .cmpImm _ _ _ a _ => [g a]
  | .lih _ d _ => [g d]
  | .sel _ _ a b s => [g a, g b, q s]
  | .qand _ _ a b | .qor _ _ a b => [q a, q b]
  | .qnot _ _ a => [q a]
  | .wrs _ a _ => [g a]
  | .brq _ _ a _ => [q a]
  | .ret _ a | .jmpg _ a => [g a]
  | .loop _ _ _ _ _ a => [g a]
  | .vadd _ _ _ _ _ a b | .vsub _ _ _ _ _ a b | .vmul _ _ _ _ _ a b | .vmulh _ _ _ _ _ a b | .vmin _ _ _ _ _ a b
  | .vmax _ _ _ _ _ a b | .vadds _ _ _ _ _ a b | .vsubs _ _ _ _ _ a b | .vand _ _ _ _ _ a b | .vor _ _ _ _ _ a b
  | .vxor _ _ _ _ _ a b | .vfadd _ _ _ _ _ a b | .vfsub _ _ _ _ _ a b | .vfmul _ _ _ _ _ a b | .vfmin _ _ _ _ _ a b
  | .vfmax _ _ _ _ _ a b | .vfdiv _ _ _ _ _ a b | .vfscl _ _ _ _ _ a b | .vmeanm _ _ _ _ _ a b | .vbinaddValue _ _ _ _ _ a b
  | .vbinaddMerge _ _ _ _ _ a b => [v a, v b]
  | .vmac _ _ _ _ _ a b c | .vshuf _ _ _ _ _ a b c | .vfma _ _ _ _ _ a b c | .vfms _ _ _ _ _ a b c | .vfnma _ _ _ _ _ a b c =>
    [v a, v b, v c]
  | .vabs _ _ _ _ _ a | .vneg _ _ _ _ _ a | .vnot _ _ _ _ _ a | .vcnt _ _ _ _ _ a | .vmov _ _ _ _ _ a | .vfabs _ _ _ _ _ a
  | .vfneg _ _ _ _ _ a | .vfsqrt _ _ _ _ _ a | .vfrsq _ _ _ _ _ a | .vfrcp _ _ _ _ _ a | .vfclass _ _ _ _ _ a
  | .vhsum _ _ _ _ _ a | .vbincvt _ _ _ _ _ a => [v a]
  | .vshl _ _ _ _ _ a _ | .vshr _ _ _ _ _ a _ | .vsar _ _ _ _ _ a _ | .vrot _ _ _ _ _ a _ => [v a]
  | .vcmp _ _ _ _ _ a b _ | .vfcmp _ _ _ _ _ a b _ => [v a, v b]
  | .vsel _ _ _ _ _ a b k => [v a, v b, m k]
  | .vbcastScalar _ _ _ _ _ a => [g a]
  | .vbcastVector _ _ _ _ _ a _ | .vext _ _ _ _ _ a _ => [v a]
  | .vins _ _ _ _ d a _ => [v d, g a]
  | .vzip _ _ _ _ _ a b _ | .vunzip _ _ _ _ _ a b _ => [v a, v b]
  | .vpart _ _ _ _ _ a k => [v a, m k]
  | .vcvt _ _ _ _ _ a _ => [v a]
  | .ldv _ _ b _ => [g b]
  | .ldvsStrided _ _ b _ s _ => [g b, g s]
  | .ldvsGathered _ _ b _ i => [g b, v i]
  | .ldg _ _ b _ => [g b]
  | .ldb _ _ b _ _ => [g b]
  | .ldq _ _ b _ => [g b]
  | .ldm _ _ b _ => [g b]
  | .stvOffset _ s b _ => [v s, g b]
  | .stvScatter _ s b i => [v s, g b, v i]
  | .stvmOffset _ s b _ k => [v s, g b, m k]
  | .stvmScatter _ s b i k => [v s, g b, v i, m k]
  | .stg _ s b _ => [g s, g b]
  | .stq _ s b _ => [q s, g b]
  | .mmaq _ _ _ _ _ _ _ _ a b _ => [g a, g b]
  | .scalc _ _ _ a b _ => [g a, g b]
  | .zld _ _ b _ => [g b]
  | .zst _ _ _ _ b _ => [g b]
  | .mxagReg _ _ _ a => [g a]
  | .attld _ _ _ b _ => [g b]
  | .rank _ _ _ _ a b => [g a, g b]
  | .rankThreshold _ _ _ _ c a b => [g c, g a, g b]
  | .rkacc _ _ _ _ _ a b => [g a, g b]
  | .unrank _ _ _ _ a b => [g a, g b]
  | .send _ _ _ _ _ s d k => [g s, g d, g k]
  | .sendNb _ _ _ _ _ s d => [g s, g d]
  | .sendv _ _ _ _ _ d k s => [g d, g k, v s]
  | .sendvNb _ _ _ _ _ d s => [g d, v s]
  | .cpy _ s k => [g s, g k]
  | .cpg _ s d k i n _ => [g s, g d, g k] ++ (List.range (n.toNat + 1)).map (fun j => 0x600 + (i.toNat + j))
  | .rksend _ _ _ nb s d k _ => [g s, g d] ++ if nb then [] else [g k]
  | .dact _ p | .dpre _ p => pair p
  | .drd _ p s k => pair p ++ [g s, g k]
  | .dwr _ p s => pair p ++ [g s]
  | .lnkp _ _ _ p s n => pair p ++ [g s, g n]
  | .lnkg _ _ _ p d k n => pair p ++ [g d, g k, g n]
  | .coll _ s k => [g s, g k]
  | .waitcReg p => pair p
  | .waitbImm k _ _ => [g k]
  | .waitbReg k _ p => g k :: pair p
  | .bariImm k _ => [g k]
  | .bariReg k n => [g k, g n]
  | .barx k => [g k]
  | .drainReg p => pair p
  | .audo a _ => [g a]
  | .dscrd a n => [g a, g n]
  | _ => []

/-- A slot is turned away by a check of R109 that uses the values of its operands or the tile's loop and transfer
state, or by its scale layout (R63): both come before the scoreboard (R415). -/
def CheckedAway (i : Instr) (s : State) (sl : Slot) : Prop :=
  ∃ c d, exec i s = .next (raisePrecise s s.cur sl c d) ∧ (c = 0x01 ∧ d ∈ [0x0001, 0x0002, 0x000A, 0x000C, 0x000D, 0x000E] ∨ c = 0x0A)

/-- A result of the current slot: it lands `lat` cycles after the present one (R257). -/
def landingOf (s : State) (p : Part) (sl : Slot) (lat : Nat) (d : Dest) (f : Flags) : Landing :=
  { issued := p.gcyc, due := p.gcyc + lat, slot := slotNum sl, seq := s.seqNo, dest := d, flags := f }

/-- Of the results that land together, one is the last, in slot and issue order, that writes a place (R14). -/
def LastOf (due : List Landing) (same : Dest → Prop) (e : Landing) : Prop :=
  e ∈ due ∧ same e.dest ∧ ∀ f ∈ due, same f.dest → f = e ∨ f.slot < e.slot ∨ f.slot = e.slot ∧ f.seq < e.seq

/-- No result that lands writes a place. -/
def NoneOf (due : List Landing) (same : Dest → Prop) : Prop := ∀ e ∈ due, ¬ same e.dest

/-- An instruction answers a next state in which its one result is in flight, and nothing else of any
tile, register or memory has changed. -/
def PutsInFlight (i : Instr) (s : State) (t : Tile) (e : Landing) : Prop :=
  ∃ u, exec i s = .next u ∧ tileOf u s.cur = some (fly t e) ∧ OnlyTile s u s.cur

/-- A well-formed instruction answers a next state in which its one result is in flight. -/
def Gives (i : Instr) (s : State) (t : Tile) (e : Landing) : Prop := WellFormed i → PutsInFlight i s t e

/-- The tile after a slot: `t0` is the tile before it with the changes that are named apart, `es` are the
results put in flight. No other register and no memory has changed, and nothing outside the tile. -/
structure After (s u : State) (t0 t' : Tile) (es : List Landing) : Prop where
  now : tileOf u s.cur = some t'
  flight : t'.flight = t0.flight ++ es
  regs : SameRegs t0 t'
  event : SameEvent t0 t'
  mem : SameMem t0 t'
  only : OnlyTile s u s.cur

/-- A well-formed instruction answers a next state whose tile is `t0` with results put in flight. -/
def Lands (i : Instr) (s : State) (t0 : Tile) (es : List Landing) : Prop :=
  WellFormed i → ∃ u t', exec i s = .next u ∧ After s u t0 t' es

/-- A well-formed instruction answers a next state whose tile is exactly `t'`, all else as before. -/
def Leaves (i : Instr) (s : State) (t' : Tile) : Prop :=
  WellFormed i → ∃ u, exec i s = .next u ∧ tileOf u s.cur = some t' ∧ OnlyTile s u s.cur

/-- A tile with a control transfer noted in its bundle: two delay bundles, then the target (R119); a CALL's with the
return address (R120). -/
def withXfer (t : Tile) (is : Issue) (target : BitVec 13) (closes : Bool) (link : Option (BitVec 13) := none) : Tile :=
  { t with seq := { t.seq with
      issue := some { is with xfer := some { target := target, delay := 2, from_ := is.pc, closes := closes, link := link } } } }

/-- A tile with a loop noted in its bundle (R123). -/
def withLoop (t : Tile) (is : Issue) (o : LoopOpen) : Tile :=
  { t with seq := { t.seq with issue := some { is with loopOpen := some o } } }

/-- A well-formed vector instruction puts a value in flight to its vector destination, renamed (R127), one
cycle later if the destination lies in the other cluster (R13, R130). -/
def GivesVector (i : Instr) (s : State) (p : Part) (t : Tile) (sl : VSlot) (d : BitVec 11) (lat : Nat) (f : Flags)
    (good : Line → Prop) : Prop :=
  WellFormed i → ∃ x, good x ∧ PutsInFlight i s t (landingOf s p (vslot sl) (vecLat sl d lat) (.v (vphys t.loop d.toNat) x) f)

/-- Every element of width w of a vector is the given number. -/
def ElemsAre (w : Nat) (x : Line) (f : Nat → Nat) : Prop := ∀ i, i < 128 / w → elem w x i = f i

/-- Element i of a vector register, as an integer of the element type (R12, R41). -/
def intElem (t : Tile) (ty : BitVec 4) (v : BitVec 11) (i : Nat) : Int :=
  (tyIs ty).intVal (elem (tyWidth ty.toNat) (vop t v) i)

/-- The draw of element e (R20, R48): its lane's LFSR after one advance per element of the lane up to e; 0
where the mode does not draw. -/
def laneDraw (t : Tile) (mode : Rnd) (e : Nat) : Nat :=
  if mode = .sr then (Nat.repeat lfsrAdvance (e / 4 + 1) (mget 0 t.lfsr (e % 4))).toNat else 0

/-- The LFSRs after n elements have drawn (R50). -/
def LanesAfter (t : Tile) (mode : Rnd) (n : Nat) (lf : SMap Word) : Prop :=
  ∀ k, mget 0 lf k = if mode = .sr ∧ k < 4 then Nat.repeat lfsrAdvance ((n + 3 - k) / 4) (mget 0 t.lfsr k) else mget 0 t.lfsr k

/-- A well-formed rounding vector instruction puts a value in flight: its first n elements of width w are
those that `f` gives from their draws, the others zero; its flags are those of the n elements together; the
lanes' LFSRs have advanced; nothing else of the tile has changed. -/
def Rounds (i : Instr) (s : State) (p : Part) (t : Tile) (sl : VSlot) (d : BitVec 11) (lat : Nat) (mode : Rnd) (w n : Nat)
    (f : Nat → Nat → Nat × Flags) : Prop :=
  WellFormed i → ∃ u x lf, exec i s = .next u ∧
    tileOf u s.cur = some (fly { t with lfsr := lf } (landingOf s p (vslot sl) (vecLat sl d lat) (.v (vphys t.loop d.toNat) x)
      (joinFlags ((upto n).map (fun e => (f (laneDraw t mode e) e).2))))) ∧
    OnlyTile s u s.cur ∧ LanesAfter t mode n lf ∧
    ∀ e, e < 128 / w → elem w x e = if e < n then (f (laneDraw t mode e) e).1 % 2 ^ w else 0

/-- Element e of a vector register as its bits. -/
def bitElem (t : Tile) (ty : BitVec 4) (v : BitVec 11) (e : Nat) : Nat := elem (tyWidth ty.toNat) (vop t v) e

/-- Element e of a vector register as a floating-point value (R39). -/
def fpElem (t : Tile) (ty : BitVec 4) (v : BitVec 11) (e : Nat) : FVal := fdecode (tyIs ty).fmt (bitElem t ty v e)

/-- A well-formed instruction puts a lane mask in flight (R130, R136): bit j is the relation of the element
that byte lane j belongs to; a lane of two 4-bit elements takes both. -/
def GivesMask (i : Instr) (s : State) (p : Part) (t : Tile) (sl : VSlot) (md : BitVec 3) (lat w : Nat) (f : Flags) (rel : Nat → Bool) :
    Prop :=
  WellFormed i → ∃ x : BitVec 16,
    (∀ j, j < 16 → x.getLsbD j = if w = 4 then rel (2 * j) && rel (2 * j + 1) else rel (j / (w / 8))) ∧
    PutsInFlight i s t (landingOf s p (vslot sl) lat (.m md.toNat x) f)

/-- A well-formed load puts a line in flight (R162). -/
def LoadsLine (i : Instr) (s : State) (p : Part) (t : Tile) (d : BitVec 11) (good : Line → Prop) : Prop :=
  WellFormed i → ∃ x, good x ∧ ∃ u t', exec i s = .next u ∧ After s u t t' [landingOf s p .ld 3 (.v (vphys t.loop d.toNat) x) 0]

/-- A well-formed store leaves every byte of the data SRAM as `w` says: a byte that it names, or none where
the byte stays (R164). A reader sees the same, but for a line of which the barrier unit holds a copy. -/
def Stores (i : Instr) (s : State) (t : Tile) (w : Nat → Option Byte) : Prop :=
  WellFormed i → ∃ u t', exec i s = .next u ∧ tileOf u s.cur = some t' ∧ OnlyTile s u s.cur ∧
    SameRegs t t' ∧ SameEvent t t' ∧ t'.flight = t.flight ∧ t'.imem = t.imem ∧ t'.held = t.held ∧ t'.heldAt = t.heldAt ∧
    memWf t'.sram = true ∧ (∀ a, mget 0 t'.sram a = (w a).getD (mget 0 t.sram a)) ∧
    (∀ a, w a = none → readByte t' a = readByte t a) ∧
    (∀ a b, w a = some b → mfind t.held (lineOfAddr a) = none → readByte t' a = b.toNat)

/-- A well-formed MX instruction is under way after its issue (R178): the operation is noted with its issue
cycle, and `es` are the results that it has in flight already. -/
def Issues (i : Instr) (s : State) (p : Part) (t t0 : Tile) (es : List Landing) (k : MxKind) (buf : SMap Nat)
    (good : Tile → Prop) : Prop :=
  WellFormed i → ∃ u t', exec i s = .next u ∧ After s u t0 t' es ∧ good t' ∧
    t'.mx = t.mx ++ [{ id := s.seqNo, t := p.gcyc, pc := (issueOf t .mx).pc, kind := k, buf := buf }]

/-- A well-formed instruction raises a precise event of its slot. -/
def Traps (i : Instr) (s : State) (sl : Slot) (cause detail : Nat) : Prop :=
  WellFormed i → exec i s = .next (raisePrecise s s.cur sl cause detail)

/-- What a well-formed instruction raises that finds the bank of one of its own accesses in use (R166, R168), or, where it
finds none, reads poison (R170). -/
def Clashes (i : Instr) (s : State) (t : Tile) (sl : Slot) (lines : List Nat) (reads : List (Nat × Nat)) : Prop :=
  WellFormed i →
  let scan := (localScan t (issueOf t sl) (slotNum sl) lines).2
  (∀ b, scan = some b → exec i s = .next (raisePrecise
      (onTile s s.cur (fun t => { t with accs := t.accs.map (fun e => if e.bank = bankOf b then { e with won := true } else e) }))
      s.cur sl 0x03 (localBits t (issueOf t sl) (slotNum sl) b))) ∧
  (∀ a, scan = none → consumed t reads = some a → exec i s = .next (raisePrecise
      (onTile s s.cur (fun t => markReads t reads)) s.cur sl 0x09 (a / 8)))

/-- A range of bytes lies in the data SRAM (R32). -/
abbrev InSram (a n : Nat) : Prop := a + n ≤ sramEnd

/-! ## Values and their rounding, by comparisons alone (R38 to R54)

A positive real is known by the numbers u · 2 ^ k below it: `le u k` says u · 2 ^ k ≤ v, `lt u k` says
u · 2 ^ k < v. So one text says how a sum, a product, a quotient and a root are rounded. -/

/-- u · 2 ^ k ≤ n · 2 ^ e. -/
def dyLe (u : Nat) (k : Int) (n : Nat) (e : Int) : Prop := u * 2 ^ (k - min k e).toNat ≤ n * 2 ^ (e - min k e).toNat

/-- u · 2 ^ k < n · 2 ^ e. -/
def dyLt (u : Nat) (k : Int) (n : Nat) (e : Int) : Prop := u * 2 ^ (k - min k e).toNat < n * 2 ^ (e - min k e).toNat

/-- Whether the magnitude between n and n + 1 units of 2 ^ k goes up to n + 1 (R45, R49). -/
def RoundsUp (md : Rnd) (neg : Bool) (lf : Nat) (le lt : Nat → Int → Prop) (n : Nat) (k : Int) : Prop :=
  match md with
  | .rne => lt (2 * n + 1) (k - 1) ∨ le (2 * n + 1) (k - 1) ∧ n % 2 = 1
  | .rtz => False
  | .rup => neg = false ∧ lt n k
  | .rdn => neg = true ∧ lt n k
  | .sr => ∃ j, j < 2 ^ 32 ∧ le (n * 2 ^ 32 + j) (k - 32) ∧ 2 ^ 32 ≤ j + lf

/-- The magnitude is rounded to q units of 2 ^ k. -/
def RoundsUnits (md : Rnd) (neg : Bool) (lf : Nat) (le lt : Nat → Int → Prop) (k : Int) (q : Nat) : Prop :=
  ∃ n, le n k ∧ ¬ le (n + 1) k ∧ (RoundsUp md neg lf le lt n k → q = n + 1) ∧ (¬ RoundsUp md neg lf le lt n k → q = n)

/-- The exponent of the least significant kept bit at the magnitude (R49): that of its binade, or of the
subnormal range. -/
def KeptBit (f : Fmt) (le : Nat → Int → Prop) (k : Int) : Prop :=
  le 1 (k + f.mb) ∧ ¬ le 1 (k + f.mb + 1) ∧ 1 - (f.bias : Int) ≤ k + f.mb ∨ ¬ le 1 (1 - (f.bias : Int)) ∧ k = 1 - (f.bias : Int) - f.mb

/-- The sign bit of a format in place (R38). -/
def signOf (f : Fmt) (neg : Bool) : Nat := if neg then 2 ^ (f.mb + f.eb) else 0

/-- The encoding of +∞ where the format has one (R38). -/
def infOf (f : Fmt) : Nat := (2 ^ f.eb - 1) * 2 ^ f.mb

/-- The canonical NaN (R38, R40). -/
def nanOf (f : Fmt) : Nat := if f.isE4 then 0x7F else infOf f + 2 ^ (f.mb - 1)

/-- q units of 2 ^ k lie above the greatest finite magnitude (R38). -/
def TooBig (f : Fmt) (q : Nat) (k : Int) : Prop :=
  if f.isE4 then dyLt 448 0 q k else dyLt (2 ^ (f.mb + 1) - 1) ((f.bias : Int) - f.mb) q k

/-- What an overflow gives (R46). -/
def overflowOf (f : Fmt) (md : Rnd) (neg : Bool) : Nat :=
  signOf f neg + (if f.isE4 then 0x7E else if md = .rne ∨ md = .sr ∨ md = .rup ∧ neg = false ∨ md = .rdn ∧ neg = true then infOf f
    else infOf f - 1)

/-- An encoding has the given sign and the magnitude q · 2 ^ k (R39). -/
def Encodes (f : Fmt) (x : Nat) (neg : Bool) (q : Nat) (k : Int) : Prop :=
  let c := x % 2 ^ (f.mb + f.eb)
  let e := c / 2 ^ f.mb
  let m := c % 2 ^ f.mb
  let u := if e = 0 then m else 2 ^ f.mb + m
  let w : Int := (max e 1 : Nat) - (f.bias : Int) - f.mb
  x / 2 ^ (f.mb + f.eb) = (if neg then 1 else 0) ∧ dyLe u w q k ∧ dyLe q k u w

/-- A nonzero magnitude with a sign is rounded to a result with its flags (R46 to R49). -/
def RoundsTo (f : Fmt) (md : Rnd) (lf : Nat) (neg : Bool) (le lt : Nat → Int → Prop) (r : Nat × Flags) : Prop :=
  ∃ k q, KeptBit f le k ∧ RoundsUnits md neg lf le lt k q ∧
    (TooBig f q k → r = (overflowOf f md neg, fOverflow ||| fInexact)) ∧
    (¬ TooBig f q k → Encodes f r.1 neg q k ∧
      (le q k → ¬ lt q k → r.2 = 0) ∧
      (¬ le q k ∨ lt q k → (le 1 (1 - (f.bias : Int)) → r.2 = fInexact) ∧
        (¬ le 1 (1 - (f.bias : Int)) → r.2 = fInexact ||| fUnderflow)))

/-- The number m · 2 ^ e, with the sign that a zero takes (R43), is rounded to a result. -/
def RoundsNum (f : Fmt) (md : Rnd) (lf : Nat) (x : Int × Int) (zeroNeg : Bool) (r : Nat × Flags) : Prop :=
  (x.1 = 0 → r = (signOf f zeroNeg, 0)) ∧
  (x.1 ≠ 0 → RoundsTo f md lf (decide (x.1 < 0)) (fun u k => dyLe u k x.1.natAbs x.2) (fun u k => dyLt u k x.1.natAbs x.2) r)

/-- A value is a number: not a NaN and not an infinity. -/
def FVal.isNum (v : FVal) : Bool := match v with | .nan _ => false | .inf _ => false | .zero _ => true | .fin _ _ _ => true

/-- A number as m · 2 ^ e. -/
def FVal.num (v : FVal) : Int × Int :=
  match v with
  | .nan _ => (0, 0)
  | .inf _ => (0, 0)
  | .zero _ => (0, 0)
  | .fin s m e => (if s then -(m : Int) else m, e)

/-- The exact sum of numbers m · 2 ^ e, on their least exponent. -/
def sumOf (xs : List (Int × Int)) : Int × Int :=
  let e := xs.foldl (fun a x => min a x.2) 0
  ((xs.map (fun x => x.1 * 2 ^ (x.2 - e).toNat)).sum, e)

/-- The sign that an exactly zero sum takes (R43). -/
def zeroSumNeg (md : Rnd) (vs : List FVal) : Bool :=
  vs.all (fun v => v == .zero true) || (!vs.all (fun v => v == .zero false) && md == .rdn)

/-- The sign of a value. -/
def FVal.sign (v : FVal) : Bool := match v with | .nan _ => false | .inf s => s | .zero s => s | .fin s _ _ => s

/-- The product of two numbers, with the exclusive-or of their signs. -/
def prodOf (a b : FVal) : FVal :=
  if a.num.1 = 0 ∨ b.num.1 = 0 then .zero (a.sign != b.sign) else .fin (a.sign != b.sign) (a.num.1 * b.num.1).natAbs (a.num.2 + b.num.2)

/-- The value of an encoding by its fields (R39). -/
def DecodesAs (f : Fmt) (x : Nat) (v : FVal) : Prop :=
  let m := x % 2 ^ f.mb
  let e := x / 2 ^ f.mb % 2 ^ f.eb
  let s := (x / 2 ^ (f.mb + f.eb) % 2 == 1 : Bool)
  let w : Int := (max e 1 : Nat) - (f.bias : Int) - f.mb
  (e = 0 → m = 0 → v = .zero s) ∧ (e = 0 → m ≠ 0 → v = .fin s m w) ∧
  (0 < e → e < 2 ^ f.eb - 1 → v = .fin s (2 ^ f.mb + m) w) ∧
  (e = 2 ^ f.eb - 1 → f.isE4 = false → v = if m = 0 then .inf s else .nan (decide (m < 2 ^ (f.mb - 1)))) ∧
  (e = 2 ^ f.eb - 1 → f.isE4 = true → v = if m = 7 then .nan false else .fin s (2 ^ f.mb + m) w)

/-- x < y for numbers m · 2 ^ e. -/
def numLt (x y : Int × Int) : Prop := x.1 * 2 ^ (x.2 - min x.2 y.2).toNat < y.1 * 2 ^ (y.2 - min x.2 y.2).toNat

/-- a lies below b; −0 and +0 are equal, and a NaN lies nowhere. -/
def valLt (a b : FVal) : Prop :=
  a.isNan = false ∧ b.isNan = false ∧
  (a = .inf true ∧ b ≠ .inf true ∨ b = .inf false ∧ a ≠ .inf false ∨ a.isNum = true ∧ b.isNum = true ∧ numLt a.num b.num)

/-- A product of 0 and an infinity (R42). -/
def zeroTimesInf (a b : FVal) : Bool :=
  (a.isNum && a.num.1 == 0 && !b.isNum && !b.isNan) || (b.isNum && b.num.1 == 0 && !a.isNum && !a.isNan)

/-- The product of two values that are no NaNs, and not 0 and an infinity. -/
def mulOf (a b : FVal) : FVal := if a.isNum && b.isNum then prodOf a b else .inf (a.sign != b.sign)

/-- The rounding of a matrix step (R56): nearest even to 24 bits with the exponent unbounded; below the least
normal number a signed zero. -/
def RoundsFlushed (x : Int × Int) (zeroNeg : Bool) (r : Nat × Flags) : Prop :=
  let f := Ty.f32.fmt
  let neg := decide (x.1 < 0)
  let le := fun u k => dyLe u k x.1.natAbs x.2
  let lt := fun u k => dyLt u k x.1.natAbs x.2
  (x.1 = 0 → r = (signOf f zeroNeg, 0)) ∧
  (x.1 ≠ 0 → ∃ k q, le 1 (k + 23) ∧ ¬ le 1 (k + 24) ∧ RoundsUnits .rne neg 0 le lt k q ∧
    (dyLt q k 1 (-126) → r = (signOf f neg, fUnderflow ||| fInexact)) ∧
    (dyLe 1 (-126) q k → TooBig f q k → r = (overflowOf f .rne neg, fOverflow ||| fInexact)) ∧
    (dyLe 1 (-126) q k → ¬ TooBig f q k → Encodes f r.1 neg q k ∧
      (le q k → ¬ lt q k → r.2 = 0) ∧
      (¬ le q k ∨ lt q k → (le 1 (-126) → r.2 = fInexact) ∧ (¬ le 1 (-126) → r.2 = fInexact ||| fUnderflow))))

/-- A bin takes a part (R66): its sum, wrapped to 36 bits, and whether the sum left them. -/
def BinTakes (old part new : Int) (out : Bool) : Prop :=
  -(2 ^ 35) ≤ new ∧ new < 2 ^ 35 ∧ (2 ^ 36 : Int) ∣ old + part - new ∧ (out = true ↔ old + part < -(2 ^ 35) ∨ 2 ^ 35 - 1 < old + part)

/-- A result that is a NaN: the canonical one, invalid where an operand signals (R42). -/
def nanResult (f : Fmt) (vs : List FVal) : Nat × Flags := (nanOf f, if vs.any FVal.isSnan then fInvalid else 0)

/-! ## Steps of the hardware on one tile -/

/-- A place holds tile `t` of partition `p`, whose `gcyc` is the tile's own cycle. -/
structure Stands (s : State) (l : Loc) (p : Part) (t : Tile) : Prop where
  here : tileAt s l = some (p, t)
  keyed : p.first = l.band

/-- A step of the hardware answers a next state in which the tile at a place is as `good` says, and nothing
outside that tile has changed. -/
def Steps (i : Instr) (s : State) (l : Loc) (good : Tile → Prop) : Prop :=
  ∃ u t', exec i s = .next u ∧ tileOf u l = some t' ∧ OnlyTile s u l ∧ good t'

/-- An MX operation of a tile by its number. -/
def mxOf (t : Tile) (id : Nat) : Option MxOp := t.mx.find? (fun o => o.id == id)

/-- The operations of a tile with a value noted in the buffer of one. -/
def mxNoted (t : Tile) (op : MxOp) (key x : Nat) : List MxOp :=
  t.mx.map (fun o => if o.id = op.id then { op with buf := mput op.buf key x } else o)

/-- Exactly n bytes of the data SRAM, from an address up, have changed to those that `f` gives. -/
def SramIs (t t' : Tile) (a n : Nat) (f : Nat → Byte) : Prop :=
  ∀ x, mget 0 t'.sram x = if a ≤ x ∧ x < a + n then f (x - a) else mget 0 t.sram x

/-- Byte k of a number. -/
def byteAt (x k : Nat) : Byte := BitVec.ofNat 8 (x / 2 ^ (8 * k))

/-- No engine has used a bank in this cycle, and no granule of the lines is bad (R159, R169). -/
structure Quiet (t : Tile) (as : List Nat) : Prop where
  banks : t.accs = []
  clean : ∀ a ∈ as, consumed t [(lineOfAddr a, 16)] = none

/-! ## Steps of a partition -/

/-- A step of the hardware answers a next state in which a partition is as `good` says, and no other
partition, no memory of the module and no part of the hub has changed. -/
def StepsPart (i : Instr) (s : State) (band : Nat) (good : Part → Prop) : Prop :=
  ∃ u p', exec i s = .next u ∧ getPart u band = some p' ∧ OnlyPart s u band ∧ good p'

/-- The resident launch of a band. -/
structure Holds (s : State) (band : Nat) (p : Part) : Prop where
  here : getPart s band = some p
  keyed : p.first = band

/-- A destination lies in the partition, so that no fence stops a flit (R197). -/
abbrev InFence (p : Part) (idx : Nat) (dx dy : Int) : Prop :=
  0 ≤ (tx idx : Int) + dx ∧ (tx idx : Int) + dx < 64 * p.count ∧ 0 ≤ (ty idx : Int) + dy ∧ (ty idx : Int) + dy < 784

/-- A barrier address that a register names passes its checks (R194). -/
abbrev BarFits (a : Nat) : Prop := a < sramEnd ∧ a % 16 = 0

/-- A well-formed CP instruction answers a next state in which its tile holds what `good` says of the tile and
of its partition, no register and no memory of it has changed, and no other tile. -/
def Moves (i : Instr) (s : State) (t : Tile) (good : Part → Tile → Prop) : Prop :=
  WellFormed i → ∃ u t' p', exec i s = .next u ∧ After s u t t' [] ∧ getPart u s.cur.band = some p' ∧ good p' t'

/-- Flit k of a send (R200 to R202). -/
def sendFlit (src inj pair : Nat) (engine : Bool) (dop : Nat) (w : Bool) (dx dy : Int) (addr : Nat) (bar : Option Nat) (k payload : Nat)
    (poison : Bool) : Flit :=
  { src := src, dx := dx, dy := dy, inj := inj + k, hop := 0, engine := engine, second := decide (k = 1), dop := dop, wide := w,
    part := decide (k = 1), pair := pair, addr := addr + 8 * k, bar := bar, payload := payload, poison := poison }

/-- The mesh with a send's flits: one of 8 bytes, or two, the second a cycle later (R202). -/
def withFlits (m : SMap Flit) (n : Nat) (w : Bool) (f : Nat → Flit) : SMap Flit :=
  if w then mput (mput m n (f 0)) (n + 1) (f 1) else mput m n (f 0)

/-- Whether a granule that a send reads is bad; a line of which the barrier unit holds a copy has none (R200). -/
def sendBad (t : Tile) (a : Nat) : Bool := (mfind t.held (lineOfAddr a)).isNone && granBad t (a / 8)

/-! ## The checks of a staging engine (R211 to R213) -/

/-- Fewer than n cycles have passed since a command, if there has been one. -/
def Soon (g n : Nat) (at_ : Option Nat) : Prop := ∃ c, at_ = some c ∧ g < c + n

/-- The check of a command that a code names fails (R211, R212, R213): the code of the detail's table. -/
def BreaksCheck (p : Part) (edge : Nat) (e : Engine) (g : Nat) (c : DCmd) (code : Nat) : Prop :=
  let bk := getBank e
  let busy := fun (b : Nat) => ∃ u r, (bk b).busy = some (u, r) ∧ g < u
  let open_ := fun (b : Nat) => openRow p edge g (bk b)
  let acts := fun (n : Nat) (same : Nat → Prop) => ∃ a ∈ e.acts, same a.2 ∧ g < a.1 + n
  let cols := fun (n : Nat) (same : Nat → Bool → Prop) => ∃ a ∈ e.cols, same a.2.1 a.2.2 ∧ g < a.1 + n
  let late := fun (b : Nat) => (p.ticks : Int) - e.refs - (bk b).refs ≤ -8
  match c with
  | .act b _ =>
    code = 0 ∧ (open_ b ≠ none ∨ busy b) ∨ code = 2 ∧ Soon g 24 (bk b).pre ∨ code = 4 ∧ Soon g 68 (bk b).act ∨
    code = 7 ∧ acts 6 (fun x => x / 4 = b / 4) ∨ code = 8 ∧ acts 4 (fun _ => True) ∨
    code = 9 ∧ 4 ≤ (e.acts.filter (fun x => decide (g < x.1 + 20))).length ∨
    code = 13 ∧ (Soon g 455 e.refAll ∨ Soon g 224 (bk b).ref)
  | .rd b row =>
    code = 0 ∧ (open_ b ≠ some row ∨ busy b) ∨ code = 1 ∧ Soon g 24 (bk b).act ∨ code = 5 ∧ cols 4 (fun x _ => x / 4 = b / 4) ∨
    code = 6 ∧ cols 2 (fun _ _ => True) ∨ code = 11 ∧ cols 12 (fun _ w => w = true) ∨ code = 13 ∧ Soon g 455 e.refAll
  | .wr b row =>
    code = 0 ∧ (open_ b ≠ some row ∨ busy b) ∨ code = 1 ∧ Soon g 24 (bk b).act ∨ code = 5 ∧ cols 4 (fun x _ => x / 4 = b / 4) ∨
    code = 6 ∧ cols 2 (fun _ _ => True) ∨ code = 12 ∧ cols 14 (fun _ w => w = false) ∨ code = 13 ∧ Soon g 455 e.refAll
  | .pre b =>
    code = 0 ∧ busy b ∨ code = 3 ∧ Soon g 44 (bk b).act ∨ code = 10 ∧ Soon g 24 (bk b).wr ∨ code = 13 ∧ Soon g 455 e.refAll
  | .prea =>
    code = 0 ∧ (∃ b, busy b) ∨ code = 3 ∧ (∃ b, Soon g 44 (bk b).act) ∨ code = 10 ∧ (∃ b, Soon g 24 (bk b).wr) ∨
    code = 13 ∧ Soon g 455 e.refAll
  | .ref => code = 0 ∧ (∃ b, open_ b ≠ none ∨ busy b) ∨ code = 13 ∧ Soon g 455 e.refAll ∨ code = 15 ∧ ∃ b, b < 64 ∧ late b
  | .refb b =>
    code = 0 ∧ (open_ b ≠ none ∨ busy b) ∨ code = 13 ∧ (Soon g 455 e.refAll ∨ Soon g 224 (bk b).ref) ∨ code = 15 ∧ late b

/-- The engine has had another command of a command's kind, row or column, in this cycle (R211). -/
def SecondOfKind (e : Engine) (g : Nat) (c : DCmd) : Prop :=
  match c with
  | .rd _ _ => e.colCyc = some g
  | .wr _ _ => e.colCyc = some g
  | .act _ _ => e.rowCyc = some g
  | .pre _ => e.rowCyc = some g
  | .prea => e.rowCyc = some g
  | .ref => e.rowCyc = some g
  | .refb _ => e.rowCyc = some g

/-! ## Ports, and what a slot notes -/

/-- Only one port, and one tile at most, may have changed: no other port and tile, no memory of the module, no
part of the hub. -/
structure OnlyPort (s u : State) (k : Nat) (l : Loc) : Prop where
  others : ∀ j, j ≠ k → getPort u j = getPort s j
  tiles : ∀ x, x ≠ l → tileOf u x = tileOf s x
  dram : u.dram = s.dram
  host : u.hostMem = s.hostMem
  hub : u.queues = s.queues ∧ u.ctxs = s.ctxs ∧ u.status = s.status ∧ u.store = s.store ∧ u.debug = s.debug
  clock : u.edge = s.edge

/-- A tile's registers, event registers, results in flight and memories are as before. -/
structure SameTile (t t' : Tile) : Prop where
  flight : t'.flight = t.flight
  regs : SameRegs t t'
  event : SameEvent t t'
  mem : SameMem t t'

/-- A well-formed instruction notes what `good` says in its tile; no register and no memory has changed, and
nothing outside the tile. -/
def Notes (i : Instr) (s : State) (t : Tile) (good : Tile → Prop) : Prop :=
  WellFormed i → ∃ u t', exec i s = .next u ∧ After s u t t' [] ∧ good t'

/-- A step at a port answers a next state in which the port is as `good` says and the messages `out` have been
sent; no tile has changed. -/
def PortStep (i : Instr) (s : State) (k : Nat) (good : Port → Prop) (out : List OutMsg) : Prop :=
  ∃ u, exec i s = .next u ∧ (∀ j, j ≠ k → getPort u j = getPort s j) ∧ (∀ x, tileOf u x = tileOf s x) ∧ u.dram = s.dram ∧
    u.hostMem = s.hostMem ∧ u.edge = s.edge ∧ good (getPort u k) ∧ u.outbox = s.outbox ++ out

/-- A message that a module sends to itself is carried back by its port (R306): it comes as a step at some later
edge, and leaves the module at no port. -/
def CarriedBack (s u : State) (i : Instr) : Prop := u.outbox = s.outbox ∧ ∃ e, s.edge < e ∧ u.inputs = s.inputs ++ [(e, i)]

/-- Bytes in blocks of 512, the last possibly short (R220). -/
def inBlocks (d : List Byte) : List (Nat × List Byte) :=
  (List.range ((d.length + 511) / 512)).map (fun b => (b, (d.drop (512 * b)).take 512))

/-- The port at which a transfer from port k of the module to itself arrives (R219, R306). -/
def backPort (k pa : Nat) : Nat := if paKind pa = 0 then 4 * (paCol pa / 64) + k % 4 else k

/-- The bytes of a line that a landing writes (R220): those it names; the others stay. -/
def LineIs (t t' : Tile) (x : LandLine) : Prop :=
  ∀ a, mget 0 t'.sram a =
    if x.addr ≤ a ∧ a < x.addr + 16 then (x.bytes.getD (a - x.addr) none).getD (mget 0 t.sram a) else mget 0 t.sram a

/-! ## Events -/

/-- The event-ring record of an event of a tile (R342). -/
def ringRecord (s : State) (p : Part) (l : Loc) (kind : Nat) (evc : Word) (epc : BitVec 16) (done : BitVec 8) : EventRec :=
  { num := s.ringNo, evc := evc, asid := p.rec_.asid, kind := kind, epc := epc, done := done, evt := false, tx := l.idx % 1024,
    ty := l.idx / 1024, pcol := physCol s p.first l.idx, gcyc := p.gcyc, wall := s.edge * 10 / 13 }

/-- The stop that an event calls (R289, R345): F cycles on, or at once in a freeze. -/
def calledStop (s : State) (p : Part) (l : Loc) (evc : Word) (epc : BitVec 16) (done : BitVec 8) : Stop :=
  { at_ := if isFrozen p then p.gcyc else p.gcyc + lead p, event := true, c1 := p.gcyc, raised := true, tile := l.idx, evc := evc,
    epc := epc, done := done, ring := s.ringNo }

/-- A tile has taken an event (R341 to R345): it issues no more; its first event is in EVC, EPC and DONE; its
other registers and its memories are as before, but for the count of its last cycle; the event ring has a
record of the given kind; the partition's stop is as given. -/
def TakesEvent (s u : State) (l : Loc) (p : Part) (t : Tile) (kind : Nat) (evc : Word) (epc : BitVec 16) (done : BitVec 8)
    (stop : Stop) : Prop :=
  ∃ t' p', tileOf u l = some t' ∧ getPart u l.band = some p' ∧ t'.seq.stopped = true ∧ t'.seq.issue = none ∧
    t'.seq.pc = t.seq.pc ∧ (t.evRec = false → t'.evRec = true ∧ t'.evc = evc ∧ t'.epc = epc ∧ t'.done = done) ∧
    (t.evRec = true → SameEvent t t') ∧ SameRegs { t with ltc := t'.ltc } t' ∧ SameMem t t' ∧ t'.flight = t.flight ∧
    u.ring = s.ring ++ [ringRecord s p l kind evc epc done] ∧ u.ringNo = s.ringNo + 1 ∧
    p'.stop = some stop ∧ p'.gcyc = p.gcyc ∧ p'.mode = p.mode

/-! ## The trace buffer (R401) -/

/-- A record of n bytes comes into a trace buffer of the given size, oldest pointer and record sizes: as many of the
oldest records go, and no more, as leave room for it. -/
def TraceTakes (size old : Nat) (lens : List Nat) (n old' : Nat) (lens' : List Nat) : Prop :=
  ∃ k, lens' = lens.drop k ++ [n] ∧ old' = (old + (lens.take k).sum) % size ∧ (lens.drop k).sum + n ≤ size ∧
    ∀ j, j < k → size < (lens.drop j).sum + n

/-- Bytes have been written to an area that the hub has placed from a row on, each part of them from its offset on, and
to no other byte of DRAM; to none where it has found no place (R393). -/
def AreaWritten (s u : State) (first : Nat) (row : Option Nat) (size : Nat) (parts : List (Nat × List Byte)) : Prop :=
  (row = none → u.dram = s.dram) ∧
  ∀ r, row = some r → r + (size + 2 ^ 21 - 1) / 2 ^ 21 ≤ 32768 →
    (∀ e ∈ parts, ∀ k, k < e.2.length → mget 0 u.dram (hubAt first r (e.1 + k)) = e.2.getD k 0) ∧
    ∀ a, (∀ e ∈ parts, ∀ k, k < e.2.length → a ≠ hubAt first r (e.1 + k)) → mget 0 u.dram a = mget 0 s.dram a

/-- Where the save area of a launch that is placed stands, if anywhere: where it has stood, or in 2,451 rows of its stacks that
neither its range entries map nor another live launch on its columns has reserved (R360, R363). -/
def SavePlaced (s : State) (c : Ctx) (row : Option Nat) : Prop :=
  (c.saveRow ≠ none → row = c.saveRow) ∧
  ∀ r, c.saveRow = none → row = some r → r + 2451 ≤ 32768 ∧ ∀ k, k < 2451 → mapsRow c.rec_.dram (r + k) = false ∧
    ∀ x ∈ s.ctxs, x.rec_.token ≠ c.rec_.token → x.st ≠ .waiting → x.st ≠ .eligible →
      (∃ j, c.rec_.first ≤ j ∧ j < c.rec_.first + c.rec_.count ∧ x.rec_.first ≤ j ∧ j < x.rec_.first + x.rec_.count) →
      ownsRow s x (r + k) = false

/-! ## The audit engines (R357) -/

/-- A sample of which the audit engine has moved one line: its next input line, with its poison, has come to the
copy; after the last of them, its next output line has been read, and the signature is formed from the output
ranges as they were read. -/
def LineMoved (t : Tile) (x y : Sample) : Prop :=
  y.tile = x.tile ∧ y.unit = x.unit ∧ y.poolIdx = x.poolIdx ∧ y.closedAt = x.closedAt ∧ y.replaySig = x.replaySig ∧
  SameRegs x.snap y.snap ∧ y.snap.imem = x.snap.imem ∧
  (∀ a r, x.todoLines = a :: r → y.todoLines = r ∧ y.outLines = x.outLines ∧ y.sig = x.sig ∧ (y.copied = true ↔ r = []) ∧
    (2 ^ 18 ≤ a → y.snap = x.snap) ∧
    (a < 2 ^ 18 → memWf x.snap.sram = true →
      ∀ b, mget 0 y.snap.sram b = if a ≤ b ∧ b < a + 16 then byteAt (readLine t a).toNat (b - a) else mget 0 x.snap.sram b) ∧
    (a < 2 ^ 18 → a % 16 = 0 → mfind t.held a = none →
      ∀ g, g ∈ y.snap.poison ↔ g ∈ x.snap.poison ∨ (g = a / 8 ∨ g = a / 8 + 1) ∧ granBad t g = true)) ∧
  (∀ a r, x.todoLines = [] → x.outLines = a :: r → y.snap = x.snap ∧ y.todoLines = [] ∧ y.outLines = r ∧ y.copied = x.copied ∧
    (memWf x.outData = true →
      ∀ b, mget 0 y.outData b = if a ≤ b ∧ b < a + 16 then byteAt (readLine t a).toNat (b - a) else mget 0 x.outData b) ∧
    y.sig = if r = [] then some (crcBytes 0 (x.unit.outs.flatMap (fun o => sramBytes y.outData o.1 o.2))) else none)

/-! ## Partitions whose hub state changes with them -/

/-- A step answers a next state of which a partition and the rest are as `good` says. -/
def Becomes (i : Instr) (s : State) (band : Nat) (good : State → Part → Prop) : Prop :=
  ∃ u p', exec i s = .next u ∧ getPart u band = some p' ∧ good u p'

/-- Every listed tile of a partition has become one that `good` says. -/
def EachTile (p p' : Part) (good : Tile → Tile → Prop) : Prop :=
  ∀ i t, mfind p.tiles i = some t → ∃ t', mfind p'.tiles i = some t' ∧ good t t'

end Sys2Proof.Machine
end

