-- ==== Sys2Proof/Certificates/Slice0/Obligations.lean ====
section
/-! DEFINITION. The statements for the provers, each a proposition about the model. -/

open Sys2Proof Sys2Proof.Machine

/-! ## The S slot -/

/-- R112: the register-register integer instructions. Both sources are read at issue; the result lands one
cycle later, or two for a multiply, in gd; no flag is set; nothing else changes. -/
def Obligations.ScalarArithmeticResults : Prop :=
  ∀ (s : State) (p : Part) (t : Tile) (gu : Guard) (gd ga gb : BitVec 5),
    Ready s p t gu [codeG ga.toNat, codeG gb.toNat] →
    let a := rg t ga.toNat
    let b := rg t gb.toNat
    let goes := fun (lat : Nat) (x : Word) => landingOf s p .s lat (.g gd.toNat x) 0
    Gives (.add gu gd ga gb) s t (goes 1 (a + b)) ∧
    Gives (.sub gu gd ga gb) s t (goes 1 (a - b)) ∧
    Gives (.and_ gu gd ga gb) s t (goes 1 (a &&& b)) ∧
    Gives (.or_ gu gd ga gb) s t (goes 1 (a ||| b)) ∧
    Gives (.xor_ gu gd ga gb) s t (goes 1 (a ^^^ b)) ∧
    Gives (.shl gu gd ga gb) s t (goes 1 (a <<< (b.toNat % 32))) ∧
    Gives (.shr gu gd ga gb) s t (goes 1 (a >>> (b.toNat % 32))) ∧
    Gives (.sar gu gd ga gb) s t (goes 1 (a.sshiftRight (b.toNat % 32))) ∧
    Gives (.mul gu gd ga gb) s t (goes 2 (BitVec.ofNat 32 (a.toNat * b.toNat))) ∧
    Gives (.mulh gu gd ga gb) s t (goes 2 (BitVec.ofInt 32 ((a.toInt * b.toInt) >>> 32))) ∧
    Gives (.mulhn gu gd ga gb) s t (goes 2 (BitVec.ofNat 32 ((a.toNat * b.toNat) >>> 32))) ∧
    Gives (.min gu gd ga gb) s t (goes 1 (if a.slt b then a else b)) ∧
    Gives (.max gu gd ga gb) s t (goes 1 (if a.slt b then b else a)) ∧
    Gives (.minn gu gd ga gb) s t (goes 1 (if a.ult b then a else b)) ∧
    Gives (.maxn gu gd ga gb) s t (goes 1 (if a.ult b then b else a))

/-- R112, R113: one-source instructions and immediates. CLZ and POPC are stated by what they count. -/
def Obligations.ScalarImmediateResults : Prop :=
  ∀ (s : State) (p : Part) (t : Tile) (gu : Guard) (gd ga sh : BitVec 5) (imm : BitVec 24) (half : BitVec 16),
    Ready s p t gu [codeG ga.toNat] →
    let a := rg t ga.toNat
    let e := imm.signExtend 32
    let goes := fun (x : Word) => landingOf s p .s 1 (.g gd.toNat x) 0
    (WellFormed (.clz gu gd ga) → ∃ n, n ≤ 32 ∧ (∀ k, 32 - n ≤ k → k < 32 → a.getLsbD k = false) ∧
      (n < 32 → a.getLsbD (31 - n) = true) ∧ PutsInFlight (.clz gu gd ga) s t (goes (BitVec.ofNat 32 n))) ∧
    Gives (.popc gu gd ga) s t (goes (BitVec.ofNat 32 ((List.range 32).filter a.getLsbD).length)) ∧
    Gives (.addi gu gd ga imm) s t (goes (a + e)) ∧
    Gives (.andi gu gd ga imm) s t (goes (a &&& e)) ∧
    Gives (.ori gu gd ga imm) s t (goes (a ||| e)) ∧
    Gives (.xori gu gd ga imm) s t (goes (a ^^^ e)) ∧
    Gives (.shli gu gd ga sh) s t (goes (a <<< sh.toNat)) ∧
    Gives (.shri gu gd ga sh) s t (goes (a >>> sh.toNat)) ∧
    Gives (.sari gu gd ga sh) s t (goes (a.sshiftRight sh.toNat)) ∧
    Gives (.li gu gd imm) s t (goes e) ∧
    Gives (.lih gu ga half) s t (landingOf s p .s 1 (.g ga.toNat (half ++ a.extractLsb' 0 16)) 0)

/-- R114, R115, R116: selection, comparisons into a predicate, and predicate logic, with their words. -/
def Obligations.ScalarPredicateResults : Prop :=
  ∀ (s : State) (p : Part) (t : Tile) (gu : Guard) (gd ga gb : BitVec 5) (qd qa qb cc : BitVec 4) (imm : BitVec 20),
    Ready s p t gu [codeG ga.toNat, codeG gb.toNat, codeQ qa.toNat, codeQ qb.toNat] →
    let a := rg t ga.toNat
    let b := rg t gb.toNat
    let x := rq t qa.toNat
    let y := rq t qb.toNat
    let goes := fun (r : Bool) => landingOf s p .s 1 (.q qd.toNat r) 0
    let cond := fun (u v : Word) =>
      [u == v, u != v, u.slt v, u.sle v, v.slt u, v.sle u, u.ult v, u.ule v, v.ult u, v.ule u].getD cc.toNat false
    Gives (.sel gu gd ga gb qa) s t (landingOf s p .s 1 (.g gd.toNat (if x then a else b)) 0) ∧
    Gives (.cmpReg gu qd cc ga gb) s t (goes (cond a b)) ∧
    Gives (.cmpImm gu qd cc ga imm) s t (goes (cond a (imm.signExtend 32))) ∧
    Gives (.qand gu qd qa qb) s t (goes (x && y)) ∧
    Gives (.qor gu qd qa qb) s t (goes (x || y)) ∧
    Gives (.qnot gu qd qa) s t (goes (!x)) ∧
    (
      let gw := guardNat gu * 2 ^ 34
      let cw := 0x30 * 2 ^ 40 + gw + qd.toNat * 2 ^ 30 + cc.toNat * 2 ^ 26 + ga.toNat * 2 ^ 21
      let qw := gw + qd.toNat * 2 ^ 30 + qa.toNat * 2 ^ 26
      encode (.sel gu gd ga gb qa) =
        some (.s, 0x12 * 2 ^ 40 + gw + gd.toNat * 2 ^ 29 + ga.toNat * 2 ^ 24 + gb.toNat * 2 ^ 19 + qa.toNat * 2 ^ 15) ∧
      encode (.cmpReg gu qd cc ga gb) = some (.s, cw + gb.toNat * 2 ^ 15) ∧
      encode (.cmpImm gu qd cc ga imm) = some (.s, cw + 2 ^ 20 + imm.toNat) ∧
      encode (.qand gu qd qa qb) = some (.s, 0x31 * 2 ^ 40 + qw + qb.toNat * 2 ^ 22) ∧
      encode (.qor gu qd qa qb) = some (.s, 0x32 * 2 ^ 40 + qw + qb.toNat * 2 ^ 22) ∧
      encode (.qnot gu qd qa) = some (.s, 0x33 * 2 ^ 40 + qw))

/-- R23 to R29, R117: RDS of a 64-bit register gives its low half and leaves the high half in the snapshot,
which indices 1 and 3 read; a narrow one is zero-extended. WRS of FLG, FPM or MODE is in flight to land one
cycle later. RDCYC puts all 64 bits of the tile's copy of GCYC in flight to a pair and takes no snapshot. -/
def Obligations.SpecialRegisters : Prop :=
  (∀ (s : State) (p : Part) (t : Tile) (gu : Guard) (gd : BitVec 5) (i : BitVec 8) (x : Nat),
      Ready s p t gu [] →
      let goes := fun (w : Word) => [landingOf s p .s 1 (.g gd.toNat w) 0]
      let wide := [(0x00, gcycOf p s.cur t), (0x02, s.edge * 10 / 13)] ++
        (List.range 102).map (fun k => (0x80 + k, (mget 0 t.ltc (0x80 + k)).toNat))
      let home := t.replays.getD s.cur.idx
      let narrow := [(0x04, home % 1024), (0x05, home / 1024), (0x06, home % 1024 / 64), (0x07, home / 1024 / 112),
        (0x08, t.stage.toNat), (0x09, 64 * p.count), (0x0A, 784), (0x0B, p.rec_.asid),
        (0x0C, t.flg.toNat), (0x0D, t.fpm.toNat), (0x0E, (modeOf t).toNat), (0x0F, p.rec_.seed.toNat),
        (0x10, t.regions.length), (0x11, (crhOf t).toNat), (0x12, t.evc.toNat), (0x13, t.epc.toNat), (0x14, t.done.toNat)]
      ((i.toNat, x) ∈ wide →
        Lands (.rds gu gd i) s { t with snap := BitVec.ofNat 32 (x / 2 ^ 32) } (goes (BitVec.ofNat 32 x))) ∧
      ((i.toNat, x) ∈ narrow → Lands (.rds gu gd i) s t (goes (BitVec.ofNat 32 x))) ∧
      (i.toNat = 1 ∨ i.toNat = 3 → Lands (.rds gu gd i) s t (goes t.snap))) ∧
  (∀ (s : State) (p : Part) (t : Tile) (gu : Guard) (g : BitVec 5) (i : BitVec 8),
      Ready s p t gu [codeG g.toNat] →
      let c := gcycOf p s.cur t
      (i = 0x0C ∨ i = 0x0D ∨ i = 0x0E →
        Gives (.wrs gu g i) s t (landingOf s p .s 1 (.sreg i.toNat (rg t g.toNat)) 0)) ∧
      Lands (.rdcyc gu g) s t
        [landingOf s p .s 1 (.g g.toNat (BitVec.ofNat 32 c)) 0,
         { landingOf s p .s 1 (.g (g.toNat + 1) (BitVec.ofNat 32 (c / 2 ^ 32))) 0 with seq := s.seqNo + 1 }])

/-- R118 to R127: a control transfer outside delay bundles is noted with its target and two delay bundles;
BRQ transfers only on its predicate; CALL puts its return address in flight to g31, that of the bundle after two
delay bundles that hold no S slot, or of the word after a fold header in the second's place; a transfer in a delay
bundle traps whatever its guard. LOOP and LOOPI with fewer than six levels open and an end that is not below the
start are noted with their start, end, trip count, depth and window. At the end of a bundle a level loops back, with
its stage predicates and its rotating base, or closes, outer ends with it; a new level opens, or a trip count of 0
goes past the body; a transfer's delay bundles count down, and its target closes the levels that it leaves. A level
that renames rotates the names below its window. R129, R227, R239, R240, R245, R405: the end of a bundle counts each of its
slots as filled or empty at the level open before it, holds the tile for WAITC, halts it for HALT, pops the region that CRCLOSE
names, and pushes CROPEN's with its handler, its budget, the address of the next bundle and the registers and loop state that
this next bundle reads; nothing else of registers or memory changes.
It rests also on the model's choices of log entries 26, 48, 69 and 84. -/
def Obligations.TransfersAndLoops : Prop :=
  (∀ (s : State) (p : Part) (t : Tile) (is : Issue) (gu : Guard) (target : BitVec 13) (ga : BitVec 5) (qa : BitVec 4) (nq : Bool),
      Ready s p t gu [codeG ga.toNat, codeQ qa.toNat] → t.seq.issue = some is → is.inDelay = false →
      Leaves (.br gu target) s (withXfer t is target true) ∧
      Leaves (.brq gu target qa nq) s (if rq t qa.toNat = nq then t else withXfer t is target true) ∧
      Leaves (.call gu target) s
        (fly (withXfer t is target false (some (returnAddr s t is)))
          (landingOf s p .s 1 (.g 31 ((returnAddr s t is).zeroExtend 32)) 0)) ∧
      Leaves (.ret gu ga) s (withXfer t is ((rg t ga.toNat).truncate 13) false) ∧
      Leaves (.jmpg gu ga) s (withXfer t is ((rg t ga.toNat).truncate 13) true)) ∧
  (∀ (s : State) (p : Part) (t : Tile) (is : Issue) (gu : Guard) (target : BitVec 13),
      Ready s p t gu [] → t.seq.issue = some is → is.inDelay = false → is.le = false →
      let h1 := headerAt t is.next
      let n1 := is.next + BitVec.ofNat 13 (bundleWords h1.mask)
      let h2 := headerAt t n1
      let returns := fun (a : BitVec 13) => Leaves (.call gu target) s
        (fly (withXfer t is target false (some a)) (landingOf s p .s 1 (.g 31 (a.zeroExtend 32)) 0))
      (h1.mask ≠ 0 → h1.mask.testBit 0 = false →
        (h2.mask ≠ 0 → h2.mask.testBit 0 = false → returns (n1 + BitVec.ofNat 13 (bundleWords h2.mask))) ∧
        (h2.mask = 0 → returns (n1 + 1))) ∧
      (h1.mask = 0 → 0 < h1.fold → returns (is.next + 1))) ∧
  (∀ (s : State) (p : Part) (t : Tile) (is : Issue) (gu : Guard) (target : BitVec 13) (ga : BitVec 5) (qa : BitVec 4) (nq : Bool),
      tileAt s s.cur = some (p, t) → t.seq.issue = some is → is.inDelay = true →
      ∀ i ∈ [Instr.br gu target, .brq gu target qa nq, .call gu target, .ret gu ga, .jmpg gu ga], WellFormed i →
        exec i s = .next (raisePrecise s s.cur .s 0x01 0x000E)) ∧
  (∀ (s : State) (p : Part) (t : Tile) (is : Issue) (gu : Guard) (end_ : BitVec 13) (rp rv : Bool) (wsz : BitVec 3)
      (ga : BitVec 5) (count : BitVec 16),
      Ready s p t gu [codeG ga.toNat] → t.seq.issue = some is → levelsAfterLe t is < 6 → is.next.toNat ≤ end_.toNat →
      let note := fun (a lo : Nat) =>
        let d := if rp then a / 2 ^ lo else 0
        let n := if rp then a % 2 ^ lo else a
        withLoop t is {
          lev := { start := is.next, end_ := end_, d := d, rp := rp, rv := rv, window := if rv then 8 * 2 ^ wsz.toNat else 0 },
          trips := BitVec.ofNat 32 (n + d), n := n }
      Leaves (.loop gu end_ rp rv wsz ga) s (note (rg t ga.toNat).toNat 29) ∧
      Leaves (.loopi gu end_ rp rv wsz count) s (note count.toNat 13)) ∧
  (∀ (p : Part) (t : Tile) (is : Issue), t.seq.issue = some is → is.nextFold = none → msorted t.loop.lc = true → t.loop.levels.length ≤ 6 →
      let u := closeBundle p t is
      let lc := fun (k : Nat) => mget 0 t.loop.lc k
      let counts := fun (f : Nat → Word) => ∀ k, mget 0 u.loop.lc k = f k
      let renames := fun (rb w : Nat) => u.loop.rb = rb ∧ u.loop.window = w
      (is.xfer = none → t.seq.xfer = none → is.loopOpen = none →
        (∀ rest lev, is.le = true → is.inDelay = false → t.loop.levels = rest ++ [lev] → lev.end_ = is.pc →
          let n := rest.length
          (1 < (lc n).toNat → u.seq.pc = lev.start ∧ counts (fun k => if k = n then lc n - 1 else lc k) ∧
            (∃ b, u.loop.levels = rest ++ [{ lev with buffered := b }]) ∧
            (∀ k, k < 8 → u.loop.sp.getLsbD k = if lev.rp = false then t.loop.sp.getLsbD k
              else if k = 0 then decide (lev.d < (lc n).toNat - 1) else t.loop.sp.getLsbD (k - 1)) ∧
            (0 < t.loop.window →
              renames (if lev.rv then (t.loop.rb + t.loop.window - 1) % t.loop.window else t.loop.rb) t.loop.window)) ∧
          ((lc n).toNat ≤ 1 → (∀ o, rest.getLast? = some o → o.end_ ≠ is.pc) →
            u.seq.pc = is.next ∧ u.loop.levels = rest ∧ counts (fun k => if k = n then 0 else lc k) ∧ u.loop.sp = t.loop.sp ∧
            (lev.rv = false → renames t.loop.rb t.loop.window) ∧
            (lev.rv = true → (∀ o ∈ rest, o.rv = false) → renames 0 0) ∧
            (∀ x o y, lev.rv = true → rest = x ++ [o] ++ y → o.rv = true → (∀ e ∈ y, e.rv = false) → renames 0 o.window)) ∧
          (∀ out o, (lc n).toNat ≤ 1 → rest = out ++ [o] → o.end_ = is.pc → 1 < (lc (n - 1)).toNat →
            u.seq.pc = o.start ∧ (∃ b, u.loop.levels = out ++ [{ o with buffered := b }]) ∧
            counts (fun k => if k = n then 0 else if k = n - 1 then lc k - 1 else lc k))) ∧
        (is.le = false ∨ is.inDelay = true ∨ (∀ lev, t.loop.levels.getLast? = some lev → lev.end_ ≠ is.pc) →
          u.loop = t.loop ∧ u.seq.pc = is.next)) ∧
      (∀ o, is.loopOpen = some o → is.le = false → is.xfer = none → t.seq.xfer = none →
        (o.trips ≠ 0 → t.loop.levels.length < 6 → u.seq.pc = is.next ∧ u.loop.levels = t.loop.levels ++ [o.lev] ∧
          counts (fun k => if k = t.loop.levels.length then o.trips else lc k) ∧
          u.loop.sp = (if o.lev.rp then (if 0 < o.n then 1 else 0) else t.loop.sp) ∧
          renames (if o.lev.rv then 0 else t.loop.rb) (if o.lev.rv then o.lev.window else t.loop.window)) ∧
        (o.trips = 0 → u.loop = t.loop ∧
          u.seq.pc = o.lev.end_ + BitVec.ofNat 13 (bundleWords (headerAt t o.lev.end_).mask))) ∧
      (∀ x : Xfer, is.loopOpen = none → is.le = false → 1 < x.delay →
        (is.xfer = some x → u.seq.pc = is.next ∧ u.seq.xfer = some x) ∧
        (is.xfer = none → t.seq.xfer = some x → u.seq.pc = is.next ∧ u.seq.xfer = some { x with delay := x.delay - 1 })) ∧
      (∀ x : Xfer, is.xfer = none → t.seq.xfer = some x → x.delay = 1 →
        u.seq.pc = x.target ∧ u.seq.xfer = some { x with delay := 0 } ∧
        (is.loopOpen = none → is.le = false → msorted t.g = true → (∀ n, n ≠ 31 → rg u n = rg t n) ∧
          (∀ a, x.link = some a → rg u 31 = if rg t 31 = a.zeroExtend 32 then is.next.zeroExtend 32 else rg t 31)))) ∧
  (∀ (p : Part) (t : Tile) (is : Issue),
      let u := closeBundle p t is
      let rest := if is.pop then t.regions.drop 1 else t.regions
      let level := t.loop.levels.length - 1
      (msorted t.ltc = true → ∀ i, mget 0 u.ltc i = mget 0 t.ltc i +
        if (List.range 8).any (fun k => i == 0x80 + 16 * level + 2 * k + (if is.mask.testBit k then 0 else 1)) then 1 else 0) ∧
      u.seq.hold = is.waitc.getD t.seq.hold ∧ u.seq.halted = (t.seq.halted || is.halt) ∧ u.seq.issue = none ∧
      u.seq.lastPc = is.pc ∧ u.seq.lastCyc = some p.gcyc ∧
      (is.push = none → u.regions = rest ∧ u.serial = t.serial) ∧
      (∀ handler budget, is.push = some (handler, budget) → u.serial = (t.serial + 1) % 65536 ∧
        u.regions = {
          handler := handler, retries := budget, reentry := u.seq.pc, g := (landDue u (p.gcyc + 1)).g, q := (landDue u (p.gcyc + 1)).q,
          loop := (enterTarget u).loop, serial := u.serial } :: rest) ∧
      SameMem t u ∧ u.flg = t.flg ∧ u.flight = t.flight ∧ (is.xfer = none → t.seq.xfer = none →
        SameRegs { t with loop := u.loop, regions := u.regions, ltc := u.ltc } u)) ∧
  (∀ (t : Tile) (x : Xfer), t.seq.xfer = some x → x.delay = 0 → msorted t.loop.lc = true → t.loop.levels.length ≤ 6 →
      let u := enterTarget t
      let leaves := fun (lev : Level) =>
        (lev.start.toNat ≤ x.from_.toNat ∧ x.from_.toNat ≤ lev.end_.toNat) ∧ ¬ (lev.start.toNat ≤ x.target.toNat ∧ x.target.toNat ≤ lev.end_.toNat)
      u.seq = { t.seq with xfer := none } ∧
      (x.closes = false → u.loop = t.loop) ∧
      (∀ rest lev, x.closes = true → t.loop.levels = rest ++ [lev] →
        (¬ leaves lev → u.loop = t.loop) ∧
        (leaves lev → (∀ o, rest.getLast? = some o → ¬ leaves o) →
          u.loop.levels = rest ∧ u.loop.sp = t.loop.sp ∧ ∀ k, mget 0 u.loop.lc k = if k = rest.length then 0 else mget 0 t.loop.lc k) ∧
        (∀ out o, leaves lev → rest = out ++ [o] → leaves o → (∀ e, out.getLast? = some e → ¬ leaves e) → u.loop.levels = out))) ∧
  (∀ (lp : LoopSt) (n : Nat), 0 < lp.window → lp.window ≤ 768 →
      (n < lp.window → vphys lp n = (n + lp.rb) % lp.window ∧ vphys lp (768 + n) = 768 + (n + lp.rb) % lp.window) ∧
      (lp.window ≤ n → n < 768 → vphys lp n = n ∧ vphys lp (768 + n) = 768 + n) ∧ (1536 ≤ n → vphys lp n = n))

/-- R90: an empty bundle changes no register and no memory, but that the target of a transfer enters as any
bundle does (R119, R125). -/
def Obligations.EmptyBundleChangesNothing : Prop :=
  ∀ (s : State) (p : Part) (t : Tile) (fold : BitVec 12) (le tt : Bool),
    tileAt s s.cur = some (p, t) → p.first = s.cur.band →
    (∃ u t', exec (.emptyBundle fold le tt) s = .next u ∧ After s u (enterTarget t) t' [] ∧
      t'.seq.issue.map (fun is => (is.pc, is.mask, is.slots)) = some (t.seq.pc, 0, [])) ∧
    ((∀ x, t.seq.xfer = some x → x.delay ≠ 0) → enterTarget t = t)

/-! ## The vector slots -/

/-- R134: the integer instructions work on each element by itself; the exact result is kept modulo 2^w, or
saturated; no flag is set. -/
def Obligations.VectorIntegerResults : Prop :=
  ∀ (s : State) (p : Part) (t : Tile) (sl : VSlot) (gu : Guard) (ty : BitVec 4) (rnd : BitVec 3) (d va vb vc : BitVec 11),
    Ready s p t gu [codeV t va, codeV t vb, codeV t vc] →
    let w := tyWidth ty.toNat
    let a := intElem t ty va
    let b := intElem t ty vb
    let c := intElem t ty vc
    let lo : Int := if ty.toNat % 2 = 0 then -(2 ^ (w - 1) : Nat) else 0
    let hi : Int := if ty.toNat % 2 = 0 then (2 ^ (w - 1) : Nat) - 1 else (2 ^ w : Nat) - 1
    let sat := fun (x : Int) => if x < lo then lo else if hi < x then hi else x
    let goes := fun (i : Instr) (lat : Nat) (f : Nat → Int) =>
      GivesVector i s p t sl d lat 0 (fun x => ElemsAre w x (fun k => wrapN w (f k)))
    goes (.vadd sl gu ty rnd d va vb) 1 (fun k => a k + b k) ∧
    goes (.vsub sl gu ty rnd d va vb) 1 (fun k => a k - b k) ∧
    goes (.vmul sl gu ty rnd d va vb) 3 (fun k => a k * b k) ∧
    goes (.vmulh sl gu ty rnd d va vb) 3 (fun k => a k * b k / (2 ^ w : Nat)) ∧
    goes (.vmac sl gu ty rnd d va vb vc) 3 (fun k => a k * b k + c k) ∧
    goes (.vmin sl gu ty rnd d va vb) 1 (fun k => if a k ≤ b k then a k else b k) ∧
    goes (.vmax sl gu ty rnd d va vb) 1 (fun k => if a k ≤ b k then b k else a k) ∧
    goes (.vabs sl gu ty rnd d va) 1 (fun k => if a k < 0 then -a k else a k) ∧
    goes (.vneg sl gu ty rnd d va) 1 (fun k => -a k) ∧
    goes (.vadds sl gu ty rnd d va vb) 1 (fun k => sat (a k + b k)) ∧
    goes (.vsubs sl gu ty rnd d va vb) 1 (fun k => sat (a k - b k))

/-- R135 to R137: shifts by an immediate on each element, and bitwise logic on all 128 bits; VCMP sets the
byte lanes of an element by its relation; VSEL takes each byte by its lane, and its word is given. -/
def Obligations.VectorBitsAndSelection : Prop :=
  (∀ (s : State) (p : Part) (t : Tile) (sl : VSlot) (gu : Guard) (ty : BitVec 4) (rnd : BitVec 3) (d va vb n : BitVec 11),
      Ready s p t gu [codeV t va, codeV t vb] →
      let w := tyWidth ty.toNat
      let a := bitElem t ty va
      let elw := fun (i : Instr) (f : Nat → Nat) => GivesVector i s p t sl d 1 0 (fun x => ElemsAre w x f)
      let whole := fun (i : Instr) (y : Line) => GivesVector i s p t sl d 1 0 (fun x => x = y)
      elw (.vshl sl gu ty rnd d va n) (fun k => a k * 2 ^ n.toNat % 2 ^ w) ∧
      elw (.vshr sl gu ty rnd d va n) (fun k => a k / 2 ^ n.toNat) ∧
      elw (.vsar sl gu ty rnd d va n) (fun k => wrapN w (sgn w (a k) / (2 ^ n.toNat : Nat))) ∧
      whole (.vand sl gu ty rnd d va vb) (vop t va &&& vop t vb) ∧
      whole (.vor sl gu ty rnd d va vb) (vop t va ||| vop t vb) ∧
      whole (.vxor sl gu ty rnd d va vb) (vop t va ^^^ vop t vb) ∧
      whole (.vnot sl gu ty rnd d va) (~~~(vop t va))) ∧
  (∀ (s : State) (p : Part) (t : Tile) (sl : VSlot) (gu : Guard) (ty : BitVec 4) (rnd md m : BitVec 3) (d va vb : BitVec 11)
      (cc : BitVec 4),
      Ready s p t gu [codeV t va, codeV t vb, codeM m.toNat] →
      let a := intElem t ty va
      let b := intElem t ty vb
      GivesMask (.vcmp sl gu ty rnd md va vb cc) s p t sl md 1 (tyWidth ty.toNat) 0 (fun k =>
        [decide (a k = b k), decide (a k ≠ b k), decide (a k < b k), decide (a k ≤ b k), decide (b k < a k), decide (b k ≤ a k)].getD
          cc.toNat false) ∧
      GivesVector (.vsel sl gu ty rnd d va vb m) s p t sl d 1 0 (fun x =>
        ElemsAre 8 x (fun j => if (rm t m.toNat).getLsbD j then elem 8 (vop t va) j else elem 8 (vop t vb) j)) ∧
      encode (.vsel sl gu ty rnd d va vb m) = some (vslot sl, 0x14 * 2 ^ 57 + guardNat gu * 2 ^ 51 + ty.toNat * 2 ^ 47 + rnd.toNat * 2 ^ 44 +
        d.toNat * 2 ^ 33 + va.toNat * 2 ^ 22 + vb.toNat * 2 ^ 11 + m.toNat))

/-- R138 to R145: broadcasts, extraction, insertion, shuffles, rotation, interleaving, partition, counts,
moves and immediates; the words of VSHUF and VCNT.
It rests also on the model's choice of log entry 74. -/
def Obligations.VectorLaneMoves : Prop :=
  ∀ (s : State) (p : Part) (t : Tile) (sl : VSlot) (gu : Guard) (ty : BitVec 4) (rnd m : BitVec 3) (d va vb vc n : BitVec 11)
    (ga gd lane : BitVec 5) (h : Bool) (imm : BitVec 22),
    Ready s p t gu [codeV t va, codeV t vb, codeV t vc, codeV t d, codeG ga.toNat, codeM m.toNat] →
    let w := tyWidth ty.toNat
    let ne := 128 / w
    let a := bitElem t ty va
    let b := bitElem t ty vb
    let g := (rg t ga.toNat).toNat
    let hh := if h then 1 else 0
    let goes := fun (i : Instr) (lat : Nat) (f : Nat → Nat) => GivesVector i s p t sl d lat 0 (fun x => ElemsAre w x f)
    let on := fun (k : Nat) => (rm t m.toNat).getLsbD (w / 8 * k)
    let order := (List.range ne).filter on ++ (List.range ne).filter (fun k => !on k)
    goes (.vbcastScalar sl gu ty rnd d ga) 2 (fun _ => g % 2 ^ w) ∧
    goes (.vbcastVector sl gu ty rnd d va lane) 2 (fun _ => a lane.toNat) ∧
    Gives (.vext sl gu ty rnd gd va lane) s t (landingOf s p (vslot sl) 2
      (.g gd.toNat (if ty.toNat < 8 then BitVec.ofInt 32 (intElem t ty va lane.toNat) else BitVec.ofNat 32 (a lane.toNat))) 0) ∧
    goes (.vins sl gu ty rnd d ga lane) 2 (fun k => if k = lane.toNat then g % 2 ^ w else bitElem t ty d k) ∧
    GivesVector (.vshuf sl gu ty rnd d va vb vc) s p t sl d 2 0 (fun x => ElemsAre 8 x (fun j =>
      let c := elem 8 (vop t vc) j
      if 128 ≤ c then 0 else if c % 32 < 16 then elem 8 (vop t va) (c % 32) else elem 8 (vop t vb) (c % 32 - 16))) ∧
    goes (.vrot sl gu ty rnd d va n) 2 (fun k => a ((k + n.toNat) % ne)) ∧
    goes (.vzip sl gu ty rnd d va vb h) 2 (fun k => if k % 2 = 0 then a (hh * ne / 2 + k / 2) else b (hh * ne / 2 + k / 2)) ∧
    goes (.vunzip sl gu ty rnd d va vb h) 2 (fun k => if 2 * k + hh < ne then a (2 * k + hh) else b (2 * k + hh - ne)) ∧
    goes (.vpart sl gu ty rnd d va m) 4 (fun k => a (order.getD k 0)) ∧
    goes (.vcnt sl gu ty rnd d va) 2 (fun _ => ((List.range ne).filter (fun k => a k != 0)).length % 2 ^ w) ∧
    GivesVector (.vmov sl gu ty rnd d va) s p t sl d 1 0 (fun x => x = vop t va) ∧
    goes (.vli sl gu ty rnd d imm) 1 (fun _ =>
      (if ty = 6 ∨ ty = 7 then (imm.signExtend 32).toNat else if ty = 12 then imm.toNat * 2 ^ 10 else imm.toNat) % 2 ^ w) ∧
    (
      let top := guardNat gu * 2 ^ 51 + ty.toNat * 2 ^ 47 + rnd.toNat * 2 ^ 44 + d.toNat * 2 ^ 33 + va.toNat * 2 ^ 22
      encode (.vshuf sl gu ty rnd d va vb vc) = some (vslot sl, 0x23 * 2 ^ 57 + top + vb.toNat * 2 ^ 11 + vc.toNat) ∧
      encode (.vcnt sl gu ty rnd d va) = some (vslot sl, 0x28 * 2 ^ 57 + top))

/-- R38 to R50, R131, R146: sums, differences, products and fused forms are the exact result rounded once
in the instruction's mode, element by element in ascending order of the draws. What that means is said without the
model's own arithmetic: the value of every encoding, and the rounding of the exact sum, product and fused sum of two
or three numbers; and what NaNs and infinities give.
It rests also on the model's choice of log entry 75. -/
def Obligations.VectorFloatArithmetic : Prop :=
  (∀ (s : State) (p : Part) (t : Tile) (sl : VSlot) (gu : Guard) (ty : BitVec 4) (rnd : BitVec 3) (d va vb vc : BitVec 11),
    Ready s p t gu [codeV t va, codeV t vb, codeV t vc] → msorted t.lfsr = true →
    let w := tyWidth ty.toNat
    let f := (tyIs ty).fmt
    let md := rndOf t rnd.toNat
    let a := fpElem t ty va
    let b := fpElem t ty vb
    let c := fpElem t ty vc
    let goes := fun (i : Instr) (lat : Nat) (g : Nat → Nat → Nat × Flags) => Rounds i s p t sl d lat md w (128 / w) g
    goes (.vfadd sl gu ty rnd d va vb) 3 (fun x e => fAddV f md x (a e) (b e)) ∧
    goes (.vfsub sl gu ty rnd d va vb) 3 (fun x e => fAddV f md x (a e) (b e).negate) ∧
    goes (.vfmul sl gu ty rnd d va vb) 3 (fun x e => fMulV f md x (a e) (b e)) ∧
    goes (.vfma sl gu ty rnd d va vb vc) 4 (fun x e => fFmaV f md x false false (a e) (b e) (c e)) ∧
    goes (.vfms sl gu ty rnd d va vb vc) 4 (fun x e => fFmaV f md x false true (a e) (b e) (c e)) ∧
    goes (.vfnma sl gu ty rnd d va vb vc) 4 (fun x e => fFmaV f md x true false (a e) (b e) (c e))) ∧
  ([Ty.f32, .f16, .bf16, .e5, .e4].map (fun y => (y.fmt.eb, y.fmt.mb, y.fmt.bias, nanOf y.fmt)) =
    [(8, 23, 127, 0x7FC00000), (5, 10, 15, 0x7E00), (8, 7, 127, 0x7FC0), (5, 2, 15, 0x7E), (4, 3, 7, 0x7F)]) ∧
  (∀ (y : Ty) (md : Rnd) (lf xa xb xc : Nat) (np nc : Bool), y.isInt = false → lf < 2 ^ 32 →
    xa < 2 ^ y.width → xb < 2 ^ y.width → xc < 2 ^ y.width →
    let f := y.fmt
    let a := fdecode f xa
    let b := fdecode f xb
    let c := fdecode f xc
    let flip := fun (n : Bool) (v : FVal) => if n then v.negate else v
    let pr := flip np (prodOf a b)
    let invalid : Nat × Flags := (nanOf f, fInvalid)
    let inf := fun (s : Bool) => (infOf f + signOf f s, (0 : Flags))
    DecodesAs f xa a ∧ (a.negate.isNum = a.isNum ∧ (a.isNum = true → a.negate.sign = !a.sign ∧ a.negate.num = (-a.num.1, a.num.2))) ∧
    (a.isNum = true → b.isNum = true →
      RoundsNum f md lf (sumOf [a.num, b.num]) (zeroSumNeg md [a, b]) (fAddV f md lf a b) ∧
      RoundsNum f md lf (prodOf a b).num (a.sign != b.sign) (fMulV f md lf a b) ∧
      (c.isNum = true → RoundsNum f md lf (sumOf [pr.num, (flip nc c).num]) (zeroSumNeg md [pr, flip nc c]) (fFmaV f md lf np nc a b c))) ∧
    (a.isNan = true ∨ b.isNan = true → fAddV f md lf a b = nanResult f [a, b] ∧ fMulV f md lf a b = nanResult f [a, b]) ∧
    (∀ s, a = .inf s →
      (b.isNum = true ∨ b = .inf s → fAddV f md lf a b = inf s ∧ fAddV f md lf b a = inf s) ∧
      (b = .inf (!s) → fAddV f md lf a b = invalid) ∧
      (b.isNan = false → b.num.1 ≠ 0 ∨ b.isNum = false →
        fMulV f md lf a b = inf (s != b.sign) ∧ fMulV f md lf b a = inf (s != b.sign)) ∧
      (b.isNum = true → b.num.1 = 0 → fMulV f md lf a b = invalid ∧ fMulV f md lf b a = invalid ∧
        fFmaV f md lf np nc a b c = invalid ∧ fFmaV f md lf np nc b a c = invalid))) ∧
  (∀ (y : Ty) (md : Rnd) (lf xa xb xc : Nat) (np nc : Bool), y.isInt = false →
    let f := y.fmt
    let a := fdecode f xa
    let b := fdecode f xb
    let c := fdecode f xc
    let goes := ∀ z, (a = .inf z → b.isNum = true → b.num.1 ≠ 0) ∧ (b = .inf z → a.isNum = true → a.num.1 ≠ 0)
    let s := (a.sign != b.sign) != np
    (goes → a.isNan = true ∨ b.isNan = true ∨ c.isNan = true → fFmaV f md lf np nc a b c = nanResult f [a, b, c]) ∧
    (a.isNum = true → b.isNum = true → ∀ z, c = .inf z → fFmaV f md lf np nc a b c = (infOf f + signOf f (z != nc), 0)) ∧
    (goes → a.isNan = false → b.isNan = false → c.isNan = false → a.isNum = false ∨ b.isNum = false →
      (c.isNum = true ∨ (c.sign != nc) = s → fFmaV f md lf np nc a b c = (infOf f + signOf f s, 0)) ∧
      (c.isNum = false → (c.sign != nc) ≠ s → fFmaV f md lf np nc a b c = (nanOf f, fInvalid))))

/-- R51 to R55, R149, R151 to R154: quotients, roots, reciprocals, scaling, conversion, the exact sum of all
elements, and means over counts. What each element is is said without the model's own arithmetic: the exact quotient,
root, reciprocal, multiple or sum is rounded once; conversions to integers saturate; and the special operands.
It rests also on the model's choice of log entry 75. -/
def Obligations.VectorFloatQuotientsAndConversions : Prop :=
  (∀ (s : State) (p : Part) (t : Tile) (sl : VSlot) (gu : Guard) (ty st : BitVec 4) (rnd : BitVec 3) (d va vb : BitVec 11),
    Ready s p t gu [codeV t va, codeV t vb] → msorted t.lfsr = true →
    let w := tyWidth ty.toNat
    let f := (tyIs ty).fmt
    let md := rndOf t rnd.toNat
    let mc := if st.toNat < 8 ∧ ty.toNat < 8 then Rnd.rne else md
    let a := fpElem t ty va
    let b := fpElem t ty vb
    let goes := fun (i : Instr) (lat : Nat) (g : Nat → Nat → Nat × Flags) => Rounds i s p t sl d lat md w (128 / w) g
    goes (.vfdiv sl gu ty rnd d va vb) 14 (fun x e => fDivV f md x (a e) (b e)) ∧
    goes (.vfsqrt sl gu ty rnd d va) 14 (fun x e => fSqrtV f md x (a e)) ∧
    goes (.vfrsq sl gu ty rnd d va) 7 (fun x e => fRsqV f md x (a e)) ∧
    goes (.vfrcp sl gu ty rnd d va) 7 (fun x e => fRcpV f md x (a e)) ∧
    goes (.vfscl sl gu ty rnd d va vb) 3 (fun x e => fScale f md x (bitElem t ty va e) (clampExp (sgn w (bitElem t ty vb e)))) ∧
    goes (.vmeanm sl gu ty rnd d va vb) 14 (fun x e => meanV f md x (bitElem t ty va e) (popcount w (bitElem t ty vb e))) ∧
    Rounds (.vcvt sl gu ty rnd d va st) s p t sl d 3 mc w (128 / max (tyWidth st.toNat) w)
      (fun x e => cvt (tyIs st) (tyIs ty) mc x (bitElem t st va e)) ∧
    Rounds (.vhsum sl gu ty rnd d va) s p t sl d 3 md 128 1
      (fun x _ => hsum f md x ((List.range (128 / w)).map (bitElem t ty va)))) ∧
  (∀ (y : Ty) (md : Rnd) (lf xa xb c : Nat) (n : Int), y.isInt = false → lf < 2 ^ 32 → xa < 2 ^ y.width → xb < 2 ^ y.width →
    let f := y.fmt
    let a := fdecode f xa
    let b := fdecode f xb
    let m := a.num.1.natAbs
    let e := a.num.2
    let z := a.sign != b.sign
    let by_ := fun (le lt : Nat → Int → Prop) (neg : Bool) (r : Nat × Flags) => RoundsTo f md lf neg le lt r
    let inf := fun (s : Bool) (g : Flags) => (infOf f + signOf f s, g)
    let infE := fun (s : Bool) (g : Flags) => if f.isE4 then (nanOf f, g) else inf s g
    let zero := fun (s : Bool) (g : Flags) => (signOf f s, g)
    let bad := fun (g : Flags) => (nanOf f, g)
    (a.isNum = true → m ≠ 0 →
      (b.isNum = true → b.num.1 ≠ 0 → by_ (fun u k => dyLe (u * b.num.1.natAbs) (k + b.num.2) m e)
        (fun u k => dyLt (u * b.num.1.natAbs) (k + b.num.2) m e) z (fDivV f md lf a b)) ∧
      (a.sign = false → by_ (fun u k => dyLe (u * u) (2 * k) m e) (fun u k => dyLt (u * u) (2 * k) m e) false (fSqrtV f md lf a)) ∧
      (a.sign = false → by_ (fun u k => dyLe (u * u * m) (2 * k + e) 1 0) (fun u k => dyLt (u * u * m) (2 * k + e) 1 0) false
        (fRsqV f md lf a)) ∧
      by_ (fun u k => dyLe (u * m) (k + e) 1 0) (fun u k => dyLt (u * m) (k + e) 1 0) a.sign (fRcpV f md lf a) ∧
      by_ (fun u k => dyLe u k m (e + n)) (fun u k => dyLt u k m (e + n)) a.sign (fScale f md lf xa (clampExp n)) ∧
      (0 < c → c ≤ 32 → by_ (fun u k => dyLe (u * c) k m e) (fun u k => dyLt (u * c) k m e) a.sign (meanV f md lf xa c)) ∧
      (a.sign = true → fSqrtV f md lf a = bad (fNpv ||| fInvalid) ∧ fRsqV f md lf a = bad (fNpv ||| fInvalid)) ∧
      (b.isNum = true → b.num.1 = 0 → fDivV f md lf a b = infE z fDivZero)) ∧
    (a.isNum = true → m = 0 →
      (b.isNum = true → b.num.1 = 0 → fDivV f md lf a b = bad fInvalid) ∧
      (b.isNan = false → b.num.1 ≠ 0 ∨ b.isNum = false → fDivV f md lf a b = zero z 0) ∧
      fSqrtV f md lf a = zero a.sign fNpv ∧ fRsqV f md lf a = infE a.sign (fNpv ||| fDivZero) ∧ fRcpV f md lf a = infE a.sign fDivZero ∧
      fScale f md lf xa (clampExp n) = zero a.sign 0 ∧ (0 < c → meanV f md lf xa c = zero a.sign 0)) ∧
    (∀ s, a = .inf s →
      (b.isNum = true → fDivV f md lf a b = inf z 0 ∧ (b.num.1 ≠ 0 → fDivV f md lf b a = zero z 0)) ∧
      (b.isNum = false → b.isNan = false → fDivV f md lf a b = bad fInvalid) ∧
      (s = false → fSqrtV f md lf a = inf false 0 ∧ fRsqV f md lf a = zero false 0) ∧
      (s = true → fSqrtV f md lf a = bad (fNpv ||| fInvalid) ∧ fRsqV f md lf a = bad (fNpv ||| fInvalid)) ∧
      fRcpV f md lf a = zero s 0 ∧ fScale f md lf xa (clampExp n) = inf s 0) ∧
    (a.isNan = true ∨ b.isNan = true → fDivV f md lf a b = nanResult f [a, b]) ∧
    (∀ g, a = .nan g → fSqrtV f md lf a = (nanOf f, fNpv ||| (nanResult f [a]).2) ∧ fRsqV f md lf a = (nanOf f, fNpv ||| (nanResult f [a]).2) ∧
      fRcpV f md lf a = nanResult f [a] ∧ fScale f md lf xa (clampExp n) = nanResult f [a] ∧ meanV f md lf xa c = nanResult f [a]) ∧
    (a.isNan = false → meanV f md lf xa 0 = bad fInvalid)) ∧
  (∀ (src dst : Ty) (md : Rnd) (lf x : Nat), lf < 2 ^ 32 → x < 2 ^ src.width →
    let a := fdecode src.fmt x
    let r := cvt src dst md lf x
    let i : Int := if src.signed ∧ 2 ^ (src.width - 1) ≤ x then (x : Int) - (2 ^ src.width : Nat) else x
    let lo : Int := if dst.signed then -(2 ^ (dst.width - 1) : Nat) else 0
    let hi : Int := if dst.signed then (2 ^ (dst.width - 1) : Nat) - 1 else (2 ^ dst.width : Nat) - 1
    let bits := fun (v : Int) => (v % (2 ^ dst.width : Nat)).toNat
    (src.isInt = false → dst.isInt = false →
      (a.isNum = true → RoundsNum dst.fmt md lf a.num a.sign r) ∧
      (a.isNan = true → r = nanResult dst.fmt [a]) ∧
      (∀ s, a = .inf s → r = if dst.fmt.isE4 then (0x7F, fInvalid) else (infOf dst.fmt + signOf dst.fmt s, 0))) ∧
    (src.isInt = false → dst.isInt = true →
      (a.isNum = true → ∃ q, RoundsUnits md a.sign lf (fun u k => dyLe u k a.num.1.natAbs a.num.2)
          (fun u k => dyLt u k a.num.1.natAbs a.num.2) 0 q ∧
        let v : Int := if a.sign then -(q : Int) else q
        (v < lo → r = (bits lo, fInvalid)) ∧ (hi < v → r = (bits hi, fInvalid)) ∧
        (lo ≤ v → v ≤ hi → r.1 = bits v ∧
          (dyLe q 0 a.num.1.natAbs a.num.2 → ¬ dyLt q 0 a.num.1.natAbs a.num.2 → r.2 = 0) ∧
          (¬ dyLe q 0 a.num.1.natAbs a.num.2 ∨ dyLt q 0 a.num.1.natAbs a.num.2 → r.2 = fInexact))) ∧
      (a.isNan = true → r = (0, fInvalid)) ∧
      (∀ s, a = .inf s → r = (bits (if s then lo else hi), fInvalid))) ∧
    (src.isInt = true → dst.isInt = false → RoundsNum dst.fmt md lf (i, 0) false r) ∧
    (src.isInt = true → dst.isInt = true → r = (bits (if i < lo then lo else if hi < i then hi else i), 0))) ∧
  (∀ (y : Ty) (md : Rnd) (lf : Nat) (xs : List Nat), y.isInt = false → lf < 2 ^ 32 → xs ≠ [] → (∀ x ∈ xs, x < 2 ^ y.width) →
    let vs := xs.map (fdecode y.fmt)
    let r := hsum y.fmt md lf xs
    ((∀ v ∈ vs, v.isNum = true) → RoundsNum y.fmt md lf (sumOf (vs.map FVal.num)) (zeroSumNeg md vs) r) ∧
    ((∀ v ∈ vs, v.isNan = false) → ∀ s, .inf s ∈ vs →
      r = if .inf (!s) ∈ vs then (nanOf y.fmt, fInvalid) else (infOf y.fmt + signOf y.fmt s, 0)) ∧
    ((∃ v ∈ vs, v.isNan = true) → r.1 = nanOf y.fmt ∧ ((∀ s, .inf s ∉ vs) → r = nanResult y.fmt vs)))

/-- R40, R42, R147, R148, R150: the floating-point instructions that do not round; the order of values, the
lesser and the greater, the sign operations and the class codes are said by the values of the encodings. -/
def Obligations.VectorFloatExact : Prop :=
  (∀ (s : State) (p : Part) (t : Tile) (sl : VSlot) (gu : Guard) (ty cc : BitVec 4) (rnd m : BitVec 3) (d va vb : BitVec 11),
    Ready s p t gu [codeV t va, codeV t vb] →
    let w := tyWidth ty.toNat
    let f := (tyIs ty).fmt
    let a := bitElem t ty va
    let b := bitElem t ty vb
    let all := fun (g : Nat → Flags) => joinFlags ((List.range (128 / w)).map g)
    let goes := fun (i : Instr) (lat : Nat) (g : Nat → Nat × Flags) =>
      GivesVector i s p t sl d lat (all (fun e => (g e).2)) (fun x => ElemsAre w x (fun e => (g e).1 % 2 ^ w))
    goes (.vfmin sl gu ty rnd d va vb) 3 (fun e => fMinMax f false (a e) (b e)) ∧
    goes (.vfmax sl gu ty rnd d va vb) 3 (fun e => fMinMax f true (a e) (b e)) ∧
    goes (.vfabs sl gu ty rnd d va) 1 (fun e => signOp f false (a e)) ∧
    goes (.vfneg sl gu ty rnd d va) 1 (fun e => signOp f true (a e)) ∧
    goes (.vfclass sl gu ty rnd d va) 1 (fun e => (fClass f (a e), 0)) ∧
    GivesMask (.vfcmp sl gu ty rnd m va vb cc) s p t sl m 3 w (all (fun e => (fRel f (a e) (b e)).2))
      (fun e => fpRel cc.toNat (fRel f (a e) (b e)).1)) ∧
  (∀ (y : Ty) (x z : Nat), y.isInt = false → x < 2 ^ y.width → z < 2 ^ y.width →
    let f := y.fmt
    let a := fdecode f x
    let b := fdecode f z
    let top := 2 ^ (f.mb + f.eb)
    let pick := fun (lo : Nat) (hi : Nat) => fMinMax f false x z = (lo, 0) ∧ fMinMax f true x z = (hi, 0)
    let normal := x / 2 ^ f.mb % 2 ^ f.eb ≠ 0
    (a.isNan = true ∨ b.isNan = true → fRel f x z = (none, (nanResult f [a, b]).2) ∧
      fMinMax f false x z = nanResult f [a, b] ∧ fMinMax f true x z = nanResult f [a, b]) ∧
    (a.isNan = false → b.isNan = false →
      (∃ c, fRel f x z = (some c, 0) ∧ (c < 0 ↔ valLt a b) ∧ (0 < c ↔ valLt b a)) ∧
      (valLt a b → pick x z) ∧ (valLt b a → pick z x) ∧
      (¬ valLt a b → ¬ valLt b a → (a.sign = true → b.sign = false → pick x z) ∧ (b.sign = true → a.sign = false → pick z x) ∧
        (a.sign = b.sign → pick x x))) ∧
    (a.isNan = false → signOp f false x = (x % top, 0) ∧ signOp f true x = ((x + top) % (2 * top), 0)) ∧
    (a.isNan = true → signOp f false x = nanResult f [a] ∧ signOp f true x = nanResult f [a]) ∧
    fClass f x = (match a with
      | .nan g => if g then 8 else 9
      | .inf g => if g then 0 else 7
      | .zero g => if g then 3 else 4
      | .fin g _ _ => if normal then (if g then 1 else 6) else (if g then 2 else 5))) ∧
  (∀ c : Int, (List.range 7).map (fun k => fpRel k (some c)) =
      [decide (c = 0), decide (c ≠ 0), decide (c < 0), decide (c ≤ 0), decide (0 < c), decide (0 ≤ c), false] ∧
    (List.range 7).map (fun k => fpRel k none) = [false, true, false, false, false, false, true])

/-- R64 to R68, R155 to R157: binned records, with the fields of a record, the parts that an addend adds to its
bins, the merge and the conversion; the word of VBINI. -/
def Obligations.BinnedRecordResults : Prop :=
  (∀ (s : State) (p : Part) (t : Tile) (sl : VSlot) (gu : Guard) (ty : BitVec 4) (rnd : BitVec 3) (d va vb : BitVec 11)
    (anchor : BitVec 8),
    Ready s p t gu [codeV t va, codeV t vb] →
    let w := tyWidth ty.toNat
    let a := binOf (vop t va).toNat
    let conv := binConvert (tyIs ty).fmt a
    let goes := fun (i : Instr) (lat : Nat) (f : Flags) (y : Nat) => GivesVector i s p t sl d lat f (fun x => x = BitVec.ofNat 128 y)
    goes (.vbini sl gu ty rnd d anchor) 1 0 (anchor.toNat * 2 ^ 120) ∧
    goes (.vbinaddValue sl gu ty rnd d va vb) 3 0
      (binBits ((List.range (128 / w)).foldl (fun r e => binAdd r (fpElem t ty vb e)) a)) ∧
    goes (.vbinaddMerge sl gu ty rnd d va vb) 3 0 (binBits (binMerge a (binOf (vop t vb).toNat))) ∧
    goes (.vbincvt sl gu ty rnd d va) 3 conv.2 conv.1 ∧
    encode (.vbini sl gu ty rnd d anchor) = some (vslot sl, 0x60 * 2 ^ 57 + guardNat gu * 2 ^ 51 + ty.toNat * 2 ^ 47 + rnd.toNat * 2 ^ 44 +
      d.toNat * 2 ^ 33 + anchor.toNat)) ∧
  (∀ x : Nat, x < 2 ^ 128 →
    let bits : Nat → Nat := fun lo => x / 2 ^ lo % 2 ^ 36
    let bin := fun (lo : Nat) => if bits lo < 2 ^ 35 then (bits lo : Int) else (bits lo : Int) - 2 ^ 36
    let b := binOf x
    b = { anchor := x / 2 ^ 120, nan := x.testBit 119, pinf := x.testBit 118, ninf := x.testBit 117,
          ovf := x.testBit 116 || decide (x / 2 ^ 112 % 16 ≠ 0), b0 := bin 72, b1 := bin 36, b2 := bin 0 } ∧
    binOf (binBits b) = b ∧ binBits b / 2 ^ 108 % 256 = 0) ∧
  (∀ (b c : BinRec) (y : Ty) (x : Nat), y.isInt = false → x < 2 ^ y.width →
    let v := fdecode y.fmt x
    let u := binAdd b v
    let big := dyLe 1 ((b.anchor : Int) - 127) v.num.1.natAbs v.num.2
    let m := binMerge b c
    (v.isNan = true → u = { b with nan := true }) ∧
    (v = .inf false → u = { b with pinf := true }) ∧ (v = .inf true → u = { b with ninf := true }) ∧
    (v.isNum = true → v.num.1 = 0 → u = b) ∧
    (v.isNum = true → v.num.1 ≠ 0 → big → u = { b with ovf := true }) ∧
    (v.isNum = true → v.num.1 ≠ 0 → ¬ big → ∃ n o0 o1 o2,
      dyLe n ((b.anchor : Int) - 187) v.num.1.natAbs v.num.2 ∧ ¬ dyLe (n + 1) ((b.anchor : Int) - 187) v.num.1.natAbs v.num.2 ∧
      let bits : Nat → Nat := fun k => n / 2 ^ (20 * (2 - k)) % 2 ^ 20
      let part := fun (k : Nat) => if v.sign then -(bits k : Int) else (bits k : Int)
      BinTakes b.b0 (part 0) u.b0 o0 ∧ BinTakes b.b1 (part 1) u.b1 o1 ∧ BinTakes b.b2 (part 2) u.b2 o2 ∧
      u = { b with ovf := b.ovf || o0 || o1 || o2, b0 := u.b0, b1 := u.b1, b2 := u.b2 }) ∧
    (b.anchor ≠ c.anchor → m =
      { b with ovf := true, nan := b.nan || c.nan, pinf := b.pinf || c.pinf, ninf := b.ninf || c.ninf }) ∧
    (b.anchor = c.anchor → ∃ o0 o1 o2, BinTakes b.b0 c.b0 m.b0 o0 ∧ BinTakes b.b1 c.b1 m.b1 o1 ∧ BinTakes b.b2 c.b2 m.b2 o2 ∧
      m = { anchor := b.anchor, nan := b.nan || c.nan, pinf := b.pinf || c.pinf, ninf := b.ninf || c.ninf,
            ovf := b.ovf || c.ovf || o0 || o1 || o2, b0 := m.b0, b1 := m.b1, b2 := m.b2 }) ∧
    (let r := binConvert y.fmt b
      let lost := b.nan = true ∨ b.pinf = true ∧ b.ninf = true ∨ b.ovf = true
      (lost → r = (nanOf y.fmt, if b.nan then 0 else fInvalid)) ∧
      (y.fmt.isE4 = false → ¬ lost → b.pinf = true → r = (infOf y.fmt, 0)) ∧
      (y.fmt.isE4 = false → ¬ lost → b.ninf = true → r = (infOf y.fmt + signOf y.fmt true, 0)) ∧
      (¬ lost → b.pinf = false → b.ninf = false →
        RoundsNum y.fmt .rne 0 (b.b0 * 2 ^ 40 + b.b1 * 2 ^ 20 + b.b2, (b.anchor : Int) - 187) false r)))

/-- R69: within 32,768 addends a binned record does not depend on the order of its addends, nor on how they
are grouped into merges. -/
def Obligations.BinnedSumsAreOrderFree : Prop :=
  ∀ (anchor : Nat) (vs ws : List FVal), vs.length + ws.length ≤ 32768 →
    let sum := fun (l : List FVal) => l.foldl binAdd (binNew anchor)
    (vs.Perm ws → sum vs = sum ws) ∧ binMerge (sum vs) (sum ws) = sum (vs ++ ws)

/-! ## The LD and ST slots -/

/-- R161, R162: loads. The bytes are those a reader sees at issue, at addresses formed modulo 2^18 with the
low bits cleared; the result lands at t + 3. -/
def Obligations.LoadResults : Prop :=
  ∀ (s : State) (p : Part) (t : Tile) (gu : Guard) (d vi : BitVec 11) (gb gs gd : BitVec 5) (off : BitVec 18) (esz : BitVec 2)
    (qd : BitVec 4) (md : BitVec 3),
    Ready s p t gu [codeG gb.toNat, codeG gs.toNat, codeV t vi] →
    let n := 2 ^ esz.toNat
    let at_ := fun (more : Int) (bits : Nat) => effAddr (rg t gb.toNat) off.toInt more bits
    let strided := fun (k : Nat) => at_ (k * (rg t gs.toNat).toInt) esz.toNat
    let gathered := fun (k : Nat) => at_ (sgn 32 (elem 32 (vop t vi) k)) 2
    let reads := fun (as : List Nat) (b : Nat) => Clear t .ld as (as.map (fun a => (a, b))) ∧ ∀ a ∈ as, a < sramEnd
    (reads [at_ 0 4] 16 →
      LoadsLine (.ldv gu d gb off) s p t d (fun x => ∀ j, j < 16 → elem 8 x j = readByte t (at_ 0 4 + j))) ∧
    (reads ((List.range (16 / n)).map strided) n →
      LoadsLine (.ldvsStrided gu d gb off gs esz) s p t d (fun x =>
        ∀ k j, k < 16 / n → j < n → elem 8 x (k * n + j) = readByte t (strided k + j))) ∧
    (reads ((List.range 4).map gathered) 4 →
      LoadsLine (.ldvsGathered gu d gb off vi) s p t d (fun x =>
        ∀ k j, k < 4 → j < 4 → elem 8 x (4 * k + j) = readByte t (gathered k + j))) ∧
    (reads [at_ 0 2] 4 →
      Lands (.ldg gu gd gb off) s t [landingOf s p .ld 3 (.g gd.toNat (BitVec.ofNat 32 (readN t (at_ 0 2) 4))) 0]) ∧
    (reads [at_ 0 esz.toNat] n →
      LoadsLine (.ldb gu d gb off esz) s p t d (fun x =>
        ∀ k j, k < 16 / n → j < n → elem 8 x (k * n + j) = readByte t (at_ 0 esz.toNat + j))) ∧
    (reads [at_ 0 0] 1 →
      Lands (.ldq gu qd gb off) s t [landingOf s p .ld 3 (.q qd.toNat (decide (readByte t (at_ 0 0) % 2 = 1))) 0]) ∧
    (reads [at_ 0 1] 2 →
      Lands (.ldm gu md gb off) s t [landingOf s p .ld 3 (.m md.toNat (BitVec.ofNat 16 (readN t (at_ 0 1) 2))) 0])

/-- R161, R164: stores. Each byte that the instruction stores takes its value at issue, and every other byte
of memory stays; no register changes. Of two elements that store one byte, that of the higher index
prevails. -/
def Obligations.StoreResults : Prop :=
  ∀ (s : State) (p : Part) (t : Tile) (gu : Guard) (vs vi : BitVec 11) (gb gs : BitVec 5) (off : BitVec 18) (qs : BitVec 4)
    (m : BitVec 3),
    Ready s p t gu [codeV t vs, codeV t vi, codeG gb.toNat, codeG gs.toNat, codeQ qs.toNat, codeM m.toNat] →
    t.watches = [] → memWf t.sram = true →
    let at_ := fun (o more : Int) (bits : Nat) => effAddr (rg t gb.toNat) o more bits
    let el := fun (k : Nat) => at_ 0 (sgn 32 (elem 32 (vop t vi) k)) 2
    let byte := fun (k : Nat) => (vop t vs).extractLsb' (8 * k) 8
    let on := fun (k : Nat) => (rm t m.toNat).getLsbD k
    let inside := fun (a lo n : Nat) => decide (lo ≤ a ∧ a < lo + n)
    let scatter := fun (take : Nat → Bool) (a : Nat) =>
      ([3, 2, 1, 0].find? (fun k => inside a (el k) 4 && take (4 * k + (a - el k)))).map (fun k => byte (4 * k + (a - el k)))
    let line := fun (take : Nat → Bool) (a : Nat) =>
      if inside a (at_ off.toInt 0 4) 16 && take (a - at_ off.toInt 0 4) then some (byte (a - at_ off.toInt 0 4)) else none
    let free := fun (as : List Nat) => Clear t .st (as.map lineOfAddr) [] ∧ ∀ a ∈ as, a < sramEnd
    (free [at_ off.toInt 0 4] → Stores (.stvOffset gu vs gb off) s t (line (fun _ => true))) ∧
    (free [at_ off.toInt 0 4] → Stores (.stvmOffset gu vs gb off m) s t (line on)) ∧
    (free ((List.range 4).map el) → Stores (.stvScatter gu vs gb vi) s t (scatter (fun _ => true))) ∧
    (free ((List.range 4).map el) → Stores (.stvmScatter gu vs gb vi m) s t (scatter on)) ∧
    (free [at_ off.toInt 0 2] → Stores (.stg gu gs gb off) s t (fun a =>
      if inside a (at_ off.toInt 0 2) 4 then some ((rg t gs.toNat).extractLsb' (8 * (a - at_ off.toInt 0 2)) 8) else none)) ∧
    (free [at_ off.toInt 0 0] → Stores (.stq gu qs gb off) s t (fun a =>
      if a = at_ off.toInt 0 0 then some (if rq t qs.toNat then 1 else 0) else none))

/-- R11, R14, R26, R27, R257, R262: results that are due land: a register takes the last result in slot and issue
order that names it, whatever else lands; a write of FLG is applied before the flags of all of them are ORed in, FPM
keeps no mode above 4, and MODE takes its counts and its two mode bits. A write to g0, q0 or m0 is discarded, and they read as 0, true and all ones; a
write to any other register is read back, and leaves the others. -/
def Obligations.ResultsLand : Prop :=
  (∀ (t : Tile) (x : Word) (b : Bool) (w : BitVec 16) (v : Line) (n k : Nat), tileWf t = true →
      rg (wg t n x) k = (if k = 0 then 0 else if k = n then x else rg t k) ∧ wg t 0 x = t ∧
      rq (wq t n b) k = (if k = 0 then true else if k = n then b else rq t k) ∧ wq t 0 b = t ∧
      rm (wm t n w) k = (if k = 0 then 0xFFFF else if k = n then w else rm t k) ∧ wm t 0 w = t ∧
      rv (wv t n v) k = (if k = n then v else rv t k)) ∧
  (∀ (s : State) (l : Loc) (p : Part) (t : Tile), Stands s l p t → tileWf t = true →
      let due := t.flight.filter (fun x => decide (x.due ≤ p.gcyc))
      Steps (.resultLanding l) s l (fun t' =>
        SameMem t t' ∧ SameEvent t t' ∧ t'.flight = t.flight.filter (fun e => decide (p.gcyc < e.due)) ∧
        (∀ e, due = [e] →
          t'.flg = (match e.dest with | .sreg i x => if i = 0x0C then x.truncate 6 else t.flg | _ => t.flg) ||| e.flags ∧
          (∀ n, rg t' n = match e.dest with | .g k x => if n = k ∧ k ≠ 0 then x else rg t n | _ => rg t n) ∧
          (∀ n, rq t' n = match e.dest with | .q k x => if n = k ∧ k ≠ 0 then x else rq t n | _ => rq t n) ∧
          (∀ n, rm t' n = match e.dest with | .m k x => if n = k ∧ k ≠ 0 then x else rm t n | _ => rm t n) ∧
          (∀ n, rv t' n = match e.dest with | .v k x => if n = k then x else rv t n | _ => rv t n)) ∧
        (∀ e f k x y, due = [e, f] → k ≠ 0 → e.dest = .g k x → f.dest = .g k y →
          rg t' k = if e.slot < f.slot ∨ e.slot = f.slot ∧ e.seq ≤ f.seq then y else x) ∧
        let lands := fun (same : Dest → Prop) (good : Landing → Prop) (else_ : Prop) =>
          (∀ e, LastOf due same e → good e) ∧ (NoneOf due same → else_)
        (∀ k, k ≠ 0 → lands (fun d => ∃ x, d = .g k x) (fun e => ∀ x, e.dest = .g k x → rg t' k = x) (rg t' k = rg t k)) ∧
        (∀ k, k ≠ 0 → lands (fun d => ∃ x, d = .q k x) (fun e => ∀ x, e.dest = .q k x → rq t' k = x) (rq t' k = rq t k)) ∧
        (∀ k, k ≠ 0 → lands (fun d => ∃ x, d = .m k x) (fun e => ∀ x, e.dest = .m k x → rm t' k = x) (rm t' k = rm t k)) ∧
        (∀ k, lands (fun d => ∃ x, d = .v k x) (fun e => ∀ x, e.dest = .v k x → rv t' k = x) (rv t' k = rv t k)) ∧
        (∀ k, lands (fun d => ∃ x, d = .ma k x) (fun e => ∀ x, e.dest = .ma k x → mget 0 t'.ma k = x)
          (mget 0 t'.ma k = mget 0 t.ma k)) ∧
        lands (fun d => ∃ x, d = .sreg 0x0C x)
          (fun e => ∀ x, e.dest = .sreg 0x0C x → t'.flg = x.truncate 6 ||| joinFlags (due.map (fun f => f.flags)))
          (t'.flg = t.flg ||| joinFlags (due.map (fun f => f.flags))) ∧
        lands (fun d => ∃ x, d = .sreg 0x0D x)
          (fun e => ∀ x, e.dest = .sreg 0x0D x → t'.fpm = if 5 ≤ x.toNat % 8 then 0 else x.truncate 3) (t'.fpm = t.fpm) ∧
        lands (fun d => ∃ x, d = .sreg 0x0E x)
          (fun e => ∀ x, e.dest = .sreg 0x0E x → t'.sbCount = x.toNat / 2 ^ 20 ∧ t'.dramCount = x.toNat / 2 ^ 8 % 2 ^ 12 ∧
            t'.dramMode = x.getLsbD 1 ∧ t'.sbMode = x.getLsbD 0)
          (t'.sbCount = t.sbCount ∧ t'.dramCount = t.dramCount ∧ t'.dramMode = t.dramMode ∧ t'.sbMode = t.sbMode) ∧
        t'.raceBound = t.raceBound ∧ t'.z = t.z ∧ t'.zp = t.zp ∧ t'.at_ = t.at_ ∧ t'.loop = t.loop ∧ t'.ltc = t.ltc))

/-! ## The MX slot -/

/-- R172 to R177, R179: matrix steps, quantized steps, scale steps and clears. The operand blocks are read at
issue; the generators advance by the stride of the deepest level that will loop back (R173); the K count of a
quantized step grows by its depth.
It rests also on the model's choice of log entry 11. -/
def Obligations.MatrixStepsIssue : Prop :=
  ∀ (s : State) (p : Part) (t : Tile) (gu : Guard) (z ma mb shape glen what : BitVec 2) (ta tb : BitVec 4) (ga gb grp : BitVec 5),
    Ready s p t gu [codeG ga.toNat, codeG gb.toNat] → t.zErr = [] → msorted t.kc = true →
    let rows := if shape.toNat < 2 then 16 else 8
    let zn := z.toNat
    let d1 := 16 / tyWidth ta.toNat
    let d2 := if tyWidth ta.toNat = 4 ∧ tyWidth tb.toNat = 4 then 4 else 2
    let size := fun (d : Nat) (ty : BitVec 4) => 2 * d * tyWidth ty.toNat
    let a1 := blockAddr t ma (size d1 ta)
    let b1 := blockAddr t mb (size d1 tb)
    let a2 := blockAddr t ma (size d2 ta)
    let b2 := blockAddr t mb (size d2 tb)
    let ra := (rg t ga.toNat).toNat % 2 ^ 18
    let rb := (rg t gb.toNat).toNat % 2 ^ 18
    let k := mget 0 t.kc zn
    let g := grp.toNat + k / (32 * 2 ^ glen.toNat)
    (InSram a1 (size d1 ta) → InSram b1 (size d1 tb) → lostRow t zn (List.range rows) (p.gcyc + 6) = none →
      Clear t .mx (lineList a1 (size d1 ta) ++ lineList b1 (size d1 tb)) [(a1, size d1 ta), (b1, size d1 tb)] →
      Issues (.mma gu z ma mb ta tb shape) s p t (advanceBoth t ma mb) []
        (.mma zn ta.toNat tb.toNat shape.toNat (blockNum t a1 (size d1 ta)) (blockNum t b1 (size d1 tb))) [] (fun _ => True)) ∧
    (InSram a2 (size d2 ta) → InSram b2 (size d2 tb) → ra % 256 = 0 → rb % 256 = 0 → InSram ra 256 → InSram rb 256 → g < 16 →
      Clear t .mx (lineList a2 (size d2 ta) ++ lineList b2 (size d2 tb) ++ [ra + 16 * g])
        [(a2, size d2 ta), (b2, size d2 tb), (ra + 16 * g, 16)] →
      Issues (.mmaq gu z ma mb ta tb shape glen ga gb grp) s p t { advanceBoth t ma mb with kc := mset 0 t.kc zn (k + d2) } []
        (.mmaq zn ta.toNat tb.toNat shape.toNat (blockNum t a2 (size d2 ta)) (blockNum t b2 (size d2 tb))
          (readLine t (ra + 16 * g)).toNat (rb + 16 * g) g) [] (fun t' => mget 0 t'.kc zn = k + d2)) ∧
    (ra % 512 = 0 → rb % 512 = 0 → InSram ra 512 → InSram rb 512 → grp.toNat < 16 →
      lostRow t zn (List.range rows) (p.gcyc + 6) = none →
      Clear t .mx (lineList (ra + 32 * grp.toNat) 32) [(ra + 32 * grp.toNat, 32)] →
      Issues (.scalc gu z shape ga gb grp) s p t { t with kc := mset 0 t.kc zn 0 } []
        (.scalc zn shape.toNat (linesNum t (ra + 32 * grp.toNat) 2) (rb + 32 * grp.toNat)) [] (fun t' => mget 0 t'.kc zn = 0)) ∧
    ((what.getLsbD 0 = true → lostRow t zn (List.range 16) (p.gcyc + 1) = none) →
      Issues (.zclr gu z what) s p t (if what.getLsbD 1 then { t with kc := mset 0 t.kc zn 0 } else t) []
        (.clr zn what.toNat) [] (fun _ => True))

/-- R173: a generator's base takes one stride, that of the deepest open level that will loop back, and none
where no level will; a step that names one generator twice advances it once. -/
def Obligations.GeneratorsAdvanceByTheDeepestLevel : Prop :=
  ∀ (t : Tile) (a b : BitVec 2), msorted t.ma = true → t.loop.levels.length ≤ 6 →
    let base := fun (u : Tile) (m : BitVec 2) => mget 0 u.ma (8 * m.toNat)
    let loops := fun (j : Nat) => 1 < (mget 0 t.loop.lc j).toNat
    let moved := fun (m : BitVec 2) (x : BitVec 18) =>
      (∀ j, j < t.loop.levels.length → loops j → (∀ i, j < i → i < t.loop.levels.length → ¬ loops i) →
        x = base t m + mget 0 t.ma (8 * m.toNat + 1 + j)) ∧
      ((∀ j, j < t.loop.levels.length → ¬ loops j) → x = base t m)
    moved a (base (advanceBoth t a b) a) ∧ moved b (base (advanceBoth t a b) b) ∧
    ∀ k, k ≠ 8 * a.toNat → k ≠ 8 * b.toNat → mget 0 (advanceBoth t a b).ma k = mget 0 t.ma k

/-- R50, R174, R180, R181, R185: accumulator loads and stores, table loads and generator writes. -/
def Obligations.AccumulatorLoadsAndStoresIssue : Prop :=
  ∀ (s : State) (p : Part) (t : Tile) (gu : Guard) (z ma : BitVec 2) (ty : BitVec 4) (rnd fld : BitVec 3) (gb ga : BitVec 5)
    (off imm : BitVec 18) (first cnt : BitVec 8),
    Ready s p t gu [codeG ga.toNat, codeG gb.toNat] → t.zErr = [] →
    let at_ := fun (bits : Nat) => effAddr (rg t gb.toNat) off.toInt 0 bits
    let w := tyWidth ty.toNat
    let es := at_ (if w = 32 then 6 else if w = 16 then 5 else 4)
    let mode := if 8 ≤ ty.toNat ∧ ty.toNat ≤ 11 then rndOf t rnd.toNat else .rne
    let dr := if mode = .sr then allDraws t.lfsr else ([], t.lfsr)
    let pair := zstPair t z.toNat ty.toNat mode dr.1 0
    let n := cnt.toNat + 1
    (InSram (at_ 6) 1024 → Clear t .mx (lineList (at_ 6) 128) [(at_ 6, 128)] →
      Issues (.zld gu z gb off) s p t t [] (.zld z.toNat (at_ 6)) [(0, linesNum t (at_ 6) 8)] (fun _ => True)) ∧
    (InSram es (32 * w) → staleRow t z.toNat p.gcyc = none →
      Issues (.zst gu z ty rnd gb off) s p t { t with lfsr := dr.2 }
        (if pair.2 = 0 then [] else [landingOf s p .mx 8 .flags pair.2])
        (.zst z.toNat es ty.toNat mode dr.1) [(0, pair.1)] (fun _ => True)) ∧
    (InSram (at_ 4) (2 * n) → Clear t .mx [at_ 4] [(at_ 4, 16)] →
      Issues (.attld gu first cnt gb off) s p t t [] (.attld first.toNat n (at_ 4)) [(0, linesNum t (at_ 4) 1)] (fun _ => True)) ∧
    Gives (.mxagReg gu ma fld ga) s t (landingOf s p .mx 1 (.ma (8 * ma.toNat + fld.toNat) ((rg t ga.toNat).truncate 18)) 0) ∧
    Gives (.mxagImm gu ma fld imm) s t (landingOf s p .mx 1 (.ma (8 * ma.toNat + fld.toNat) imm) 0)

/-- R186 to R189: the rank unit's instructions, outside each other's busy spans; each begins one. -/
def Obligations.RankInstructionsIssue : Prop :=
  ∀ (s : State) (p : Part) (t : Tile) (gu : Guard) (z : BitVec 2) (row ty : BitVec 4) (n k len : BitVec 10) (gt ga gb : BitVec 5),
    Ready s p t gu [codeG gt.toNat, codeG ga.toNat, codeG gb.toNat] → t.zErr = [] →
    let w := tyWidth ty.toNat
    let nn := n.toNat + 1
    let kk := k.toNat + 1
    let ll := len.toNat + 1
    let la4 := regAddr t ga 4
    let lb4 := regAddr t gb 4
    let la3 := regAddr t ga 3
    let lines := rankBlockLines ty.toNat nn lb4 0
    let ranked := fun (i : Instr) (th : Option Nat) =>
      Issues i s p t t [] (.rank ty.toNat nn kk la4 lb4 th) [(0, linesNum t lb4 lines.length)]
        (fun t' => t'.rankBusy = p.gcyc + 3 * ((nn + 15) / 16))
    (InSram lb4 (nn * (w / 8)) → InSram la4 (16 * ((8 + 2 * kk + 15) / 16)) → t.rankBusy ≤ p.gcyc →
      Clear t .mx lines (lines.map (fun a => (a, 16))) →
      ranked (.rank gu ty n k ga gb) none ∧ ranked (.rankThreshold gu ty n k gt ga gb) (some (rg t gt.toNat).toNat)) ∧
    (InSram la3 (2 * nn) → t.termBusy ≤ p.gcyc → Clear t .mx [lineOfAddr la3] [(lineOfAddr la3, 16)] →
      (lostRow t z.toNat [row.toNat] (p.gcyc + 6) = none → lateEntry t nn (fun j => p.gcyc + 1 + j) = none →
        Issues (.rkacc gu z row ty n ga gb) s p t t []
          (.rkacc z.toNat row.toNat ty.toNat nn la3 (regAddr t gb (Nat.log2 (2 * w)))) [(0, (readLine t la3).toNat)]
          (fun t' => t'.termBusy = p.gcyc + nn + 1)) ∧
      (InSram lb4 (ll * w / 8) → lateEntry t nn (fun _ => p.gcyc + listLines la3 nn) = none →
        Issues (.unrank gu ty n len ga gb) s p t t [] (.unrank ty.toNat nn ll la3 lb4) [(0, (readLine t la3).toNat)]
          (fun t' => t'.termBusy = p.gcyc + listLines la3 nn + 1 + (ll * w + 127) / 128)))

/-- R56, R57, R60, R61, R175 to R179: the change of a matrix, quantized, scale or clear step performs on its rows
and columns: the exact integer sum modulo 2^32, or the steps of R56 and R61; its flags, overflow where an exact sum
leaves i32, are ORed into FLG; no other element changes. The second operand of a quantized or scale step is read one
cycle after issue. The floating-point step and the scale step are said without the model's own arithmetic.
It rests also on the model's choices of log entries 19 and 75. -/
def Obligations.AccumulatorChanges : Prop :=
  (∀ (s : State) (l : Loc) (p : Part) (t : Tile) (id : Nat) (op : MxOp),
    Stands s l p t → mxOf t id = some op → op.dead = none → tileWf t = true →
    let active := fun (z sh k : Nat) => ∃ r c, r < shapeRows sh ∧ c < shapeCols sh ∧ k = 256 * z + 16 * r + c
    let change := Steps (.accumulatorChange l id false) s l
    let dot := fun (ta tb a b d r c : Nat) (pa pb : Int) =>
      (List.range d).foldl (fun x j => x + (blockInt ta a (r * d + j) - pa) * (blockInt tb b (c * d + j) - pb)) (0 : Int)
    let every := fun (sh : Nat) (f : Nat → Nat → Flags) =>
      joinFlags ((List.range (shapeRows sh)).flatMap (fun r => (List.range (shapeCols sh)).map (f r)))
    let wraps := fun (x : Int) => if x < -(2 ^ 31) ∨ 2 ^ 31 ≤ x then fOverflow else 0
    (∀ z ta tb sh a b, op.kind = .mma z ta tb sh a b → ta < 8 → change (fun t' =>
      (∀ r c, r < shapeRows sh → c < shapeCols sh →
        mget 0 t'.z (256 * z + 16 * r + c) =
          BitVec.ofInt 32 ((mget 0 t.z (256 * z + 16 * r + c)).toInt + dot ta tb a b (16 / tyWidth ta) r c 0 0)) ∧
      t'.flg = t.flg ||| every sh (fun r c =>
        wraps ((mget 0 t.z (256 * z + 16 * r + c)).toInt + dot ta tb a b (16 / tyWidth ta) r c 0 0)) ∧
      (∀ k, ¬ active z sh k → mget 0 t'.z k = mget 0 t.z k) ∧ t'.zp = t.zp ∧ t'.g = t.g ∧ t'.sram = t.sram)) ∧
    (∀ z ta tb sh a b, op.kind = .mma z ta tb sh a b → 8 ≤ ta → change (fun t' =>
      (∀ r c, r < shapeRows sh → c < shapeCols sh →
        mget 0 t'.z (256 * z + 16 * r + c) =
          BitVec.ofNat 32 (stepF32 (mget 0 t.z (256 * z + 16 * r + c)).toNat ((List.range (16 / tyWidth ta)).map (fun j =>
            (blockF ta a (r * (16 / tyWidth ta) + j), blockF tb b (c * (16 / tyWidth ta) + j))))).1) ∧
      t'.flg = t.flg ||| every sh (fun r c => (stepF32 (mget 0 t.z (256 * z + 16 * r + c)).toNat
        ((List.range (16 / tyWidth ta)).map (fun j =>
          (blockF ta a (r * (16 / tyWidth ta) + j), blockF tb b (c * (16 / tyWidth ta) + j))))).2) ∧
      (∀ k, ¬ active z sh k → mget 0 t'.z k = mget 0 t.z k) ∧ t'.zp = t.zp ∧ t'.g = t.g ∧ t'.sram = t.sram)) ∧
    (∀ z ta tb sh a b za zb g, op.kind = .mmaq z ta tb sh a b za zb g → change (fun t' =>
      (∀ r c, r < shapeRows sh → c < shapeCols sh →
        mget 0 t'.zp (256 * z + 16 * r + c) =
          BitVec.ofInt 32 ((mget 0 t.zp (256 * z + 16 * r + c)).toInt +
            dot ta tb a b (mmaqDepth ta tb) r c (zeroPoint ta za g r) (zeroPoint tb (mget 0 op.buf 0) g c))) ∧
      t'.flg = t.flg ||| every sh (fun r c => wraps ((mget 0 t.zp (256 * z + 16 * r + c)).toInt +
        dot ta tb a b (mmaqDepth ta tb) r c (zeroPoint ta za g r) (zeroPoint tb (mget 0 op.buf 0) g c))) ∧
      (∀ k, ¬ active z sh k → mget 0 t'.zp k = mget 0 t.zp k) ∧ t'.z = t.z ∧ t'.g = t.g ∧ t'.sram = t.sram)) ∧
    (∀ z sh sa sb, op.kind = .scalc z sh sa sb → change (fun t' =>
      (∀ r c, r < shapeRows sh → c < shapeCols sh →
        mget 0 t'.z (256 * z + 16 * r + c) =
          BitVec.ofNat 32 (scalcElem (scaleOf sa (sb / 32 % 16) r) (scaleOf (mget 0 op.buf 0) (sb / 32 % 16) c)
            (mget 0 t.zp (256 * z + 16 * r + c)) (mget 0 t.z (256 * z + 16 * r + c))).1 ∧
        mget 0 t'.zp (256 * z + 16 * r + c) = 0) ∧
      t'.flg = t.flg ||| every sh (fun r c => (scalcElem (scaleOf sa (sb / 32 % 16) r) (scaleOf (mget 0 op.buf 0) (sb / 32 % 16) c)
        (mget 0 t.zp (256 * z + 16 * r + c)) (mget 0 t.z (256 * z + 16 * r + c))).2) ∧
      (∀ k, ¬ active z sh k → mget 0 t'.z k = mget 0 t.z k ∧ mget 0 t'.zp k = mget 0 t.zp k) ∧ t'.g = t.g ∧ t'.sram = t.sram)) ∧
    (∀ z what, op.kind = .clr z what → change (fun t' =>
      (∀ k, mget 0 t'.z k = if k / 256 = z ∧ what % 2 = 1 then 0 else mget 0 t.z k) ∧
      (∀ k, mget 0 t'.zp k = if k / 256 = z ∧ what / 2 % 2 = 1 then 0 else mget 0 t.zp k) ∧ t'.flg = t.flg ∧ t'.g = t.g ∧ t'.sram = t.sram)) ∧
    (∀ z ta tb sh a b za zb g, op.kind = .mmaq z ta tb sh a b za zb g → Quiet t [zb] →
      Steps (.accumulatorChange l id true) s l (fun t' =>
        t'.mx = mxNoted t op 0 (readLine t zb).toNat ∧ t'.z = t.z ∧ t'.zp = t.zp ∧ t'.sram = t.sram)) ∧
    (∀ z sh sa sb, op.kind = .scalc z sh sa sb → Quiet t [sb, sb + 16] →
      Steps (.accumulatorChange l id true) s l (fun t' =>
        t'.mx = mxNoted t op 0 (linesNum t sb 2) ∧ t'.z = t.z ∧ t'.zp = t.zp ∧ t'.sram = t.sram))) ∧
  (∀ (z : Word) (ps : List (FVal × FVal)),
    let zv := fdecode Ty.f32.fmt z.toNat
    let ops := zv :: (ps.map Prod.fst ++ ps.map Prod.snd)
    let ts := zv :: ps.map (fun e => mulOf e.1 e.2)
    let r := stepF32 z.toNat ps
    (∀ s e, FVal.fin s 0 e ∉ ops) →
    ((∀ v ∈ ts, v.isNum = true) → (∀ v ∈ ops, v.isNum = true) → RoundsFlushed (sumOf (ts.map FVal.num)) (zeroSumNeg .rne ts) r) ∧
    ((∃ v ∈ ops, v.isNan = true) → r.1 = 0x7FC00000 ∧ ((∀ s, .inf s ∉ ops) → r = nanResult Ty.f32.fmt ops)) ∧
    ((∀ v ∈ ops, v.isNan = false) →
      ((∃ e ∈ ps, zeroTimesInf e.1 e.2 = true) → r = (0x7FC00000, fInvalid)) ∧
      ((∀ e ∈ ps, zeroTimesInf e.1 e.2 = false) → ∀ s, .inf s ∈ ts →
        r = if .inf (!s) ∈ ts then (0x7FC00000, fInvalid) else (infOf Ty.f32.fmt + signOf Ty.f32.fmt s, 0)))) ∧
  (∀ (xa xb : Nat) (p z : Word), xa < 2 ^ 16 → xb < 2 ^ 16 →
    let sa := fdecode Ty.f16.fmt xa
    let sb := fdecode Ty.f16.fmt xb
    let zv := fdecode Ty.f32.fmt z.toNat
    let pv : FVal := if p = 0 then .zero false else .fin (decide (p.toInt < 0)) p.toInt.natAbs 0
    let t := mulOf (mulOf pv sa) sb
    let r := scalcElem sa sb p z
    (sa.isNan = true ∨ sb.isNan = true → r = (0x7FC00000, fInvalid)) ∧
    (sa.isNum = true → sb.isNum = true →
      (zv.isNum = true → RoundsFlushed (sumOf [zv.num, t.num]) (zeroSumNeg .rne [zv, t]) r) ∧
      (zv.isNan = true → r = nanResult Ty.f32.fmt [zv]) ∧
      (∀ s, zv = .inf s → r = (infOf Ty.f32.fmt + signOf Ty.f32.fmt s, 0))) ∧
    (sa.isNan = false → sb.isNan = false → sa.isNum = false ∨ sb.isNum = false →
      (pv.num.1 = 0 ∨ sa.isNum = true ∧ sa.num.1 = 0 ∨ sb.isNum = true ∧ sb.num.1 = 0 → zv.isNan = false → r = (0x7FC00000, fInvalid)) ∧
      (pv.num.1 ≠ 0 → (sa.isNum = true → sa.num.1 ≠ 0) → (sb.isNum = true → sb.num.1 ≠ 0) →
        (zv.isNum = true ∨ zv = t → r = (infOf Ty.f32.fmt + signOf Ty.f32.fmt t.sign, 0)) ∧
        (zv.isNum = false → zv.isNan = false → zv ≠ t → r = (0x7FC00000, fInvalid)))))

/-- R180, R181, R185: row pairs of accumulator loads and stores, and the lines and entries of a table load, of
which one may have 32 and 256.
It rests also on the model's choice of log entry 19. -/
def Obligations.RowPairsAndTableEntries : Prop :=
  ∀ (s : State) (l : Loc) (p : Part) (t : Tile) (id : Nat) (op : MxOp) (c : Nat),
    Stands s l p t → mxOf t id = some op → op.dead = none → tileWf t = true →
    (∀ z ea, op.kind = .zld z ea → c < 8 →
      (Quiet t (lineList (ea + 128 * c) 128) →
        Steps (.zldRowPair l id c false) s l (fun t' => t'.mx = mxNoted t op c (linesNum t (ea + 128 * c) 8) ∧ t'.sram = t.sram)) ∧
      Steps (.zldRowPair l id c true) s l (fun t' =>
        (∀ i, i < 32 → mget 0 t'.z (256 * z + 32 * c + i) = BitVec.ofNat 32 (mget 0 op.buf c / 2 ^ (32 * i))) ∧
        (∀ k, (k < 256 * z + 32 * c ∨ 256 * z + 32 * c + 32 ≤ k) → mget 0 t'.z k = mget 0 t.z k) ∧ t'.sram = t.sram)) ∧
    (∀ z ea ty mode dr, op.kind = .zst z ea ty mode dr → c < 8 →
      Steps (.zstRowPair l id c false) s l (fun t' =>
        t'.mx = mxNoted t op c (zstPair t z ty mode dr c).1 ∧ t'.z = t.z ∧ t'.sram = t.sram) ∧
      (t.accs = [] → ea % 16 = 0 → 4 * tyWidth ty % 16 = 0 →
        Steps (.zstRowPair l id c true) s l (fun t' => t'.z = t.z ∧
          SramIs t t' (ea + 4 * tyWidth ty * c) (4 * tyWidth ty) (byteAt (mget 0 op.buf c))))) ∧
    (∀ first n ea, op.kind = .attld first n ea →
      (Quiet t [ea + 16 * c] → ea % 16 = 0 →
        Steps (.attldEntryLand l id (some c)) s l (fun t' => t'.mx = mxNoted t op c (readLine t (ea + 16 * c)).toNat ∧ t'.sram = t.sram)) ∧
      Steps (.attldEntryLand l id none) s l (fun t' =>
        (∀ i, i < n → mget 0 t'.at_ (first + i) = BitVec.ofNat 16 (mget 0 op.buf (i / 8) / 2 ^ (16 * (i % 8)))) ∧
        (∀ k, (k < first ∨ first + n ≤ k) → mget 0 t'.at_ k = mget 0 t.at_ k) ∧ t'.sram = t.sram))

/-- R186 to R188: ranking puts the values that are numbers in order, equal ones by index; blocks and lists of
the rank unit, the reads and the terms of an accumulation, and the lines of a dense vector. A list has its header,
the indices of the greatest values that reach the threshold, and 0xFFFF after them; a dense vector has at each index
the table entry of the highest rank that names it, and zeros elsewhere.
It rests also on the model's choices of log entries 13, 19 and 96. -/
def Obligations.RankUnitOrdersAndSteps : Prop :=
  (∀ (n : Nat) (f : Nat → FVal),
      let xs := (List.range n).map (fun i => (i, f i))
      (rankOrder xs).Perm (xs.filter (fun e => !e.2.isNan)) ∧
      (rankOrder xs).Pairwise (fun a b => 0 < exCmp a.2.ex b.2.ex ∨ exCmp a.2.ex b.2.ex = 0 ∧ a.1 < b.1)) ∧
  (∀ (s : State) (l : Loc) (p : Part) (t : Tile) (id : Nat) (op : MxOp) (k : Nat),
      Stands s l p t → mxOf t id = some op → op.dead = none → tileWf t = true →
      (∀ ty n kk ga gb th, op.kind = .rank ty n kk ga gb th →
        (Quiet t (rankBlockLines ty n gb k) → gb % 16 = 0 →
          Steps (.rankBlockRead l id k) s l (fun t' =>
            t'.mx = mxNoted t op k (linesNum t (gb + 2 * tyWidth ty * k) (rankBlockLines ty n gb k).length) ∧ t'.sram = t.sram)) ∧
        (t.accs = [] → ga % 16 = 0 → 16 * k < 8 + 2 * kk →
          let len := min 16 (8 + 2 * kk - 16 * k)
          let list := (mfind op.buf listKey).getD (rankList ty n kk th op.buf)
          Steps (.rankListWrite l id k) s l (fun t' =>
            t'.mx = mxNoted t op listKey list ∧ SramIs t t' (ga + 16 * k) len (byteAt (list / 2 ^ (128 * k)))))) ∧
      (∀ z row ty n ga gb, op.kind = .rkacc z row ty n ga gb →
        (Quiet t [lineOfAddr ga + 16 * k] →
          Steps (.rkaccTerm l id k .list) s l (fun t' =>
            t'.mx = mxNoted t op k (readLine t (lineOfAddr ga + 16 * k)).toNat ∧ t'.z = t.z ∧ t'.sram = t.sram)) ∧
        (let o := ga / 2 % 8 + k
          let i := mget 0 op.buf (o / 8) / 2 ^ (16 * (o % 8)) % 2 ^ 16
          let row := (gb + i * (2 * tyWidth ty)) % 2 ^ 18
          let entry : MxOp := { op with buf := mput op.buf (entryKey k) (mget 0 t.at_ (min k 255)).toNat }
          (i = 0xFFFF → Steps (.rkaccTerm l id k .read) s l (fun t' => t' = t)) ∧
          (i ≠ 0xFFFF → 10 ≤ ty → ty ≤ 12 → gb % 32 = 0 → row < sramEnd → Quiet t (lineList row (2 * tyWidth ty)) →
            Steps (.rkaccTerm l id k .read) s l (fun t' => t'.z = t.z ∧ t'.sram = t.sram ∧
              t'.mx = mxNoted t entry (weightKey k) (linesNum t row (2 * tyWidth ty / 16)))) ∧
          (i ≠ 0xFFFF → sramEnd ≤ row → l.idx < poolBase → p.mode = .running →
            StepsPart (.rkaccTerm l id k .read) s l.band (fun p' =>
              p'.found = p.found ++ [{ tile := l.idx, cause := 0x01, detail := 0x0001, epc := some (op.pc, 3) }] ∧
              mxOf (getTile p' l.idx) id = some { op with dead := some k } ∧ (getTile p' l.idx).z = t.z))) ∧
        (∀ wt, mfind op.buf (weightKey k) = some wt →
          Steps (.rkaccTerm l id k .perform) s l (fun t' =>
            (∀ c, c < 16 → mget 0 t'.z (256 * z + 16 * row + c) =
              BitVec.ofNat 32 (stepF32 (mget 0 t.z (256 * z + 16 * row + c)).toNat
                [(fdecode Ty.bf16.fmt (mget 0 op.buf (entryKey k)), blockF ty wt c)]).1) ∧
            (∀ i, (i < 256 * z + 16 * row ∨ 256 * z + 16 * row + 16 ≤ i) → mget 0 t'.z i = mget 0 t.z i) ∧ t'.sram = t.sram))) ∧
      (∀ ty n len ga gb, op.kind = .unrank ty n len ga gb →
        (Quiet t [lineOfAddr ga + 16 * k] →
          Steps (.unrankLineWrite l id k .list) s l (fun t' =>
            t'.mx = mxNoted t op k (readLine t (lineOfAddr ga + 16 * k)).toNat ∧ t'.sram = t.sram)) ∧
        Steps (.unrankLineWrite l id k .read) s l (fun t' =>
          t'.mx = mxNoted t op listKey (denseVec t op ty n len ga) ∧ t'.sram = t.sram) ∧
        (t.accs = [] → gb % 16 = 0 → 16 * k < len * tyWidth ty / 8 →
          Steps (.unrankLineWrite l id k .perform) s l (fun t' =>
            SramIs t t' (gb + 16 * k) (min 16 (len * tyWidth ty / 8 - 16 * k)) (byteAt (mget 0 op.buf listKey / 2 ^ (128 * k))))))) ∧
  (∀ (ty n k : Nat) (th : Option Nat) (buf : SMap Nat), n ≤ 1024 → k ≤ 1024 →
      let y := rankList ty n k th buf
      let x := fun (i : Nat) => fdecode ((tyOf ty).getD .f32).fmt (mget 0 buf (i / 16) / 2 ^ (tyWidth ty * (i % 16)) % 2 ^ tyWidth ty)
      let ranks := fun (i : Nat) => i < n ∧ (x i).isNan = false ∧
        ∀ b, th = some b → (fdecode Ty.f32.fmt b).isNan = false ∧ ¬ valLt (x i) (fdecode Ty.f32.fmt b)
      let before := fun (i j : Nat) => valLt (x j) (x i) ∨ ¬ valLt (x i) (x j) ∧ i < j
      y / 2 ^ 16 % 2 ^ 48 = ((List.range n).filter (fun i => (x i).isNan)).length ∧
      ∃ list : List Nat, y % 2 ^ 16 = list.length ∧ list.length ≤ k ∧ list.Pairwise before ∧ (∀ i ∈ list, ranks i) ∧
        (∀ i, ranks i → i ∉ list → list.length = k ∧ ∀ j ∈ list, before j i) ∧
        ∀ e, e < k → y / 2 ^ (64 + 16 * e) % 2 ^ 16 = list.getD e 0xFFFF) ∧
  (∀ (t : Tile) (op : MxOp) (ty n len ga e : Nat), tyWidth ty = 16 ∨ tyWidth ty = 32 → len ≤ 1024 → e < len →
      let names := fun (k : Nat) => let o := ga / 2 % 8 + k; mget 0 op.buf (o / 8) / 2 ^ (16 * (o % 8)) % 2 ^ 16 = e
      let dense := denseVec t op ty n len ga / 2 ^ (tyWidth ty * e) % 2 ^ tyWidth ty
      ((∀ k, k < n → ¬ names k) → dense = 0) ∧
      (∀ k, k < n → names k → (∀ j, k < j → j < n → ¬ names j) →
        dense = (mget 0 t.at_ (min k 255)).toNat * (if tyWidth ty = 32 then 2 ^ 16 else 1)))

/-! ## The mesh and the copy engine -/

/-- R197, R200 to R202: a send to a place inside the fence puts one flit of 8 bytes, or two flits on
consecutive cycles, into the mesh with the bytes and the poison read at issue. -/
def Obligations.SendsInjectFlits : Prop :=
  ∀ (s : State) (p : Part) (t : Tile) (gu : Guard) (dop : BitVec 3) (dx dy vs : BitVec 11) (w : Bool) (gs gd gk : BitVec 5),
    Ready s p t gu [codeG gs.toNat, codeG gd.toNat, codeG gk.toNat, codeV t vs] → InFence p s.cur.idx dx.toInt dy.toInt →
    let bits := if w then 4 else 3
    let n := if w then 16 else 8
    let src := regAddr t gs bits
    let dst := regAddr t gd bits
    let bar := (rg t gk.toNat).toNat % 2 ^ 18
    let flits := fun (b : Option Nat) (x : Nat → Nat) (bad : Nat → Bool) (p' : Part) (_ : Tile) =>
      p'.flits = withFlits p.flits s.seqNo w (fun k =>
        sendFlit s.cur.idx p.gcyc s.seqNo false dop.toNat w dx.toInt dy.toInt dst b k (x k) (bad k))
    let mem := fun (k : Nat) => readN t (src + 8 * k) 8
    let vec := fun (k : Nat) => (vop t vs).toNat / 2 ^ (64 * k) % 2 ^ 64
    InSram dst n →
    (InSram src n → Clear t .cp [src] [] →
      (BarFits bar → Moves (.send gu dop dx dy w gs gd gk) s t (flits (some bar) mem (fun k => sendBad t (src + 8 * k)))) ∧
      Moves (.sendNb gu dop dx dy w gs gd) s t (flits none mem (fun k => sendBad t (src + 8 * k)))) ∧
    (BarFits bar → Moves (.sendv gu dop dx dy w gd gk vs) s t (flits (some bar) vec (fun _ => false))) ∧
    Moves (.sendvNb gu dop dx dy w gd vs) s t (flits none vec (fun _ => false))

/-- R165, R195, R204 to R207: the copy engine takes an operation when it is not busy, and is busy for its units:
a copy as its descriptor says, whose words are those in memory before the bundle's own store and before any other access
of the cycle writes there, its units counted with the innermost level fastest; a gather, or a list of indices whose first
flit is sent at issue.
It rests also on the model's choices of log entries 16 and 97. -/
def Obligations.CopyEngineStarts : Prop :=
  (∀ (s : State) (p : Part) (t : Tile) (gu : Guard) (gs gd gk gi n5 : BitVec 5) (rlen : BitVec 8) (dx dy : BitVec 11) (nb : Bool)
    (n10 : BitVec 10),
    Ready s p t gu ([codeG gs.toNat, codeG gd.toNat, codeG gk.toNat] ++ (List.range (n5.toNat + 1)).map (fun j => codeG (gi.toNat + j))) →
    t.copyBusy ≤ p.gcyc →
    let bar := optBar t gk
    let barOk := ∀ a, bar = some a → BarFits a
    let starts := fun (k : CopyKind) (units busy : Nat) (buf : SMap (Line × Nat)) (t' : Tile) =>
      t'.copyBusy = p.gcyc + busy ∧
      t'.copies = t.copies ++ [{ id := s.seqNo, t := p.gcyc, pc := (issueOf t .cp).pc, kind := k, units := units, buf := buf }]
    let a := regAddr t gs 6
    let x := descOf t a 4
    let wide := bitN (descWord x 0) 28
    let units := (cpyTrips x).foldl (fun m e => m * e.1) 1
    let lr := rlen.toNat + 1
    let n := n5.toNat + 1
    let rows := (List.range n).map (fun j => ((rg t gs.toNat).toNat + (rg t (gi.toNat + j)).toNat * (16 * lr)) % 2 ^ 18 / 16 * 16)
    let cd := (rg t gd.toNat).toNat
    let m := n10.toNat + 1
    let nf := (m + 3) / 4
    let ls := regAddr t gs 3
    let kb := if nb then none else some ((rg t gk.toNat).toNat % 2 ^ 18)
    (InSram a 64 → barOk → cpyBad x = none → InFence p s.cur.idx (cpyDx x) (cpyDy x) →
      Clear t .cp [a, a + 16, a + 32, a + 48] [] →
      Moves (.cpy gu gs gk) s t (fun _ t' => starts
        (.cpy (descWord x 0 / 2 ^ 29) wide (cpyDx x) (cpyDy x) (descWord x 1) (descWord x 2) (cpyTrips x) bar)
        units (1 + (if wide then 2 else 1) * units) [] t')) ∧
    (barOk → (∀ k, k < n * lr → cpgSrc rows lr k < sramEnd ∧ cpgDest cd k < sramEnd) → Clear t .cp [rows.headD 0] [] →
      Moves (.cpg gu gs gd gk gi n5 rlen) s t (fun _ t' => starts (.cpg cd rows lr bar) (n * lr) (n * lr)
        [(0, (readLine t (rows.headD 0), linePoison t (rows.headD 0)))] t')) ∧
    (InSram ls (8 * nf) → InSram (regAddr t gd 3) (8 * nf) → (∀ b, kb = some b → BarFits b) →
      InFence p s.cur.idx dx.toInt dy.toInt → Clear t .cp [ls] [] →
      Moves (.rksend gu dx dy nb gs gd gk n10) s t (fun p' t' =>
        starts (.rksend dx.toInt dy.toInt ls (regAddr t gd 3) m kb) nf nf [] t' ∧
        p'.flits = mput p.flits (s.seqNo + 1) (sendFlit s.cur.idx p.gcyc (s.seqNo + 1) true 0 false dx.toInt dy.toInt (regAddr t gd 3) kb 0
          (rkData (readN t ls 8) m 0) (sendBad t ls))))) ∧
  (∀ (t : Tile) (a i : Nat), a % 64 = 0 → i < 16 →
    let wrote := t.accs.find? (fun e => e.line == (a + 4 * i) / 16 * 16 && e.rank != 9)
    (wrote = none → (issueOf t .cp).was = [] → descWord (descOf t a 4) i = readN t (a + 4 * i) 4) ∧
    (∀ e, wrote = some e → descWord (descOf t a 4) i = e.old.toNat / 2 ^ (32 * (i % 4)) % 2 ^ 32)) ∧
  (∀ (ls : List (Nat × Int × Int)) (n : Nat) (x y : Int) (u : Nat), 0 < n →
    unitOffsets [] u = (0, 0) ∧
    unitOffsets ((n, x, y) :: ls) u =
      ((unitOffsets ls (u / n)).1 + (u % n : Nat) * x, (unitOffsets ls (u / n)).2 + (u % n : Nat) * y))

/-- R200, R205 to R207: a unit of a copy is read and sent one flit time after another, the innermost level
fastest, and one whose source or destination lies outside the data SRAM raises its event and ends the copy; a line of
a gather is read, and written two cycles later with its poison, its 16 bytes counted on the barrier; a flit of a list
is read and sent. The poison of what a unit or a line reads goes on with it.
It rests also on the model's choices of log entries 16 and 95. -/
def Obligations.CopyEngineSteps : Prop :=
  ∀ (s : State) (l : Loc) (p : Part) (t : Tile) (c : CopyOp) (u n : Nat) (bar : Option Nat),
    Stands s l p t → l.idx < poolBase → t.copies = [c] → tileWf t = true → t.accs = [] →
    (∀ dop w dx dy src dst ls, c.kind = .cpy dop w dx dy src dst ls bar → c.ended = none →
      p.gcyc = c.t + 1 + (if w then 2 else 1) * u →
      let sa := alignDown (unitBits w) (wrap18 ((src : Int) + (unitOffsets ls.reverse u).1))
      let da := alignDown (unitBits w) (wrap18 ((dst : Int) + (unitOffsets ls.reverse u).2))
      (sa < sramEnd → da < sramEnd →
        StepsPart (.copyUnit l u) s l.band (fun p' => p'.flits = withFlits p.flits s.seqNo w (fun k =>
          sendFlit l.idx p.gcyc s.seqNo true dop w dx dy da bar k (readN t (sa + 8 * k) 8) (sendBad t (sa + 8 * k))))) ∧
      (sramEnd ≤ sa ∨ sramEnd ≤ da →
        StepsPart (.copyUnit l u) s l.band (fun p' => p'.flits = p.flits ∧
          p'.found = p.found ++ [{ tile := l.idx, cause := 0x01, detail := 0x0001, epc := some (c.pc, 6) }] ∧
          getTile p' l.idx = { t with copies := [{ c with ended := some u }] }))) ∧
    (∀ cd rows lr, c.kind = .cpg cd rows lr bar → n < c.units →
      (p.gcyc = c.t + n →
        Steps (.cpgLine l n false) s l (fun t' => t'.sram = t.sram ∧
          t'.copies = [{ c with buf := mput c.buf n (readLine t (cpgSrc rows lr n), linePoison t (cpgSrc rows lr n)) }])) ∧
      (p.gcyc = c.t + n + 2 → mfind t.held (cpgDest cd n) = none →
        Steps (.cpgLine l n true) s l (fun t' =>
          let line := mget (0, 0) c.buf n
          let gr := cpgDest cd n / 8
          SramIs t t' (cpgDest cd n) 16 (fun k => line.1.extractLsb' (8 * k) 8) ∧
          (∀ b, bar = some b → mget 0 t'.counts b = mget 0 t.counts b + 16) ∧ (bar = none → t'.counts = t.counts) ∧
          ∀ g, g ∈ t'.poison ↔ if g = gr then line.2.testBit 0 = true else if g = gr + 1 then line.2.testBit 1 = true else g ∈ t.poison))) ∧
    (∀ dx dy src dst m, c.kind = .rksend dx dy src dst m bar → n < c.units → p.gcyc = c.t + n → src % 8 = 0 →
      StepsPart (.rksendFlit l n) s l.band (fun p' => p'.flits = mput p.flits s.seqNo
        (sendFlit l.idx p.gcyc s.seqNo true 0 false dx dy (dst + 8 * n) bar 0 (rkData (readN t (src + 8 * n) 8) m n)
          (sendBad t (src + 8 * n)))))

/-- R196, R198, R281: a flit takes its next link, east or west before north or south; where the link already
carries a flit in this cycle it is discarded and the collision is noted; it never leaves the partition. -/
def Obligations.FlitsHop : Prop :=
  ∀ (s : State) (band fid : Nat) (p : Part) (f : Flit), Holds s band p → mfind p.flits fid = some f →
    let here := hopAt f f.hop
    let dir := hopDir f f.hop
    let out := (tx here = 0 ∧ dir = 3) ∨ (tx here + 1 = 64 * p.count ∧ dir = 1) ∨ (ty here = 0 ∧ dir = 0) ∨ (ty here + 1 = 784 ∧ dir = 2)
    tx here < 64 * p.count → ty here < 784 →
    (¬ out → (here, dir) ∉ p.linkUse →
      StepsPart (.flitHop band fid) s band (fun p' => p'.flits = mput p.flits fid { f with hop := f.hop + 1 } ∧
        p'.linkUse = p.linkUse ++ [(here, dir)] ∧ p'.tiles = p.tiles ∧ p'.found = p.found)) ∧
    (¬ out → (here, dir) ∈ p.linkUse →
      StepsPart (.flitHop band fid) s band (fun p' => p'.flits = merase p.flits fid ∧ p'.linkUse = p.linkUse ∧
        p'.found.any (fun e => e.tile == here && e.cause == 0x04 && e.detail % 4 == dir) = true)) ∧
    (out → StepsPart (.flitHop band fid) s band (fun p' => p'.flits = merase p.flits fid ∧ p'.linkUse = p.linkUse ∧
      p'.found = p.found ++ [{ tile := here, cause := 0x05, detail := dir + 4, epc := none }]))

/-- R199 to R203: a flit that lands writes its 8 bytes with its deposit operator, and counts them on its
barrier; no other byte of the tile changes. ADDF and MAXF OR their flags into FLG. A poisoned payload poisons the
granule, and so does a poisoned destination under every operator but WR. A deposit whose bank another access has is
dropped (R167). A BIN flit of 8 bytes adds its two numbers to
the record of its line; of a BIN send of 16 bytes the first flit waits and the second merges the record that the two
carry, or is discarded where the first was lost.
It rests also on the model's choices of log entries 8 and 14. -/
def Obligations.DepositsWrite : Prop :=
  (∀ (s : State) (band fid : Nat) (p : Part) (f : Flit) (t : Tile), Holds s band p → mfind p.flits fid = some f → f.dop ≠ 4 →
    f.addr % 8 = 0 → flitDest f < poolBase → getTile p (flitDest f) = t → memWf t.sram = true → (∀ e ∈ t.accs, e.bank ≠ bankOf f.addr) →
    let old := fun (k : Nat) => ofBytes (sramBytes t.sram (f.addr + 4 * k) 4)
    let new := fun (k : Nat) => f.payload / 2 ^ (32 * k) % 2 ^ 32
    let flags := fun (k : Nat) =>
      if f.dop = 1 then (fAddV Ty.f32.fmt .rne 0 (fdecode Ty.f32.fmt (old k)) (fdecode Ty.f32.fmt (new k))).2
      else if f.dop = 3 then (fMinMax Ty.f32.fmt true (old k) (new k)).2 else 0
    let word := fun (k : Nat) =>
      if f.dop = 0 then new k
      else if f.dop = 1 then (fAddV Ty.f32.fmt .rne 0 (fdecode Ty.f32.fmt (old k)) (fdecode Ty.f32.fmt (new k))).1
      else if f.dop = 2 then (old k + new k) % 2 ^ 32
      else if f.dop = 3 then (fMinMax Ty.f32.fmt true (old k) (new k)).1
      else old k ||| new k
    StepsPart (.depositWrite band fid) s band (fun p' => p'.flits = merase p.flits fid ∧
      (∀ k, k ≠ flitDest f → getTile p' k = getTile p k) ∧
      let t' := getTile p' (flitDest f)
      SramIs t t' f.addr 8 (fun k => byteAt (word (k / 4)) (k % 4)) ∧ t'.g = t.g ∧
      (∀ b, f.bar = some b → mget 0 t'.counts b = mget 0 t.counts b + 8) ∧ t'.flg = t.flg ||| (flags 0 ||| flags 1) ∧
      ∀ g, g ∈ t'.poison ↔ if g = f.addr / 8 then f.poison = true ∨ f.dop ≠ 0 ∧ (g ∈ t.poison ∨ g ∈ t.uncorr) else g ∈ t.poison)) ∧
  (∀ (s : State) (band fid : Nat) (p : Part) (f : Flit) (t : Tile), Holds s band p → mfind p.flits fid = some f → f.dop ≠ 4 →
    flitDest f < poolBase → getTile p (flitDest f) = t → (∃ e ∈ t.accs, e.bank = bankOf f.addr ∧ e.won = true) →
    StepsPart (.depositWrite band fid) s band (fun p' => p'.flits = merase p.flits fid ∧
      ∃ e, e.bank = bankOf f.addr ∧ e.won = false ∧ getTile p' (flitDest f) = { t with accs := t.accs ++ [e] })) ∧
  (∀ (s : State) (band fid : Nat) (p : Part) (f : Flit) (t : Tile), Holds s band p → mfind p.flits fid = some f → f.dop = 4 →
    flitDest f < poolBase → getTile p (flitDest f) = t → memWf t.sram = true → (∀ e ∈ t.accs, e.bank ≠ bankOf f.addr) →
    let line := f.addr / 16 * 16
    let gr := line / 8
    let old := binOf (sramLine t.sram line).toNat
    let bad := fun (b : Bool) => b = true ∨ ∃ g ∈ [gr, gr + 1], g ∈ t.poison ∨ g ∈ t.uncorr
    let num := fun (k : Nat) => fdecode Ty.f32.fmt (f.payload / 2 ^ (32 * k) % 2 ^ 32)
    let deposits := fun (r : BinRec) (b : Bool) (n : Nat) => StepsPart (.depositWrite band fid) s band (fun p' =>
      p'.flits = merase p.flits fid ∧ (∀ k, k ≠ flitDest f → getTile p' k = getTile p k) ∧
      let t' := getTile p' (flitDest f)
      SramIs t t' line 16 (byteAt (binBits r)) ∧ t'.g = t.g ∧ t'.flg = t.flg ∧
      (∀ k, f.bar = some k → mget 0 t'.counts k = mget 0 t.counts k + n) ∧
      ∀ g, g ∈ t'.poison ↔ if g = gr ∨ g = gr + 1 then bad b else g ∈ t.poison)
    (f.wide = false → deposits (binAdd (binAdd old (num 0)) (num 1)) f.poison 8) ∧
    (f.wide = true → f.part = false → StepsPart (.depositWrite band fid) s band (fun p' =>
      p'.flits = merase p.flits fid ∧ (∀ k, k ≠ flitDest f → getTile p' k = getTile p k) ∧
      getTile p' (flitDest f) = { t with
        depWait := t.depWait ++ [{ pair := f.pair, due := p.gcyc + 1, payload := f.payload, poison := f.poison }] })) ∧
    (f.wide = true → f.part = true →
      (∀ w, t.depWait.find? (fun w => w.pair == f.pair) = some w →
        deposits (binMerge old (binOf (w.payload + f.payload * 2 ^ 64))) (w.poison || f.poison) 16) ∧
      ((∀ w ∈ t.depWait, w.pair ≠ f.pair) → StepsPart (.depositWrite band fid) s band (fun p' =>
        p'.flits = merase p.flits fid ∧ ∀ k, getTile p' k = getTile p k))))

/-! ## DRAM -/

/-- R208 to R213: a DRAM command that is wired, translated and meets its timing minimums is performed by
its engine in its cycle: DACT opens its row, DPRE and DPREA close, DREF and DREFB count a refresh; DRD takes
the burst's 64 bytes for its window at t + 104, and DWR has its source read at t + 2. A command's code is that of the
table: 14 where another of its kind came in the cycle, else the lowest of the checks that fail, and none where none
does. An address decodes, and its row translates, as the wiring and the range entries say.
It rests also on the model's choices of log entries 15, 17, 18 and 67. -/
def Obligations.DramCommands : Prop :=
  (∀ (s : State) (p : Part) (t : Tile) (gu : Guard) (gp : BitVec 4) (gs gk : BitVec 5) (bank : BitVec 6) (e row : Nat),
    Ready s p t gu (pairReads gp ++ [codeG gs.toNat, codeG gk.toNat]) →
    let va := pairOf t gp
    let b := va / 2 ^ 15 % 2 ^ 6
    let col := va / 2 ^ 6 % 2 ^ 4
    let eng := getEngine p e
    let runs := fun (i : Instr) (c : DCmd) (good : Engine → Tile → Prop) =>
      dramCheck p s.edge eng p.gcyc c = none →
      Moves i s t (fun p' t' => (∀ k, k ≠ e → getEngine p' k = getEngine p k) ∧ good (getEngine p' e) t')
    let sram := regAddr t gs 6
    let bar := optBar t gk
    let flat := burstAddr p.first e b row col
    let fetch := fun (rd : Bool) (bk : Option Nat) (data : List Byte) (bad : List Nat) (held : Bool) (t' : Tile) =>
      t'.bursts = t.bursts ++ [{
        id := s.seqNo, t := p.gcyc, pc := (issueOf t .cp).pc, read := rd, sram := sram, bar := bk,
        phys := some flat, data := data, bad := bad, held := held }]
    (wiredEngine s.cur.idx = some e →
      runs (.dprea gu) .prea (fun x _ => x.rowCyc = some p.gcyc ∧ ∀ k, k < 64 → (getBank x k).row = none ∧ (getBank x k).pre = some p.gcyc) ∧
      runs (.dref gu) .ref (fun x _ => x.rowCyc = some p.gcyc ∧ x.refAll = some p.gcyc ∧ x.refs = eng.refs + 1) ∧
      runs (.drefb gu bank) (.refb bank.toNat) (fun x _ => x.rowCyc = some p.gcyc ∧
        (getBank x bank.toNat).ref = some p.gcyc ∧ (getBank x bank.toNat).refs = (getBank eng bank.toNat).refs + 1)) ∧
    (dramXlate p s.cur.idx va = .ok (e, row) →
      runs (.dact gu gp) (.act b row) (fun x _ => x.rowCyc = some p.gcyc ∧
        (getBank x b).row = some row ∧ (getBank x b).act = some p.gcyc ∧ (getBank x b).openEdge = s.edge ∧ (p.gcyc, b) ∈ x.acts) ∧
      runs (.dpre gu gp) (.pre b) (fun x _ => x.rowCyc = some p.gcyc ∧ (getBank x b).row = none ∧ (getBank x b).pre = some p.gcyc) ∧
      (InSram sram 64 →
        ((∀ a, bar = some a → BarFits a) →
          runs (.drd gu gp gs gk) (.rd b row) (fun x t' => x.colCyc = some p.gcyc ∧ (p.gcyc, b, false) ∈ x.cols ∧
            fetch true bar ((List.range 64).map (fun i => mget 0 s.dram (flat + i))) (burstBad s flat)
              (!returnScripted s s.cur s.seqNo) t')) ∧
        runs (.dwr gu gp gs) (.wr b row) (fun x t' => x.colCyc = some p.gcyc ∧ (getBank x b).wr = some p.gcyc ∧
          (p.gcyc, b, true) ∈ x.cols ∧ fetch false none [] [] true t')))) ∧
  (∀ (p : Part) (edge : Nat) (e : Engine) (g : Nat) (c : DCmd) (k : Bank), msorted e.banks = true →
    (SecondOfKind e g c → dramCheck p edge e g c = some 14) ∧
    (¬ SecondOfKind e g c →
      (∀ code, dramCheck p edge e g c = some code ↔ BreaksCheck p edge e g c code ∧ ∀ j, j < code → ¬ BreaksCheck p edge e g c j) ∧
      (dramCheck p edge e g c = none ↔ ∀ j, ¬ BreaksCheck p edge e g c j)) ∧
    (edge ≤ k.openEdge + 45630 ∨ 64 * (g - k.act.getD 0) ≤ 45630 * p.rec_.stretch → openRow p edge g k = k.row) ∧
    (k.openEdge + 45630 < edge → 45630 * p.rec_.stretch < 64 * (g - k.act.getD 0) → openRow p edge g k = none)) ∧
  (∀ (p : Part) (idx va : Nat) (r : DRange), idx < poolBase →
    let rim := fun (n : Nat) => wiredEngine idx = some (idx % 1024 % 64 / 2 + 32 * n + 64 * (idx % 1024 / 64))
    let covers := fun (x : DRange) => x.base ≤ va ∧ va < x.limit
    let row := (va + r.offset) % 2 ^ 48 / 2 ^ 21
    (idx / 1024 = 0 → rim 0) ∧ (idx / 1024 = 783 → rim 1) ∧
    (idx / 1024 ≠ 0 → idx / 1024 ≠ 783 → wiredEngine idx = none ∧ dramXlate p idx va = .error 0x0004) ∧
    ∀ e, wiredEngine idx = some e →
      (2 ^ 48 ≤ va ∨ (∀ x ∈ p.rec_.dram, ¬ covers x) → dramXlate p idx va = .error 0x0001) ∧
      (va < 2 ^ 48 → p.rec_.dram.find? (fun x => decide (covers x)) = some r →
        (32767 < row → dramXlate p idx va = .error 0x0002) ∧
        (row ≤ 32767 → va / 2 ^ 10 % 32 ≠ e % 32 → dramXlate p idx va = .error 0x0003) ∧
        (row ≤ 32767 → va / 2 ^ 10 % 32 = e % 32 → dramXlate p idx va = .ok (e, row))))

/-- R209, R213, R224: with dram_mode 0 a DRAM command that breaks a check raises a precise event of cause 0x06
whose detail names the check, the pseudo-channel and the bank; with dram_mode 1 it is counted, the engine does
not perform it, and a DRD still writes 64 zero bytes in its window. A command whose address does not translate, or
whose tile is not wired, raises a translation fault. -/
def Obligations.RefusedDramReads : Prop :=
  (∀ (s : State) (p : Part) (t : Tile) (gu : Guard) (gp : BitVec 4) (gs gk : BitVec 5) (e row code : Nat),
    Ready s p t gu (pairReads gp ++ [codeG gs.toNat, codeG gk.toNat]) →
    let va := pairOf t gp
    let b := va / 2 ^ 15 % 2 ^ 6
    let i : Instr := .drd gu gp gs gk
    dramXlate p s.cur.idx va = .ok (e, row) → InSram (regAddr t gs 6) 64 → (∀ a, optBar t gk = some a → BarFits a) →
    dramCheck p s.edge (getEngine p e) p.gcyc (.rd b row) = some code → WellFormed i →
    (t.dramMode = false → exec i s = .next (raisePrecise s s.cur .cp 0x06 (code * 4096 + e % 32 * 64 + b))) ∧
    (t.dramMode = true → ∃ u t' p', exec i s = .next u ∧ tileOf u s.cur = some t' ∧ OnlyTile s u s.cur ∧
      getPart u s.cur.band = some p' ∧ p'.engines = p.engines ∧ t'.dramCount = min (t.dramCount + 1) 0xFFF ∧
      SameMem t t' ∧ SameEvent t t' ∧
      t'.bursts = t.bursts ++ [{
        id := s.seqNo, t := p.gcyc, pc := (issueOf t .cp).pc, read := true, sram := regAddr t gs 6,
        bar := optBar t gk, phys := none, data := List.replicate 64 0, bad := [], held := true }])) ∧
  (∀ (s : State) (p : Part) (t : Tile) (gu : Guard) (gp : BitVec 4) (gs gk : BitVec 5) (bank : BitVec 6) (e row code d : Nat),
    Ready s p t gu (pairReads gp ++ [codeG gs.toNat, codeG gk.toNat]) →
    let va := pairOf t gp
    let b := va / 2 ^ 15 % 2 ^ 6
    let refused := fun (i : Instr) (c : DCmd) (z : Nat) => WellFormed i → dramCheck p s.edge (getEngine p e) p.gcyc c = some code →
      (t.dramMode = false → exec i s = .next (raisePrecise s s.cur .cp 0x06 (code * 4096 + e % 32 * 64 + z))) ∧
      (t.dramMode = true → Moves i s { t with dramCount := min (t.dramCount + 1) 0xFFF } (fun p' t' =>
        p'.engines = p.engines ∧ t'.bursts = t.bursts ∧ t'.dramCount = min (t.dramCount + 1) 0xFFF))
    let lost := fun (i : Instr) (z : Nat) => WellFormed i → exec i s = .next (raisePrecise s s.cur .cp 0x07 z)
    let sram := InSram (regAddr t gs 6) 64
    (wiredEngine s.cur.idx = some e →
      refused (.dprea gu) .prea 0 ∧ refused (.dref gu) .ref 0 ∧ refused (.drefb gu bank) (.refb bank.toNat) bank.toNat) ∧
    (dramXlate p s.cur.idx va = .ok (e, row) →
      refused (.dact gu gp) (.act b row) b ∧ refused (.dpre gu gp) (.pre b) b ∧ (sram → refused (.dwr gu gp gs) (.wr b row) b)) ∧
    (wiredEngine s.cur.idx = none → lost (.dprea gu) 0x0004 ∧ lost (.dref gu) 0x0004 ∧ lost (.drefb gu bank) 0x0004) ∧
    (dramXlate p s.cur.idx va = .error d →
      lost (.dact gu gp) d ∧ lost (.dpre gu gp) d ∧ (sram → lost (.dwr gu gp gs) d) ∧
      (sram → (∀ a, optBar t gk = some a → BarFits a) → lost (.drd gu gp gs gk) d)))

/-- R210: a DRD's window writes the burst's 64 bytes; a DWR reads 64 bytes of its tile and writes them to the
burst; a burst's return makes the engine hold it.
It rests also on the model's choice of log entry 18. -/
def Obligations.DramBursts : Prop :=
  ∀ (s : State) (l : Loc) (p : Part) (t : Tile) (x : Burst) (bad : List Nat),
    Stands s l p t → l.idx < poolBase → t.bursts = [x] → tileWf t = true → t.accs = [] → memWf s.dram = true → x.sram % 16 = 0 →
    (x.read = true → x.data.length = 64 →
      Steps (.drdWindow l x.id) s l (fun t' => SramIs t t' x.sram 64 (fun k => x.data.getD k 0) ∧ t'.g = t.g ∧
        (∀ b, x.bar = some b → mget 0 t'.counts b = mget 0 t.counts b + 64))) ∧
    (∀ a, x.phys = some a → ∃ u t', exec (.dwrRead l x.id) s = .next u ∧ tileOf u l = some t' ∧ t'.sram = t.sram ∧
      u.hostMem = s.hostMem ∧
      ∀ k, mget 0 u.dram k = if a ≤ k ∧ k < a + 64 then BitVec.ofNat 8 (readByte t (x.sram + (k - a))) else mget 0 s.dram k) ∧
    Steps (.drdBurstHeld l x.id bad) s l (fun t' => t'.sram = t.sram ∧
      t'.bursts = [{ x with held := true, bad := bad.foldl sinsert x.bad }])

/-- R212, R213, R319: a refresh tick raises every count by one; a tick that reaches no bank's deadline raises
nothing else. A deadline that is missed gives the bank its refresh and, by dram_mode, an event per bank at the wired
tile of even TX in ascending order, or a count, the engine making it up as soon as the minimums allow. The guard always
completes and changes the engines alone, and leaves them alone where no bank is due; from an edge at which the minimums
are met it refreshes a due bank, 26 edges after closing an open row that it opens again 239 edges later, and closes and
opens a row that has stood open for 35.1 µs. An engine that makes up a refresh closes the bank's row and refreshes it 24
cycles later.
It rests also on the model's choices of log entries 17, 23 and 67. -/
def Obligations.RefreshSteps : Prop :=
  ∀ (s : State) (band eng bank : Nat) (p : Part), Holds s band p →
    (p.ticks < 8 → StepsPart (.refreshTick band) s band (fun p' => p' = { p with ticks := p.ticks + 1 })) ∧
    (let past := fun (k b : Nat) => 9 ≤ (p.ticks : Int) + 1 - (getEngine p k).refs - (getBank (getEngine p k) b).refs
      let bs := (List.range 64).filter (fun b => decide (past eng b))
      let tile := 64 * (eng / 64) + 2 * (eng % 32) + 1024 * (if eng / 32 % 2 = 0 then 0 else 783)
      let only := ∀ k, k < 64 * p.count → k ≠ eng → ∀ b, b < 64 → ¬ past k b
      let counted := fun (p' : Part) => p'.ticks = p.ticks + 1 ∧ (∀ k, k ≠ eng → getEngine p' k = getEngine p k) ∧
        ∀ b, getBank (getEngine p' eng) b = if b ∈ bs then { getBank (getEngine p eng) b with refs := (getBank (getEngine p eng) b).refs + 1 }
          else getBank (getEngine p eng) b
      (only → (∀ b, b < 64 → ¬ past eng b) → StepsPart (.refreshTick band) s band (fun p' => p' = { p with ticks := p.ticks + 1 })) ∧
      (only → eng < 64 * p.count → bs ≠ [] → 8 ≤ p.ticks → p.mode = .running →
        ((getTile p tile).dramMode = false → StepsPart (.refreshTick band) s band (fun p' => counted p' ∧ p'.misses = p.misses ∧
          p'.found = p.found ++ bs.map (fun b => { tile := tile, cause := 0x06, detail := 15 * 4096 + eng % 32 * 64 + b, epc := none }))) ∧
        ((getTile p tile).dramMode = true → StepsPart (.refreshTick band) s band (fun p' => counted p' ∧ p'.found = p.found ∧
          p'.misses = p.misses ++ bs.map (fun _ => tile) ∧
          (getEngine p' eng).self = (getEngine p eng).self ++
            bs.map (fun b => (b, max p.gcyc (selfFrom (getEngine p eng) b))))))) ∧
    StepsPart (.refreshGuard band) s band (fun p' => (∃ es a, p' = { p with engines := es, activity := a }) ∧
      ∀ k, 64 * p.count ≤ k → getEngine p' k = getEngine p k) ∧
    (let e := getEngine p eng
      let k := getBank e bank
      let due := fun (b : Nat) => 8 ≤ owed p e b
      let stale := fun (b : Nat) => rowStale p s.edge (getBank e b) = true
      let acts := fun (refs : Int) (guard : Nat) (good : Bank → Prop) => StepsPart (.refreshGuard band) s band (fun p' =>
        let k' := getBank (getEngine p' eng) bank
        k'.row = k.row ∧ k'.refs = k.refs + refs ∧ good k' ∧ (getEngine p' eng).guard = max e.guard guard ∧
        ∀ b, b ≠ bank → getBank (getEngine p' eng) b = getBank e b)
      eng < 64 * p.count → bank < 64 → (∀ b, b < 64 → b ≠ bank → ¬ due b ∧ ¬ stale b) →
      e.allFrom ≤ s.edge → k.preFrom ≤ s.edge → k.refFrom ≤ s.edge → k.actFrom ≤ s.edge → (∀ a ∈ e.actEdges, a.1 + 22 ≤ s.edge) →
      (due bank → openRow p s.edge p.gcyc k ≠ none → acts 1 (s.edge + 291) (fun k' => k'.openEdge = s.edge + 265)) ∧
      (due bank → k.row = none → acts 1 (s.edge + 239) (fun _ => True)) ∧
      (¬ due bank → stale bank → acts 0 (s.edge + 52) (fun k' => k'.openEdge = s.edge + 26))) ∧
    ((∀ k, k < 64 * p.count → ∀ b, b < 64 → owed p (getEngine p k) b < 8 ∧
        ((getBank (getEngine p k) b).row = none ∨ s.edge < (getBank (getEngine p k) b).openEdge + 45630)) →
      StepsPart (.refreshGuard band) s band (fun p' => p' = p)) ∧
    (selfFrom (getEngine p eng) bank ≤ p.gcyc →
      StepsPart (.engineSelfRefresh band eng bank) s band (fun p' =>
        (getBank (getEngine p' eng) bank).pre = some p.gcyc ∧ (getBank (getEngine p' eng) bank).ref = some (p.gcyc + 24) ∧
        (∀ b, b ≠ bank → getBank (getEngine p' eng) b = getBank (getEngine p eng) b) ∧ p'.tiles = p.tiles ∧ p'.ticks = p.ticks)) ∧
    (p.gcyc < selfFrom (getEngine p eng) bank →
      StepsPart (.engineSelfRefresh band eng bank) s band (fun p' =>
        (getEngine p' eng).banks = (getEngine p eng).banks ∧ p'.tiles = p.tiles ∧ p'.ticks = p.ticks))

/-! ## Links -/

/-- R215, R218, R219: at the rim of its port, with an address that the launch translates, LNKP notes a put
whose first line is read at issue, and sends one of 16 bytes at once; LNKG opens a landing at its port and
sends its request. A transfer of no bytes does nothing. R306: one that names the module itself is carried back by the
port. R363: one for rows of the module's DRAM that are reserved to a swapped or restoring launch of another ASID is refused.
It rests also on the model's choices of log entries 30, 31, 32, 33, 44 and 82. -/
def Obligations.LinkTransfersIssue : Prop :=
  ∀ (s : State) (p : Part) (t : Tile) (gu : Guard) (port cls : BitVec 2) (gp : BitVec 4) (gs gd gk gn : BitVec 5) (pa : Nat),
    Ready s p t gu (pairReads gp ++ [codeG gs.toNat, codeG gd.toNat, codeG gk.toNat, codeG gn.toNat]) →
    p.rec_.replayRun = false → atRim s.cur.idx port.toNat = true → linkXlate p.rec_ (pairOf t gp) = some pa →
    let n := (rg t gn.toNat).toNat / 16 * 16
    let src := regAddr t gs 4
    let dst := regAddr t gd 4
    let k := 4 * (p.first + tx s.cur.idx / 64) + port.toNat
    let held := (t.puts.filter (fun u => !u.acked)).foldl (fun a u => a + u.n) 0
    let x := readLine t src
    let put : Instr := .lnkp gu port cls gp gs gn
    let get : Instr := .lnkg gu port cls gp gd gk gn
    let own := paModule pa = s.moduleId
    let free := paKind pa = 1 → own → reservedElse s p.rec_.asid (pa % 2 ^ 42) n = false
    let back := fun (kind : InKind) (blocks : List (Nat × List Byte)) => Instr.inboundTransferArrival (backPort k pa) {
      kind := kind, src := s.moduleId, xid := s.seqNo, asid := BitVec.ofNat 14 p.rec_.asid, cls := cls, pa := BitVec.ofNat 64 pa, n := n,
      issued := s.edge, blocks := blocks, trailer := true }
    (free → paBad pa (n + maskLen cls.toNat n) = false → n + held ≤ 65536 → (n = 0 ∨ InSram src n) →
      Clear t .cp (if n = 0 then [] else [src]) [] → WellFormed put →
      ∃ u t', exec put s = .next u ∧ After s u t t' [] ∧
        (n = 0 → t'.puts = t.puts ∧ u.outbox = s.outbox) ∧
        (n ≠ 0 → t'.puts = t.puts ++ [{
          id := s.seqNo, t := p.gcyc, pc := (issueOf t .cp).pc, port := k, cls := cls.toNat, pa := pa, src := src, n := n,
          data := [(0, (x, linePoison t src))], acked := false, covered := true }]) ∧
        (n = 16 → ¬ own → u.outbox = s.outbox ++ [.put k cls.toNat p.rec_.asid pa 16 s.seqNo (bytesOf 16 x.toNat)]) ∧
        (n = 16 → own → CarriedBack s u (back .put [(0, bytesOf 16 x.toNat)])) ∧
        (16 < n → u.outbox = s.outbox ∧ u.inputs = s.inputs)) ∧
    (¬ free → paBad pa (n + maskLen cls.toNat n) = false → (n = 0 ∨ InSram src n) → WellFormed put →
      exec put s = .next (raisePrecise s s.cur .cp 0x07 0x0005)) ∧
    (free → paBad pa n = false → (n + maskLen cls.toNat n = 0 ∨ InSram dst (n + maskLen cls.toNat n)) → (∀ a, optBar t gk = some a → BarFits a) →
      WellFormed get →
      ∃ u t', exec get s = .next u ∧ tileOf u s.cur = some t' ∧ SameTile t t' ∧ OnlyPort s u k s.cur ∧
        (n = 0 → getPort u k = getPort s k ∧ u.outbox = s.outbox) ∧
        (n ≠ 0 → (¬ own → u.outbox = s.outbox ++ [.get k cls.toNat p.rec_.asid pa n s.seqNo]) ∧
          (own → CarriedBack s u (back .getRequest [])) ∧
          (getPort u k).land = (getPort s k).land ++ [{
            newLand s.seqNo p s.cur.idx dst n cls.toNat (optBar t gk) (some s.seqNo) none s.moduleId s.seqNo s.edge with
            pc := (issueOf t .cp).pc }]))

/-- R218, R312: a later line of a put is read, and the last one sends it; an acknowledged put counts no longer, in its
tile or in the image of its swapped launch; the serving side of a get reads a line on each groomer edge and answers
after the last. R306: a put or an answer for the module itself is carried back by the port.
It rests also on the model's choices of log entries 27, 32, 82 and 98. -/
def Obligations.LinkSources : Prop :=
  ∀ (s : State) (l : Loc) (p : Part) (t : Tile) (x : Put) (line port : Nat) (v : Serve) (r : List Serve),
    Stands s l p t → l.idx < poolBase → p.rec_.replayRun = false →
    let y := readLine t (x.src + 16 * line)
    let x' : Put := { x with data := mput x.data line (y, linePoison t (x.src + 16 * line)) }
    let own := paModule x.pa = s.moduleId
    (t.puts = [x] → Quiet t [x.src + 16 * line] → ∃ u t', exec (.lnkpSourceRead l x.id line) s = .next u ∧
      tileOf u l = some t' ∧ t'.sram = t.sram ∧ t'.puts = [x'] ∧
      (line + 1 ≠ x.n / 16 → u.outbox = s.outbox ∧ u.inputs = s.inputs) ∧
      (line + 1 = x.n / 16 → ¬ own → u.outbox = s.outbox ++ [.put x.port x.cls p.rec_.asid x.pa x.n x.id (putBytes x')]) ∧
      (line + 1 = x.n / 16 → own → CarriedBack s u (.inboundTransferArrival (backPort x.port x.pa) {
        kind := .put, src := s.moduleId, xid := x.id, asid := BitVec.ofNat 14 p.rec_.asid, cls := BitVec.ofNat 2 x.cls,
        pa := BitVec.ofNat 64 x.pa, n := x.n, issued := s.edge, blocks := inBlocks (putBytes x'), trailer := true }))) ∧
    ((∀ c ∈ s.ctxs, ∀ y, c.saved = some y → y.first ≠ l.band) →
      Steps (.putAcknowledge l x.id) s l (fun t' => t'.sram = t.sram ∧ t'.puts = t.puts.filter (fun u => u.id != x.id))) ∧
    (∀ c y, s.ctxs = [c] → c.saved = some y → y.first = l.band → ∃ u y', exec (.putAcknowledge l x.id) s = .next u ∧
      u.ctxs = [{ c with saved := some y' }] ∧ (∀ j, j ≠ l.idx → getTile y' j = getTile y j) ∧
      getTile y' l.idx = { getTile y l.idx with puts := (getTile y l.idx).puts.filter (fun u => u.id != x.id) }) ∧
    ((getPort s port).serve = v :: r → v.band = l.band → v.tile = l.idx → t.servedDirty = [] →
      let d := v.data ++ bytesOf 16 (readLine t (v.addr + v.data.length)).toNat
      ∃ u t', exec (.lnkgServeRead port) s = .next u ∧ tileOf u l = some t' ∧ t'.sram = t.sram ∧
        (1 < v.left → (getPort u port).serve = { v with data := d, left := v.left - 1 } :: r ∧ u.outbox = s.outbox) ∧
        (v.left ≤ 1 → (getPort u port).serve = r ∧
          (v.src ≠ s.moduleId → u.outbox = s.outbox ++ [.reply port v.src v.xid d]) ∧
          (∀ j e, v.src = s.moduleId → s.ports = [(port, getPort s port), (j, { land := [e] })] → e.get = some v.xid →
            (getPort s port).land = [] →
            CarriedBack s u (.inboundTransferArrival j {
              kind := .getReply v.xid, src := s.moduleId, xid := v.xid, asid := 0, cls := BitVec.ofNat 2 e.cls, pa := 0, n := e.n,
              issued := s.edge, blocks := inBlocks d, trailer := true }))))

/-- R219 to R221, R312, R414: a port that is down takes nothing; a put to host memory is written and
acknowledged; a reliable transfer for a launch that is not resident waits at its port; one of a single block for a
resident launch is held at its port as a landing that has closed, and is acknowledged. R306: an acknowledgement of the
module's own put is carried back by the port.
It rests also on the model's choices of log entries 3, 33, 34 and 82. -/
def Obligations.InboundTransfers : Prop :=
  ∀ (s : State) (k : Nat) (x : Inbound), (getPort s k).waiting = [] →
    let i : Instr := .inboundTransferArrival k x
    let a := x.pa.toNat % 2 ^ 42
    ((getPort s k).down = true → PortStep i s k (fun q => q = getPort s k) []) ∧
    ((getPort s k).down = false → x.kind = .put → paKind x.pa.toNat = 2 → memWf s.hostMem = true →
      ∀ b d, x.blocks = [(b, d)] → ∃ u, exec i s = .next u ∧ getPort u k = getPort s k ∧ u.dram = s.dram ∧
        (x.src ≠ s.moduleId → u.outbox = s.outbox ++ [.ack k x.src x.xid]) ∧
        (∀ l, x.src = s.moduleId → putOwner s x.xid = some l → CarriedBack s u (.putAcknowledge l x.xid)) ∧
        ∀ z, mget 0 u.hostMem z =
          if a + 512 * b ≤ z ∧ z < a + 512 * b + d.length then d.getD (z - (a + 512 * b)) 0 else mget 0 s.hostMem z) ∧
    ((getPort s k).down = false → x.kind = .put → paKind x.pa.toNat = 0 → portPart s k x.asid.toNat = none → x.cls ≠ 0 →
      PortStep i s k (fun q => q = { getPort s k with waiting := [x] }) []) ∧
    (∀ p n d, (getPort s k).down = false → x.kind = .put → paKind x.pa.toNat = 0 → portPart s k x.asid.toNat = some p →
      p.rec_.replayRun = false → inboundEntry p.rec_ x.pa.toNat = some n → 64 * p.first ≤ paCol x.pa.toNat →
      paCol x.pa.toNat < 64 * (p.first + p.count) → paTy x.pa.toNat < 784 → paBad x.pa.toNat x.n = false → x.cls ≠ 0 →
      (getPort s k).land = [] → (getPort s k).begun = [] → x.blocks = [(0, d)] → d.length = x.n → 0 < x.n → x.n ≤ 512 →
      x.n % 16 = 0 → x.src ≠ s.moduleId →
      PortStep i s k (fun q => ∃ e : LandEntry, q = { getPort s k with land := [e] } ∧ e.closed = true ∧ e.band = p.first ∧
        e.tile = paCol x.pa.toNat - 64 * p.first + 1024 * paTy x.pa.toNat ∧ e.bar = some n.bar ∧ e.src = x.src ∧ e.xid = x.xid ∧
        e.lines.length = x.n / 16 ∧ ∀ j y, e.lines[j]? = some y → y.addr = x.pa.toNat % 2 ^ 18 / 16 * 16 + 16 * j ∧
          y.bytes = ((d.drop (16 * j)).take 16).map some) [.ack k x.src x.xid])

/-- R219, R220, R312: a transfer closes with zeros for what did not arrive, its validity mask after it in
class 0, 8 µs after its issue at the latest, and a put is acknowledged, one of the module itself by a step that its
port carries back (R306); the fabric's report of an absent module ends a put and raises a collective failure.
It rests also on the model's choices of log entries 3, 34 and 82. -/
def Obligations.TransfersClose : Prop :=
  ∀ (s : State) (k : Nat) (e : LandEntry), (getPort s k).land = [e] → e.closed = false → e.coll = none →
    let closed := fun (q : Port) => q.land = [{ e with closed := true, lines := closeLines e, blocks := [] }]
    let ack : List OutMsg := if e.get.isSome then [] else [.ack k e.src e.xid]
    let away := e.get = none → e.src ≠ s.moduleId
    (away → PortStep (.transferClose k e.id) s k closed ack) ∧
    (∀ l i, i = Instr.transferClose k e.id ∨ i = .class0CloseTimeout k e.id ∧ e.cls = 0 ∧ e.edge0 + 10400 ≤ s.edge →
      e.get = none → e.src = s.moduleId → putOwner s e.xid = some l → ∃ u, exec i s = .next u ∧
      closed (getPort u k) ∧ CarriedBack s u (.putAcknowledge l e.xid)) ∧
    (away → e.cls = 0 → e.edge0 + 10400 ≤ s.edge → PortStep (.class0CloseTimeout k e.id) s k closed ack) ∧
    (e.cls = 0 → s.edge < e.edge0 + 10400 → PortStep (.class0CloseTimeout k e.id) s k (fun q => q = getPort s k) []) ∧
    (∀ l p t x, Stands s l p t → l.idx < poolBase → p.mode = .running → t.puts = [x] → e.get = none →
      ∃ u t' p', exec (.noModuleReport l x.id none) s = .next u ∧ tileOf u l = some t' ∧ t'.puts = [] ∧ t'.sram = t.sram ∧
        getPort u k = getPort s k ∧ getPart u l.band = some p' ∧
        p'.found = p.found ++ [{ tile := l.idx, cause := 0x10, detail := 0x0005, epc := some (x.pc, 6) }])

/-- R220, R316: on a groomer edge one line of a closed landing is written: of one that names no barrier, or, in
race-bound mode, of one that counts on a barrier.
It rests also on the model's choice of log entry 27. -/
def Obligations.LandingsWrite : Prop :=
  ∀ (s : State) (k : Nat) (p : Part) (t : Tile) (e : LandEntry) (x : LandLine) (r : List LandLine),
    (getPort s k).land = [e] → e.closed = true → e.lines = x :: r → x.addr % 16 = 0 → x.bytes.length = 16 →
    let l : Loc := { band := e.band, idx := e.tile }
    Stands s l p t → l.idx < poolBase → memWf t.sram = true → t.watches = [] →
    let left := fun (q : Port) => q.land = if r = [] then [] else [{ e with lines := r, first := false, flags := 0 }]
    (e.bar = none → ∃ u t', exec (.barrierlessLandingWrite k) s = .next u ∧ tileOf u l = some t' ∧ OnlyPort s u k l ∧
      left (getPort u k) ∧ LineIs t t' x ∧ SameEvent t t' ∧ t'.g = t.g ∧
      t'.flg = t.flg ||| (if e.first then e.flags else 0)) ∧
    (∀ b, e.bar = some b → e.win = none → b % 16 = 0 → b ≠ x.addr → mfind t.held b = none → b ∉ t.tainted →
      (recOf (sramLine t.sram b)).rest = 0 → (recOf (sramLine t.sram b)).armed = true →
      let n := (x.bytes.filter Option.isSome).length
      let rec0 := recOf (sramLine t.sram b)
      rec0.arrived.toNat + n < rec0.expected.toNat →
      ∃ u t', exec (.raceBoundLandingWrite k) s = .next u ∧ tileOf u l = some t' ∧ left (getPort u k) ∧
        recOf (sramLine t'.sram b) = { rec0 with arrived := rec0.arrived + BitVec.ofNat 32 n } ∧
        ∀ a, (a < b ∨ b + 16 ≤ a) → mget 0 t'.sram a =
          if x.addr ≤ a ∧ a < x.addr + 16 then (x.bytes.getD (a - x.addr) none).getD (mget 0 t.sram a) else mget 0 t.sram a)

/-- R36: the bytes of a cycle count on an armed record: below its expected count they are added; at it the phase
flips and the record disarms; beyond it OVR is set as well; on a record that is not armed only OVR is set. R229:
BARI and BARX. -/
def Obligations.BarrierRecordsCount : Prop :=
  ∀ (b : BRec) (n : Nat) (w : Word),
    let e := b.expected.toNat
    let m := b.arrived.toNat + n
    (b.armed = true → m < e → mergeUpdate b n = { b with arrived := BitVec.ofNat 32 m }) ∧
    (b.armed = true → m = e → mergeUpdate b n = { b with arrived := 0, phase := !b.phase, armed := false }) ∧
    (b.armed = true → e < m → mergeUpdate b n = { b with arrived := 0, phase := !b.phase, armed := false, ovr := true }) ∧
    (b.armed = false → mergeUpdate b n = { b with ovr := true }) ∧
    (w ≠ 0 → bariRec b w = { b with expected := w, arrived := 0, ovr := false, armed := true }) ∧
    (bariRec b 0 = { b with expected := 0, arrived := 0, ovr := false, armed := false, phase := !b.phase }) ∧
    (b.expected ≠ 0 → barxRec b = { b with arrived := 0, armed := true }) ∧
    (b.expected = 0 → barxRec b = { b with arrived := 0, armed := false, phase := !b.phase })

/-! ## Collectives -/

/-- R222, R223, R369: COLL with a record that breaks no rule, at the rim of its port and with fewer than 16
collectives pending, starts a sequencer there; a class 0 step 0 whose trailer came before it has closed already. A step is sent from the snapshot in the first outer iteration
and from the buffer later; a step that failed is sent again while retries are left, and raises a collective
failure when none is. R306: a step for the module itself is carried back by its port.
It rests also on the model's choices of log entries 3, 16, 36 and 82. -/
def Obligations.CollectivesStartAndSend : Prop :=
  ∀ (s : State) (p : Part) (t : Tile) (gu : Guard) (gs gk : BitVec 5) (k : Nat) (c : Coll) (e : SentStep),
    (Ready s p t gu [codeG gs.toNat, codeG gk.toNat] →
      let a := regAddr t gs 7
      let x := descOf t a 8
      let r := collRec x
      let kk := 4 * (p.first + tx s.cur.idx / 64) + r.port
      InSram a 128 → (∀ b, optBar t gk = some b → BarFits b) → collBad x = false → atRim s.cur.idx r.port = true →
      (getPort s kk).colls.length < 16 → Clear t .cp ((List.range 8).map (fun j => a + 16 * j)) [] → WellFormed (.coll gu gs gk) →
      ∃ u t' c', exec (.coll gu gs gk) s = .next u ∧ tileOf u s.cur = some t' ∧ SameTile t t' ∧ OnlyPort s u kk s.cur ∧
        (getPort u kk).colls = (getPort s kk).colls ++ [c'] ∧ (getPort u kk).ordinal = (getPort s kk).ordinal + 1 ∧
        c'.id = s.seqNo ∧ c'.ordinal = (getPort s kk).ordinal ∧ c'.tile = s.cur.idx ∧ c'.t = p.gcyc ∧ c'.rec_ = r ∧
        c'.bar = optBar t gk ∧ c'.snapDone = 0 ∧ c'.sent = 0 ∧ c'.seen = [] ∧ c'.unacked = [] ∧
        (let came := (getPort s kk).early.filter (fun y => y.asid.toNat == p.rec_.asid && y.ordinal == (getPort s kk).ordinal)
         (r.cls ≠ 0 ∨ (∀ y ∈ came, y.step ≠ 0 ∨ y.trailer = false) → c'.shut = []) ∧
         (∀ y, r.cls = 0 → came = [y] → y.step = 0 → y.trailer = true →
           c'.shut = [y] ∧ c'.waitEdge = if 1 < c'.total then some s.edge else none)) ∧
        (p.rec_.replayRun = false → c'.total = (r.levels.map (fun x => x.2.1 + 1)).foldl (fun a b => a * b) 1)) ∧
    ((getPort s k).colls = [c] → getPart s c.band = some p → p.first = c.band →
      let r := c.rec_
      let chunk := fun (n : Nat) (d : List Byte) (ws : List Word) =>
        OutMsg.chunk k p.rec_.asid c.id c.ordinal n (ringModule r (walkPeer r n)) (walkOff r n 0) (walkLast r n) d ws
      let off := walkOff r c.sent 0
      let d := if walkOuter r c.sent = 0 then chunkBytes r c.snap off else chunkBytes r c.buf off
      let ws := if r.cls ≠ 0 then [] else if walkOuter r c.sent = 0 then List.replicate r.nblk (ownWord r) else chunkWords r c.words off
      let peer := ringModule r (walkPeer r c.sent)
      let sent := fun (q : Port) =>
        q.colls = [{ c with sent := c.sent + 1, unacked := c.unacked ++ [{ step := c.sent, used := 0, data := d, words := ws }] }]
      (canSend c = true → peer ≠ s.moduleId → PortStep (.collStepSend k c.id) s k sent [chunk c.sent d ws]) ∧
      (canSend c = true → peer = s.moduleId → ∃ u y, exec (.collStepSend k c.id) s = .next u ∧ sent (getPort u k) ∧
        CarriedBack s u (.collChunkReceive k y) ∧ y.src = s.moduleId ∧ y.asid = BitVec.ofNat 14 p.rec_.asid ∧ y.ordinal = c.ordinal ∧
        y.step = c.sent ∧ y.off = off ∧ y.last = walkLast r c.sent ∧ y.trailer = true ∧
        y.blocks = (inBlocks d).map (fun b => (b.1, b.2, ws.getD b.1 0))) ∧
      (c.unacked = [e] → r.cls ≠ 0 →
        (e.used < r.retries → ringModule r (walkPeer r e.step) ≠ s.moduleId → PortStep (.collStepFail k c.id e.step) s k
          (fun q => q.colls = [{ c with unacked := [{ e with used := e.used + 1 }] }]) [chunk e.step e.data e.words]) ∧
        (r.retries ≤ e.used → p.mode = .running → StepsPart (.collStepFail k c.id e.step) s c.band (fun p' =>
          p'.found = p.found ++ [{ tile := c.tile, cause := 0x10, detail := 0x0002, epc := some (c.pc, 6) }])))
      )

/-- R223, R310, R312, R351, R368, R369: a line of the region is read into the snapshot; a whole step that comes in its turn
is combined, landed if it is to land, and acknowledged, or waits while the landing buffer has no room; a class 0 step
closes with its trailer, or, with zeros for what never came, 8 µs after its wait began, whether or not the snapshot is
read; one lost whole whose sender the record does not name is accepted by a message of its own; a step that is
acknowledged is retained no longer, at the port or in a saved image; what comes in class 0 for a
collective that is over counts as acknowledged, and for one that a stop has cancelled it does not.
It rests also on the model's choices of log entries 35, 36 and 37. -/
def Obligations.CollectivesReceive : Prop :=
  ∀ (s : State) (k : Nat) (c : Coll) (p : Part) (x : ChunkIn) (step line : Nat),
    (getPort s k).colls = [c] → c.sent < c.total →
    let r := c.rec_
    let took := fun (y : ChunkIn) =>
      let d := stepBytes r y
      let m := if r.op = 0 then (d, (0 : Flags)) else combineChunk r.op (chunkBytes r c.snap y.off) d
      let ws := if r.op = 0 then stepWords r y else (stepWords r y).map (fun w => w ||| ownWord r)
      let f := c.flags ||| m.2
      let room := (16777216 - (getPort s k).land.foldl (fun a e => a + landHeld e) 0) / (if r.cls = 0 then 516 else 512)
      let data := m.1.take (512 * room) ++ List.replicate (m.1.length - 512 * room) 0
      fun (q : Port) =>
        q.land = (if y.last || r.op == 0 then (getPort s k).land ++ [collLand s.seqNo c s.edge f (collLines r y.off data (ws.take room))]
          else (getPort s k).land) ∧
        ∃ c', q.colls = [c'] ∧ c'.buf = storeChunk r c.buf y.off m.1 ∧ c'.seen = sinsert c.seen y.step ∧ c'.sent = c.sent
    let waits := (x.last || r.op == 0) = true ∧ roomBlocks (getPort s k) r < r.nblk
    let comes := portPart s k x.asid.toNat = some p ∧ p.rec_.replayRun = false ∧ c.band = p.first ∧ c.ordinal = x.ordinal ∧
      smem c.seen x.step = false ∧ smem c.unnamed x.step = false ∧ x.src ≠ s.moduleId
    let late := r.cls = 0 ∧ c.seen.length < c.total ∧ (∃ e, c.waitEdge = some e ∧ e + 10400 ≤ s.edge) ∧ (closingStep c).src ≠ s.moduleId
    let named := r.ringStep ≠ 0 ∧ ringFrom r c.seen.length ≠ r.rank
    PortStep (.collStepAck k c.id step) s k
      (fun q => q.colls = [{ c with unacked := c.unacked.filter (fun e => e.step != step) }]) [] ∧
    (∀ y : Ctx, s.ctxs = [y] → y.ports = [(k, getPort s k)] → ∃ u z, exec (.collStepAck k c.id step) s = .next u ∧ u.ctxs = [z] ∧
      z.ports = [(k, { getPort s k with colls := [{ c with unacked := c.unacked.filter (fun e => e.step != step) }] })]) ∧
    (c.partial_ = [] → c.shut = [] → r.wrap / 16 ≤ c.snapDone → comes → r.cls ≠ 0 → stepWhole r x = true →
      (¬ waits → PortStep (.collChunkReceive k x) s k (took x) [.chunkAck k x.src c.ordinal x.step]) ∧
      (waits → PortStep (.collChunkReceive k x) s k (fun q => q.land = (getPort s k).land ∧
        q.colls = [{ c with partial_ := [x], full := true }]) [])) ∧
    (c.partial_ = [] → c.shut = [] → r.wrap / 16 ≤ c.snapDone → comes → r.cls = 0 → x.trailer = true → x.step = c.seen.length →
      PortStep (.collChunkReceive k x) s k (took x) [.chunkAck k x.src c.ordinal x.step]) ∧
    (c.partial_ = [] → c.shut = [] → late → (r.wrap / 16 ≤ c.snapDone →
        (named → c.seen.length ∉ c.unnamed →
          PortStep (.collStepCloseTimeout k c.id) s k (took (closingStep c)) [.chunkAck k (closingStep c).src c.ordinal c.seen.length]) ∧
        (¬ named → PortStep (.collStepCloseTimeout k c.id) s k (took (closingStep c)) [.lostAck k c.ordinal c.seen.length])) ∧
      (c.snapDone < r.wrap / 16 → PortStep (.collStepCloseTimeout k c.id) s k (fun q => q.land = (getPort s k).land ∧
        ∃ c', q.colls = [c'] ∧ c'.shut = [closingStep c] ∧ c'.seen = c.seen ∧
          c'.waitEdge = if c.seen.length + 1 < c.total then some s.edge else none) [])) ∧
    (portPart s k x.asid.toNat = some p → p.rec_.replayRun = false → c.ordinal ≠ x.ordinal → x.ordinal < (getPort s k).ordinal →
      x.src ≠ s.moduleId → PortStep (.collChunkReceive k x) s k (fun q => q = getPort s k)
        (if x.cls = 0 ∧ x.ordinal ∉ (getPort s k).cancelled then [.chunkAck k x.src x.ordinal x.step] else [])) ∧
    (∀ l t, Stands s l p t → l.idx < poolBase → c.partial_ = [] → c.shut = [] → k / 4 - p.first < p.count → p.first ≤ k / 4 →
      (∀ j, j ≠ k → (getPort s j).colls = []) → Quiet t [r.base + 16 * line] →
      ∃ u t' c', exec (.collSnapshotRead l c.id line) s = .next u ∧ tileOf u l = some t' ∧ t'.sram = t.sram ∧
        (getPort u k).colls = [c'] ∧ c'.snapDone = line + 1 ∧
        c'.snap = storeBytes c.snap (16 * line) (bytesOf 16 (readLine t (r.base + 16 * line)).toNat))

/-! ## The SY slot -/

/-- R227, R239, R240, R244 to R246: WAITC, HALT, CROPEN, CRCLOSE and a BKPT that is not enabled note in the
bundle what takes effect at its end; EVT queues a record, of which a tile keeps eight, and counts a ninth; TMARK
queues a trace record where marks are traced; DSCRD marks lines discardable. -/
def Obligations.WaitsRegionsAndRecords : Prop :=
  ∀ (s : State) (p : Part) (t : Tile) (is : Issue) (imm : BitVec 26) (gp : BitVec 4) (handler : BitVec 13) (budget : BitVec 8)
    (code : BitVec 16) (ga gn : BitVec 5),
    Ready s p t always (pairReads gp ++ [codeG ga.toNat, codeG gn.toNat]) → t.seq.issue = some is →
    let opens : Issue := { is with ranCp := true }
    let ends := fun (i : Instr) (x : Issue) => Notes i s t (fun t' => t'.seq = { t.seq with issue := some x })
    let mark : TraceRec := { ty := 2, gcyc := p.gcyc, payload := [(0x18, 4, code.toNat)] }
    let a := (rg t ga.toNat).toNat % 2 ^ 18
    let n := (rg t gn.toNat).toNat
    (is.sTransfer = false → is.inDelay = false →
      ends (.waitcImm imm) { opens with waitc := some imm.toNat } ∧ ends (.waitcReg gp) { opens with waitc := some (pairOf t gp) }) ∧
    ends .halt { opens with halt := true } ∧
    (t.regions.length < 4 → ends (.cropen handler budget) { opens with push := some (handler, budget.toNat) }) ∧
    (t.regions ≠ [] → ends .crclose { opens with pop := true }) ∧
    (p.breaks = false → ends (.bkpt code) opens) ∧
    Notes (.evt code) s t (fun t' => t'.seq = t.seq ∧
      (t.evts.length < 8 → t'.evtDropped = t.evtDropped ∧
        t'.evts = t.evts ++ [{ code := code.toNat, pc := is.pc, gcyc := p.gcyc, wall := s.edge * 10 / 13 }]) ∧
      (8 ≤ t.evts.length → t'.evtDropped = t.evtDropped + 1 ∧ t'.evts = t.evts)) ∧
    Notes (.tmark code) s t (fun t' => t'.seq = t.seq ∧
      (p.traceOn = true → p.traceMask.testBit 1 = true → t.traces.length < 8 → t.traceDropped = 0 → t'.traces = t.traces ++ [mark]) ∧
      (p.traceOn = false → t'.traces = t.traces)) ∧
    (a % 16 = 0 → n % 16 = 0 → (n = 0 ∨ InSram a n) → Notes (.dscrd ga gn) s t (fun t' =>
      ∀ k, k ∈ t'.discard ↔ k ∈ t.discard ∨ a ≤ 16 * k ∧ 16 * k < a + n))

/-- R225, R229, R231, R237: a barrier instruction makes its access one cycle after its issue; WAITB, which is
due F cycles on or later, takes a pending slot and reads its record one cycle on; DRAIN takes a slot that covers
what the tile has issued before it.
It rests also on the model's choice of log entry 21. -/
def Obligations.BarrierInstructionsAndSlots : Prop :=
  ∀ (s : State) (p : Part) (t : Tile) (gk gn : BitVec 5) (gp : BitVec 4) (m : BitVec 21) (n : BitVec 20) (hi : Bool),
    Ready s p t always ([codeG gk.toNat, codeG gn.toNat] ++ pairReads gp) →
    let a := (rg t gk.toNat).toNat % 2 ^ 18
    let pc := (issueOf t .sy).pc
    let slot := fun (bar : Option Nat) (h : Bool) (d : Nat) (c : List Nat) => ({
      id := s.seqNo, t := p.gcyc, pc := pc, bar := bar, ph := h, due := d, opened := false, window := false, covers := c,
      hold := none } : PSlot)
    let next := fun (i : Instr) (x : NextAcc) => Notes i s t (fun t' => t'.nextAcc = t.nextAcc ++ [(p.gcyc + 1, pc, x)] ∧ t'.pslots = t.pslots)
    let waits := fun (i : Instr) (d : Nat) => p.gcyc + 64 * p.count + 800 ≤ d → Notes i s t (fun t' =>
      t'.nextAcc = t.nextAcc ++ [(p.gcyc + 1, pc, .waitb a s.seqNo)] ∧ t'.pslots = t.pslots ++ [slot (some a) hi d []])
    let drains := fun (i : Instr) (d : Nat) => p.gcyc + 64 * p.count + 800 ≤ d → Notes i s t (fun t' =>
      t'.nextAcc = t.nextAcc ∧ t'.pslots = t.pslots ++ [slot none false d (drainCovers s p t s.cur.idx)])
    (BarFits a →
      next (.bariImm gk m) (.bari a (m.zeroExtend 32)) ∧ next (.bariReg gk gn) (.bari a (rg t gn.toNat)) ∧ next (.barx gk) (.barx a)) ∧
    (t.pslots.length < 16 →
      (BarFits a → waits (.waitbImm gk hi n) (p.gcyc + n.toNat) ∧ waits (.waitbReg gk hi gp) (pairOf t gp)) ∧
      drains (.drainImm n) (p.gcyc + n.toNat) ∧ drains (.drainReg gp) (pairOf t gp))

/-- R238, R241 to R243, R291: REALIGN sets its predicate three cycles on where the tile's copy of GCYC is that of its
four neighbours, and otherwise clears it and finds an alignment event, which names it and is raised as the predicate
lands, and one of each neighbour whose copy differs. AUDO opens a unit whose record is read one cycle on; AUDC ends it, and counts
it if it is the unit named and closed.
It rests also on the model's choices of log entries 43, 49 and 71. -/
def Obligations.RealignAndAuditUnits : Prop :=
  ∀ (s : State) (p : Part) (t : Tile) (qd : BitVec 4) (ga : BitVec 5) (uid : BitVec 16) (x : Unit_),
    Ready s p t always [codeG ga.toNat] → s.cur.idx < poolBase →
    let a := (rg t ga.toNat).toNat % 2 ^ 18 / 64 * 64
    let pc := (issueOf t .sy).pc
    (misaligned p s.cur.idx [0, 1, 2, 3] = none → Lands (.realign qd) s t [landingOf s p .sy 3 (.q qd.toNat true) 0]) ∧
    (∀ d, misaligned p s.cur.idx [0, 1, 2, 3] = some d → WellFormed (.realign qd) →
      ∃ u t' p' near, exec (.realign qd) s = .next u ∧ After s u t t' [landingOf s p .sy 3 (.q qd.toNat false) 0] ∧
        t'.seq.stopped = t.seq.stopped ∧ getPart u s.cur.band = some p' ∧ p'.found = p.found ∧
        p'.foundLater = p.foundLater ++ ({ tile := s.cur.idx, cause := 0x0F, detail := alignDetail s.cur.idx d true, epc := some (pc, 7) } ::
          near).map (fun f => (p.gcyc + 3, f)) ∧
        ∀ f, f ∈ near ↔ ∃ side n, side < 4 ∧ neighbour p s.cur.idx side = some n ∧ (getTile p n).skew ≠ t.skew ∧
          f = { tile := n, cause := 0x0F, detail := alignDetail n ((side + 2) % 4) true, epc := none }) ∧
    (t.unit = none → InSram a 1 → Notes (.audo ga uid) s t (fun t' =>
      t'.nextAcc = t.nextAcc ++ [(p.gcyc + 1, pc, .audo a uid.toNat)] ∧
      ∃ y, t'.unit = some y ∧ y.uid = uid.toNat ∧ y.openPc = pc ∧ y.openCyc = p.gcyc ∧ y.readAt = false ∧ y.ordinal = t.units)) ∧
    (t.unit = some x → x.sampled = false → Notes (.audc uid) s t (fun t' =>
      t'.unit = none ∧ t'.units = if x.uid = uid.toNat ∧ unitClosed p s.cur.idx x = true then t.units + 1 else t.units))

/-! ## Events and checks -/

/-- R26, R110, R240, R244, R341 to R345: TRAP, an enabled BKPT and a free opcode take a precise event, the
partition's first, or one after it that moves no stop; CRABORT stops the partition without an event.
It rests also on the model's choices of log entries 24, 25 and 42. -/
def Obligations.EventsAreTaken : Prop :=
  ∀ (s : State) (p : Part) (t : Tile) (code : BitVec 16) (sl : Slot) (op : BitVec 8),
    tileAt s s.cur = some (p, t) → p.first = s.cur.band → s.cur.idx < poolBase → p.mode = .running →
    let evc := fun (cause detail : Nat) => BitVec.ofNat 32 (detail * 65536 + 256 + cause)
    let epc := fun (z : Slot) => BitVec.ofNat 16 ((issueOf t z).pc.toNat * 8 + slotNum z)
    let done := fun (z : Slot) => doneAt (issueOf t z).mask (slotNum z)
    let takes := fun (i : Instr) (z : Slot) (cause detail kind : Nat) (st : Stop) =>
      ∃ u, exec i s = .next u ∧ TakesEvent s u s.cur p t kind (evc cause detail) (epc z) (done z) st
    let called := fun (z : Slot) (cause detail : Nat) => calledStop s p s.cur (evc cause detail) (epc z) (done z)
    (∀ mask k j, k < 8 → j < 8 → (doneAt mask k).getLsbD j = (decide (j < k) || (decide (k < j) && !mask.testBit j))) ∧
    (p.stop = none →
      takes (.trap code) .sy 0x0D code.toNat 0 (called .sy 0x0D code.toNat) ∧
      (p.breaks = true → (issueOf t .sy).muted ≠ some .bkpt → takes (.bkpt code) .sy 0x0C code.toNat 0 (called .sy 0x0C code.toNat)) ∧
      takes (.unassignedOpcode sl op) sl 0x01 0x0007 0 (called sl 0x01 0x0007) ∧
      ∃ u t' p', exec .crabort s = .next u ∧ tileOf u s.cur = some t' ∧ getPart u s.cur.band = some p' ∧ t'.seq.stopped = true ∧
        t'.seq.issue.isSome = t.seq.issue.isSome ∧ SameEvent t t' ∧ SameMem t t' ∧ u.ring = s.ring ∧
        p'.stop.map (fun st => (st.at_, st.event, st.abort, st.raised)) = some (p.gcyc + lead p, true, true, false)) ∧
    (∀ st, p.stop = some st → st.event = true → st.c1 < p.gcyc → takes (.trap code) .sy 0x0D code.toNat 1 st)

/-- R92, R108, R109, R259, R260, R415: an instruction whose encoding fails a check raises an illegal-instruction
event of its slot with the check's detail; the first late operand of any slot instruction raises an event whose
detail names the register, or is counted in sb_mode, where the slot executes with what the register holds; a false
guard of any slot instruction leaves the state as it is, whatever else the slot names is late or in error. R63 and the
checks of operand values come before the scoreboard; R354: an error in the guard's own predicate is found.
R32, R159 to R161, R166 to R168, R170, R197: a load, a store, a matrix or rank instruction or a send that names an address
past the data SRAM traps with detail 0x0001, and a send whose destination lies outside the partition with a fence violation;
one of its own accesses that finds its bank in use traps with cause 0x03 and every access that took part, and poison that it
reads with cause 0x09; of two engine accesses of a bank the later is dropped and the bank is reported.
It rests also on the model's choices of log entries 12, 28, 90 and 97. -/
def Obligations.IssueChecksComeFirst : Prop :=
  ∀ (s : State) (p : Part) (t : Tile), tileAt s s.cur = some (p, t) → p.first = s.cur.band →
    (∀ i sl w d, encode i = some (sl, w) → encFault i = some d → exec i s = .next (raisePrecise s s.cur sl 0x01 d)) ∧
    (∀ i sl w, encode i = some (sl, w) → encFault i = none →
      let gu := guardIn sl w
      let late := fun (c : Nat) => isLate t p.gcyc c = true
      let does := fun (r : Host.Outcome State Fault Refusal) => exec i s = r ∨ (sl ≠ .va ∧ sl ≠ .vb ∧ CheckedAway i s sl)
      (∀ c ∈ guardReads gu, ¬ late c) →
      (guardTrue t gu = false →
        ((∀ c ∈ guardReads gu, smem t.regErr c = false) → does (.next s)) ∧
        (∀ c, guardReads gu = [c] → smem t.regErr c = true → does (.next (raisePrecise s s.cur sl 0x09 (0xC000 + c))))) ∧
      (guardTrue t gu = true → ∀ a c b, operandsOf t i = a ++ c :: b → (∀ x ∈ a, ¬ late x) → late c →
        (t.sbMode = false → does (.next (raisePrecise s s.cur sl 0x02 (0x1000 + c)))) ∧
        (t.sbMode = true → t.regErr = [] → sl = .va ∨ sl = .vb → ∃ u t', exec i s = .next u ∧ tileOf u s.cur = some t' ∧
          t'.sbCount = min (t.sbCount + 1) 0xFFF))) ∧
    (∀ i sl w c, encode i = some (sl, w) → encFault i = none → guardReads (guardIn sl w) = [c] → isLate t p.gcyc c = true →
      t.sbMode = false → exec i s = .next (raisePrecise s s.cur sl 0x02 (0x1000 + c)) ∨ CheckedAway i s sl) ∧
    (∀ gu gd ga gb, (∀ c ∈ guardReads gu, isLate t p.gcyc c = false) → WellFormed (.add gu gd ga gb) → guardTrue t gu = true →
      isLate t p.gcyc (codeG ga.toNat) = true →
      (t.sbMode = false → exec (.add gu gd ga gb) s = .next (raisePrecise s s.cur .s 0x02 (0x1000 + 0x600 + ga.toNat))) ∧
      (t.sbMode = true → t.regErr = [] →
        Lands (.add gu gd ga gb) s { t with sbCount := min (t.sbCount + 1) 0xFFF }
          [landingOf s p .s 1 (.g gd.toNat (rg t ga.toNat + rg t gb.toNat)) 0])) ∧
    (∀ (gu : Guard) (gd ga gb : BitVec 5) (qs : BitVec 4) (sl : VSlot) (ty : BitVec 4) (rnd m : BitVec 3) (d va vb vc : BitVec 11)
        (z what : BitVec 2),
      (∀ c ∈ guardReads gu, isLate t p.gcyc c = false ∧ smem t.regErr c = false) → guardTrue t gu = false →
      ∀ i ∈ [Instr.add gu gd ga gb, .mul gu gd ga gb, .sel gu gd ga gb qs, .vadd sl gu ty rnd d va vb, .vfma sl gu ty rnd d va vb vc,
        .vsel sl gu ty rnd d va vb m, .zclr gu z what], WellFormed i → exec i s = .next s) ∧
    (∀ (gu : Guard) (d vi : BitVec 11) (gb gs gd : BitVec 5) (off : BitVec 18) (esz : BitVec 2) (qd : BitVec 4) (md : BitVec 3),
      let n := 2 ^ esz.toNat
      let at_ := fun (more : Int) (bits : Nat) => effAddr (rg t gb.toNat) off.toInt more bits
      let loads := fun (i : Instr) (as : List Nat) (b : Nat) =>
        ((∃ a ∈ as, sramEnd ≤ a) → Traps i s .ld 0x01 0x0001) ∧
        ((∀ a ∈ as, a < sramEnd) → Ready s p t gu [codeG gb.toNat, codeG gs.toNat, codeV t vi] →
          Clashes i s t .ld as (as.map (fun a => (a, b))))
      loads (.ldv gu d gb off) [at_ 0 4] 16 ∧
      loads (.ldvsStrided gu d gb off gs esz) ((List.range (16 / n)).map (fun (k : Nat) => at_ (k * (rg t gs.toNat).toInt) esz.toNat)) n ∧
      loads (.ldvsGathered gu d gb off vi) ((List.range 4).map (fun k => at_ (sgn 32 (elem 32 (vop t vi) k)) 2)) 4 ∧
      loads (.ldg gu gd gb off) [at_ 0 2] 4 ∧ loads (.ldb gu d gb off esz) [at_ 0 esz.toNat] n ∧
      loads (.ldq gu qd gb off) [at_ 0 0] 1 ∧ loads (.ldm gu md gb off) [at_ 0 1] 2) ∧
    (∀ (gu : Guard) (vs vi : BitVec 11) (gb gs : BitVec 5) (off : BitVec 18) (qs : BitVec 4) (m : BitVec 3),
      let at_ := fun (o more : Int) (bits : Nat) => effAddr (rg t gb.toNat) o more bits
      let el := (List.range 4).map (fun k => at_ 0 (sgn 32 (elem 32 (vop t vi) k)) 2)
      let stores := fun (i : Instr) (as : List Nat) =>
        ((∃ a ∈ as, sramEnd ≤ a) → Traps i s .st 0x01 0x0001) ∧
        ((∀ a ∈ as, a < sramEnd) → t.watches = [] →
          Ready s p t gu [codeV t vs, codeV t vi, codeG gb.toNat, codeG gs.toNat, codeQ qs.toNat, codeM m.toNat] →
          Clashes i s t .st (as.map lineOfAddr) [])
      stores (.stvOffset gu vs gb off) [at_ off.toInt 0 4] ∧ stores (.stvmOffset gu vs gb off m) [at_ off.toInt 0 4] ∧
      stores (.stvScatter gu vs gb vi) el ∧ stores (.stvmScatter gu vs gb vi m) el ∧
      stores (.stg gu gs gb off) [at_ off.toInt 0 2] ∧ stores (.stq gu qs gb off) [at_ off.toInt 0 0]) ∧
    (∀ (gu : Guard) (z ma mb shape glen : BitVec 2) (row ta tb : BitVec 4) (k len n : BitVec 10) (ga gb gt grp : BitVec 5)
        (off : BitVec 18) (first cnt : BitVec 8) (rnd : BitVec 3),
      let has := fun (i : Instr) (rs : List (Nat × Nat)) => (∃ r ∈ rs, sramEnd < r.1 + r.2) → Traps i s .mx 0x01 0x0001
      let meets := fun (i : Instr) (rs : List (Nat × Nat)) (lines : List Nat) (reads : List (Nat × Nat)) =>
        has i rs ∧ ((∀ r ∈ rs, InSram r.1 r.2) → Ready s p t gu [codeG ga.toNat, codeG gb.toNat, codeG gt.toNat] →
          Clashes i s t .mx lines reads)
      let rows := if shape.toNat < 2 then 16 else 8
      let size := fun (d : Nat) (ty : BitVec 4) => 2 * d * tyWidth ty.toNat
      let d1 := 16 / tyWidth ta.toNat
      let d2 := if tyWidth ta.toNat = 4 ∧ tyWidth tb.toNat = 4 then 4 else 2
      let block := fun (m : BitVec 2) (d : Nat) (ty : BitVec 4) => (blockAddr t m (size d ty), size d ty)
      let blocks := fun (d : Nat) => [block ma d ta, block mb d tb]
      let of_ := fun (rs : List (Nat × Nat)) => rs.flatMap (fun r => lineList r.1 r.2)
      let ra := (rg t ga.toNat).toNat % 2 ^ 18
      let rb := (rg t gb.toNat).toNat % 2 ^ 18
      let g := grp.toNat + mget 0 t.kc z.toNat / (32 * 2 ^ glen.toNat)
      let at_ := fun (bits : Nat) => effAddr (rg t gb.toNat) off.toInt 0 bits
      let w := tyWidth ta.toNat
      let es := at_ (if w = 32 then 6 else if w = 16 then 5 else 4)
      let list := regAddr t ga 3
      let nn := n.toNat + 1
      let kk := k.toNat + 1
      let la4 := regAddr t ga 4
      let lb4 := regAddr t gb 4
      let ins := rankBlockLines ta.toNat nn lb4 0
      (lostRow t z.toNat (List.range rows) (p.gcyc + 6) = none →
        meets (.mma gu z ma mb ta tb shape) (blocks d1) (of_ (blocks d1)) (blocks d1)) ∧
      (ra % 256 = 0 → rb % 256 = 0 → g < 16 →
        meets (.mmaq gu z ma mb ta tb shape glen ga gb grp) (blocks d2 ++ [(ra, 256), (rb, 256)]) (of_ (blocks d2) ++ [ra + 16 * g])
          (blocks d2 ++ [(ra + 16 * g, 16)])) ∧
      (ra % 512 = 0 → rb % 512 = 0 → grp.toNat < 16 → lostRow t z.toNat (List.range rows) (p.gcyc + 6) = none →
        meets (.scalc gu z shape ga gb grp) [(ra, 512), (rb, 512)] (lineList (ra + 32 * grp.toNat) 32) [(ra + 32 * grp.toNat, 32)]) ∧
      meets (.zld gu z gb off) [(at_ 6, 1024)] (lineList (at_ 6) 128) [(at_ 6, 128)] ∧ has (.zst gu z ta rnd gb off) [(es, 32 * w)] ∧
      meets (.attld gu first cnt gb off) [(at_ 4, 2 * (cnt.toNat + 1))] [at_ 4] [(at_ 4, 16)] ∧
      (t.rankBusy ≤ p.gcyc → ∀ i ∈ [Instr.rank gu ta n k ga gb, .rankThreshold gu ta n k gt ga gb],
        meets i [(lb4, nn * (w / 8)), (la4, 16 * ((8 + 2 * kk + 15) / 16))] ins (ins.map (fun a => (a, 16)))) ∧
      (t.termBusy ≤ p.gcyc → lostRow t z.toNat [row.toNat] (p.gcyc + 6) = none → lateEntry t nn (fun j => p.gcyc + 1 + j) = none →
        meets (.rkacc gu z row ta n ga gb) [(list, 2 * nn)] [lineOfAddr list] [(lineOfAddr list, 16)]) ∧
      (t.termBusy ≤ p.gcyc → lateEntry t nn (fun _ => p.gcyc + listLines list nn) = none →
        meets (.unrank gu ta n len ga gb) [(list, 2 * nn), (lb4, (len.toNat + 1) * w / 8)] [lineOfAddr list] [(lineOfAddr list, 16)])) ∧
    (∀ (gu : Guard) (dop : BitVec 3) (dx dy vs : BitVec 11) (wd nb : Bool) (gs gd gk : BitVec 5) (n : BitVec 10),
      let bits := if wd then 4 else 3
      let m := if wd then 16 else 8
      let src := regAddr t gs bits
      let dst := regAddr t gd bits
      let nf := (n.toNat + 1 + 3) / 4
      let bar := (rg t gk.toNat).toNat % 2 ^ 18
      let ready := Ready s p t gu [codeG gs.toNat, codeG gd.toNat, codeG gk.toNat, codeV t vs]
      let side := if (tx s.cur.idx : Int) + dx.toInt < 0 then 3 else if (64 * p.count : Int) ≤ (tx s.cur.idx : Int) + dx.toInt then 1
        else if (ty s.cur.idx : Int) + dy.toInt < 0 then 0 else 2
      let sends := fun (i : Instr) (fits : Prop) (rs : List (Nat × Nat)) (lines : List Nat) =>
        ((∃ r ∈ rs, sramEnd < r.1 + r.2) → Traps i s .cp 0x01 0x0001) ∧
        ((∀ r ∈ rs, InSram r.1 r.2) → fits → ready →
          (¬ InFence p s.cur.idx dx.toInt dy.toInt → Traps i s .cp 0x05 side) ∧
          (InFence p s.cur.idx dx.toInt dy.toInt → Clashes i s t .cp lines []))
      sends (.send gu dop dx dy wd gs gd gk) (BarFits bar) [(src, m), (dst, m)] [src] ∧
      sends (.sendNb gu dop dx dy wd gs gd) True [(src, m), (dst, m)] [src] ∧
      sends (.sendv gu dop dx dy wd gd gk vs) (BarFits bar) [(dst, m)] [] ∧ sends (.sendvNb gu dop dx dy wd gd vs) True [(dst, m)] [] ∧
      (t.copyBusy ≤ p.gcyc →
        sends (.rksend gu dx dy nb gs gd gk n) (nb = false → BarFits bar) [(regAddr t gs 3, 8 * nf), (regAddr t gd 3, 8 * nf)] [regAddr t gs 3]) ∧
      (t.copyBusy ≤ p.gcyc → bar = 0 → ready → InSram (regAddr t gs 6) 64 →
        let a := regAddr t gs 6
        let x := descOf t a 4
        (∀ c d, cpyBad x = some (c, d) → Traps (.cpy gu gs gk) s .cp c d) ∧
        (cpyBad x = none → InFence p s.cur.idx (cpyDx x) (cpyDy x) → Clashes (.cpy gu gs gk) s t .cp [a, a + 16, a + 32, a + 48] []))) ∧
    (∀ (is : Issue) (slot a : Nat),
      let line := a / 16 * 16
      let bank := a / 16 % 8
      (mfind t.held line = none ∨ slot = 5) → (∀ e ∈ is.loc, ¬ (e.slot = slot ∧ e.line = line)) →
      ((localScan t is slot [a]).2 = some line ↔ (∃ e ∈ t.accs, e.bank = bank) ∨
        ∃ e ∈ is.loc, e.line / 16 % 8 = bank ∧ ¬ (e.slot = 4 ∧ slot = 5 ∧ e.line = line)) ∧
      (∀ e, t.accs = [e] → e.bank = bank → is.loc = [] → localBits t is slot line = e.bits ||| (0x100 <<< (slot - 3)) ||| bank) ∧
      (∀ e, t.accs = [] → is.loc = [e] → e.line / 16 % 8 = bank →
        localBits t is slot line = (0x100 <<< (e.slot - 3)) ||| (0x100 <<< (slot - 3)) ||| bank)) ∧
    (∀ rs : List (Nat × Nat), consumed t rs = none ↔ ∀ r ∈ rs, 0 < r.2 → ∀ g, r.1 < 8 * g + 8 → 8 * g < r.1 + r.2 →
      (mfind t.held (g / 2 * 16)).isSome = true ∨ g ∉ t.poison ∧ g ∉ t.uncorr) ∧
    (∀ (a rank bits : Nat) (bin : Bool), mfind t.held (a / 16 * 16) = none ∨ rank ≠ 0 ∧ rank ≠ 9 →
      let bank := a / 16 % 8
      let acc := fun (won : Bool) => ({ bank := bank, line := a / 16 * 16, rank := rank, bits := bits, won := won, bin := bin, old := readLine t a } : BankAcc)
      ((∀ e ∈ t.accs, ¬ (e.bank = bank ∧ e.won = true)) → claim t a rank bits bin = ({ t with accs := t.accs ++ [acc true] }, true)) ∧
      (∀ e, t.accs = [e] → e.bank = bank → e.won = true → ¬ (bin = true ∧ e.bin = true ∧ e.line = a / 16 * 16) →
        let u := (claim t a rank bits bin).1
        (claim t a rank bits bin).2 = false ∧ u = { t with accs := [e, acc false] } ∧ lostBanks u = [bank] ∧ accBits u bank = e.bits ||| bits))

/-! ## Pending slots and freezes -/

/-- R232 to R237: what the barrier unit does with a WAITB's read at t + 1, at the start of its cycle: it opens the
slot and holds the record, or finds an overrun, or has nothing to wait for. The check of an open slot finds how many
bytes its record wants, and raises a hold unless closed transfers held for it and DRD windows due before d bring them; a
DRAIN's check raises one unless all that it covers is acknowledged. A cycle of a window writes the longest prefix of at
most 8 lines in distinct banks, counts their bytes, and ends the slot after the last, or where its record is not armed:
then what is left waits for the next slot. A held record goes back to its line.
It rests also on the model's choices of log entries 20, 22 and 64. -/
def Obligations.PendingSlotSteps : Prop :=
  ∀ (s : State) (l : Loc) (p : Part) (t : Tile) (w : PSlot), Stands s l p t → l.idx < poolBase → t.pslots = [w] →
    let hold : Hold := { by_ := .slot l.idx w.id, start := w.due, pc := w.pc, count := w.hold.getD 0 }
    let size := fun (x : LandLine) => (x.bytes.filter Option.isSome).length
    let mine := fun (b : Nat) (e : LandEntry) => e.closed && e.band == p.first && e.tile == l.idx && e.bar == some b
    let held := fun (b : Nat) => ((List.range (4 * p.count)).map (fun j =>
      (((getPort s (4 * p.first + j)).land.filter (mine b)).map (fun e => (e.lines.map size).sum)).sum)).sum
    let drd := fun (b : Nat) => 64 * (t.bursts.filter (fun x => x.read && x.bar == some b && decide (fromCycle s p ≤ x.t + 104) &&
      decide (x.t + 104 < w.due))).length
    let line := fun (b : Nat) => ((mfind t.held b).getD (sramLine t.sram b)).toNat
    let need := fun (b : Nat) => if w.reached = true then 0 else line b % 2 ^ 32 - line b / 2 ^ 32 % 2 ^ 32
    (∀ b pc, w.bar = some b → BarFits b → t.nextAcc = [(p.gcyc, pc, .waitb b w.id)] → t.held = [] → t.accs = [] → t.bursts = [] →
      t.copies = [] → t.dropNext = [] → p.flits = [] →
      let x := (sramLine t.sram b).toNat
      let armed := x.testBit 65 = true
      let reads := fun (found : List Found) (ws : List PSlot) (keeps : SMap Line) =>
        (barStart p l.idx).found = p.found ++ found ∧ (getTile (barStart p l.idx) l.idx).pslots = ws ∧
        (getTile (barStart p l.idx) l.idx).held = keeps ∧ (getTile (barStart p l.idx) l.idx).nextAcc = [] ∧
        (getTile (barStart p l.idx) l.idx).sram = t.sram
      let fault := fun (c d : Nat) => ({ tile := l.idx, cause := c, detail := d, epc := some (pc, 7) } : Found)
      (x / 2 ^ 67 ≠ 0 → reads [fault 0x01 0x0002] [] []) ∧
      (x / 2 ^ 67 = 0 → x.testBit 66 = true → reads [fault 0x08 0x0001] [w] []) ∧
      (x / 2 ^ 67 = 0 → x.testBit 66 = false → ¬ armed → x.testBit 64 = w.ph → reads [] [w] []) ∧
      (x / 2 ^ 67 = 0 → x.testBit 66 = false → ¬ armed → x.testBit 64 ≠ w.ph → reads [fault 0x08 0x0002] [w] []) ∧
      (x / 2 ^ 67 = 0 → x.testBit 66 = false → armed → reads [] [{ w with opened := true }] [(b, sramLine t.sram b)])) ∧
    (hasHold p hold = false → p.rec_.replayRun = false →
      (∀ b, w.bar = some b → BarFits b → w.opened = true → StepsPart (.landingSlotCheck l w.id) s l.band (fun p' =>
        p'.holds = (if need b ≤ held b + drd b then p.holds else p.holds ++ [hold]) ∧
        getTile p' l.idx = { t with pslots := [{ w with need := need b, came := 0 }] })) ∧
      (w.opened = false → exec (.landingSlotCheck l w.id) s = .next s) ∧
      (w.bar = none → StepsPart (.drainCheck l w.id) s l.band (fun p' =>
        p' = if ∀ c ∈ w.covers, isAcked s p t c = true then p else { p with holds := p.holds ++ [hold] }))) ∧
    (∀ b, w.bar = some b → w.opened = true → memWf t.sram = true → t.accs = [] →
      let ended := fun (t' : Tile) => t'.pslots = [{ w with opened := false, window := false }]
      ((∀ j, (getPort s j).land = []) → Steps (.landingWindow l w.id) s l (fun t' => ended t' ∧ t'.sram = t.sram)) ∧
      (∀ k e, k ∈ bandPorts p → (∀ j, j ≠ k → (getPort s j).land = []) → (getPort s k).land = [e] → mine b e = true → e.lines ≠ [] →
        ((getRec t b).armed = false → ∃ u t', exec (.landingWindow l w.id) s = .next u ∧ tileOf u l = some t' ∧ ended t' ∧
          t'.sram = t.sram ∧ (e.win = none ∨ e.win = some w.id → (getPort u k).land = [{ e with win := none }])) ∧
        ((getRec t b).armed = true → (w.window = false ∧ e.win = none ∨ w.window = true ∧ e.win = some w.id) →
          e.lines.Pairwise (fun x y => x.addr < y.addr) → (∀ x ∈ e.lines, x.addr % 16 = 0 ∧ x.addr < sramEnd ∧ x.bytes.length = 16) →
          ∀ g r, e.lines = g ++ r → g.length ≤ 8 → (g.map (fun x => bankOf x.addr)).Nodup →
          (g.length = 8 ∨ ∀ y, r.head? = some y → ∃ x ∈ g, bankOf x.addr = bankOf y.addr) →
          ∃ u t', exec (.landingWindow l w.id) s = .next u ∧ tileOf u l = some t' ∧
            (r = [] → ended t' ∧ (getPort u k).land = []) ∧
            (r ≠ [] → t'.pslots = [{ w with window := true }] ∧
              (getPort u k).land = [{ e with lines := r, win := some w.id, first := false, flags := 0 }]) ∧
            mget 0 t'.counts b = mget 0 t.counts b + (g.map size).sum ∧ t'.flg = t.flg ||| (if e.first then e.flags else 0) ∧
            ∀ a, mget 0 t'.sram a = match g.find? (fun x => decide (x.addr ≤ a) && decide (a < x.addr + 16)) with
              | some x => (x.bytes.getD (a - x.addr) none).getD (mget 0 t.sram a)
              | none => mget 0 t.sram a))) ∧
    (∀ a x, mfind t.held a = some x → msorted t.held = true → memWf t.sram = true →
      Steps (.heldRecordWriteback l a) s l (fun t' => SramIs t t' a 16 (byteAt x.toNat) ∧
        ∀ j, mfind t'.held j = if j = a then none else mfind t.held j))

/-- R286 to R288: a freeze begins and ends at one GCYC, and its cycles are counted on the tiles that have not
halted; a hold of a slot or a burst that is active for the limit raises a freeze timeout; the governor, whose pulse
blocks are spread over a microsecond, and the hub place holds F cycles on or later. R289: an event that was found on the
edge on which a freeze begins is raised in it; a freeze at the cycle of an event stop does not end by its release. R385: a
pre-emption asked for in a freeze keeps its own cycle when that freeze has ended.
It rests also on the model's choices of log entries 40 and 63. -/
def Obligations.FreezesAndHolds : Prop :=
  ∀ (s : State) (band : Nat) (p : Part) (n c : Nat), Holds s band p →
    (p.found = [] → StepsPart (.freezeBegin band) s band (fun p' => p'.mode = .frozen s.edge ∧ p'.gcyc = p.gcyc ∧ p'.frozenCyc = 1)) ∧
    (∀ f t pc sl, p.found = [f] → p.misses = [] → p.stop = none → f.tile < poolBase → f.cause < 256 → f.detail < 65536 →
      f.epc = some (pc, sl) → tileAt s { band, idx := f.tile } = some (p, t) →
      let q : Part := { p with mode := .frozen s.edge }
      let evc := BitVec.ofNat 32 (f.detail * 65536 + f.cause)
      let epc := BitVec.ofNat 16 (pc.toNat * 8 + sl)
      ∃ u, exec (.freezeBegin band) s = .next u ∧
        TakesEvent s u { band, idx := f.tile } q t (if f.hub then 2 else 0) evc epc 0xFF (calledStop s q { band, idx := f.tile } evc epc 0xFF)) ∧
    (∀ h ∈ p.holds, h.start ≤ p.gcyc → h.count + 1 = p.rec_.freezeLimit → ∀ i id, h.by_ = .slot i id ∨ h.by_ = .drd i id →
      ∃ u, exec (.freezeBegin band) s = .next u ∧ Instr.freezeTimeout { band, idx := i } id ∈ u.agenda) ∧
    (∀ st, p.stop = some st → st.event = true → st.at_ ≤ p.gcyc → StepsPart (.holdRelease band) s band (fun p' => p' = p)) ∧
    (isFrozen p = true → (∀ st, p.stop = some st → st.event = true → p.gcyc < st.at_) →
      StepsPart (.holdRelease band) s band (fun p' => p'.mode = .running ∧ p'.gcyc = p.gcyc ∧ p'.frozenCyc = 0 ∧
      p'.stop = p.stop.map (fun st => { st with frozen := false }) ∧
      EachTile p p' (fun t t' => t'.g = t.g ∧ t'.sram = t.sram ∧ t'.flight = t.flight ∧
        (t.seq.halted = true → t'.ltc = t.ltc) ∧
        (t.seq.halted = false → msorted t.ltc = true →
          mget 0 t'.ltc (0xE0 + ltcLevel t.loop) = mget 0 t.ltc (0xE0 + ltcLevel t.loop) + BitVec.ofNat 64 p.frozenCyc)))) ∧
    (n ≠ 0 → (∀ h ∈ p.holds, h.by_ ≠ .governor) →
      let m := min n 20
      let gap := (1300 - 64 * m) * (match p.kNext.getLast? with | some e => e.1 | none => p.k) / 64 / m
      let pulse := fun (i b : Nat) => ({ by_ := .governor, start := p.gcyc + lead p + i * gap, blocks := b } : Hold)
      StepsPart (.freezePulse band n) s band (fun p' =>
        p' = { p with holds := p.holds ++ if gap = 0 then [pulse 0 m] else (List.range m).map (fun i => pulse i 1) })) ∧
    StepsPart (.hubHold band c true) s band (fun p' =>
      p' = { p with holds := p.holds ++ [{ by_ := .hub, start := max c (p.gcyc + lead p) }] }) ∧
    StepsPart (.hubHold band c false) s band (fun p' => p'.holds.length = p.holds.length ∧ p'.tiles = p.tiles ∧
      ∀ h ∈ p'.holds, h.by_ = .hub → h.released ≠ none) ∧
    (∀ l t w, Stands s l p t → l.idx < poolBase → t.pslots = [w] → p.stop = none →
      let evc := BitVec.ofNat 32 ((if w.bar = none then 2 else 1) * 65536 + 0x0E)
      let epc := BitVec.ofNat 16 (w.pc.toNat * 8 + 7)
      ∃ u, exec (.freezeTimeout l w.id) s = .next u ∧ TakesEvent s u l p t 0 evc epc 0xFF (calledStop s p l evc epc 0xFF)) ∧
    (∀ l t b, Stands s l p t → l.idx < poolBase → t.pslots = [] → t.bursts = [b] → p.stop = none →
      let evc := BitVec.ofNat 32 (3 * 65536 + 0x0E)
      let epc := BitVec.ofNat 16 (b.pc.toNat * 8 + 6)
      ∃ u, exec (.freezeTimeout l b.id) s = .next u ∧ TakesEvent s u l p t 0 evc epc 0xFF (calledStop s p l evc epc 0xFF))

/-- R284, R291, R318, R387, R388: a cadence applies from its block; the estimator forms a microsecond's energy, with the
bursts that a save writes in it, and charges whole microjoules to the launch's queue; the governor takes the largest
cadence from the stretch to 60 that meets the cap, at most 8 above the present one, from the first block F edges on;
where none meets it, it takes the stretch and places pulse blocks, and one more while an owed refresh asks for it.
Tiles across a stitch whose copies of GCYC differ each find an alignment event. R410: the module's power is the sum of
its bands' estimates, with what bands drew that have no resident launch, and the controller die's own.
It rests also on the model's choices of log entries 6, 10, 23, 40 and 43. -/
def Obligations.CadenceAndPower : Prop :=
  ∀ (s : State) (band : Nat) (p : Part) (k e : Nat), Holds s band p →
    let co := fun (i : Nat) => s.store.coefs.getD i 0
    let n := fun (i : Nat) => mget 0 p.activity i
    let counted := co 0 * p.count + ((List.range 8).map (fun i => co (1 + i) * n i)).sum + co 9 * n 8 + co 10 * n 9 + co 11 * n 10 +
      co 12 * n 11
    let stat := co 0 * p.count
    let pd := p.power - stat
    let cap := p.rec_.cap * 50000000
    let meets := fun (j : Nat) => p.rec_.stretch ≤ j ∧ j ≤ 60 ∧ stat * p.k + pd * j ≤ cap * p.k
    let estimates := fun (energy : Nat) => let r := p.resid + energy
      Becomes (.estimatorUpdate band) s band (fun u p' =>
        p' = { p with resid := r % 1000000, energy := (p.energy + r / 1000000) % 2 ^ 64, power := energy, activity := [] } ∧
        (getQueue u p.queue).energy = ((getQueue s p.queue).energy + r / 1000000) % 2 ^ 64 ∧
        u.power = ((s.idlePower + (u.parts.map (fun e => e.2.power)).sum) / 1000000 + Config.diePower) % 2 ^ 20)
    let governs := fun (j m : Nat) => Becomes (.governorEvaluation band) s band (fun u p' =>
      p' = (if j = p.k then p else { p with kNext := [(j, 64 * ((s.edge + lead p + 63) / 64))] }) ∧
      u.agenda = s.agenda ++ if m = 0 ∨ p.rec_.replayRun = true then [] else [.freezePulse band (min m 20)])
    let asks := p.k < 60 ∧ ∃ j b, j < 64 * p.count ∧ b < 64 ∧ 6 ≤ (p.ticks : Int) - (getEngine p j).refs - (getBank (getEngine p j) b).refs
    let placed := fun (j m : Nat) => (asks → governs j (m + 1)) ∧ (¬ asks → governs j m)
    (p.kNext = [(k, e)] →
      (e ≤ s.edge → StepsPart (.cadenceChange band) s band (fun p' => p'.k = k ∧ p'.kNext = [] ∧ p'.gcyc = p.gcyc ∧ p'.tiles = p.tiles)) ∧
      (s.edge < e → StepsPart (.cadenceChange band) s band (fun p' => p' = p))) ∧
    ((∀ c ∈ s.ctxs, c.rec_.token = p.rec_.token → c.st ≠ .saving) → estimates counted) ∧
    (∀ c, s.ctxs = [c] → c.rec_.token = p.rec_.token → c.st = .saving →
      estimates (counted + 64 * p.count * ((min s.edge c.saveEnd - max (s.edge - 1300) c.saveFrom) / 2) * (co 11 + 4 * co 9))) ∧
    (p.kNext = [] → p.rec_.stretch ≤ 60 →
      (∀ j, meets j → (∀ i, j < i → ¬ meets i) → placed (min j (p.k + 8)) 0) ∧
      ((∀ j, ¬ meets j) →
        let den := pd * p.rec_.stretch
        let excess : Int := 20 * ((den : Int) - ((cap : Int) - (stat : Int)) * (p.k : Int))
        (den = 0 → placed (min p.rec_.stretch (p.k + 8)) 20) ∧
        (∀ m : Nat, den ≠ 0 → m ≤ 20 → (m < 20 → excess ≤ den * m) → (0 < m → (den : Int) * (m - 1 : Nat) < excess) →
          placed (min p.rec_.stretch (p.k + 8)) m))) ∧
    (p.mode = .running → (∀ x ∈ p.tiles, tx x.1 < 64 * p.count ∧ ty x.1 < 784) →
      StepsPart (.stitchAlignmentCheck band) s band (fun p' => ∃ fs, p' = { p with stitched := (p.gcyc - 1) / 65536, found := p.found ++ fs } ∧
        ∀ f, f ∈ fs ↔ ∃ i d, tx i < 64 * p.count ∧ ty i < 784 ∧ misaligned p i ((List.range 4).filter (acrossStitch i)) = some d ∧
          f = { tile := i, cause := 0x0F, detail := alignDetail i d false, epc := none })) ∧
    ((∀ x ∈ p.tiles, x.2.skew = 0) →
      StepsPart (.stitchAlignmentCheck band) s band (fun p' => p' = { p with stitched := (p.gcyc - 1) / 65536 }))

/-- R244, R343, R355, R393, R399 to R404, R411: a groomer edge takes every tile's oldest EVT record to the event ring and
its oldest trace record to the trace buffer in the rows of the band's DRAM that the hub has placed for it: at the write
pointer, or, where it does not fit before the end, at the start after a pad record, if pads are enabled, in the place of as
many of the oldest records as it needs. A sample queues a record of the last bundle; a queue that is full counts a record
as lost, and a lost record, if enabled, goes before the next that it takes. The hub places an area only in rows that no
range entry of the launch maps. Log entries go to the host buffer, by way of their staging area in the band's DRAM, until it is full; a scrubber corrects what it can and poisons what it cannot,
and the hub logs both; an injection poisons its granule.
It rests also on the model's choices of log entries 4, 28, 44, 52, 53 and 85. -/
def Obligations.RecordsDrain : Prop :=
  ∀ (s : State) (band : Nat) (p : Part), Holds s band p → msorted p.tiles = true → (∀ e ∈ p.tiles, e.1 < poolBase) →
    let firsts : List (Nat × EvtRec) := p.tiles.filterMap (fun e => e.2.evts.head?.map (fun x => (e.1, x)))
    let record := fun (e : Nat × EvtRec) (k : Nat) =>
      let r := ringRecord s p { band, idx := e.1 } 0 (BitVec.ofNat 32 e.2.code) (BitVec.ofNat 16 (e.2.pc.toNat * 8 + 7)) 0
      { r with num := s.ringNo + k, evt := true, gcyc := e.2.gcyc, wall := e.2.wall }
    Becomes (.evtDrain band) s band (fun u p' => EachTile p p' (fun t t' => t'.evts = t.evts.drop 1 ∧ t'.sram = t.sram) ∧
      u.ring.length = s.ring.length + firsts.length ∧ u.ring.take s.ring.length = s.ring ∧
      ∀ k e, firsts[k]? = some e → u.ring[s.ring.length + k]? = some (record e k)) ∧
    (memWf s.dram = true → 65536 ≤ p.traceSize → p.traceW < p.traceSize → p.traceOld < p.traceSize →
      let size := p.traceSize
      let left := size - p.traceW
      let drains := fun (good : State → Part → Prop) => Becomes (.traceDrain band) s band (fun u p' =>
        EachTile p p' (fun t t' => t'.traces = t.traces.drop 1 ∧ t'.sram = t.sram) ∧
        (msorted s.debug = true → mget 0 u.debug (64 * p.rec_.asid + 6) = BitVec.ofNat 32 p'.traceW ∧
          mget 0 u.debug (64 * p.rec_.asid + 7) = BitVec.ofNat 32 p'.traceOld) ∧ good u p')
      let writes := fun (u : State) (parts : List (Nat × List Byte)) => AreaWritten s u p.first p.traceRow size parts
      (∀ i t x, p.tiles.filter (fun e => !e.2.traces.isEmpty) = [(i, t)] → t.traces.head? = some x →
        let bs := traceBytes (physCol s p.first i) i x
        let pad := (bytesOf 4 (0xD7C37000 + left / 16) ++ bytesOf 4 i ++ bytesOf 4 (physCol s p.first i + 1024 * (i / 1024)) ++
          bytesOf 4 0 ++ bytesOf 8 x.gcyc ++ List.replicate left 0).take left
        (bs.length ≤ left → drains (fun u p' => p'.traceW = (p.traceW + bs.length) % size ∧ writes u [(p.traceW, bs)] ∧
          TraceTakes size p.traceOld p.traceLens bs.length p'.traceOld p'.traceLens)) ∧
        (left < bs.length → drains (fun u p' => p'.traceW = bs.length ∧
          writes u ((0, bs) :: if p.traceMask.testBit 6 then [(p.traceW, pad)] else []) ∧
          ∃ old lens, TraceTakes size p.traceOld p.traceLens left old lens ∧
            TraceTakes size old lens bs.length p'.traceOld p'.traceLens))) ∧
      (let all := p.tiles.filterMap (fun e => e.2.traces.head?.map (traceBytes (physCol s p.first e.1) e.1))
       all.flatten.length ≤ left → p.traceLens.sum + all.flatten.length ≤ size →
        drains (fun u p' => p'.traceW = (p.traceW + all.flatten.length) % size ∧ writes u [(p.traceW, all.flatten)] ∧
          p'.traceOld = p.traceOld ∧ p'.traceLens = p.traceLens ++ all.map List.length))) ∧
    (∀ want n row, placeRows s p want n = some row →
      row + (n + 2 ^ 21 - 1) / 2 ^ 21 ≤ 32768 ∧ ∀ k, k < (n + 2 ^ 21 - 1) / 2 ^ 21 → mapsRow p.rec_.dram (row + k) = false) ∧
    StepsPart (.traceSample band) s band (fun p' => p'.sampleAt = p.sampleAt + p.tracePeriod.getD 0 ∧ EachTile p p' (fun t t' =>
      let on := p.traceOn = true ∧ p.traceMask.testBit 5 = true ∧ t.seq.halted = false
      (¬ on ∨ t.seq.lastCyc = none → t' = t) ∧
      ∀ c, on → t.seq.lastCyc = some c →
        let x : TraceRec := { ty := 6, gcyc := c, payload := [(0x18, 4, t.seq.lastPc.toNat)] }
        (t.traces.length < 8 → t.traceDropped = 0 → t' = { t with traces := t.traces ++ [x] }) ∧
        (t.traces.length < 8 → t.traceDropped ≠ 0 → t' = { t with
          traces := t.traces ++ (if p.traceMask.testBit 7 then [{ ty := 8, gcyc := c, payload := [(0x18, 4, t.traceDropped)] }] else []) ++ [x],
          traceDropped := 0 }) ∧
        (8 ≤ t.traces.length → t' = { t with traceDropped := t.traceDropped + 1 }))) ∧
    (p.logFull = false → memWf s.hostMem = true →
      let at_ := 64 + logSize p.log p.logDone
      let left := p.log.drop p.logDone
      let bs := left.flatMap logBytes
      let drains := fun (good : State → Part → Prop) => Becomes (.replayLogDrain band) s band good
      (left ≠ [] → at_ + bs.length ≤ p.rec_.replayLen → drains (fun u p' => p' = { p with logDone := p.log.length } ∧
        (memWf s.dram = true → AreaWritten s u p.first p.stageRow p.rec_.replayLen [(at_ - 64, bs)]) ∧
        ∀ a, mget 0 u.hostMem a =
          if p.rec_.replayLog + at_ ≤ a ∧ a < p.rec_.replayLog + at_ + bs.length then bs.getD (a - (p.rec_.replayLog + at_)) 0
          else if p.rec_.replayLog + 0x10 ≤ a ∧ a < p.rec_.replayLog + 0x18 then byteAt (at_ + bs.length - 64) (a - (p.rec_.replayLog + 0x10))
          else mget 0 s.hostMem a)) ∧
      (∀ e, left.head? = some e → p.rec_.replayLen < at_ + 16 * logUnits e.ty →
        drains (fun u p' => p' = { p with logOpen := false, logFull := true } ∧ u.hostMem = s.hostMem))) ∧
    (ModuleInv s → Becomes .scrub s band (fun u p' =>
      let hit := fun (g : Nat) => g / 16 = s.edge / 16 % 1280
      EachTile p p' (fun t t' =>
        t'.sram = t.sram ∧ (∀ g, g ∈ t'.corr ↔ g ∈ t.corr ∧ ¬hit g) ∧ (∀ g, g ∈ t'.uncorr ↔ g ∈ t.uncorr ∧ ¬hit g) ∧
        (∀ g, g ∈ t'.poison ↔ g ∈ t.poison ∨ g ∈ t.uncorr ∧ hit g)) ∧
      ∀ e ∈ p.tiles, ∀ g, hit g → (g ∈ e.2.corr → (physCol s p.first e.1, e.1 / 1024, g) ∈ u.corrLog) ∧
        (g ∈ e.2.uncorr → (physCol s p.first e.1, e.1 / 1024, g) ∈ u.scrubLog))) ∧
    (∀ i g c, p.inject = some (i, g, c) → i < poolBase → p.debugHold = true → 8 * g < sramEnd →
      Becomes (.errorInjection band) s band (fun _ p' => p'.inject = none ∧ (getTile p' i).sram = (getTile p i).sram ∧
        (∀ k, k ≠ i → getTile p' k = getTile p k) ∧ ∀ x, x ∈ (getTile p' i).poison ↔ x ∈ (getTile p i).poison ∨ x = g))

/-! ## Stops -/

/-- R265, R345 to R350, R359, R396, R397: an event stop discards what is in flight, gives its event to the tiles
that raised none, and unwinds 64 cycles on into the innermost handlers, or fails the launch where a tile has no
region with a retry left; a cycle-armed stop keeps everything, but a row that has stood open for the limit is closed;
debug hold keeps a stop from its unwind. R382, R385, R391, R395: a stop is armed once the journal has its intent; one
that meets an event stop, or a later one, waits for it. R28: the hub raises the listed causes alone; what it raises is
journaled and logged, and is raised with what its cycle finds, or at once where no cycle runs: its record is of kind 2. Of
two events of one cycle that of the tile of the lower row, then of the lower column, is the primary one. R121: the resume command does nothing where a tile stopped in a delay bundle.
It rests also on the model's choices of log entries 24, 25, 41, 58, 65, 67, 72, 78, 87 and 99. -/
def Obligations.StopsAndUnwinds : Prop :=
  ∀ (s : State) (band : Nat) (p : Part) (st : Stop) (c : Nat) (why : StopWhy) (cause : BitVec 8) (detail : BitVec 16) (idx : Nat)
    (asid : BitVec 14), Holds s band p →
    let keeps := fun (t t' : Tile) => t'.g = t.g ∧ t'.v = t.v ∧ t'.z = t.z ∧ t'.sram = t.sram
    let all := fun (t t' : Tile) => keeps t t' ∧ t'.flight = t.flight ∧ t'.mx = t.mx ∧ t'.regions = t.regions
    let ready := (∃ e ∈ p.tiles, e.2.seq.halted = false) ∧ ∀ e ∈ p.tiles, e.2.seq.halted = false → ∃ r ∈ e.2.regions, 0 < r.retries
    let spent := (∀ e ∈ p.tiles, e.2.seq.halted = true) ∨ ∃ e ∈ p.tiles, e.2.seq.halted = false ∧ ∀ r ∈ e.2.regions, r.retries = 0
    let stops := fun (good : Part → Prop) => Becomes (.stopCycle band) s band (fun _ p' => good p')
    let entry := JWhat.stop p.rec_.token c (some why)
    let at_ := max c (p.gcyc + lead p)
    let armed : Stop := { at_ := at_, event := false, c1 := s.edge, why := some why, frozen := isFrozen p && why == .preempt }
    let asked := fun (x : Stop) => (x.why = some why ∧ (why = .preempt ∨ x.at_ = c)) ∨ ∃ r ∈ x.req, r.2 = why ∧ (why = .preempt ∨ r.1 = c)
    let arms := fun (x : Stop) =>
      ((∀ j ∈ s.journal, j.what = entry → j.committed = true) → exec (.preemptArm band c why) s = .next { s with
        journal := s.journal ++ [{ what := entry, committed := false }], inputs := s.inputs ++ [(s.edge + 1, .preemptArm band c why)] }) ∧
      ((∃ j ∈ s.journal, j.what = entry ∧ j.committed = false) → Becomes (.preemptArm band c why) s band (fun u p' =>
        p' = { p with stop := some x } ∧ (∀ j ∈ u.journal, j.what = entry → j.committed = true) ∧
        ∀ y ∈ u.ctxs, why = .preempt → y.rec_.token = p.rec_.token → y.st = .stopping))
    (p.mode = .running → p.stop = some st → st.event = true → p.gcyc < st.at_ → exec (.stopCycle band) s = .next s) ∧
    ((∃ e, p.mode = .frozen e) → p.stop = some st → st.event = true → st.at_ ≤ p.gcyc → p.debugHold = false → st.abort = false → ready →
      stops (fun p' => p'.mode = .skid ∧ p'.gcyc = p.gcyc ∧ p'.flits = [] ∧ p'.holds = [] ∧ p'.frozenCyc = 0)) ∧
    (p.mode = .running → p.stop = some st → st.event = true → st.at_ ≤ p.gcyc →
      (p.debugHold = false → st.abort = false →
        (ready → stops (fun p' => p'.mode = .skid ∧ p'.gcyc = p.gcyc ∧ p'.flits = [] ∧ EachTile p p' (fun t t' =>
          keeps t t' ∧ t'.flight = [] ∧ t'.mx = [] ∧
          (t.seq.halted = false → t.evRec = false → st.raised = true → t'.evc = st.evc &&& 0xFFFFFEFF ∧
            t'.epc = BitVec.ofNat 16 (t.seq.pc.toNat * 8) ∧ t'.done = 0xFF) ∧
          (t.seq.halted = true ∨ t.evRec = true ∨ st.raised = false → SameEvent t t')))) ∧
        (spent → stops (fun p' => p'.mode = .failed ∧ p'.failStatus = 1))) ∧
      (st.abort = true → p.audPolicyFail = false → stops (fun p' => p'.mode = .failed ∧ p'.failStatus = 2)) ∧
      (st.abort = true → p.audPolicyFail = true → p.rec_.auditPolicy = 2 → stops (fun p' => p'.mode = .failed ∧ p'.failStatus = 9)) ∧
      (p.debugHold = true → st.abort = false → st.evc.toNat % 256 = 0x0B ∨ st.evc.toNat % 256 = 0x0C →
        stops (fun p' => p'.mode = .debugHeld ∧ p'.gcyc = p.gcyc ∧ p'.flits = p.flits ∧ EachTile p p' all))) ∧
    (p.mode = .skid → Becomes (.unwind band) s band (fun u p' => p'.mode = .running ∧ p'.stop = none ∧ p'.gcyc = p.gcyc ∧
      (∀ x, p.stop = some x → u.agenda = s.agenda ++ x.req.map (fun r => .preemptArm band r.1 r.2)) ∧
      EachTile p p' (fun t t' => (t.seq.halted = true → keeps t t' ∧ t'.evRec = false ∧ t'.raisedAt = none ∧ t'.pslots = []) ∧ ∀ r rest, t.seq.halted = false → t.regions = r :: rest →
        t'.seq.pc = r.handler ∧ t'.seq.stopped = false ∧ t'.seq.issue = none ∧ t'.g = r.g ∧ t'.q = r.q ∧ t'.loop = r.loop ∧
        t'.regions = { r with retries := r.retries - 1 } :: rest ∧ t'.v = t.v ∧ t'.m = t.m ∧ t'.z = t.z ∧ t'.sram = t.sram ∧
        t'.evRec = false ∧ t'.pslots = []))) ∧
    (p.mode = .running → p.stop = some st → st.event = false → Becomes (.cycleArmedStop band) s band (fun _ p' =>
      p'.mode = .armedStop ∧ p'.gcyc = p.gcyc ∧ p'.flits = p.flits ∧ EachTile p p' all ∧
      ∀ k b, (getBank (getEngine p' k) b).row = openRow p s.edge p.gcyc (getBank (getEngine p k) b))) ∧
    (p.mode = .armedStop → preempted p = false → Becomes (.resumption band) s band (fun _ p' =>
      p'.mode = .running ∧ p'.stop = none ∧ p'.gcyc = p.gcyc ∧ EachTile p p' (fun t t' => all t t' ∧ t'.skew = 0))) ∧
    (p.stop = none → arms armed) ∧
    (p.stop = some st → asked st → exec (.preemptArm band c why) s = .next s) ∧
    (p.stop = some st → ¬ asked st → (st.event = true ∨ p.mode = .armedStop ∨ st.at_ ≤ at_) →
      Becomes (.preemptArm band c why) s band (fun _ p' => p' = { p with stop := some { st with req := st.req ++ [(c, why)] } })) ∧
    (∀ y, p.stop = some st → ¬ asked st → st.event = false → p.mode ≠ .armedStop → at_ < st.at_ → st.why = some y →
      arms { armed with req := (st.at_, y) :: st.req }) ∧
    (cause = 0 ∨ 0x11 < cause.toNat ∨ 64 * p.count ≤ tx idx ∨ 784 ≤ ty idx ∨ p.mode = .failed →
      exec (.hubStopRequest band cause detail idx) s = .next s) ∧
    (0 < cause.toNat → cause.toNat ≤ 0x11 → tx idx < 64 * p.count → ty idx < 784 → idx < poolBase →
      let evc := BitVec.ofNat 32 (detail.toNat * 65536 + cause.toNat)
      let l : Loc := { band, idx }
      let journaled := fun (u : State) => (∀ x, p.stop = some x → x.event = false) →
        { what := .stop p.rec_.token p.gcyc none, committed := true } ∈ u.journal
      let logged := fun (p' : Part) => p.logOpen = true → { ty := 4, tile := idx, gcyc := p.gcyc, payload := [(0x10, 4, evc.toNat)] } ∈ p'.log
      (p.mode = .running ∨ p.mode = .armedStop → Becomes (.hubStopRequest band cause detail idx) s band (fun u p' =>
        journaled u ∧ logged p' ∧ u.ring = s.ring ∧ p'.stop = p.stop ∧ p'.tiles = p.tiles ∧
        p'.found = p.found ++ [{ tile := idx, cause := cause.toNat, detail := detail.toNat, epc := none, hub := true }])) ∧
      (∀ t, tileAt s l = some (p, t) → isFrozen p = true ∨ p.mode = .skid ∨ p.mode = .debugHeld → p.stop = none →
        let epc := BitVec.ofNat 16 (t.seq.lastPc.toNat * 8)
        ∃ u p', exec (.hubStopRequest band cause detail idx) s = .next u ∧ getPart u band = some p' ∧ journaled u ∧ logged p' ∧
          TakesEvent s u l p t 2 evc epc 0xFF (calledStop s p l evc epc 0xFF)) ∧
      (∀ t x, tileAt s l = some (p, t) → p.mode = .skid ∨ p.mode = .debugHeld → p.stop = some x → x.event = true →
        ∃ u, exec (.hubStopRequest band cause detail idx) s = .next u ∧
          TakesEvent s u l p t 2 evc (BitVec.ofNat 16 (t.seq.lastPc.toNat * 8)) 0xFF x)) ∧
    (∀ (f : Found) t, f.tile < poolBase → f.cause < 256 → f.detail < 65536 → tileAt s { band, idx := f.tile } = some (p, t) →
      p.stop = none →
      let l : Loc := { band, idx := f.tile }
      let evc := BitVec.ofNat 32 (f.detail * 65536 + f.cause)
      let epc := BitVec.ofNat 16 (match f.epc with
        | some (pc, sl) => pc.toNat * 8 + sl
        | none => t.seq.lastPc.toNat * 8)
      TakesEvent s (raiseFound s band [f]) l p t (if f.hub then 2 else 0) evc epc 0xFF (calledStop s p l evc epc 0xFF)) ∧
    (∀ (f g : Found), f.tile < poolBase → g.tile < poolBase → f.tile ≠ g.tile → p.mode = .running → p.stop = none →
      ∃ p' x, getPart (raiseFound s band [f, g]) band = some p' ∧ p'.stop = some x ∧ x.tile = min f.tile g.tile ∧ x.at_ = p.gcyc + lead p) ∧
    (heldPart s asid.toNat = some p → p.stop = some st →
      (st.abort = false → ready → Becomes (.debugUnwind asid) s band (fun _ p' => p'.mode = .skid ∧ p'.gcyc = p.gcyc)) ∧
      Becomes (.debugFail asid) s band (fun _ p' => p'.mode = .failed ∧ p'.failStatus = 1) ∧
      let inDelay := ∃ e ∈ p.tiles, e.2.raisedAt ≠ none ∧ ∃ x, e.2.seq.xfer = some x ∧
        if e.2.evc.getLsbD 8 then 0 < x.delay else x.delay < 2
      (inDelay → exec (.debugResume asid) s = .next s) ∧
      (¬ inDelay → Becomes (.debugResume asid) s band (fun _ p' => p'.mode = .running ∧ p'.stop = none ∧ p'.gcyc = p.gcyc ∧ p'.logOpen = false ∧
        EachTile p p' (fun t t' => keeps t t' ∧ (t.raisedAt ≠ none → t'.seq.stopped = false ∧ t'.raisedAt = none ∧
          t'.seq.resumeDone = if t.evc.getLsbD 8 then some t.done else none)))))

/-- R359 to R364, R382: a pre-empted context is saved, leaves its band with its tiles, engines and port sections as they
were at the stop, and is swapped, its journal entry first; its image has then been written into its save area and to no other
byte of DRAM; it waits while its columns or its power are taken; it is
read back with its discardable lines as zeros, its IMEM from the image map, its moved pages pinned anew and the rows
that were open activated again, unless a granule that cannot be corrected ends it with status 6; and it goes on at
the GCYC of its stop, 486 edges after its preamble at the earliest.
It rests also on the model's choices of log entries 3, 10, 44, 54, 58, 59, 67, 68 and 79. -/
def Obligations.ContextsSwitch : Prop :=
  ∀ (s : State) (band : Nat) (p : Part) (c : Ctx) (token : BitVec 64) (scan : RestoreScan), ModuleInv s →
    let pass : List Instr := if s.status.ready then [.placementPass] else []
    let leaves : JWhat := .release p.rec_.token
    let due := ∃ e ∈ s.journal, e.what = leaves ∧ e.committed = false
    let ofBand := fun (k : Nat) => 4 * band ≤ k ∧ k < 4 * (band + p.count)
    (Holds s band p → preempted p = true → s.ctxs = [c] → c.rec_.token = p.rec_.token →
      (c.st ≠ .stopping → exec (.contextSave band) s = .next s) ∧ (c.st ≠ .saving → exec (.bandRelease band) s = .next s) ∧
      (c.st ≠ .stopping → c.st ≠ .saving → preemptEvents s p = []) ∧
      (c.st = .stopping → (∀ e ∈ p.tiles, e.2.held = []) → preemptEvents s p = [.contextSave p.first])) ∧
    (Holds s band p → preempted p = true → c ∈ s.ctxs → c.rec_.token = p.rec_.token →
      (c.st = .stopping → ∃ u, exec (.contextSave band) s = .next u ∧ u.parts = s.parts ∧ u.agenda = s.agenda ++ pass ∧
        { c with st := .saving, saveFrom := s.edge, saveEnd := s.edge + saveEdges p } ∈ u.ctxs) ∧
      (c.st = .saving → ¬ due → exec (.bandRelease band) s = .next { s with journal := s.journal ++ [{ what := leaves, committed := false }] }) ∧
      (c.st = .saving → due → ∃ u c' p', exec (.bandRelease band) s = .next u ∧ getPart u band = none ∧ { what := leaves, committed := true } ∈ u.journal ∧
        c' ∈ u.ctxs ∧ c'.rec_ = c.rec_ ∧ c'.st = .swapped ∧ c'.since = s.edge ∧ c'.saved = some p' ∧ u.agenda = s.agenda ++ pass ∧
        p'.gcyc = p.gcyc ∧ p'.mode = p.mode ∧ p'.stop = p.stop ∧ p'.tiles = p.tiles ∧ p'.engines = p.engines ∧ p'.flits = p.flits ∧
        (ctxOf s p.rec_.token = some c → u.dram = writeImage s.dram p' c'.ports c.saveRow ∧ (memWf s.dram = true → memWf u.dram = true ∧
          ∀ a, (∀ r, c.saveRow = some r → saveOff p r a = none) → mget 0 u.dram a = mget 0 s.dram a)) ∧
        ∀ k, ofBand k → (∀ x ∈ (getPort u k).land, x.band ≠ band) ∧ ∃ q, mfind c'.ports k = some q ∧
          (∀ x, x ∈ q.land ↔ x ∈ (getPort s k).land ∧ x.band = band) ∧ ∀ x, x ∈ q.colls ↔ x ∈ (getPort s k).colls ∧ x.band = band)) ∧
    (Holds s band p → p.mode = .failed →
      (¬ due → exec (.bandRelease band) s = .next { s with journal := s.journal ++ [{ what := leaves, committed := false }] }) ∧
      (due → ∃ u d, exec (.bandRelease band) s = .next u ∧ getPart u band = none ∧ d ∈ u.done ∧
        d.token = p.rec_.token ∧ d.status = p.failStatus ∧ d.gcycEnd = p.gcyc)) ∧
    ((∀ x, ctxOf s token.toNat = some x → x.st ≠ .restoring ∨ x.saved = none) → exec (.contextRestore token scan) s = .next s) ∧
    (ctxOf s token.toNat = some c → c.st = .restoring → c.saved = some p →
      let taken := s.budget < p.rec_.cap + (s.parts.map (fun e => e.2.rec_.cap)).sum ∨
        ∃ e ∈ s.parts, ∃ j, p.rec_.first ≤ j ∧ j < p.rec_.first + p.rec_.count ∧ e.2.first ≤ j ∧ j < e.2.first + e.2.count
      (taken → exec (.contextRestore token scan) s = .next { s with inputs := s.inputs ++ [(s.edge + 1, .contextRestore token scan)] }) ∧
      (∀ f, ¬ taken → scan.bad = some f → f.discardable = false → ∃ u d, exec (.contextRestore token scan) s = .next u ∧ u.parts = s.parts ∧
        d ∈ u.done ∧ d.token = p.rec_.token ∧ d.status = 6 ∧ d.gcycEnd = p.gcyc ∧
        u.ring = s.ring ++ [ringRecord s p { band := p.first, idx := 1024 * f.ty + f.tx } 3 (BitVec.ofNat 32 (f.part % 16 * 65536 + 9)) 0 0]) ∧
      (¬ taken → (∀ f, scan.bad = some f → f.discardable = true) → Becomes (.contextRestore token scan) s p.first (fun u p' =>
        p'.mode = .armedStop ∧ p'.gcyc = p.gcyc ∧ p'.stop = p.stop ∧ p'.missed = [] ∧ p'.flits = p.flits ∧
        (scan.moved = [] → p'.rec_ = p.rec_) ∧
        (∀ g m, p.rec_.pages = [g] → scan.moved = [m] →
          p'.rec_ = { p.rec_ with pages := [if m.1 = g.va ∧ m.2 % 2 ^ g.bits = 0 then { g with pa := m.2 } else g] }) ∧
        (∃ at_, (at_, .contextResume p.first) ∈ u.inputs ∧ s.edge ≤ at_ ∧ (∀ e ∈ p'.engines, e.2.guard + 486 ≤ at_) ∧
          ∀ x, s.edge ≤ x → 486 ≤ x → (∀ e ∈ p'.engines, e.2.guard + 486 ≤ x) → at_ ≤ x) ∧
        (∀ k e, mfind p.engines k = some e → ∃ e', mfind p'.engines k = some e' ∧ ∀ b, (getBank e' b).row = (getBank e b).row ∧
          owed p' e' b = owed p e b ∧
          ((getBank e b).row ≠ none → s.edge ≤ (getBank e' b).openEdge ∧ (getBank e' b).openEdge + 26 ≤ e'.guard)) ∧
        ∀ i t, mfind p.tiles i = some t → ∃ t', mfind p'.tiles i = some t' ∧ t'.g = t.g ∧ t'.v = t.v ∧ t'.flight = t.flight ∧
          t'.discard = t.discard ∧ t'.imemErr = [] ∧
          (∀ im, p.rec_.images = [im] → im.tx0 ≤ tx i → tx i ≤ im.tx1 → (tx i - im.tx0) % im.txs = 0 → im.ty0 ≤ ty i → ty i ≤ im.ty1 →
            (ty i - im.ty0) % im.tys = 0 → t'.imem = im.imem) ∧
          (memWf t.sram = true → ∀ a, mget 0 t'.sram a = if a / 16 ∈ t.discard then 0 else mget 0 t.sram a)))) ∧
    (Holds s band p → c ∈ s.ctxs → c.rec_.token = p.rec_.token → c.st = .restoring →
      (s.edge < 486 ∨ (∃ e ∈ p.engines, s.edge < e.2.guard + 486) → exec (.contextResume band) s = .next s) ∧
      (486 ≤ s.edge → (∀ e ∈ p.engines, e.2.guard + 486 ≤ s.edge) →
        Becomes (.contextResume band) s band (fun u p' => p'.mode = .running ∧ p'.stop = none ∧ p'.gcyc = p.gcyc ∧
          { c with st := .running } ∈ u.ctxs ∧ { what := .start p.rec_.token [], committed := true } ∈ u.journal ∧
          EachTile p p' (fun t t' => t'.g = t.g ∧ t'.v = t.v ∧ t'.sram = t.sram ∧ t'.flight = t.flight ∧ t'.skew = 0))))

/-- R357, R358, R391: on a groomer edge the audit engine of each sheet row moves one line of its oldest sample that has one,
and no register and no byte of any tile changes; a sample of which a line was overtaken is given up and counted; each pool tile with a copied
unit, which starts from the copy, issues one bundle of the oldest; equal signatures count as matched; different ones
count as mismatched and are recorded, and raise an event on the tile where the unit's region is still open, or else a
record on the ring and, by the tenant's policy, a stop that fails the launch, which the journal has.
It rests also on the model's choices of log entries 24, 49, 50 and 51. -/
def Obligations.AuditEngineSteps : Prop :=
  ∀ (s : State) (band : Nat) (p : Part) (x : Sample), Holds s band p → x.tile < poolBase → ty x.tile < 784 →
    let unitOf := fun (y : Sample) => (y.tile, y.unit.openCyc)
    let movable := fun (y : Sample) => y.todoLines ≠ [] ∨ y.outLines ≠ []
    let row := fun (y : Sample) => ty y.tile / 112
    ((p.samples.map unitOf).Nodup → (∀ y ∈ p.samples, y.overtaken = false ∧ (getTile p y.tile).audDirty = [] ∧ ty y.tile < 784) →
      StepsPart (.auditCopy band) s band (fun (p' : Part) => p'.samples.length = p.samples.length ∧ p'.audit = p.audit ∧
        (∀ k, SameRegs (getTile p k) (getTile p' k) ∧ (getTile p' k).sram = (getTile p k).sram) ∧
        ∀ k y, p.samples[k]? = some y → ∃ y', p'.samples[k]? = some y' ∧
          let turn := movable y ∧ ∀ (j : Nat) z, j < k → p.samples[j]? = some z → row z = row y → ¬ movable z
          (turn → LineMoved (getTile p y.tile) y y') ∧ (¬ turn → y' = y))) ∧
    (p.samples = [x] → p.audit.length = 6 → (x.overtaken = true ∨ ∃ a ∈ (getTile p x.tile).audDirty, a ∈ x.todoLines ∧ a < 2 ^ 18 ∨ a ∈ x.outLines) →
      StepsPart (.auditCopy band) s band (fun p' => p'.samples = [] ∧ p'.audit = p.audit.set 5 (p.audit.getD 5 0 + 1))) ∧
    (s.phase = .idle → (∀ y ∈ p.samples, y.tile < poolBase ∧ poolBase ≤ y.poolIdx) → Becomes (.auditReplayBundle band) s band (fun u p' =>
      let due := fun (n : Nat) (y : Sample) => y.poolIdx = n ∧ y.copied = true ∧ y.replaySig = none
      ∃ ls, u.phase = .pool ls ∧ u.todo = s.todo ++ ls ∧ ls.Nodup ∧
        (∀ l, l ∈ ls ↔ l.band = band ∧ ∃ y ∈ p.samples, due l.idx y) ∧
        ∀ k y, p.samples[k]? = some y → due y.poolIdx y → y.loaded = false → (∀ (j : Nat) z, j < k → p.samples[j]? = some z → ¬ due y.poolIdx z) →
          ∃ t', mfind p'.pool y.poolIdx = some t' ∧ t'.g = y.snap.g ∧ t'.v = y.snap.v ∧ t'.imem = y.snap.imem ∧
            t'.seq.pc = y.snap.seq.pc ∧ t'.skew = y.snap.skew)) ∧
    (∀ a b pre post, x.sig = some a → x.replaySig = some b → p.audit.length = 6 → p.samples = pre ++ x :: post →
      (∀ y ∈ pre ++ post, unitOf y ≠ unitOf x ∧ (y.sig = none ∨ y.replaySig = none)) → (getTile p x.tile).audDirty = [] →
      let at_ := x.closedAt.getD (0, 0)
      let evc := BitVec.ofNat 32 (x.unit.uid % 65536 * 65536 + 0x11)
      let epc := BitVec.ofNat 16 (at_.2.toNat * 8 + 7)
      let open_ := ∃ r ∈ (getTile p x.tile).regions, x.unit.serial = some r.serial
      (a = b → StepsPart (.auditCompare band) s band (fun p' => p'.samples = pre ++ post ∧
        p'.audit = p.audit.set 1 (p.audit.getD 1 0 + 1))) ∧
      (a ≠ b → Becomes (.auditCompare band) s band (fun u p' => p'.samples = pre ++ post ∧
        p'.audit = p.audit.set 2 (p.audit.getD 2 0 + 1) ∧
        (∃ m, u.mismatches = s.mismatches ++ [m] ∧ m.asid = p.rec_.asid ∧ m.uid = x.unit.uid ∧ m.gcyc = at_.1 ∧ m.sig = a ∧
          m.replaySig = b ∧ m.col = physCol s band x.tile ∧ m.row = ty x.tile) ∧
        (open_ → p.mode = .running → u.ring = s.ring ∧ p'.stop = p.stop ∧
          ((∀ st, p.stop = some st → st.event = false) → { what := .stop p.rec_.token p.gcyc none, committed := true } ∈ u.journal) ∧
          ∃ f, p'.found = p.found ++ [f] ∧ f.tile = x.tile ∧ f.cause = 0x11 ∧ f.detail = x.unit.uid ∧ f.epc = some (at_.2, 7)) ∧
        (¬ open_ → u.ring = s.ring ++ [ringRecord s p { band, idx := x.tile } 2 evc epc 0xFF] ∧
          p'.audPolicyFail = true ∧ p'.found = p.found ∧ (p.rec_.auditPolicy ≠ 2 → p'.stop = p.stop) ∧
          (p.rec_.auditPolicy = 2 → p.mode = .running → p.stop = none →
            p'.stop = some { calledStop s p { band, idx := x.tile } evc epc 0xFF with abort := true, raised := false } ∧
            { what := .stop p.rec_.token p.gcyc none, committed := true } ∈ u.journal)))))

/-! ## The hub -/

/-- R245, R290, R376 to R386, R390 to R392, R403: kicks, the service of a queue, placement and the stops it asks for,
the start of a launch and its failures, its completion, cancellation and completion record, attestation and
take-over; a change that the host can see is made when the journal has its entry, and not before.
It rests also on the model's choices of log entries 3, 9, 10, 43, 44, 54, 55, 56, 57, 58, 59 and 68. -/
def Obligations.HubRunsLaunches : Prop :=
  ∀ (s : State) (q : BitVec 12) (token nonce : BitVec 64) (band : Nat) (p : Part) (c : Ctx) (d : Completion) (i : Image) (test : StartTest), ModuleInv s →
    let pass : List Instr := if s.status.ready then [.placementPass] else []
    let intent := fun (w : JWhat) => ∃ e ∈ s.journal, e.what = w ∧ e.committed = false
    let noted := fun (w : JWhat) => { s with journal := s.journal ++ [{ what := w, committed := false }] }
    let s0 : State := { s with kicks := sremove s.kicks q.toNat }
    let qd := getQueue s q.toNat
    let e := qd.ringBase + 16 * (qd.head % 2 ^ qd.ringLog2)
    let a := hostN s e 8
    let r := readRec s0 a
    let refusal := refusalOf s0 a (hostN s (e + 8) 4) (hostN s (e + 12) 4) r
    let readable := 4 ≤ qd.ringLog2 ∧ qd.ringLog2 ≤ 16 ∧ qd.ringBase % 4096 = 0
    let taken := s.budget < c.rec_.cap + (s.parts.map (fun e => e.2.rec_.cap)).sum ∨
      ∃ e ∈ s.parts, ∃ j, c.rec_.first ≤ j ∧ j < c.rec_.first + c.rec_.count ∧ e.2.rec_.first ≤ j ∧ j < e.2.rec_.first + e.2.rec_.count
    (s.powered = true → exec (.kick q) s = .next { s with kicks := sinsert s.kicks q.toNat }) ∧
    (∀ n, intent (.setHead q.toNat n) → (∀ m, intent (.setHead q.toNat m) → m = n) → ∃ u, exec (.kickService q) s = .next u ∧
      getQueue u q.toNat = { qd with head := n } ∧ u.ctxs = s.ctxs ∧ u.kicks = s.kicks ∧ { what := .setHead q.toNat n, committed := true } ∈ u.journal) ∧
    ((∀ n, ¬ intent (.setHead q.toNat n)) →
      (qd.st ≠ 1 → exec (.kickService q) s = .next s0) ∧
      (qd.st = 1 → ¬ readable → ∃ u, exec (.kickService q) s = .next u ∧ getQueue u q.toNat = { qd with st := 2 } ∧ u.kicks = s0.kicks ∧
        u.ctxs = s.ctxs ∧ u.done = s.done) ∧
      (qd.st = 1 → readable → qd.tail = qd.head → exec (.kickService q) s = .next { s0 with agenda := s.agenda ++ pass }) ∧
      (qd.st = 1 → readable → qd.head < 2 ^ 32 → qd.tail = (qd.head + 1) % 2 ^ 32 → ∃ u, exec (.kickService q) s = .next u ∧
        u.journal = s.journal ++ [{ what := .setHead q.toNat qd.tail, committed := false }] ∧
        u.inputs = s.inputs ++ [(s.edge + 1, .kickService q)] ∧ (getQueue u q.toNat).head = qd.head ∧ u.kicks = s0.kicks ∧
        (refusal = none → namesFaulted s0 r = false → (afterState s0 r).2 = false → u.done = s.done ∧
          u.ctxs = s.ctxs ++ [{ rec_ := r, queue := q.toNat, st := (afterState s0 r).1, since := s.edge, saved := none }]) ∧
        (∀ n, refusal = some n → ∃ x, x ∈ u.done ∧ x.queue = q.toNat ∧ x.token = r.token ∧ x.status = 3 ∧ x.refusal = n) ∧
        (refusal = none → namesFaulted s0 r = true → ∃ x, x ∈ u.done ∧ x.token = r.token ∧ x.status = 5) ∧
        (refusal = none → namesFaulted s0 r = false → (afterState s0 r).2 = true → ∃ x, x ∈ u.done ∧ x.token = r.token ∧ x.status = 4))) ∧
    (∀ rest, s.status.ready = true → s.ctxs = c :: rest → c.st = .eligible ∨ c.st = .swapped → namesFaulted s c.rec_ = false →
      (∀ x ∈ rest, x.rec_.token ≠ c.rec_.token ∧ x.st ≠ .eligible ∧ x.st ≠ .swapped ∧ x.st ≠ .loading ∧ x.st ≠ .restoring ∧
        (x.st ≠ .waiting → ∀ row, ¬ (ownsRow s x row = true ∧ ownsRow s c row = true))) →
      let eff := min 7 (c.rec_.prio + (s.edge - c.since) / 260000000)
      let inWay := fun (x : Part) => ∃ j, c.rec_.first ≤ j ∧ j < c.rec_.first + c.rec_.count ∧ x.rec_.first ≤ j ∧ j < x.rec_.first + x.rec_.count
      let gives := ∀ e ∈ s.parts, inWay e.2 → e.2.rec_.prio < eff ∨ e.2.rec_.prio = eff ∧ e.2.expired = true
      let placed := fun (u : State) => ∃ row, u.ctxs = { c with st := if c.st = .swapped then .restoring else .loading, saveRow := row } :: rest ∧
        SavePlaced s c row
      (¬ gives ∨ saveReady s c = false → exec .placementPass s = .next s) ∧
      (rest = [] → saveReady s c = true) ∧
      (gives → (∀ e ∈ s.parts, inWay e.2) → c.rec_.cap ≤ s.budget → saveReady s c = true → ∃ u xs, exec .placementPass s = .next u ∧
        u.parts = s.parts ∧ placed u ∧ mget 4095 u.lastQ eff = c.queue ∧
        u.agenda = s.agenda ++ xs ++ [.placementPass] ∧ (∀ x ∈ xs, ∃ e ∈ s.parts, x = .preemptArm e.2.first 0 .preempt) ∧
        ∀ e ∈ s.parts, e.2.stop = none → e.2.mode ≠ .failed → .preemptArm e.2.first 0 .preempt ∈ xs) ∧
      (s.parts = [] → (c.rec_.cap ≤ s.budget → saveReady s c = true →
          ∃ u, exec .placementPass s = .next u ∧ u.agenda = s.agenda ++ [.placementPass] ∧ placed u) ∧
        (s.budget < c.rec_.cap → exec .placementPass s = .next s))) ∧
    (s.status.ready = true → s.ctxs = [c] → c.st = .eligible → c.saved = none → namesFaulted s c.rec_ = true →
      ∃ u x, exec .placementPass s = .next u ∧ u.ctxs = [] ∧ x ∈ u.done ∧ x.token = c.rec_.token ∧ x.status = 5) ∧
    (s.status.ready = false → exec .placementPass s = .next s) ∧
    (Holds s band p → StepsPart (.quantumExpiry band) s band (fun p' => p' = { p with expired := true })) ∧
    (ctxOf s test.token.toNat = some c → c.st = .loading →
      let starts : JWhat := .start c.rec_.token test.skews
      let agrees := c.rec_.replayRun = false ∨ hostN s (c.rec_.replayLog + 0x20) 32 = dramDigest s c.rec_
      let drew := c.resid + loadEnergy s c.rec_
      let paid := (c.energy + drew / 1000000) % 2 ^ 64
      (taken → exec (.launchStart test) s = .next { s with inputs := s.inputs ++ [(s.edge + 1, .launchStart test)] }) ∧
      (¬ taken → ¬ agrees → ∃ u x, exec (.launchStart test) s = .next u ∧ u.parts = s.parts ∧ x ∈ u.done ∧ x.token = c.rec_.token ∧
        x.status = 3 ∧ x.refusal = 2 ∧ x.energy = paid) ∧
      (¬ taken → agrees → ¬ intent starts → exec (.launchStart test) s = .next { noted starts with inputs := s.inputs ++ [(s.edge + 1, .launchStart test)] }) ∧
      (¬ taken → agrees → intent starts → test.skews = [] → Becomes (.launchStart test) s c.rec_.first (fun u p' =>
        p'.gcyc = 0 ∧ p'.mode = .running ∧ p'.stop = none ∧ p'.rec_ = c.rec_ ∧ p'.startEdge = s.edge ∧
        { c with st := .running, resid := drew % 1000000, energy := paid } ∈ u.ctxs ∧ p'.resid = drew % 1000000 ∧ p'.energy = paid ∧
        { what := starts, committed := true } ∈ u.journal ∧
        u.hostMem = (if c.rec_.replay then storeBytes s.hostMem c.rec_.replayLog (logHeader c.rec_.token (dramDigest s c.rec_)) else s.hostMem) ∧
        (c.rec_.images = [i] → ∀ j ∈ imageTiles i, j < poolBase → SameRegs (imageTile c.rec_ i j) (getTile p' j) ∧
          SameEvent (imageTile c.rec_ i j) (getTile p' j) ∧ (getTile p' j).imem = i.imem ∧ (getTile p' j).sram = i.sram ∧
          (getTile p' j).discard = i.discard ∧ (getTile p' j).seq.pc = 0))) ∧
      (∀ j k, ¬ taken → agrees → intent starts → test.skews = [(j, k)] → k ≠ 0 → tx j < 64 * c.rec_.count → ty j < 784 →
        ∃ u x, exec (.launchStart test) s = .next u ∧ u.parts = s.parts ∧ x ∈ u.done ∧ x.token = c.rec_.token ∧ x.status = 7 ∧ x.energy = paid ∧
          x.align_ / 8 % 2 = 1 ∧ ∀ b, c.rec_.first ≤ b → b < c.rec_.first + c.rec_.count → b ∈ u.bandFault)) ∧
    (Holds s band p →
      (¬ intent (.release p.rec_.token) → exec (.launchCompletion band) s = .next (noted (.release p.rec_.token))) ∧
      (intent (.release p.rec_.token) → ∃ u x, exec (.launchCompletion band) s = .next u ∧ getPart u band = none ∧ x ∈ u.done ∧
        { what := .release p.rec_.token, committed := true } ∈ u.journal ∧ x.token = p.rec_.token ∧ x.gcycEnd = p.lastPerf + 1 ∧
        x.status = if p.audPolicyFail = true ∧ p.rec_.auditPolicy ≠ 0 then 9 else 0)) ∧
    (ctxOf s token.toNat = some c →
      (c.st = .waiting ∨ c.st = .eligible → ∃ u x, exec (.launchCancel token) s = .next u ∧ x ∈ u.done ∧
        x.token = token.toNat ∧ x.status = 8 ∧ ctxOf u token.toNat = none) ∧
      (c.st = .swapped → c.saved = some p → p.rec_.token = c.rec_.token → ∃ u x, exec (.launchCancel token) s = .next u ∧ x ∈ u.done ∧
        x.token = token.toNat ∧ x.status = 8 ∧ x.gcycEnd = p.gcyc ∧ ctxOf u token.toNat = none) ∧
      (c.st ≠ .waiting → c.st ≠ .eligible → c.st ≠ .swapped → exec (.launchCancel token) s = .next s)) ∧
    (s.done.find? (ringRoom s) = some d →
      (¬ intent (.completion d) → exec .completionRecordWrite s = .next (noted (.completion d))) ∧
      (intent (.completion d) → ∃ u, exec .completionRecordWrite s = .next u ∧ u.done = s.done.erase d ∧
        (getQueue u d.queue).cqTail = ((getQueue s d.queue).cqTail + 1) % 2 ^ 32 ∧
        u.hostMem = storeBytes s.hostMem ((getQueue s d.queue).cqBase + 64 * ((getQueue s d.queue).cqTail % 2 ^ (getQueue s d.queue).cqLog2))
          (completionBytes d))) ∧
    (ringRoom s d = true ↔ ((getQueue s d.queue).cqTail + 2 ^ 32 - (getQueue s d.queue).cqHead) % 2 ^ 32 < 2 ^ (getQueue s d.queue).cqLog2) ∧
    (ctxOf s token.toNat = some c → let fw := digest32 (bytesOf (s.store.firmware.log2 / 8 + 1) s.store.firmware)
      ∃ u, exec (.attestationReport token nonce) s = .next u ∧ u.parts = s.parts ∧
      u.outbox = s.outbox ++ [.report s.moduleId nonce.toNat fw c.rec_.asid token.toNat c.rec_.digest
        (ofBytes (slhSign (bytesOf 128 s.store.key) (bytesOf 32 (Config.signRandom s.freeCtr).toNat)
          (bytesOf 4 s.moduleId ++ bytesOf 8 nonce.toNat ++ bytesOf 32 fw ++ bytesOf 2 c.rec_.asid ++
            bytesOf 8 token.toNat ++ bytesOf 32 c.rec_.digest)))]) ∧
    (s.status.standby = false → exec .coreTakeover s = .next s) ∧
    (s.status.standby = true → ∃ u xs, exec .coreTakeover s = .next u ∧ u.status.core = !s.status.core ∧ u.status.standby = false ∧
      u.parts = s.parts ∧ u.journal = s.journal ∧ u.agenda = xs ++ s.agenda ∧
      (∀ k, k ∈ u.kicks ↔ k ∈ s.kicks ∨ ∃ e ∈ s.queues, e.1 = k ∧ e.2.st = 1 ∧ e.2.tail ≠ e.2.head) ∧
      (∀ k n, intent (.setHead k n) → .kickService (BitVec.ofNat 12 k) ∈ xs) ∧ (∀ x, intent (.completion x) → .completionRecordWrite ∈ xs) ∧
      (∀ k l, intent (.start k l) → .launchStart { token := BitVec.ofNat 64 k, skews := l } ∈ xs) ∧
      (∀ e ∈ s.parts, ∀ n w, intent (.stop e.2.rec_.token n (some w)) → .preemptArm e.1 n w ∈ xs) ∧
      (∀ e ∈ s.parts, e.2.mode = .running → intent (.release e.2.rec_.token) → .launchCompletion e.1 ∈ xs) ∧
      (s.status.ready = true → .placementPass ∈ xs))

/-- R376, R389, R396, R409 to R414: bring-up stage by stage, and its failures; the management registers, and the words
of the hub window that stand for them, written and read, here or over the bridge, by the module's own index as without
one; the stop state that an ASID's debug block shows; what a retraining leaves.
It rests also on the model's choices of log entries 5, 6, 9, 57, 59, 61 and 81. -/
def Obligations.HubRegisters : Prop :=
  ∀ (s : State) (x : Word) (y : BitVec 64) (q : BitVec 12) (b : BringUp) (col off asid : Nat) (found : Retrained),
    let v := x.toNat % 2 ^ 10
    let caps := (s.parts.map (fun e => e.2.rec_.cap)).sum
    let wordOk := fun (w : Nat) => w / 2 ^ 14 % 4 = 0 ∧
      let d0 := w % 2 ^ 7
      let d1 := w / 2 ^ 7 % 2 ^ 7
      (d0 < 66 ∨ d0 = 0x7F) ∧ (d1 < 66 ∨ d1 = 0x7F) ∧ (d1 ≠ 0x7F → d0 ≠ 0x7F ∧ d0 + 1 < d1)
    (s.powered = false → exec (.budgetWrite x) s = .next s ∧ exec (.moduleIdWrite x) s = .next s ∧ exec (.bandFaultWrite x) s = .next s ∧
      exec (.registerWrite off 4 y) s = .next s ∧ exec (.kick q) s = .next s ∧ exec (.bringUp b) s = .next s ∧ windowRead s off = none) ∧
    (∃ u, exec (.queueEnergyRead q) s = .next u ∧
      getQueue u q.toNat = { getQueue s q.toNat with snap := BitVec.ofNat 32 ((getQueue s q.toNat).energy / 2 ^ 32) }) ∧
    ((∀ e ∈ s.retrain, e.1 ≠ col) → exec (.bandRetrainEnd col found) s = .next s) ∧
    ((∃ e ∈ s.retrain, e.1 = col) → ∃ u, exec (.bandRetrainEnd col found) s = .next u ∧ (∀ e, e ∈ u.retrain ↔ e ∈ s.retrain ∧ e.1 ≠ col) ∧
      (∀ k, (getPort u k).down = if k / 4 = col then decide (k ∈ found.portFail) else (getPort s k).down) ∧
      let passes := found.stacksOk = true ∧ ∀ k ∈ found.portFail, k / 4 ≠ col
      (passes → ∀ j, j ∈ u.bandFault ↔ j ∈ s.bandFault ∧ j ≠ col) ∧ (¬ passes → u.bandFault = s.bandFault)) ∧
    (s.powered = true →
      (v = 0 ∨ 720 < v ∨ v < caps → exec (.budgetWrite x) s = .next s) ∧
      (0 < v → v ≤ 720 → caps ≤ v → (∀ c ∈ s.ctxs, c.st ≠ .loading ∧ c.st ≠ .restoring) → exec (.budgetWrite x) s = .next { s with budget := v }) ∧
      (∀ c, s.parts = [] → s.ctxs = [c] → c.st = .loading → 0 < v → v ≤ 720 →
        exec (.budgetWrite x) s = .next (if v < c.rec_.cap then s else { s with budget := v })) ∧
      (s.parts = [] → exec (.moduleIdWrite x) s =
        .next { s with moduleId := x.toNat % 2 ^ 20, store := { s.store with moduleId := x.toNat % 2 ^ 20 } }) ∧
      (s.parts ≠ [] → exec (.moduleIdWrite x) s = .next s) ∧
      (∃ u, exec (.bandFaultWrite x) s = .next u ∧ u.bandFault = s.bandFault ∧ ∀ e, e ∈ u.retrain ↔ e ∈ s.retrain ∨
        e.1 < 12 ∧ x.getLsbD e.1 = true ∧ e.1 ∈ s.bandFault ∧ (∀ z ∈ s.retrain, z.1 ≠ e.1) ∧ e.2 = s.edge + 130000000) ∧
      exec (.registerWrite 0x004 4 y) s = exec (.moduleIdWrite (y.truncate 32)) s ∧
      exec (.registerWrite 0x008 4 y) s = exec (.budgetWrite (y.truncate 32)) s ∧
      exec (.registerWrite 0x00C 4 y) s = exec (.bandFaultWrite (y.truncate 32)) s ∧
      exec (.registerWrite 0x018 4 y) s = exec (.kick (y.truncate 12)) s ∧
      (∀ r ∈ [0x000, 0x010, 0x014, 0x01C], exec (.registerWrite r 4 y) s = .next s) ∧
      windowRead s 0x004 = some (BitVec.ofNat 32 s.moduleId) ∧ windowRead s 0x008 = some (BitVec.ofNat 32 s.budget) ∧
      windowRead s 0x014 = some (BitVec.ofNat 32 (s.power % 2 ^ 20)) ∧ windowRead s 0x018 = some 0 ∧ windowRead s 0x01C = some 0 ∧
      (2 ^ 23 ≤ off → off / 2 ^ 23 - 1 = s.moduleId → windowRead s off = windowRead s (off % 2 ^ 23)) ∧
      (2 ^ 23 ≤ off → off / 2 ^ 23 - 1 ≠ s.moduleId → windowRead s off = none) ∧
      (asid < 2 ^ 14 →
        (heldPart s asid = none → windowRead s (0x100084 + 256 * asid) = some 0) ∧
        (∀ p st, heldPart s asid = some p → p.stop = some st →
          windowRead s (0x100084 + 256 * asid) = some (BitVec.ofNat 32 (1 + 256 * (st.evc.toNat % 256))))) ∧
      (∀ j, j < 12 → ∃ f z, windowRead s 0x00C = some f ∧ windowRead s 0x010 = some z ∧ (f.getLsbD j = true ↔ j ∈ s.bandFault) ∧
        (z.getLsbD j = true ↔ ∃ e ∈ s.parts, e.2.first ≤ j ∧ j < e.2.first + e.2.count)) ∧
      (∃ u, exec (.registerWrite (0x010010 + 64 * q.toNat) 4 y) s = .next u ∧
        getQueue u q.toNat = { getQueue s q.toNat with tail := y.toNat % 2 ^ 32 } ∧
        windowRead u (0x010010 + 64 * q.toNat) = some (y.truncate 32)) ∧
      (∃ u, exec (.registerWrite (0x010000 + 64 * q.toNat) 4 y) s = .next u ∧
        getQueue u q.toNat = { getQueue s q.toNat with st :=
          if y.toNat % 4 = 0 then 0 else if y.toNat % 4 = 1 ∧ (getQueue s q.toNat).st ≠ 2 then 1 else (getQueue s q.toNat).st }) ∧
      ((getQueue s q.toNat).st ≠ 0 → ∀ r ∈ [0x04, 0x08, 0x0C, 0x18, 0x1C], ∃ u,
        exec (.registerWrite (0x010000 + 64 * q.toNat + r) 4 y) s = .next u ∧ getQueue u q.toNat = getQueue s q.toNat) ∧
      ((getQueue s q.toNat).st = 0 → ∃ u, exec (.registerWrite (0x010008 + 64 * q.toNat) 8 y) s = .next u ∧
        getQueue u q.toNat = { getQueue s q.toNat with ringBase := y.toNat }) ∧
      (asid < 2 ^ 14 → exec (.registerWrite (0x100080 + 256 * asid) 4 y) s = .next { s with agenda := s.agenda ++
        (if y.toNat % 4 = 1 then [.debugUnwind (BitVec.ofNat 14 asid)] else if y.toNat % 4 = 2 then [.debugFail (BitVec.ofNat 14 asid)]
          else if y.toNat % 4 = 3 then [.debugResume (BitVec.ofNat 14 asid)] else []) }) ∧
      (2 ^ 23 ≤ off → off / 2 ^ 23 - 1 = s.moduleId → exec (.registerWrite off 4 y) s = exec (.registerWrite (off % 2 ^ 23) 4 y) s) ∧
      (2 ^ 23 ≤ off → off / 2 ^ 23 - 1 ≠ s.moduleId →
        (s.status.bridge = true → exec (.registerWrite off 4 y) s =
          .next { s with outbox := s.outbox ++ [.hubWrite (off / 2 ^ 23 - 1) (off % 2 ^ 23) 4 y.toNat] }) ∧
        (s.status.bridge = false → exec (.registerWrite off 4 y) s = .next s)) ∧
      (s.status.fail ≠ 0 ∨ 8 ≤ s.status.stage → exec (.bringUp b) s = .next s) ∧
      (s.status.fail = 0 →
        let goesOn := s.inputs ++ [(s.edge + 1, Instr.bringUp b)]
        let at_ := fun (n : Nat) => { s.status with stage := n }
        (s.status.stage = 0 → exec (.bringUp b) s = .next { s with status := at_ 1, inputs := goesOn }) ∧
        (s.status.stage = 1 → exec (.bringUp b) s =
          .next (if b.railsOk then { s with status := at_ 2, inputs := goesOn } else { s with powered := false })) ∧
        (s.status.stage = 2 → exec (.bringUp b) s = .next (if Config.firmwareSigned s.store.firmware then
            { s with status := { at_ 3 with standby := true }, inputs := goesOn } else { s with status := { s.status with fail := 1 } })) ∧
        (s.status.stage = 3 →
          ((∀ e ∈ s.store.repair, wordOk e.2) → exec (.bringUp b) s =
            .next { s with status := at_ 4, inputs := goesOn, repairSum := digest32 (repairBytes s.store) }) ∧
          ((∃ e ∈ s.store.repair, ¬ wordOk e.2) → exec (.bringUp b) s = .next { s with status := { s.status with fail := 2 } })) ∧
        (s.status.stage = 4 → ∃ u, exec (.bringUp b) s = .next u ∧ u.status = at_ 5 ∧ u.inputs = goesOn ∧
          (∀ j, j ∈ u.bandFault ↔ j ∈ s.bandFault ∨ j ∈ b.tileFail ∧ j < 12) ∧ ∀ n, n ∈ u.poolBad ↔ n ∈ s.poolBad ∨ n ∈ b.poolFail) ∧
        (s.status.stage = 5 → ∃ u, exec (.bringUp b) s = .next u ∧ u.status = at_ 6 ∧ u.inputs = goesOn ∧
          ∀ j, j ∈ u.bandFault ↔ j ∈ s.bandFault ∨ j ∈ b.stackFail ∧ j < 12) ∧
        (s.status.stage = 6 → ∃ u, exec (.bringUp b) s = .next u ∧ u.status = { at_ 7 with bridge := s.store.bridge } ∧ u.inputs = goesOn ∧
          (∀ j, j ∈ u.bandFault ↔ j ∈ s.bandFault ∨ j < 12 ∧ ∃ k ∈ b.portFail, k / 4 = j) ∧
          ∀ k, k < 48 → (getPort u k).down = decide (k ∈ b.portFail)) ∧
        (s.status.stage = 7 → ∃ u, exec (.bringUp b) s = .next u ∧ u.status = { at_ 8 with ready := true } ∧ u.moduleId = s.store.moduleId ∧
          (∀ e ∈ u.queues, e.2.st = 0) ∧ u.agenda = s.agenda ++ [.placementPass] ∧ u.inputs = s.inputs ∧
          (s.status.core = false → windowRead u 0 =
            some (BitVec.ofNat 32 (0x81 + (if s.status.standby then 8 else 0) + (if s.status.bridge then 2 else 0)))))))

/-! ## The whole machine -/

/-- R11, R22, R26, R413: after reset no launch is resident and every memory is in its canonical form; a tile at
GCYC 0 has zero registers, its hard-wired ones excepted, and DONE all ones.
It rests also on the model's choices of log entries 2, 4 and 5. -/
def Obligations.ResetIsCanonical : Prop :=
  Inv State.reset ∧ Memory.wf State.reset = true ∧ State.reset.parts = [] ∧ State.reset.budget = 720 ∧
  ∀ (r : LaunchRec) (i n : Nat), tileWf (freshTile r i) = true ∧
    rg (freshTile r i) n = 0 ∧ rq (freshTile r i) n = decide (n = 0) ∧ rm (freshTile r i) n = (if n = 0 then 0xFFFF else 0) ∧
    rv (freshTile r i) n = 0 ∧ mget 0 (freshTile r i).z n = 0 ∧ (freshTile r i).flg = 0 ∧ (freshTile r i).evc = 0 ∧
    (freshTile r i).done = 0xFF

/-- Every step keeps the resident launches listed under their first sheet columns (R280), the byte memories of the
module and of every tile in canonical form (the model's invariant, log entry 4), and with them the register files, the
counters, at most six open loop levels (R123) and the regions of every tile of every live launch, on its band or swapped
out. -/
def Obligations.StepsKeepInv : Prop :=
  ∀ s u : State, Inv s → step s = .next u → Inv u

/-- R3, R256, R282, R283: with nothing due, the clock goes on by one edge, which keeps every GCYC and brings the inputs
that are due; a band's cycle begins on each of its issue edges at its cadence, none of them a groomer edge, and its GCYC
advances by one when the cycle's issue is over; with it come the events of the cycle and those of a REALIGN three cycles
before (R238). R89 to R91, R109: a step of the hardware that is due runs as it is; a bundle's next slot runs as the
instruction that its bits decode to, or traps; a bundle is fetched where the sequencer stands.
It rests also on the model's choices of log entries 1, 8 and 71. -/
def Obligations.StepsRunWhatIsDecoded : Prop :=
  ∀ (s : State),
    (∀ i r, s.agenda = i :: r → step s = exec i { s with agenda := r }) ∧
    (s.agenda = [] → s.todo = [] → ∃ u, step s = .next u ∧
      let same := ∀ b p, getPart s b = some p → ∃ p', getPart u b = some p' ∧ p'.gcyc = p.gcyc
      (s.phase = .idle → s.pending = [] → u.edge = s.edge + 1 ∧ u.phase = .idle ∧ u.pending = u.parts.map Prod.fst ∧
        (∀ b, (getPart u b).isSome = (getPart s b).isSome) ∧ same ∧
        ∃ more, u.agenda = (s.inputs.filter (fun x => decide (x.1 ≤ s.edge + 1))).map Prod.snd ++ more) ∧
      (∀ b r, s.phase = .idle → s.pending = b :: r → u.edge = s.edge ∧
        ∀ p, getPart s b = some p → p.first = b →
          let n := s.edge % 64 - s.edge % 64 / 16
          let issues := s.edge % 16 ≠ 15 ∧ n * p.k / 60 < (n + 1) * p.k / 60
          (¬ (p.startEdge ≤ s.edge ∧ issues) → u = { s with pending := r }) ∧
          (p.startEdge ≤ s.edge → issues → p.mode = .running → p.stop = none → p.replay = [] → p.holds = [] →
            same ∧ u.phase = .engine b ∧ u.pending = r ∧ (∀ l, l ∈ u.todo ↔ l.band = b ∧ ∃ e ∈ p.tiles, e.1 = l.idx ∧
              e.2.seq.halted = false ∧ e.2.seq.stopped = false ∧ e.2.seq.hold ≤ p.gcyc))) ∧
      (∀ b, s.phase = .engine b → u.phase = .issue b ∧ u.edge = s.edge ∧ same) ∧
      (∀ b, s.phase = .issue b → u.phase = .idle ∧ u.edge = s.edge ∧
        ∀ p, getPart s b = some p → p.first = b → ∃ p', getPart u b = some p' ∧ p'.gcyc = p.gcyc + 1 ∧ p'.found = [] ∧
          (∀ x, x ∈ p'.foundLater ↔ x ∈ p.foundLater ∧ p.gcyc < x.1) ∧
          ∀ c f t, p.foundLater = [(c, f)] → c ≤ p.gcyc → f.tile < poolBase → tileAt s { band := b, idx := f.tile } = some (p, t) →
            ∃ st, p'.stop = some st ∧ st.event = true)) ∧
    (∀ b (l : Loc) r p t, s.agenda = [] → s.phase = .issue b → s.todo = l :: r →
      let s0 : State := { s with cur := l }
      tileAt s0 l = some (p, t) → p.first = l.band → t.seq.halted = false → t.seq.stopped = false → p.slotBreaks = [] →
      (∀ (is : Issue) sl w rest, t.seq.issue = some is → is.slots = (sl, w) :: rest →
        let s1 := onTile s0 l (fun t => { t with seq := { t.seq with issue := some { is with slots := rest } } })
        (∀ i, decodeSlot sl w = .ok i → step s = andThen (exec i s1) (fun u => afterSlot u l)) ∧
        (∀ d, decodeSlot sl w = .error d → step s = .next (afterSlot (raisePrecise s1 l sl 0x01 d) l))) ∧
      (t.seq.issue = none →
        let h := headerAt t t.seq.pc
        let ws := bodyWords t t.seq.pc h.mask
        (∀ k, k < bundleWords h.mask → (t.seq.pc.toNat + k) % 8192 ∉ t.imemErr) → bundleFault t.seq.pc.toNat h ws = none →
        (h.mask = 0 → step s = andThen (exec (.emptyBundle (BitVec.ofNat 12 h.fold) h.le h.tt) s0) (fun u => endBundle u l)) ∧
        (h.mask ≠ 0 → t.seq.resumeDone = none → ∀ sl w rest i, cutSlots h.mask ws = (sl, w) :: rest → decodeSlot sl w = .ok i →
          ∃ s1 p1 t1, step s = andThen (exec i s1) (fun u => afterSlot u l) ∧ s1.cur = l ∧ tileAt s1 l = some (p1, t1) ∧
            OnlyTile s0 s1 l ∧ SameTile { t with loop := t1.loop } t1 ∧ p1.gcyc = p.gcyc ∧
            ((∀ x, t.seq.xfer = some x → x.delay ≠ 0 ∨ x.closes = false) → t1.loop = t.loop) ∧
            t1.seq.issue = some {
              pc := t.seq.pc, mask := h.mask, le := h.le, slots := rest, next := t.seq.pc + BitVec.ofNat 13 (bundleWords h.mask),
              inDelay := t.seq.xfer.any (fun x => decide (0 < x.delay)), sTransfer := isTransfer ((sl, w) :: rest) })))

/-- R94 to R106: slot words written out from the encoding tables decode to the instructions they stand for. -/
def Obligations.WordsDecode : Prop :=
  decodeSlot .s 0b00000001_000000_00011_00100_00101_0000000000000000000 = .ok (.add always 3 4 5) ∧
  decodeSlot .s 0b00100000_000000_00001_00010_111111111111111111111111 = .ok (.addi always 1 2 0xFFFFFF) ∧
  decodeSlot .sy 0b10010_000000000000000000000000000 = .ok .halt ∧
  decodeSlot .sy 0b10000_00000000000_0001001000110100 = .ok (.trap 0x1234) ∧
  decodeSlot .s 0b00000000_0000000000000000000000000000000000000000 = .ok (.unassignedOpcode .s 0)

/-- R94 to R107: the word of every well-formed slot instruction decodes, in its slot, to that instruction, with
every operand at every value. -/
def Obligations.DecodeInvertsEncode : Prop :=
  ∀ (i : Instr) (sl : Slot) (w : Nat), WellFormed i → encode i = some (sl, w) → w < 2 ^ slotWidth sl ∧ decodeSlot sl w = .ok i
end

