-- ==== Sys2Proof/Laws/Map.lean ====
section
/-! SUPPORT. Laws of the sparse maps: read after write, and the canonical form. -/

namespace Sys2Proof.Machine

@[simp] theorem mfind_mput_same {β : Type} (m : SMap β) (k : Nat) (v : β) : mfind (mput m k v) k = some v := by
  induction m with
  | nil => simp [mput, mfind]
  | cons x r ih =>
    obtain ⟨a, b⟩ := x
    simp only [mput]
    split
    · simp [mfind]
    · split
      · simp [mfind]
      · simp [mfind, *]

theorem mfind_mput_other {β : Type} (m : SMap β) (k j : Nat) (v : β) (h : j ≠ k) : mfind (mput m k v) j = mfind m j := by
  induction m with
  | nil => simp [mput, mfind]; omega
  | cons x r ih =>
    obtain ⟨a, b⟩ := x
    simp only [mput]
    split
    · next e => subst e; simp only [mfind]; rw [if_neg (Ne.symm h), if_neg (Ne.symm h)]
    · split
      · simp only [mfind]
        rw [if_neg (Ne.symm h)]
        by_cases hj : j < k
        · rw [if_pos hj, if_neg (by omega), if_pos (by omega)]
        · rw [if_neg hj]
      · simp only [mfind, ih]

@[simp] theorem mget_mput_same {β : Type} (d : β) (m : SMap β) (k : Nat) (v : β) : mget d (mput m k v) k = v := by
  simp [mget]

theorem mget_mput_other {β : Type} (d : β) (m : SMap β) (k j : Nat) (v : β) (h : j ≠ k) :
    mget d (mput m k v) j = mget d m j := by
  simp [mget, mfind_mput_other m k j v h]

/-! ## Rising keys -/

theorem mrising_low {β : Type} {lo lo' : Nat} {m : SMap β} (h : mrising lo m = true) (hl : lo' ≤ lo) :
    mrising lo' m = true := by
  cases m with
  | nil => rfl
  | cons x r => simp only [mrising, Bool.and_eq_true, decide_eq_true_eq] at *; exact ⟨by omega, h.2⟩

theorem msorted_of_rising {β : Type} {lo : Nat} {m : SMap β} (h : mrising lo m = true) : msorted m = true := by
  cases m with
  | nil => rfl
  | cons x r => simp only [mrising, msorted, Bool.and_eq_true] at *; exact h.2

theorem mfind_below {β : Type} {lo k : Nat} {m : SMap β} (h : mrising lo m = true) (hk : k ≤ lo) : mfind m k = none := by
  induction m generalizing lo with
  | nil => rfl
  | cons x r ih =>
    obtain ⟨a, b⟩ := x
    simp only [mrising, Bool.and_eq_true, decide_eq_true_eq] at h
    simp only [mfind]
    rw [if_neg (by omega), if_pos (by omega)]

theorem mrising_mput {β : Type} {lo k : Nat} {m : SMap β} (v : β) (h : mrising lo m = true) (hk : lo < k) :
    mrising lo (mput m k v) = true := by
  induction m generalizing lo with
  | nil => simp [mput, mrising, hk]
  | cons x r ih =>
    obtain ⟨a, b⟩ := x
    simp only [mrising, Bool.and_eq_true, decide_eq_true_eq] at h
    simp only [mput]
    split
    · next e => subst e; simp [mrising, hk, h.2]
    · split
      · next hlt => simp [mrising, hk, hlt, h.2]
      · simp only [mrising, Bool.and_eq_true, decide_eq_true_eq]; exact ⟨h.1, ih h.2 (by omega)⟩

theorem msorted_mput {β : Type} {m : SMap β} (k : Nat) (v : β) (h : msorted m = true) : msorted (mput m k v) = true := by
  cases m with
  | nil => rfl
  | cons x r =>
    obtain ⟨a, b⟩ := x
    simp only [msorted] at h
    simp only [mput]
    split
    · next e => subst e; simpa [msorted] using h
    · split
      · next hlt => simp [msorted, mrising, hlt, h]
      · simp only [msorted]; exact mrising_mput v h (by omega)

theorem mrising_merase {β : Type} {lo : Nat} {m : SMap β} (k : Nat) (h : mrising lo m = true) :
    mrising lo (merase m k) = true := by
  induction m generalizing lo with
  | nil => rfl
  | cons x r ih =>
    obtain ⟨a, b⟩ := x
    simp only [mrising, Bool.and_eq_true, decide_eq_true_eq] at h
    simp only [merase]
    split
    · exact mrising_low h.2 (by omega)
    · split
      · simp [mrising, h]
      · simp only [mrising, Bool.and_eq_true, decide_eq_true_eq]; exact ⟨h.1, ih h.2⟩

theorem msorted_merase {β : Type} {m : SMap β} (k : Nat) (h : msorted m = true) : msorted (merase m k) = true := by
  cases m with
  | nil => rfl
  | cons x r =>
    obtain ⟨a, b⟩ := x
    simp only [msorted] at h
    simp only [merase]
    split
    · exact msorted_of_rising h
    · split
      · simpa [msorted] using h
      · simp only [msorted]; exact mrising_merase k h

theorem mfind_merase_same {β : Type} {m : SMap β} (k : Nat) (h : msorted m = true) : mfind (merase m k) k = none := by
  induction m with
  | nil => rfl
  | cons x r ih =>
    obtain ⟨a, b⟩ := x
    simp only [msorted] at h
    simp only [merase]
    split
    · next e => subst e; exact mfind_below h (Nat.le_refl _)
    · split
      · next hlt => simp only [mfind]; rw [if_neg (by omega), if_pos hlt]
      · next h1 h2 => simp only [mfind]; rw [if_neg h1, if_neg h2]; exact ih (msorted_of_rising h)

theorem mfind_merase_other {β : Type} {m : SMap β} (k j : Nat) (hj : j ≠ k) (h : msorted m = true) :
    mfind (merase m k) j = mfind m j := by
  induction m with
  | nil => rfl
  | cons x r ih =>
    obtain ⟨a, b⟩ := x
    simp only [msorted] at h
    simp only [merase]
    split
    · next e =>
      subst e
      simp only [mfind]
      rw [if_neg (Ne.symm hj)]
      by_cases hl : j < a
      · rw [if_pos hl]; exact mfind_below h (by omega)
      · rw [if_neg hl]
    · split
      · rfl
      · simp only [mfind, ih (msorted_of_rising h)]

/-! ## The canonical form of a map with a default -/

theorem mem_mput {β : Type} {m : SMap β} {k : Nat} {v : β} {e : Nat × β} (h : e ∈ mput m k v) : e = (k, v) ∨ e ∈ m := by
  induction m with
  | nil => simpa [mput] using h
  | cons x r ih =>
    obtain ⟨a, b⟩ := x
    simp only [mput] at h
    split at h
    · simp only [List.mem_cons] at *; rcases h with h | h <;> simp [h]
    · split at h
      · simp only [List.mem_cons] at *; rcases h with h | h | h <;> simp [h]
      · simp only [List.mem_cons] at *
        rcases h with h | h
        · simp [h]
        · rcases ih h with h | h <;> simp [h]

theorem mem_merase {β : Type} {m : SMap β} {k : Nat} {e : Nat × β} (h : e ∈ merase m k) : e ∈ m := by
  induction m with
  | nil => simp [merase] at h
  | cons x r ih =>
    obtain ⟨a, b⟩ := x
    simp only [merase] at h
    split at h
    · simp [h]
    · split at h
      · exact h
      · simp only [List.mem_cons] at *
        rcases h with h | h
        · simp [h]
        · simp [ih h]

theorem mrising_filter {β : Type} {lo : Nat} {m : SMap β} (f : Nat × β → Bool) (h : mrising lo m = true) : mrising lo (m.filter f) = true := by
  induction m generalizing lo with
  | nil => rfl
  | cons x r ih =>
    obtain ⟨a, b⟩ := x
    simp only [mrising, Bool.and_eq_true, decide_eq_true_eq] at h
    simp only [List.filter]
    split
    · simp [mrising, h.1, ih h.2]
    · exact mrising_low (ih h.2) (by omega)

theorem msorted_filter {β : Type} {m : SMap β} (f : Nat × β → Bool) (h : msorted m = true) : msorted (m.filter f) = true := by
  cases m with
  | nil => rfl
  | cons x r =>
    obtain ⟨a, b⟩ := x
    simp only [List.filter]
    split
    · exact mrising_filter f h
    · exact msorted_of_rising (mrising_filter f h)

/-- Leaving out entries by their keys leaves the others as they are. -/
theorem mfind_filter {β : Type} {m : SMap β} (f : Nat → Bool) (k : Nat) (h : msorted m = true) :
    mfind (m.filter (fun e => f e.1)) k = if f k then mfind m k else none := by
  induction m with
  | nil => simp [mfind]
  | cons x r ih =>
    obtain ⟨a, b⟩ := x
    have hr : mrising a r = true := h
    have ih := ih (msorted_of_rising hr)
    have low : ∀ j, j ≤ a → mfind (r.filter (fun e => f e.1)) j = none := fun j hj => mfind_below (mrising_filter _ hr) hj
    simp only [List.filter]
    by_cases ha : a = k
    · subst ha
      cases hf : f a <;> simp [mfind, low a (Nat.le_refl a)]
    · by_cases hk : k < a
      · have := mfind_below hr (Nat.le_of_lt hk)
        cases hf : f a <;> simp [mfind, ha, hk, ih, this]
      · cases hf : f a <;> simp [mfind, ha, hk, ih]

theorem mwf_iff {β : Type} [DecidableEq β] {d : β} {m : SMap β} :
    mwf d m = true ↔ msorted m = true ∧ ∀ e ∈ m, e.2 ≠ d := by
  simp [mwf, List.all_eq_true]

/-- A write keeps the canonical form. -/
theorem mwf_mset {β : Type} [DecidableEq β] {d : β} {m : SMap β} (k : Nat) (v : β) (h : mwf d m = true) :
    mwf d (mset d m k v) = true := by
  rw [mwf_iff] at *
  unfold mset
  split
  · exact ⟨msorted_merase k h.1, fun e he => h.2 e (mem_merase he)⟩
  · next hv =>
    refine ⟨msorted_mput k v h.1, fun e he => ?_⟩
    rcases mem_mput he with rfl | he
    · exact hv
    · exact h.2 e he

/-- A read after a write to the same key. -/
theorem mget_mset_same {β : Type} [DecidableEq β] {d : β} {m : SMap β} (k : Nat) (v : β) (h : msorted m = true) :
    mget d (mset d m k v) k = v := by
  unfold mset
  split
  · next e => simp [mget, mfind_merase_same k h, e]
  · simp

/-- A read after a write to another key. -/
theorem mget_mset_other {β : Type} [DecidableEq β] {d : β} {m : SMap β} (k j : Nat) (v : β) (hj : j ≠ k)
    (h : msorted m = true) : mget d (mset d m k v) j = mget d m j := by
  unfold mset
  split
  · simp [mget, mfind_merase_other k j hj h]
  · exact mget_mput_other d m k j v hj

end Sys2Proof.Machine
end

