-- ==== Sys2Proof/Laws/State.lean ====
section
/-! SUPPORT. What each named update leaves: one lemma per field per update, so that no later proof unfolds
an update. -/

namespace Sys2Proof.Machine


/-! ### setPart -/

@[simp] theorem setPart_edge (s : State) (p : Part) : (setPart s p).edge = s.edge := rfl
@[simp] theorem setPart_phase (s : State) (p : Part) : (setPart s p).phase = s.phase := rfl
@[simp] theorem setPart_agenda (s : State) (p : Part) : (setPart s p).agenda = s.agenda := rfl
@[simp] theorem setPart_todo (s : State) (p : Part) : (setPart s p).todo = s.todo := rfl
@[simp] theorem setPart_cur (s : State) (p : Part) : (setPart s p).cur = s.cur := rfl
@[simp] theorem setPart_pending (s : State) (p : Part) : (setPart s p).pending = s.pending := rfl
@[simp] theorem setPart_seqNo (s : State) (p : Part) : (setPart s p).seqNo = s.seqNo := rfl
@[simp] theorem setPart_freeCtr (s : State) (p : Part) : (setPart s p).freeCtr = s.freeCtr := rfl
@[simp] theorem setPart_inputs (s : State) (p : Part) : (setPart s p).inputs = s.inputs := rfl
@[simp] theorem setPart_outbox (s : State) (p : Part) : (setPart s p).outbox = s.outbox := rfl
@[simp] theorem setPart_ports (s : State) (p : Part) : (setPart s p).ports = s.ports := rfl
@[simp] theorem setPart_dram (s : State) (p : Part) : (setPart s p).dram = s.dram := rfl
@[simp] theorem setPart_dramPoison (s : State) (p : Part) : (setPart s p).dramPoison = s.dramPoison := rfl
@[simp] theorem setPart_hostMem (s : State) (p : Part) : (setPart s p).hostMem = s.hostMem := rfl
@[simp] theorem setPart_powered (s : State) (p : Part) : (setPart s p).powered = s.powered := rfl
@[simp] theorem setPart_status (s : State) (p : Part) : (setPart s p).status = s.status := rfl
@[simp] theorem setPart_store (s : State) (p : Part) : (setPart s p).store = s.store := rfl
@[simp] theorem setPart_moduleId (s : State) (p : Part) : (setPart s p).moduleId = s.moduleId := rfl
@[simp] theorem setPart_budget (s : State) (p : Part) : (setPart s p).budget = s.budget := rfl
@[simp] theorem setPart_bandFault (s : State) (p : Part) : (setPart s p).bandFault = s.bandFault := rfl
@[simp] theorem setPart_retrain (s : State) (p : Part) : (setPart s p).retrain = s.retrain := rfl
@[simp] theorem setPart_power (s : State) (p : Part) : (setPart s p).power = s.power := rfl
@[simp] theorem setPart_idlePower (s : State) (p : Part) : (setPart s p).idlePower = s.idlePower := rfl
@[simp] theorem setPart_leftPower (s : State) (p : Part) : (setPart s p).leftPower = s.leftPower := rfl
@[simp] theorem setPart_poolBad (s : State) (p : Part) : (setPart s p).poolBad = s.poolBad := rfl
@[simp] theorem setPart_kicks (s : State) (p : Part) : (setPart s p).kicks = s.kicks := rfl
@[simp] theorem setPart_queues (s : State) (p : Part) : (setPart s p).queues = s.queues := rfl
@[simp] theorem setPart_keys (s : State) (p : Part) : (setPart s p).keys = s.keys := rfl
@[simp] theorem setPart_tenants (s : State) (p : Part) : (setPart s p).tenants = s.tenants := rfl
@[simp] theorem setPart_debug (s : State) (p : Part) : (setPart s p).debug = s.debug := rfl
@[simp] theorem setPart_ctxs (s : State) (p : Part) : (setPart s p).ctxs = s.ctxs := rfl
@[simp] theorem setPart_seen (s : State) (p : Part) : (setPart s p).seen = s.seen := rfl
@[simp] theorem setPart_lastQ (s : State) (p : Part) : (setPart s p).lastQ = s.lastQ := rfl
@[simp] theorem setPart_ring (s : State) (p : Part) : (setPart s p).ring = s.ring := rfl
@[simp] theorem setPart_ringNo (s : State) (p : Part) : (setPart s p).ringNo = s.ringNo := rfl
@[simp] theorem setPart_scrubLog (s : State) (p : Part) : (setPart s p).scrubLog = s.scrubLog := rfl
@[simp] theorem setPart_corrLog (s : State) (p : Part) : (setPart s p).corrLog = s.corrLog := rfl
@[simp] theorem setPart_mismatches (s : State) (p : Part) : (setPart s p).mismatches = s.mismatches := rfl
@[simp] theorem setPart_asks (s : State) (p : Part) : (setPart s p).asks = s.asks := rfl
@[simp] theorem setPart_dumps (s : State) (p : Part) : (setPart s p).dumps = s.dumps := rfl
@[simp] theorem setPart_offer (s : State) (p : Part) : (setPart s p).offer = s.offer := rfl
@[simp] theorem setPart_repairSum (s : State) (p : Part) : (setPart s p).repairSum = s.repairSum := rfl
@[simp] theorem setPart_done (s : State) (p : Part) : (setPart s p).done = s.done := rfl
@[simp] theorem setPart_journal (s : State) (p : Part) : (setPart s p).journal = s.journal := rfl
theorem setPart_parts (s : State) (p : Part) : (setPart s p).parts = mput s.parts p.first p := rfl

/-! ### onPart -/

@[simp] theorem onPart_edge (s : State) (b : Nat) (f : Part → Part) : (onPart s b f).edge = s.edge := by
  unfold onPart; split <;> rfl
@[simp] theorem onPart_phase (s : State) (b : Nat) (f : Part → Part) : (onPart s b f).phase = s.phase := by
  unfold onPart; split <;> rfl
@[simp] theorem onPart_agenda (s : State) (b : Nat) (f : Part → Part) : (onPart s b f).agenda = s.agenda := by
  unfold onPart; split <;> rfl
@[simp] theorem onPart_todo (s : State) (b : Nat) (f : Part → Part) : (onPart s b f).todo = s.todo := by
  unfold onPart; split <;> rfl
@[simp] theorem onPart_cur (s : State) (b : Nat) (f : Part → Part) : (onPart s b f).cur = s.cur := by
  unfold onPart; split <;> rfl
@[simp] theorem onPart_pending (s : State) (b : Nat) (f : Part → Part) : (onPart s b f).pending = s.pending := by
  unfold onPart; split <;> rfl
@[simp] theorem onPart_seqNo (s : State) (b : Nat) (f : Part → Part) : (onPart s b f).seqNo = s.seqNo := by
  unfold onPart; split <;> rfl
@[simp] theorem onPart_freeCtr (s : State) (b : Nat) (f : Part → Part) : (onPart s b f).freeCtr = s.freeCtr := by
  unfold onPart; split <;> rfl
@[simp] theorem onPart_inputs (s : State) (b : Nat) (f : Part → Part) : (onPart s b f).inputs = s.inputs := by
  unfold onPart; split <;> rfl
@[simp] theorem onPart_outbox (s : State) (b : Nat) (f : Part → Part) : (onPart s b f).outbox = s.outbox := by
  unfold onPart; split <;> rfl
@[simp] theorem onPart_ports (s : State) (b : Nat) (f : Part → Part) : (onPart s b f).ports = s.ports := by
  unfold onPart; split <;> rfl
@[simp] theorem onPart_dram (s : State) (b : Nat) (f : Part → Part) : (onPart s b f).dram = s.dram := by
  unfold onPart; split <;> rfl
@[simp] theorem onPart_dramPoison (s : State) (b : Nat) (f : Part → Part) : (onPart s b f).dramPoison = s.dramPoison := by
  unfold onPart; split <;> rfl
@[simp] theorem onPart_hostMem (s : State) (b : Nat) (f : Part → Part) : (onPart s b f).hostMem = s.hostMem := by
  unfold onPart; split <;> rfl
@[simp] theorem onPart_powered (s : State) (b : Nat) (f : Part → Part) : (onPart s b f).powered = s.powered := by
  unfold onPart; split <;> rfl
@[simp] theorem onPart_status (s : State) (b : Nat) (f : Part → Part) : (onPart s b f).status = s.status := by
  unfold onPart; split <;> rfl
@[simp] theorem onPart_store (s : State) (b : Nat) (f : Part → Part) : (onPart s b f).store = s.store := by
  unfold onPart; split <;> rfl
@[simp] theorem onPart_moduleId (s : State) (b : Nat) (f : Part → Part) : (onPart s b f).moduleId = s.moduleId := by
  unfold onPart; split <;> rfl
@[simp] theorem onPart_budget (s : State) (b : Nat) (f : Part → Part) : (onPart s b f).budget = s.budget := by
  unfold onPart; split <;> rfl
@[simp] theorem onPart_bandFault (s : State) (b : Nat) (f : Part → Part) : (onPart s b f).bandFault = s.bandFault := by
  unfold onPart; split <;> rfl
@[simp] theorem onPart_retrain (s : State) (b : Nat) (f : Part → Part) : (onPart s b f).retrain = s.retrain := by
  unfold onPart; split <;> rfl
@[simp] theorem onPart_power (s : State) (b : Nat) (f : Part → Part) : (onPart s b f).power = s.power := by
  unfold onPart; split <;> rfl
@[simp] theorem onPart_idlePower (s : State) (b : Nat) (f : Part → Part) : (onPart s b f).idlePower = s.idlePower := by
  unfold onPart; split <;> rfl
@[simp] theorem onPart_leftPower (s : State) (b : Nat) (f : Part → Part) : (onPart s b f).leftPower = s.leftPower := by
  unfold onPart; split <;> rfl
@[simp] theorem onPart_poolBad (s : State) (b : Nat) (f : Part → Part) : (onPart s b f).poolBad = s.poolBad := by
  unfold onPart; split <;> rfl
@[simp] theorem onPart_kicks (s : State) (b : Nat) (f : Part → Part) : (onPart s b f).kicks = s.kicks := by
  unfold onPart; split <;> rfl
@[simp] theorem onPart_queues (s : State) (b : Nat) (f : Part → Part) : (onPart s b f).queues = s.queues := by
  unfold onPart; split <;> rfl
@[simp] theorem onPart_keys (s : State) (b : Nat) (f : Part → Part) : (onPart s b f).keys = s.keys := by
  unfold onPart; split <;> rfl
@[simp] theorem onPart_tenants (s : State) (b : Nat) (f : Part → Part) : (onPart s b f).tenants = s.tenants := by
  unfold onPart; split <;> rfl
@[simp] theorem onPart_debug (s : State) (b : Nat) (f : Part → Part) : (onPart s b f).debug = s.debug := by
  unfold onPart; split <;> rfl
@[simp] theorem onPart_ctxs (s : State) (b : Nat) (f : Part → Part) : (onPart s b f).ctxs = s.ctxs := by
  unfold onPart; split <;> rfl
@[simp] theorem onPart_seen (s : State) (b : Nat) (f : Part → Part) : (onPart s b f).seen = s.seen := by
  unfold onPart; split <;> rfl
@[simp] theorem onPart_lastQ (s : State) (b : Nat) (f : Part → Part) : (onPart s b f).lastQ = s.lastQ := by
  unfold onPart; split <;> rfl
@[simp] theorem onPart_ring (s : State) (b : Nat) (f : Part → Part) : (onPart s b f).ring = s.ring := by
  unfold onPart; split <;> rfl
@[simp] theorem onPart_ringNo (s : State) (b : Nat) (f : Part → Part) : (onPart s b f).ringNo = s.ringNo := by
  unfold onPart; split <;> rfl
@[simp] theorem onPart_scrubLog (s : State) (b : Nat) (f : Part → Part) : (onPart s b f).scrubLog = s.scrubLog := by
  unfold onPart; split <;> rfl
@[simp] theorem onPart_corrLog (s : State) (b : Nat) (f : Part → Part) : (onPart s b f).corrLog = s.corrLog := by
  unfold onPart; split <;> rfl
@[simp] theorem onPart_mismatches (s : State) (b : Nat) (f : Part → Part) : (onPart s b f).mismatches = s.mismatches := by
  unfold onPart; split <;> rfl
@[simp] theorem onPart_asks (s : State) (b : Nat) (f : Part → Part) : (onPart s b f).asks = s.asks := by
  unfold onPart; split <;> rfl
@[simp] theorem onPart_dumps (s : State) (b : Nat) (f : Part → Part) : (onPart s b f).dumps = s.dumps := by
  unfold onPart; split <;> rfl
@[simp] theorem onPart_offer (s : State) (b : Nat) (f : Part → Part) : (onPart s b f).offer = s.offer := by
  unfold onPart; split <;> rfl
@[simp] theorem onPart_repairSum (s : State) (b : Nat) (f : Part → Part) : (onPart s b f).repairSum = s.repairSum := by
  unfold onPart; split <;> rfl
@[simp] theorem onPart_done (s : State) (b : Nat) (f : Part → Part) : (onPart s b f).done = s.done := by
  unfold onPart; split <;> rfl
@[simp] theorem onPart_journal (s : State) (b : Nat) (f : Part → Part) : (onPart s b f).journal = s.journal := by
  unfold onPart; split <;> rfl

/-! ### onTile -/

@[simp] theorem onTile_edge (s : State) (l : Loc) (f : Tile → Tile) : (onTile s l f).edge = s.edge := by simp [onTile]
@[simp] theorem onTile_phase (s : State) (l : Loc) (f : Tile → Tile) : (onTile s l f).phase = s.phase := by simp [onTile]
@[simp] theorem onTile_agenda (s : State) (l : Loc) (f : Tile → Tile) : (onTile s l f).agenda = s.agenda := by simp [onTile]
@[simp] theorem onTile_todo (s : State) (l : Loc) (f : Tile → Tile) : (onTile s l f).todo = s.todo := by simp [onTile]
@[simp] theorem onTile_cur (s : State) (l : Loc) (f : Tile → Tile) : (onTile s l f).cur = s.cur := by simp [onTile]
@[simp] theorem onTile_pending (s : State) (l : Loc) (f : Tile → Tile) : (onTile s l f).pending = s.pending := by simp [onTile]
@[simp] theorem onTile_seqNo (s : State) (l : Loc) (f : Tile → Tile) : (onTile s l f).seqNo = s.seqNo := by simp [onTile]
@[simp] theorem onTile_freeCtr (s : State) (l : Loc) (f : Tile → Tile) : (onTile s l f).freeCtr = s.freeCtr := by simp [onTile]
@[simp] theorem onTile_inputs (s : State) (l : Loc) (f : Tile → Tile) : (onTile s l f).inputs = s.inputs := by simp [onTile]
@[simp] theorem onTile_outbox (s : State) (l : Loc) (f : Tile → Tile) : (onTile s l f).outbox = s.outbox := by simp [onTile]
@[simp] theorem onTile_ports (s : State) (l : Loc) (f : Tile → Tile) : (onTile s l f).ports = s.ports := by simp [onTile]
@[simp] theorem onTile_dram (s : State) (l : Loc) (f : Tile → Tile) : (onTile s l f).dram = s.dram := by simp [onTile]
@[simp] theorem onTile_dramPoison (s : State) (l : Loc) (f : Tile → Tile) : (onTile s l f).dramPoison = s.dramPoison := by simp [onTile]
@[simp] theorem onTile_hostMem (s : State) (l : Loc) (f : Tile → Tile) : (onTile s l f).hostMem = s.hostMem := by simp [onTile]
@[simp] theorem onTile_powered (s : State) (l : Loc) (f : Tile → Tile) : (onTile s l f).powered = s.powered := by simp [onTile]
@[simp] theorem onTile_status (s : State) (l : Loc) (f : Tile → Tile) : (onTile s l f).status = s.status := by simp [onTile]
@[simp] theorem onTile_store (s : State) (l : Loc) (f : Tile → Tile) : (onTile s l f).store = s.store := by simp [onTile]
@[simp] theorem onTile_moduleId (s : State) (l : Loc) (f : Tile → Tile) : (onTile s l f).moduleId = s.moduleId := by simp [onTile]
@[simp] theorem onTile_budget (s : State) (l : Loc) (f : Tile → Tile) : (onTile s l f).budget = s.budget := by simp [onTile]
@[simp] theorem onTile_bandFault (s : State) (l : Loc) (f : Tile → Tile) : (onTile s l f).bandFault = s.bandFault := by simp [onTile]
@[simp] theorem onTile_retrain (s : State) (l : Loc) (f : Tile → Tile) : (onTile s l f).retrain = s.retrain := by simp [onTile]
@[simp] theorem onTile_power (s : State) (l : Loc) (f : Tile → Tile) : (onTile s l f).power = s.power := by simp [onTile]
@[simp] theorem onTile_idlePower (s : State) (l : Loc) (f : Tile → Tile) : (onTile s l f).idlePower = s.idlePower := by simp [onTile]
@[simp] theorem onTile_leftPower (s : State) (l : Loc) (f : Tile → Tile) : (onTile s l f).leftPower = s.leftPower := by simp [onTile]
@[simp] theorem onTile_poolBad (s : State) (l : Loc) (f : Tile → Tile) : (onTile s l f).poolBad = s.poolBad := by simp [onTile]
@[simp] theorem onTile_kicks (s : State) (l : Loc) (f : Tile → Tile) : (onTile s l f).kicks = s.kicks := by simp [onTile]
@[simp] theorem onTile_queues (s : State) (l : Loc) (f : Tile → Tile) : (onTile s l f).queues = s.queues := by simp [onTile]
@[simp] theorem onTile_keys (s : State) (l : Loc) (f : Tile → Tile) : (onTile s l f).keys = s.keys := by simp [onTile]
@[simp] theorem onTile_tenants (s : State) (l : Loc) (f : Tile → Tile) : (onTile s l f).tenants = s.tenants := by simp [onTile]
@[simp] theorem onTile_debug (s : State) (l : Loc) (f : Tile → Tile) : (onTile s l f).debug = s.debug := by simp [onTile]
@[simp] theorem onTile_ctxs (s : State) (l : Loc) (f : Tile → Tile) : (onTile s l f).ctxs = s.ctxs := by simp [onTile]
@[simp] theorem onTile_seen (s : State) (l : Loc) (f : Tile → Tile) : (onTile s l f).seen = s.seen := by simp [onTile]
@[simp] theorem onTile_lastQ (s : State) (l : Loc) (f : Tile → Tile) : (onTile s l f).lastQ = s.lastQ := by simp [onTile]
@[simp] theorem onTile_ring (s : State) (l : Loc) (f : Tile → Tile) : (onTile s l f).ring = s.ring := by simp [onTile]
@[simp] theorem onTile_ringNo (s : State) (l : Loc) (f : Tile → Tile) : (onTile s l f).ringNo = s.ringNo := by simp [onTile]
@[simp] theorem onTile_scrubLog (s : State) (l : Loc) (f : Tile → Tile) : (onTile s l f).scrubLog = s.scrubLog := by simp [onTile]
@[simp] theorem onTile_corrLog (s : State) (l : Loc) (f : Tile → Tile) : (onTile s l f).corrLog = s.corrLog := by simp [onTile]
@[simp] theorem onTile_mismatches (s : State) (l : Loc) (f : Tile → Tile) : (onTile s l f).mismatches = s.mismatches := by simp [onTile]
@[simp] theorem onTile_asks (s : State) (l : Loc) (f : Tile → Tile) : (onTile s l f).asks = s.asks := by simp [onTile]
@[simp] theorem onTile_dumps (s : State) (l : Loc) (f : Tile → Tile) : (onTile s l f).dumps = s.dumps := by simp [onTile]
@[simp] theorem onTile_offer (s : State) (l : Loc) (f : Tile → Tile) : (onTile s l f).offer = s.offer := by simp [onTile]
@[simp] theorem onTile_repairSum (s : State) (l : Loc) (f : Tile → Tile) : (onTile s l f).repairSum = s.repairSum := by simp [onTile]
@[simp] theorem onTile_done (s : State) (l : Loc) (f : Tile → Tile) : (onTile s l f).done = s.done := by simp [onTile]
@[simp] theorem onTile_journal (s : State) (l : Loc) (f : Tile → Tile) : (onTile s l f).journal = s.journal := by simp [onTile]

/-! ### onPort -/

@[simp] theorem onPort_edge (s : State) (k : Nat) (f : Port → Port) : (onPort s k f).edge = s.edge := rfl
@[simp] theorem onPort_phase (s : State) (k : Nat) (f : Port → Port) : (onPort s k f).phase = s.phase := rfl
@[simp] theorem onPort_agenda (s : State) (k : Nat) (f : Port → Port) : (onPort s k f).agenda = s.agenda := rfl
@[simp] theorem onPort_todo (s : State) (k : Nat) (f : Port → Port) : (onPort s k f).todo = s.todo := rfl
@[simp] theorem onPort_cur (s : State) (k : Nat) (f : Port → Port) : (onPort s k f).cur = s.cur := rfl
@[simp] theorem onPort_pending (s : State) (k : Nat) (f : Port → Port) : (onPort s k f).pending = s.pending := rfl
@[simp] theorem onPort_seqNo (s : State) (k : Nat) (f : Port → Port) : (onPort s k f).seqNo = s.seqNo := rfl
@[simp] theorem onPort_freeCtr (s : State) (k : Nat) (f : Port → Port) : (onPort s k f).freeCtr = s.freeCtr := rfl
@[simp] theorem onPort_inputs (s : State) (k : Nat) (f : Port → Port) : (onPort s k f).inputs = s.inputs := rfl
@[simp] theorem onPort_outbox (s : State) (k : Nat) (f : Port → Port) : (onPort s k f).outbox = s.outbox := rfl
@[simp] theorem onPort_parts (s : State) (k : Nat) (f : Port → Port) : (onPort s k f).parts = s.parts := rfl
@[simp] theorem onPort_dram (s : State) (k : Nat) (f : Port → Port) : (onPort s k f).dram = s.dram := rfl
@[simp] theorem onPort_dramPoison (s : State) (k : Nat) (f : Port → Port) : (onPort s k f).dramPoison = s.dramPoison := rfl
@[simp] theorem onPort_hostMem (s : State) (k : Nat) (f : Port → Port) : (onPort s k f).hostMem = s.hostMem := rfl
@[simp] theorem onPort_powered (s : State) (k : Nat) (f : Port → Port) : (onPort s k f).powered = s.powered := rfl
@[simp] theorem onPort_status (s : State) (k : Nat) (f : Port → Port) : (onPort s k f).status = s.status := rfl
@[simp] theorem onPort_store (s : State) (k : Nat) (f : Port → Port) : (onPort s k f).store = s.store := rfl
@[simp] theorem onPort_moduleId (s : State) (k : Nat) (f : Port → Port) : (onPort s k f).moduleId = s.moduleId := rfl
@[simp] theorem onPort_budget (s : State) (k : Nat) (f : Port → Port) : (onPort s k f).budget = s.budget := rfl
@[simp] theorem onPort_bandFault (s : State) (k : Nat) (f : Port → Port) : (onPort s k f).bandFault = s.bandFault := rfl
@[simp] theorem onPort_retrain (s : State) (k : Nat) (f : Port → Port) : (onPort s k f).retrain = s.retrain := rfl
@[simp] theorem onPort_power (s : State) (k : Nat) (f : Port → Port) : (onPort s k f).power = s.power := rfl
@[simp] theorem onPort_idlePower (s : State) (k : Nat) (f : Port → Port) : (onPort s k f).idlePower = s.idlePower := rfl
@[simp] theorem onPort_leftPower (s : State) (k : Nat) (f : Port → Port) : (onPort s k f).leftPower = s.leftPower := rfl
@[simp] theorem onPort_poolBad (s : State) (k : Nat) (f : Port → Port) : (onPort s k f).poolBad = s.poolBad := rfl
@[simp] theorem onPort_kicks (s : State) (k : Nat) (f : Port → Port) : (onPort s k f).kicks = s.kicks := rfl
@[simp] theorem onPort_queues (s : State) (k : Nat) (f : Port → Port) : (onPort s k f).queues = s.queues := rfl
@[simp] theorem onPort_keys (s : State) (k : Nat) (f : Port → Port) : (onPort s k f).keys = s.keys := rfl
@[simp] theorem onPort_tenants (s : State) (k : Nat) (f : Port → Port) : (onPort s k f).tenants = s.tenants := rfl
@[simp] theorem onPort_debug (s : State) (k : Nat) (f : Port → Port) : (onPort s k f).debug = s.debug := rfl
@[simp] theorem onPort_ctxs (s : State) (k : Nat) (f : Port → Port) : (onPort s k f).ctxs = s.ctxs := rfl
@[simp] theorem onPort_seen (s : State) (k : Nat) (f : Port → Port) : (onPort s k f).seen = s.seen := rfl
@[simp] theorem onPort_lastQ (s : State) (k : Nat) (f : Port → Port) : (onPort s k f).lastQ = s.lastQ := rfl
@[simp] theorem onPort_ring (s : State) (k : Nat) (f : Port → Port) : (onPort s k f).ring = s.ring := rfl
@[simp] theorem onPort_ringNo (s : State) (k : Nat) (f : Port → Port) : (onPort s k f).ringNo = s.ringNo := rfl
@[simp] theorem onPort_scrubLog (s : State) (k : Nat) (f : Port → Port) : (onPort s k f).scrubLog = s.scrubLog := rfl
@[simp] theorem onPort_corrLog (s : State) (k : Nat) (f : Port → Port) : (onPort s k f).corrLog = s.corrLog := rfl
@[simp] theorem onPort_mismatches (s : State) (k : Nat) (f : Port → Port) : (onPort s k f).mismatches = s.mismatches := rfl
@[simp] theorem onPort_asks (s : State) (k : Nat) (f : Port → Port) : (onPort s k f).asks = s.asks := rfl
@[simp] theorem onPort_dumps (s : State) (k : Nat) (f : Port → Port) : (onPort s k f).dumps = s.dumps := rfl
@[simp] theorem onPort_offer (s : State) (k : Nat) (f : Port → Port) : (onPort s k f).offer = s.offer := rfl
@[simp] theorem onPort_repairSum (s : State) (k : Nat) (f : Port → Port) : (onPort s k f).repairSum = s.repairSum := rfl
@[simp] theorem onPort_done (s : State) (k : Nat) (f : Port → Port) : (onPort s k f).done = s.done := rfl
@[simp] theorem onPort_journal (s : State) (k : Nat) (f : Port → Port) : (onPort s k f).journal = s.journal := rfl

/-! ### onQueue -/

@[simp] theorem onQueue_edge (s : State) (q : Nat) (f : Queue → Queue) : (onQueue s q f).edge = s.edge := rfl
@[simp] theorem onQueue_phase (s : State) (q : Nat) (f : Queue → Queue) : (onQueue s q f).phase = s.phase := rfl
@[simp] theorem onQueue_agenda (s : State) (q : Nat) (f : Queue → Queue) : (onQueue s q f).agenda = s.agenda := rfl
@[simp] theorem onQueue_todo (s : State) (q : Nat) (f : Queue → Queue) : (onQueue s q f).todo = s.todo := rfl
@[simp] theorem onQueue_cur (s : State) (q : Nat) (f : Queue → Queue) : (onQueue s q f).cur = s.cur := rfl
@[simp] theorem onQueue_pending (s : State) (q : Nat) (f : Queue → Queue) : (onQueue s q f).pending = s.pending := rfl
@[simp] theorem onQueue_seqNo (s : State) (q : Nat) (f : Queue → Queue) : (onQueue s q f).seqNo = s.seqNo := rfl
@[simp] theorem onQueue_freeCtr (s : State) (q : Nat) (f : Queue → Queue) : (onQueue s q f).freeCtr = s.freeCtr := rfl
@[simp] theorem onQueue_inputs (s : State) (q : Nat) (f : Queue → Queue) : (onQueue s q f).inputs = s.inputs := rfl
@[simp] theorem onQueue_outbox (s : State) (q : Nat) (f : Queue → Queue) : (onQueue s q f).outbox = s.outbox := rfl
@[simp] theorem onQueue_parts (s : State) (q : Nat) (f : Queue → Queue) : (onQueue s q f).parts = s.parts := rfl
@[simp] theorem onQueue_ports (s : State) (q : Nat) (f : Queue → Queue) : (onQueue s q f).ports = s.ports := rfl
@[simp] theorem onQueue_dram (s : State) (q : Nat) (f : Queue → Queue) : (onQueue s q f).dram = s.dram := rfl
@[simp] theorem onQueue_dramPoison (s : State) (q : Nat) (f : Queue → Queue) : (onQueue s q f).dramPoison = s.dramPoison := rfl
@[simp] theorem onQueue_hostMem (s : State) (q : Nat) (f : Queue → Queue) : (onQueue s q f).hostMem = s.hostMem := rfl
@[simp] theorem onQueue_powered (s : State) (q : Nat) (f : Queue → Queue) : (onQueue s q f).powered = s.powered := rfl
@[simp] theorem onQueue_status (s : State) (q : Nat) (f : Queue → Queue) : (onQueue s q f).status = s.status := rfl
@[simp] theorem onQueue_store (s : State) (q : Nat) (f : Queue → Queue) : (onQueue s q f).store = s.store := rfl
@[simp] theorem onQueue_moduleId (s : State) (q : Nat) (f : Queue → Queue) : (onQueue s q f).moduleId = s.moduleId := rfl
@[simp] theorem onQueue_budget (s : State) (q : Nat) (f : Queue → Queue) : (onQueue s q f).budget = s.budget := rfl
@[simp] theorem onQueue_bandFault (s : State) (q : Nat) (f : Queue → Queue) : (onQueue s q f).bandFault = s.bandFault := rfl
@[simp] theorem onQueue_retrain (s : State) (q : Nat) (f : Queue → Queue) : (onQueue s q f).retrain = s.retrain := rfl
@[simp] theorem onQueue_power (s : State) (q : Nat) (f : Queue → Queue) : (onQueue s q f).power = s.power := rfl
@[simp] theorem onQueue_idlePower (s : State) (q : Nat) (f : Queue → Queue) : (onQueue s q f).idlePower = s.idlePower := rfl
@[simp] theorem onQueue_leftPower (s : State) (q : Nat) (f : Queue → Queue) : (onQueue s q f).leftPower = s.leftPower := rfl
@[simp] theorem onQueue_poolBad (s : State) (q : Nat) (f : Queue → Queue) : (onQueue s q f).poolBad = s.poolBad := rfl
@[simp] theorem onQueue_kicks (s : State) (q : Nat) (f : Queue → Queue) : (onQueue s q f).kicks = s.kicks := rfl
@[simp] theorem onQueue_keys (s : State) (q : Nat) (f : Queue → Queue) : (onQueue s q f).keys = s.keys := rfl
@[simp] theorem onQueue_tenants (s : State) (q : Nat) (f : Queue → Queue) : (onQueue s q f).tenants = s.tenants := rfl
@[simp] theorem onQueue_debug (s : State) (q : Nat) (f : Queue → Queue) : (onQueue s q f).debug = s.debug := rfl
@[simp] theorem onQueue_ctxs (s : State) (q : Nat) (f : Queue → Queue) : (onQueue s q f).ctxs = s.ctxs := rfl
@[simp] theorem onQueue_seen (s : State) (q : Nat) (f : Queue → Queue) : (onQueue s q f).seen = s.seen := rfl
@[simp] theorem onQueue_lastQ (s : State) (q : Nat) (f : Queue → Queue) : (onQueue s q f).lastQ = s.lastQ := rfl
@[simp] theorem onQueue_ring (s : State) (q : Nat) (f : Queue → Queue) : (onQueue s q f).ring = s.ring := rfl
@[simp] theorem onQueue_ringNo (s : State) (q : Nat) (f : Queue → Queue) : (onQueue s q f).ringNo = s.ringNo := rfl
@[simp] theorem onQueue_scrubLog (s : State) (q : Nat) (f : Queue → Queue) : (onQueue s q f).scrubLog = s.scrubLog := rfl
@[simp] theorem onQueue_corrLog (s : State) (q : Nat) (f : Queue → Queue) : (onQueue s q f).corrLog = s.corrLog := rfl
@[simp] theorem onQueue_mismatches (s : State) (q : Nat) (f : Queue → Queue) : (onQueue s q f).mismatches = s.mismatches := rfl
@[simp] theorem onQueue_asks (s : State) (q : Nat) (f : Queue → Queue) : (onQueue s q f).asks = s.asks := rfl
@[simp] theorem onQueue_dumps (s : State) (q : Nat) (f : Queue → Queue) : (onQueue s q f).dumps = s.dumps := rfl
@[simp] theorem onQueue_offer (s : State) (q : Nat) (f : Queue → Queue) : (onQueue s q f).offer = s.offer := rfl
@[simp] theorem onQueue_repairSum (s : State) (q : Nat) (f : Queue → Queue) : (onQueue s q f).repairSum = s.repairSum := rfl
@[simp] theorem onQueue_done (s : State) (q : Nat) (f : Queue → Queue) : (onQueue s q f).done = s.done := rfl
@[simp] theorem onQueue_journal (s : State) (q : Nat) (f : Queue → Queue) : (onQueue s q f).journal = s.journal := rfl

/-! ### onCtx -/

@[simp] theorem onCtx_edge (s : State) (k : Nat) (f : Ctx → Ctx) : (onCtx s k f).edge = s.edge := rfl
@[simp] theorem onCtx_phase (s : State) (k : Nat) (f : Ctx → Ctx) : (onCtx s k f).phase = s.phase := rfl
@[simp] theorem onCtx_agenda (s : State) (k : Nat) (f : Ctx → Ctx) : (onCtx s k f).agenda = s.agenda := rfl
@[simp] theorem onCtx_todo (s : State) (k : Nat) (f : Ctx → Ctx) : (onCtx s k f).todo = s.todo := rfl
@[simp] theorem onCtx_cur (s : State) (k : Nat) (f : Ctx → Ctx) : (onCtx s k f).cur = s.cur := rfl
@[simp] theorem onCtx_pending (s : State) (k : Nat) (f : Ctx → Ctx) : (onCtx s k f).pending = s.pending := rfl
@[simp] theorem onCtx_seqNo (s : State) (k : Nat) (f : Ctx → Ctx) : (onCtx s k f).seqNo = s.seqNo := rfl
@[simp] theorem onCtx_freeCtr (s : State) (k : Nat) (f : Ctx → Ctx) : (onCtx s k f).freeCtr = s.freeCtr := rfl
@[simp] theorem onCtx_inputs (s : State) (k : Nat) (f : Ctx → Ctx) : (onCtx s k f).inputs = s.inputs := rfl
@[simp] theorem onCtx_outbox (s : State) (k : Nat) (f : Ctx → Ctx) : (onCtx s k f).outbox = s.outbox := rfl
@[simp] theorem onCtx_parts (s : State) (k : Nat) (f : Ctx → Ctx) : (onCtx s k f).parts = s.parts := rfl
@[simp] theorem onCtx_ports (s : State) (k : Nat) (f : Ctx → Ctx) : (onCtx s k f).ports = s.ports := rfl
@[simp] theorem onCtx_dram (s : State) (k : Nat) (f : Ctx → Ctx) : (onCtx s k f).dram = s.dram := rfl
@[simp] theorem onCtx_dramPoison (s : State) (k : Nat) (f : Ctx → Ctx) : (onCtx s k f).dramPoison = s.dramPoison := rfl
@[simp] theorem onCtx_hostMem (s : State) (k : Nat) (f : Ctx → Ctx) : (onCtx s k f).hostMem = s.hostMem := rfl
@[simp] theorem onCtx_powered (s : State) (k : Nat) (f : Ctx → Ctx) : (onCtx s k f).powered = s.powered := rfl
@[simp] theorem onCtx_status (s : State) (k : Nat) (f : Ctx → Ctx) : (onCtx s k f).status = s.status := rfl
@[simp] theorem onCtx_store (s : State) (k : Nat) (f : Ctx → Ctx) : (onCtx s k f).store = s.store := rfl
@[simp] theorem onCtx_moduleId (s : State) (k : Nat) (f : Ctx → Ctx) : (onCtx s k f).moduleId = s.moduleId := rfl
@[simp] theorem onCtx_budget (s : State) (k : Nat) (f : Ctx → Ctx) : (onCtx s k f).budget = s.budget := rfl
@[simp] theorem onCtx_bandFault (s : State) (k : Nat) (f : Ctx → Ctx) : (onCtx s k f).bandFault = s.bandFault := rfl
@[simp] theorem onCtx_retrain (s : State) (k : Nat) (f : Ctx → Ctx) : (onCtx s k f).retrain = s.retrain := rfl
@[simp] theorem onCtx_power (s : State) (k : Nat) (f : Ctx → Ctx) : (onCtx s k f).power = s.power := rfl
@[simp] theorem onCtx_idlePower (s : State) (k : Nat) (f : Ctx → Ctx) : (onCtx s k f).idlePower = s.idlePower := rfl
@[simp] theorem onCtx_leftPower (s : State) (k : Nat) (f : Ctx → Ctx) : (onCtx s k f).leftPower = s.leftPower := rfl
@[simp] theorem onCtx_poolBad (s : State) (k : Nat) (f : Ctx → Ctx) : (onCtx s k f).poolBad = s.poolBad := rfl
@[simp] theorem onCtx_kicks (s : State) (k : Nat) (f : Ctx → Ctx) : (onCtx s k f).kicks = s.kicks := rfl
@[simp] theorem onCtx_queues (s : State) (k : Nat) (f : Ctx → Ctx) : (onCtx s k f).queues = s.queues := rfl
@[simp] theorem onCtx_keys (s : State) (k : Nat) (f : Ctx → Ctx) : (onCtx s k f).keys = s.keys := rfl
@[simp] theorem onCtx_tenants (s : State) (k : Nat) (f : Ctx → Ctx) : (onCtx s k f).tenants = s.tenants := rfl
@[simp] theorem onCtx_debug (s : State) (k : Nat) (f : Ctx → Ctx) : (onCtx s k f).debug = s.debug := rfl
@[simp] theorem onCtx_seen (s : State) (k : Nat) (f : Ctx → Ctx) : (onCtx s k f).seen = s.seen := rfl
@[simp] theorem onCtx_lastQ (s : State) (k : Nat) (f : Ctx → Ctx) : (onCtx s k f).lastQ = s.lastQ := rfl
@[simp] theorem onCtx_ring (s : State) (k : Nat) (f : Ctx → Ctx) : (onCtx s k f).ring = s.ring := rfl
@[simp] theorem onCtx_ringNo (s : State) (k : Nat) (f : Ctx → Ctx) : (onCtx s k f).ringNo = s.ringNo := rfl
@[simp] theorem onCtx_scrubLog (s : State) (k : Nat) (f : Ctx → Ctx) : (onCtx s k f).scrubLog = s.scrubLog := rfl
@[simp] theorem onCtx_corrLog (s : State) (k : Nat) (f : Ctx → Ctx) : (onCtx s k f).corrLog = s.corrLog := rfl
@[simp] theorem onCtx_mismatches (s : State) (k : Nat) (f : Ctx → Ctx) : (onCtx s k f).mismatches = s.mismatches := rfl
@[simp] theorem onCtx_asks (s : State) (k : Nat) (f : Ctx → Ctx) : (onCtx s k f).asks = s.asks := rfl
@[simp] theorem onCtx_dumps (s : State) (k : Nat) (f : Ctx → Ctx) : (onCtx s k f).dumps = s.dumps := rfl
@[simp] theorem onCtx_offer (s : State) (k : Nat) (f : Ctx → Ctx) : (onCtx s k f).offer = s.offer := rfl
@[simp] theorem onCtx_repairSum (s : State) (k : Nat) (f : Ctx → Ctx) : (onCtx s k f).repairSum = s.repairSum := rfl
@[simp] theorem onCtx_done (s : State) (k : Nat) (f : Ctx → Ctx) : (onCtx s k f).done = s.done := rfl
@[simp] theorem onCtx_journal (s : State) (k : Nat) (f : Ctx → Ctx) : (onCtx s k f).journal = s.journal := rfl

/-! ### nextSeq -/

@[simp] theorem nextSeq_edge (s : State) : (nextSeq s).edge = s.edge := rfl
@[simp] theorem nextSeq_phase (s : State) : (nextSeq s).phase = s.phase := rfl
@[simp] theorem nextSeq_agenda (s : State) : (nextSeq s).agenda = s.agenda := rfl
@[simp] theorem nextSeq_todo (s : State) : (nextSeq s).todo = s.todo := rfl
@[simp] theorem nextSeq_cur (s : State) : (nextSeq s).cur = s.cur := rfl
@[simp] theorem nextSeq_pending (s : State) : (nextSeq s).pending = s.pending := rfl
@[simp] theorem nextSeq_freeCtr (s : State) : (nextSeq s).freeCtr = s.freeCtr := rfl
@[simp] theorem nextSeq_inputs (s : State) : (nextSeq s).inputs = s.inputs := rfl
@[simp] theorem nextSeq_outbox (s : State) : (nextSeq s).outbox = s.outbox := rfl
@[simp] theorem nextSeq_parts (s : State) : (nextSeq s).parts = s.parts := rfl
@[simp] theorem nextSeq_ports (s : State) : (nextSeq s).ports = s.ports := rfl
@[simp] theorem nextSeq_dram (s : State) : (nextSeq s).dram = s.dram := rfl
@[simp] theorem nextSeq_dramPoison (s : State) : (nextSeq s).dramPoison = s.dramPoison := rfl
@[simp] theorem nextSeq_hostMem (s : State) : (nextSeq s).hostMem = s.hostMem := rfl
@[simp] theorem nextSeq_powered (s : State) : (nextSeq s).powered = s.powered := rfl
@[simp] theorem nextSeq_status (s : State) : (nextSeq s).status = s.status := rfl
@[simp] theorem nextSeq_store (s : State) : (nextSeq s).store = s.store := rfl
@[simp] theorem nextSeq_moduleId (s : State) : (nextSeq s).moduleId = s.moduleId := rfl
@[simp] theorem nextSeq_budget (s : State) : (nextSeq s).budget = s.budget := rfl
@[simp] theorem nextSeq_bandFault (s : State) : (nextSeq s).bandFault = s.bandFault := rfl
@[simp] theorem nextSeq_retrain (s : State) : (nextSeq s).retrain = s.retrain := rfl
@[simp] theorem nextSeq_power (s : State) : (nextSeq s).power = s.power := rfl
@[simp] theorem nextSeq_idlePower (s : State) : (nextSeq s).idlePower = s.idlePower := rfl
@[simp] theorem nextSeq_leftPower (s : State) : (nextSeq s).leftPower = s.leftPower := rfl
@[simp] theorem nextSeq_poolBad (s : State) : (nextSeq s).poolBad = s.poolBad := rfl
@[simp] theorem nextSeq_kicks (s : State) : (nextSeq s).kicks = s.kicks := rfl
@[simp] theorem nextSeq_queues (s : State) : (nextSeq s).queues = s.queues := rfl
@[simp] theorem nextSeq_keys (s : State) : (nextSeq s).keys = s.keys := rfl
@[simp] theorem nextSeq_tenants (s : State) : (nextSeq s).tenants = s.tenants := rfl
@[simp] theorem nextSeq_debug (s : State) : (nextSeq s).debug = s.debug := rfl
@[simp] theorem nextSeq_ctxs (s : State) : (nextSeq s).ctxs = s.ctxs := rfl
@[simp] theorem nextSeq_seen (s : State) : (nextSeq s).seen = s.seen := rfl
@[simp] theorem nextSeq_lastQ (s : State) : (nextSeq s).lastQ = s.lastQ := rfl
@[simp] theorem nextSeq_ring (s : State) : (nextSeq s).ring = s.ring := rfl
@[simp] theorem nextSeq_ringNo (s : State) : (nextSeq s).ringNo = s.ringNo := rfl
@[simp] theorem nextSeq_scrubLog (s : State) : (nextSeq s).scrubLog = s.scrubLog := rfl
@[simp] theorem nextSeq_corrLog (s : State) : (nextSeq s).corrLog = s.corrLog := rfl
@[simp] theorem nextSeq_mismatches (s : State) : (nextSeq s).mismatches = s.mismatches := rfl
@[simp] theorem nextSeq_asks (s : State) : (nextSeq s).asks = s.asks := rfl
@[simp] theorem nextSeq_dumps (s : State) : (nextSeq s).dumps = s.dumps := rfl
@[simp] theorem nextSeq_offer (s : State) : (nextSeq s).offer = s.offer := rfl
@[simp] theorem nextSeq_repairSum (s : State) : (nextSeq s).repairSum = s.repairSum := rfl
@[simp] theorem nextSeq_done (s : State) : (nextSeq s).done = s.done := rfl
@[simp] theorem nextSeq_journal (s : State) : (nextSeq s).journal = s.journal := rfl

/-! ### drawFree -/

@[simp] theorem drawFree_edge (s : State) : (drawFree s).edge = s.edge := rfl
@[simp] theorem drawFree_phase (s : State) : (drawFree s).phase = s.phase := rfl
@[simp] theorem drawFree_agenda (s : State) : (drawFree s).agenda = s.agenda := rfl
@[simp] theorem drawFree_todo (s : State) : (drawFree s).todo = s.todo := rfl
@[simp] theorem drawFree_cur (s : State) : (drawFree s).cur = s.cur := rfl
@[simp] theorem drawFree_pending (s : State) : (drawFree s).pending = s.pending := rfl
@[simp] theorem drawFree_seqNo (s : State) : (drawFree s).seqNo = s.seqNo := rfl
@[simp] theorem drawFree_inputs (s : State) : (drawFree s).inputs = s.inputs := rfl
@[simp] theorem drawFree_outbox (s : State) : (drawFree s).outbox = s.outbox := rfl
@[simp] theorem drawFree_parts (s : State) : (drawFree s).parts = s.parts := rfl
@[simp] theorem drawFree_ports (s : State) : (drawFree s).ports = s.ports := rfl
@[simp] theorem drawFree_dram (s : State) : (drawFree s).dram = s.dram := rfl
@[simp] theorem drawFree_dramPoison (s : State) : (drawFree s).dramPoison = s.dramPoison := rfl
@[simp] theorem drawFree_hostMem (s : State) : (drawFree s).hostMem = s.hostMem := rfl
@[simp] theorem drawFree_powered (s : State) : (drawFree s).powered = s.powered := rfl
@[simp] theorem drawFree_status (s : State) : (drawFree s).status = s.status := rfl
@[simp] theorem drawFree_store (s : State) : (drawFree s).store = s.store := rfl
@[simp] theorem drawFree_moduleId (s : State) : (drawFree s).moduleId = s.moduleId := rfl
@[simp] theorem drawFree_budget (s : State) : (drawFree s).budget = s.budget := rfl
@[simp] theorem drawFree_bandFault (s : State) : (drawFree s).bandFault = s.bandFault := rfl
@[simp] theorem drawFree_retrain (s : State) : (drawFree s).retrain = s.retrain := rfl
@[simp] theorem drawFree_power (s : State) : (drawFree s).power = s.power := rfl
@[simp] theorem drawFree_idlePower (s : State) : (drawFree s).idlePower = s.idlePower := rfl
@[simp] theorem drawFree_leftPower (s : State) : (drawFree s).leftPower = s.leftPower := rfl
@[simp] theorem drawFree_poolBad (s : State) : (drawFree s).poolBad = s.poolBad := rfl
@[simp] theorem drawFree_kicks (s : State) : (drawFree s).kicks = s.kicks := rfl
@[simp] theorem drawFree_queues (s : State) : (drawFree s).queues = s.queues := rfl
@[simp] theorem drawFree_keys (s : State) : (drawFree s).keys = s.keys := rfl
@[simp] theorem drawFree_tenants (s : State) : (drawFree s).tenants = s.tenants := rfl
@[simp] theorem drawFree_debug (s : State) : (drawFree s).debug = s.debug := rfl
@[simp] theorem drawFree_ctxs (s : State) : (drawFree s).ctxs = s.ctxs := rfl
@[simp] theorem drawFree_seen (s : State) : (drawFree s).seen = s.seen := rfl
@[simp] theorem drawFree_lastQ (s : State) : (drawFree s).lastQ = s.lastQ := rfl
@[simp] theorem drawFree_ring (s : State) : (drawFree s).ring = s.ring := rfl
@[simp] theorem drawFree_ringNo (s : State) : (drawFree s).ringNo = s.ringNo := rfl
@[simp] theorem drawFree_scrubLog (s : State) : (drawFree s).scrubLog = s.scrubLog := rfl
@[simp] theorem drawFree_corrLog (s : State) : (drawFree s).corrLog = s.corrLog := rfl
@[simp] theorem drawFree_mismatches (s : State) : (drawFree s).mismatches = s.mismatches := rfl
@[simp] theorem drawFree_asks (s : State) : (drawFree s).asks = s.asks := rfl
@[simp] theorem drawFree_dumps (s : State) : (drawFree s).dumps = s.dumps := rfl
@[simp] theorem drawFree_offer (s : State) : (drawFree s).offer = s.offer := rfl
@[simp] theorem drawFree_repairSum (s : State) : (drawFree s).repairSum = s.repairSum := rfl
@[simp] theorem drawFree_done (s : State) : (drawFree s).done = s.done := rfl
@[simp] theorem drawFree_journal (s : State) : (drawFree s).journal = s.journal := rfl

/-! ### agendaAdd -/

@[simp] theorem agendaAdd_edge (s : State) (l : List Instr) : (agendaAdd s l).edge = s.edge := rfl
@[simp] theorem agendaAdd_phase (s : State) (l : List Instr) : (agendaAdd s l).phase = s.phase := rfl
@[simp] theorem agendaAdd_todo (s : State) (l : List Instr) : (agendaAdd s l).todo = s.todo := rfl
@[simp] theorem agendaAdd_cur (s : State) (l : List Instr) : (agendaAdd s l).cur = s.cur := rfl
@[simp] theorem agendaAdd_pending (s : State) (l : List Instr) : (agendaAdd s l).pending = s.pending := rfl
@[simp] theorem agendaAdd_seqNo (s : State) (l : List Instr) : (agendaAdd s l).seqNo = s.seqNo := rfl
@[simp] theorem agendaAdd_freeCtr (s : State) (l : List Instr) : (agendaAdd s l).freeCtr = s.freeCtr := rfl
@[simp] theorem agendaAdd_inputs (s : State) (l : List Instr) : (agendaAdd s l).inputs = s.inputs := rfl
@[simp] theorem agendaAdd_outbox (s : State) (l : List Instr) : (agendaAdd s l).outbox = s.outbox := rfl
@[simp] theorem agendaAdd_parts (s : State) (l : List Instr) : (agendaAdd s l).parts = s.parts := rfl
@[simp] theorem agendaAdd_ports (s : State) (l : List Instr) : (agendaAdd s l).ports = s.ports := rfl
@[simp] theorem agendaAdd_dram (s : State) (l : List Instr) : (agendaAdd s l).dram = s.dram := rfl
@[simp] theorem agendaAdd_dramPoison (s : State) (l : List Instr) : (agendaAdd s l).dramPoison = s.dramPoison := rfl
@[simp] theorem agendaAdd_hostMem (s : State) (l : List Instr) : (agendaAdd s l).hostMem = s.hostMem := rfl
@[simp] theorem agendaAdd_powered (s : State) (l : List Instr) : (agendaAdd s l).powered = s.powered := rfl
@[simp] theorem agendaAdd_status (s : State) (l : List Instr) : (agendaAdd s l).status = s.status := rfl
@[simp] theorem agendaAdd_store (s : State) (l : List Instr) : (agendaAdd s l).store = s.store := rfl
@[simp] theorem agendaAdd_moduleId (s : State) (l : List Instr) : (agendaAdd s l).moduleId = s.moduleId := rfl
@[simp] theorem agendaAdd_budget (s : State) (l : List Instr) : (agendaAdd s l).budget = s.budget := rfl
@[simp] theorem agendaAdd_bandFault (s : State) (l : List Instr) : (agendaAdd s l).bandFault = s.bandFault := rfl
@[simp] theorem agendaAdd_retrain (s : State) (l : List Instr) : (agendaAdd s l).retrain = s.retrain := rfl
@[simp] theorem agendaAdd_power (s : State) (l : List Instr) : (agendaAdd s l).power = s.power := rfl
@[simp] theorem agendaAdd_idlePower (s : State) (l : List Instr) : (agendaAdd s l).idlePower = s.idlePower := rfl
@[simp] theorem agendaAdd_leftPower (s : State) (l : List Instr) : (agendaAdd s l).leftPower = s.leftPower := rfl
@[simp] theorem agendaAdd_poolBad (s : State) (l : List Instr) : (agendaAdd s l).poolBad = s.poolBad := rfl
@[simp] theorem agendaAdd_kicks (s : State) (l : List Instr) : (agendaAdd s l).kicks = s.kicks := rfl
@[simp] theorem agendaAdd_queues (s : State) (l : List Instr) : (agendaAdd s l).queues = s.queues := rfl
@[simp] theorem agendaAdd_keys (s : State) (l : List Instr) : (agendaAdd s l).keys = s.keys := rfl
@[simp] theorem agendaAdd_tenants (s : State) (l : List Instr) : (agendaAdd s l).tenants = s.tenants := rfl
@[simp] theorem agendaAdd_debug (s : State) (l : List Instr) : (agendaAdd s l).debug = s.debug := rfl
@[simp] theorem agendaAdd_ctxs (s : State) (l : List Instr) : (agendaAdd s l).ctxs = s.ctxs := rfl
@[simp] theorem agendaAdd_seen (s : State) (l : List Instr) : (agendaAdd s l).seen = s.seen := rfl
@[simp] theorem agendaAdd_lastQ (s : State) (l : List Instr) : (agendaAdd s l).lastQ = s.lastQ := rfl
@[simp] theorem agendaAdd_ring (s : State) (l : List Instr) : (agendaAdd s l).ring = s.ring := rfl
@[simp] theorem agendaAdd_ringNo (s : State) (l : List Instr) : (agendaAdd s l).ringNo = s.ringNo := rfl
@[simp] theorem agendaAdd_scrubLog (s : State) (l : List Instr) : (agendaAdd s l).scrubLog = s.scrubLog := rfl
@[simp] theorem agendaAdd_corrLog (s : State) (l : List Instr) : (agendaAdd s l).corrLog = s.corrLog := rfl
@[simp] theorem agendaAdd_mismatches (s : State) (l : List Instr) : (agendaAdd s l).mismatches = s.mismatches := rfl
@[simp] theorem agendaAdd_asks (s : State) (l : List Instr) : (agendaAdd s l).asks = s.asks := rfl
@[simp] theorem agendaAdd_dumps (s : State) (l : List Instr) : (agendaAdd s l).dumps = s.dumps := rfl
@[simp] theorem agendaAdd_offer (s : State) (l : List Instr) : (agendaAdd s l).offer = s.offer := rfl
@[simp] theorem agendaAdd_repairSum (s : State) (l : List Instr) : (agendaAdd s l).repairSum = s.repairSum := rfl
@[simp] theorem agendaAdd_done (s : State) (l : List Instr) : (agendaAdd s l).done = s.done := rfl
@[simp] theorem agendaAdd_journal (s : State) (l : List Instr) : (agendaAdd s l).journal = s.journal := rfl

/-! ### sendOut -/

@[simp] theorem sendOut_edge (s : State) (m : OutMsg) : (sendOut s m).edge = s.edge := rfl
@[simp] theorem sendOut_phase (s : State) (m : OutMsg) : (sendOut s m).phase = s.phase := rfl
@[simp] theorem sendOut_agenda (s : State) (m : OutMsg) : (sendOut s m).agenda = s.agenda := rfl
@[simp] theorem sendOut_todo (s : State) (m : OutMsg) : (sendOut s m).todo = s.todo := rfl
@[simp] theorem sendOut_cur (s : State) (m : OutMsg) : (sendOut s m).cur = s.cur := rfl
@[simp] theorem sendOut_pending (s : State) (m : OutMsg) : (sendOut s m).pending = s.pending := rfl
@[simp] theorem sendOut_seqNo (s : State) (m : OutMsg) : (sendOut s m).seqNo = s.seqNo := rfl
@[simp] theorem sendOut_freeCtr (s : State) (m : OutMsg) : (sendOut s m).freeCtr = s.freeCtr := rfl
@[simp] theorem sendOut_inputs (s : State) (m : OutMsg) : (sendOut s m).inputs = s.inputs := rfl
@[simp] theorem sendOut_parts (s : State) (m : OutMsg) : (sendOut s m).parts = s.parts := rfl
@[simp] theorem sendOut_ports (s : State) (m : OutMsg) : (sendOut s m).ports = s.ports := rfl
@[simp] theorem sendOut_dram (s : State) (m : OutMsg) : (sendOut s m).dram = s.dram := rfl
@[simp] theorem sendOut_dramPoison (s : State) (m : OutMsg) : (sendOut s m).dramPoison = s.dramPoison := rfl
@[simp] theorem sendOut_hostMem (s : State) (m : OutMsg) : (sendOut s m).hostMem = s.hostMem := rfl
@[simp] theorem sendOut_powered (s : State) (m : OutMsg) : (sendOut s m).powered = s.powered := rfl
@[simp] theorem sendOut_status (s : State) (m : OutMsg) : (sendOut s m).status = s.status := rfl
@[simp] theorem sendOut_store (s : State) (m : OutMsg) : (sendOut s m).store = s.store := rfl
@[simp] theorem sendOut_moduleId (s : State) (m : OutMsg) : (sendOut s m).moduleId = s.moduleId := rfl
@[simp] theorem sendOut_budget (s : State) (m : OutMsg) : (sendOut s m).budget = s.budget := rfl
@[simp] theorem sendOut_bandFault (s : State) (m : OutMsg) : (sendOut s m).bandFault = s.bandFault := rfl
@[simp] theorem sendOut_retrain (s : State) (m : OutMsg) : (sendOut s m).retrain = s.retrain := rfl
@[simp] theorem sendOut_power (s : State) (m : OutMsg) : (sendOut s m).power = s.power := rfl
@[simp] theorem sendOut_idlePower (s : State) (m : OutMsg) : (sendOut s m).idlePower = s.idlePower := rfl
@[simp] theorem sendOut_leftPower (s : State) (m : OutMsg) : (sendOut s m).leftPower = s.leftPower := rfl
@[simp] theorem sendOut_poolBad (s : State) (m : OutMsg) : (sendOut s m).poolBad = s.poolBad := rfl
@[simp] theorem sendOut_kicks (s : State) (m : OutMsg) : (sendOut s m).kicks = s.kicks := rfl
@[simp] theorem sendOut_queues (s : State) (m : OutMsg) : (sendOut s m).queues = s.queues := rfl
@[simp] theorem sendOut_keys (s : State) (m : OutMsg) : (sendOut s m).keys = s.keys := rfl
@[simp] theorem sendOut_tenants (s : State) (m : OutMsg) : (sendOut s m).tenants = s.tenants := rfl
@[simp] theorem sendOut_debug (s : State) (m : OutMsg) : (sendOut s m).debug = s.debug := rfl
@[simp] theorem sendOut_ctxs (s : State) (m : OutMsg) : (sendOut s m).ctxs = s.ctxs := rfl
@[simp] theorem sendOut_seen (s : State) (m : OutMsg) : (sendOut s m).seen = s.seen := rfl
@[simp] theorem sendOut_lastQ (s : State) (m : OutMsg) : (sendOut s m).lastQ = s.lastQ := rfl
@[simp] theorem sendOut_ring (s : State) (m : OutMsg) : (sendOut s m).ring = s.ring := rfl
@[simp] theorem sendOut_ringNo (s : State) (m : OutMsg) : (sendOut s m).ringNo = s.ringNo := rfl
@[simp] theorem sendOut_scrubLog (s : State) (m : OutMsg) : (sendOut s m).scrubLog = s.scrubLog := rfl
@[simp] theorem sendOut_corrLog (s : State) (m : OutMsg) : (sendOut s m).corrLog = s.corrLog := rfl
@[simp] theorem sendOut_mismatches (s : State) (m : OutMsg) : (sendOut s m).mismatches = s.mismatches := rfl
@[simp] theorem sendOut_asks (s : State) (m : OutMsg) : (sendOut s m).asks = s.asks := rfl
@[simp] theorem sendOut_dumps (s : State) (m : OutMsg) : (sendOut s m).dumps = s.dumps := rfl
@[simp] theorem sendOut_offer (s : State) (m : OutMsg) : (sendOut s m).offer = s.offer := rfl
@[simp] theorem sendOut_repairSum (s : State) (m : OutMsg) : (sendOut s m).repairSum = s.repairSum := rfl
@[simp] theorem sendOut_done (s : State) (m : OutMsg) : (sendOut s m).done = s.done := rfl
@[simp] theorem sendOut_journal (s : State) (m : OutMsg) : (sendOut s m).journal = s.journal := rfl

/-! ### journal -/

@[simp] theorem journal_edge (s : State) (w : JWhat) : (journal s w).edge = s.edge := rfl
@[simp] theorem journal_phase (s : State) (w : JWhat) : (journal s w).phase = s.phase := rfl
@[simp] theorem journal_agenda (s : State) (w : JWhat) : (journal s w).agenda = s.agenda := rfl
@[simp] theorem journal_todo (s : State) (w : JWhat) : (journal s w).todo = s.todo := rfl
@[simp] theorem journal_cur (s : State) (w : JWhat) : (journal s w).cur = s.cur := rfl
@[simp] theorem journal_pending (s : State) (w : JWhat) : (journal s w).pending = s.pending := rfl
@[simp] theorem journal_seqNo (s : State) (w : JWhat) : (journal s w).seqNo = s.seqNo := rfl
@[simp] theorem journal_freeCtr (s : State) (w : JWhat) : (journal s w).freeCtr = s.freeCtr := rfl
@[simp] theorem journal_inputs (s : State) (w : JWhat) : (journal s w).inputs = s.inputs := rfl
@[simp] theorem journal_outbox (s : State) (w : JWhat) : (journal s w).outbox = s.outbox := rfl
@[simp] theorem journal_parts (s : State) (w : JWhat) : (journal s w).parts = s.parts := rfl
@[simp] theorem journal_ports (s : State) (w : JWhat) : (journal s w).ports = s.ports := rfl
@[simp] theorem journal_dram (s : State) (w : JWhat) : (journal s w).dram = s.dram := rfl
@[simp] theorem journal_dramPoison (s : State) (w : JWhat) : (journal s w).dramPoison = s.dramPoison := rfl
@[simp] theorem journal_hostMem (s : State) (w : JWhat) : (journal s w).hostMem = s.hostMem := rfl
@[simp] theorem journal_powered (s : State) (w : JWhat) : (journal s w).powered = s.powered := rfl
@[simp] theorem journal_status (s : State) (w : JWhat) : (journal s w).status = s.status := rfl
@[simp] theorem journal_store (s : State) (w : JWhat) : (journal s w).store = s.store := rfl
@[simp] theorem journal_moduleId (s : State) (w : JWhat) : (journal s w).moduleId = s.moduleId := rfl
@[simp] theorem journal_budget (s : State) (w : JWhat) : (journal s w).budget = s.budget := rfl
@[simp] theorem journal_bandFault (s : State) (w : JWhat) : (journal s w).bandFault = s.bandFault := rfl
@[simp] theorem journal_retrain (s : State) (w : JWhat) : (journal s w).retrain = s.retrain := rfl
@[simp] theorem journal_power (s : State) (w : JWhat) : (journal s w).power = s.power := rfl
@[simp] theorem journal_idlePower (s : State) (w : JWhat) : (journal s w).idlePower = s.idlePower := rfl
@[simp] theorem journal_leftPower (s : State) (w : JWhat) : (journal s w).leftPower = s.leftPower := rfl
@[simp] theorem journal_poolBad (s : State) (w : JWhat) : (journal s w).poolBad = s.poolBad := rfl
@[simp] theorem journal_kicks (s : State) (w : JWhat) : (journal s w).kicks = s.kicks := rfl
@[simp] theorem journal_queues (s : State) (w : JWhat) : (journal s w).queues = s.queues := rfl
@[simp] theorem journal_keys (s : State) (w : JWhat) : (journal s w).keys = s.keys := rfl
@[simp] theorem journal_tenants (s : State) (w : JWhat) : (journal s w).tenants = s.tenants := rfl
@[simp] theorem journal_debug (s : State) (w : JWhat) : (journal s w).debug = s.debug := rfl
@[simp] theorem journal_ctxs (s : State) (w : JWhat) : (journal s w).ctxs = s.ctxs := rfl
@[simp] theorem journal_seen (s : State) (w : JWhat) : (journal s w).seen = s.seen := rfl
@[simp] theorem journal_lastQ (s : State) (w : JWhat) : (journal s w).lastQ = s.lastQ := rfl
@[simp] theorem journal_ring (s : State) (w : JWhat) : (journal s w).ring = s.ring := rfl
@[simp] theorem journal_ringNo (s : State) (w : JWhat) : (journal s w).ringNo = s.ringNo := rfl
@[simp] theorem journal_scrubLog (s : State) (w : JWhat) : (journal s w).scrubLog = s.scrubLog := rfl
@[simp] theorem journal_corrLog (s : State) (w : JWhat) : (journal s w).corrLog = s.corrLog := rfl
@[simp] theorem journal_mismatches (s : State) (w : JWhat) : (journal s w).mismatches = s.mismatches := rfl
@[simp] theorem journal_asks (s : State) (w : JWhat) : (journal s w).asks = s.asks := rfl
@[simp] theorem journal_dumps (s : State) (w : JWhat) : (journal s w).dumps = s.dumps := rfl
@[simp] theorem journal_offer (s : State) (w : JWhat) : (journal s w).offer = s.offer := rfl
@[simp] theorem journal_repairSum (s : State) (w : JWhat) : (journal s w).repairSum = s.repairSum := rfl
@[simp] theorem journal_done (s : State) (w : JWhat) : (journal s w).done = s.done := rfl

/-! ### intend -/

@[simp] theorem intend_edge (s : State) (w : JWhat) : (intend s w).edge = s.edge := rfl
@[simp] theorem intend_phase (s : State) (w : JWhat) : (intend s w).phase = s.phase := rfl
@[simp] theorem intend_agenda (s : State) (w : JWhat) : (intend s w).agenda = s.agenda := rfl
@[simp] theorem intend_todo (s : State) (w : JWhat) : (intend s w).todo = s.todo := rfl
@[simp] theorem intend_cur (s : State) (w : JWhat) : (intend s w).cur = s.cur := rfl
@[simp] theorem intend_pending (s : State) (w : JWhat) : (intend s w).pending = s.pending := rfl
@[simp] theorem intend_seqNo (s : State) (w : JWhat) : (intend s w).seqNo = s.seqNo := rfl
@[simp] theorem intend_freeCtr (s : State) (w : JWhat) : (intend s w).freeCtr = s.freeCtr := rfl
@[simp] theorem intend_inputs (s : State) (w : JWhat) : (intend s w).inputs = s.inputs := rfl
@[simp] theorem intend_outbox (s : State) (w : JWhat) : (intend s w).outbox = s.outbox := rfl
@[simp] theorem intend_parts (s : State) (w : JWhat) : (intend s w).parts = s.parts := rfl
@[simp] theorem intend_ports (s : State) (w : JWhat) : (intend s w).ports = s.ports := rfl
@[simp] theorem intend_dram (s : State) (w : JWhat) : (intend s w).dram = s.dram := rfl
@[simp] theorem intend_dramPoison (s : State) (w : JWhat) : (intend s w).dramPoison = s.dramPoison := rfl
@[simp] theorem intend_hostMem (s : State) (w : JWhat) : (intend s w).hostMem = s.hostMem := rfl
@[simp] theorem intend_powered (s : State) (w : JWhat) : (intend s w).powered = s.powered := rfl
@[simp] theorem intend_status (s : State) (w : JWhat) : (intend s w).status = s.status := rfl
@[simp] theorem intend_store (s : State) (w : JWhat) : (intend s w).store = s.store := rfl
@[simp] theorem intend_moduleId (s : State) (w : JWhat) : (intend s w).moduleId = s.moduleId := rfl
@[simp] theorem intend_budget (s : State) (w : JWhat) : (intend s w).budget = s.budget := rfl
@[simp] theorem intend_bandFault (s : State) (w : JWhat) : (intend s w).bandFault = s.bandFault := rfl
@[simp] theorem intend_retrain (s : State) (w : JWhat) : (intend s w).retrain = s.retrain := rfl
@[simp] theorem intend_power (s : State) (w : JWhat) : (intend s w).power = s.power := rfl
@[simp] theorem intend_idlePower (s : State) (w : JWhat) : (intend s w).idlePower = s.idlePower := rfl
@[simp] theorem intend_leftPower (s : State) (w : JWhat) : (intend s w).leftPower = s.leftPower := rfl
@[simp] theorem intend_poolBad (s : State) (w : JWhat) : (intend s w).poolBad = s.poolBad := rfl
@[simp] theorem intend_kicks (s : State) (w : JWhat) : (intend s w).kicks = s.kicks := rfl
@[simp] theorem intend_queues (s : State) (w : JWhat) : (intend s w).queues = s.queues := rfl
@[simp] theorem intend_keys (s : State) (w : JWhat) : (intend s w).keys = s.keys := rfl
@[simp] theorem intend_tenants (s : State) (w : JWhat) : (intend s w).tenants = s.tenants := rfl
@[simp] theorem intend_debug (s : State) (w : JWhat) : (intend s w).debug = s.debug := rfl
@[simp] theorem intend_ctxs (s : State) (w : JWhat) : (intend s w).ctxs = s.ctxs := rfl
@[simp] theorem intend_seen (s : State) (w : JWhat) : (intend s w).seen = s.seen := rfl
@[simp] theorem intend_lastQ (s : State) (w : JWhat) : (intend s w).lastQ = s.lastQ := rfl
@[simp] theorem intend_ring (s : State) (w : JWhat) : (intend s w).ring = s.ring := rfl
@[simp] theorem intend_ringNo (s : State) (w : JWhat) : (intend s w).ringNo = s.ringNo := rfl
@[simp] theorem intend_scrubLog (s : State) (w : JWhat) : (intend s w).scrubLog = s.scrubLog := rfl
@[simp] theorem intend_corrLog (s : State) (w : JWhat) : (intend s w).corrLog = s.corrLog := rfl
@[simp] theorem intend_mismatches (s : State) (w : JWhat) : (intend s w).mismatches = s.mismatches := rfl
@[simp] theorem intend_asks (s : State) (w : JWhat) : (intend s w).asks = s.asks := rfl
@[simp] theorem intend_dumps (s : State) (w : JWhat) : (intend s w).dumps = s.dumps := rfl
@[simp] theorem intend_offer (s : State) (w : JWhat) : (intend s w).offer = s.offer := rfl
@[simp] theorem intend_repairSum (s : State) (w : JWhat) : (intend s w).repairSum = s.repairSum := rfl
@[simp] theorem intend_done (s : State) (w : JWhat) : (intend s w).done = s.done := rfl

/-! ### commit -/

@[simp] theorem commit_edge (s : State) (w : JWhat) : (commit s w).edge = s.edge := rfl
@[simp] theorem commit_phase (s : State) (w : JWhat) : (commit s w).phase = s.phase := rfl
@[simp] theorem commit_agenda (s : State) (w : JWhat) : (commit s w).agenda = s.agenda := rfl
@[simp] theorem commit_todo (s : State) (w : JWhat) : (commit s w).todo = s.todo := rfl
@[simp] theorem commit_cur (s : State) (w : JWhat) : (commit s w).cur = s.cur := rfl
@[simp] theorem commit_pending (s : State) (w : JWhat) : (commit s w).pending = s.pending := rfl
@[simp] theorem commit_seqNo (s : State) (w : JWhat) : (commit s w).seqNo = s.seqNo := rfl
@[simp] theorem commit_freeCtr (s : State) (w : JWhat) : (commit s w).freeCtr = s.freeCtr := rfl
@[simp] theorem commit_inputs (s : State) (w : JWhat) : (commit s w).inputs = s.inputs := rfl
@[simp] theorem commit_outbox (s : State) (w : JWhat) : (commit s w).outbox = s.outbox := rfl
@[simp] theorem commit_parts (s : State) (w : JWhat) : (commit s w).parts = s.parts := rfl
@[simp] theorem commit_ports (s : State) (w : JWhat) : (commit s w).ports = s.ports := rfl
@[simp] theorem commit_dram (s : State) (w : JWhat) : (commit s w).dram = s.dram := rfl
@[simp] theorem commit_dramPoison (s : State) (w : JWhat) : (commit s w).dramPoison = s.dramPoison := rfl
@[simp] theorem commit_hostMem (s : State) (w : JWhat) : (commit s w).hostMem = s.hostMem := rfl
@[simp] theorem commit_powered (s : State) (w : JWhat) : (commit s w).powered = s.powered := rfl
@[simp] theorem commit_status (s : State) (w : JWhat) : (commit s w).status = s.status := rfl
@[simp] theorem commit_store (s : State) (w : JWhat) : (commit s w).store = s.store := rfl
@[simp] theorem commit_moduleId (s : State) (w : JWhat) : (commit s w).moduleId = s.moduleId := rfl
@[simp] theorem commit_budget (s : State) (w : JWhat) : (commit s w).budget = s.budget := rfl
@[simp] theorem commit_bandFault (s : State) (w : JWhat) : (commit s w).bandFault = s.bandFault := rfl
@[simp] theorem commit_retrain (s : State) (w : JWhat) : (commit s w).retrain = s.retrain := rfl
@[simp] theorem commit_power (s : State) (w : JWhat) : (commit s w).power = s.power := rfl
@[simp] theorem commit_idlePower (s : State) (w : JWhat) : (commit s w).idlePower = s.idlePower := rfl
@[simp] theorem commit_leftPower (s : State) (w : JWhat) : (commit s w).leftPower = s.leftPower := rfl
@[simp] theorem commit_poolBad (s : State) (w : JWhat) : (commit s w).poolBad = s.poolBad := rfl
@[simp] theorem commit_kicks (s : State) (w : JWhat) : (commit s w).kicks = s.kicks := rfl
@[simp] theorem commit_queues (s : State) (w : JWhat) : (commit s w).queues = s.queues := rfl
@[simp] theorem commit_keys (s : State) (w : JWhat) : (commit s w).keys = s.keys := rfl
@[simp] theorem commit_tenants (s : State) (w : JWhat) : (commit s w).tenants = s.tenants := rfl
@[simp] theorem commit_debug (s : State) (w : JWhat) : (commit s w).debug = s.debug := rfl
@[simp] theorem commit_ctxs (s : State) (w : JWhat) : (commit s w).ctxs = s.ctxs := rfl
@[simp] theorem commit_seen (s : State) (w : JWhat) : (commit s w).seen = s.seen := rfl
@[simp] theorem commit_lastQ (s : State) (w : JWhat) : (commit s w).lastQ = s.lastQ := rfl
@[simp] theorem commit_ring (s : State) (w : JWhat) : (commit s w).ring = s.ring := rfl
@[simp] theorem commit_ringNo (s : State) (w : JWhat) : (commit s w).ringNo = s.ringNo := rfl
@[simp] theorem commit_scrubLog (s : State) (w : JWhat) : (commit s w).scrubLog = s.scrubLog := rfl
@[simp] theorem commit_corrLog (s : State) (w : JWhat) : (commit s w).corrLog = s.corrLog := rfl
@[simp] theorem commit_mismatches (s : State) (w : JWhat) : (commit s w).mismatches = s.mismatches := rfl
@[simp] theorem commit_asks (s : State) (w : JWhat) : (commit s w).asks = s.asks := rfl
@[simp] theorem commit_dumps (s : State) (w : JWhat) : (commit s w).dumps = s.dumps := rfl
@[simp] theorem commit_offer (s : State) (w : JWhat) : (commit s w).offer = s.offer := rfl
@[simp] theorem commit_repairSum (s : State) (w : JWhat) : (commit s w).repairSum = s.repairSum := rfl
@[simp] theorem commit_done (s : State) (w : JWhat) : (commit s w).done = s.done := rfl

/-! ### again -/

@[simp] theorem again_edge (s : State) (i : Instr) : (again s i).edge = s.edge := rfl
@[simp] theorem again_phase (s : State) (i : Instr) : (again s i).phase = s.phase := rfl
@[simp] theorem again_agenda (s : State) (i : Instr) : (again s i).agenda = s.agenda := rfl
@[simp] theorem again_todo (s : State) (i : Instr) : (again s i).todo = s.todo := rfl
@[simp] theorem again_cur (s : State) (i : Instr) : (again s i).cur = s.cur := rfl
@[simp] theorem again_pending (s : State) (i : Instr) : (again s i).pending = s.pending := rfl
@[simp] theorem again_seqNo (s : State) (i : Instr) : (again s i).seqNo = s.seqNo := rfl
@[simp] theorem again_freeCtr (s : State) (i : Instr) : (again s i).freeCtr = s.freeCtr := rfl
@[simp] theorem again_outbox (s : State) (i : Instr) : (again s i).outbox = s.outbox := rfl
@[simp] theorem again_parts (s : State) (i : Instr) : (again s i).parts = s.parts := rfl
@[simp] theorem again_ports (s : State) (i : Instr) : (again s i).ports = s.ports := rfl
@[simp] theorem again_dram (s : State) (i : Instr) : (again s i).dram = s.dram := rfl
@[simp] theorem again_dramPoison (s : State) (i : Instr) : (again s i).dramPoison = s.dramPoison := rfl
@[simp] theorem again_hostMem (s : State) (i : Instr) : (again s i).hostMem = s.hostMem := rfl
@[simp] theorem again_powered (s : State) (i : Instr) : (again s i).powered = s.powered := rfl
@[simp] theorem again_status (s : State) (i : Instr) : (again s i).status = s.status := rfl
@[simp] theorem again_store (s : State) (i : Instr) : (again s i).store = s.store := rfl
@[simp] theorem again_moduleId (s : State) (i : Instr) : (again s i).moduleId = s.moduleId := rfl
@[simp] theorem again_budget (s : State) (i : Instr) : (again s i).budget = s.budget := rfl
@[simp] theorem again_bandFault (s : State) (i : Instr) : (again s i).bandFault = s.bandFault := rfl
@[simp] theorem again_retrain (s : State) (i : Instr) : (again s i).retrain = s.retrain := rfl
@[simp] theorem again_power (s : State) (i : Instr) : (again s i).power = s.power := rfl
@[simp] theorem again_idlePower (s : State) (i : Instr) : (again s i).idlePower = s.idlePower := rfl
@[simp] theorem again_leftPower (s : State) (i : Instr) : (again s i).leftPower = s.leftPower := rfl
@[simp] theorem again_poolBad (s : State) (i : Instr) : (again s i).poolBad = s.poolBad := rfl
@[simp] theorem again_kicks (s : State) (i : Instr) : (again s i).kicks = s.kicks := rfl
@[simp] theorem again_queues (s : State) (i : Instr) : (again s i).queues = s.queues := rfl
@[simp] theorem again_keys (s : State) (i : Instr) : (again s i).keys = s.keys := rfl
@[simp] theorem again_tenants (s : State) (i : Instr) : (again s i).tenants = s.tenants := rfl
@[simp] theorem again_debug (s : State) (i : Instr) : (again s i).debug = s.debug := rfl
@[simp] theorem again_ctxs (s : State) (i : Instr) : (again s i).ctxs = s.ctxs := rfl
@[simp] theorem again_seen (s : State) (i : Instr) : (again s i).seen = s.seen := rfl
@[simp] theorem again_lastQ (s : State) (i : Instr) : (again s i).lastQ = s.lastQ := rfl
@[simp] theorem again_ring (s : State) (i : Instr) : (again s i).ring = s.ring := rfl
@[simp] theorem again_ringNo (s : State) (i : Instr) : (again s i).ringNo = s.ringNo := rfl
@[simp] theorem again_scrubLog (s : State) (i : Instr) : (again s i).scrubLog = s.scrubLog := rfl
@[simp] theorem again_corrLog (s : State) (i : Instr) : (again s i).corrLog = s.corrLog := rfl
@[simp] theorem again_mismatches (s : State) (i : Instr) : (again s i).mismatches = s.mismatches := rfl
@[simp] theorem again_asks (s : State) (i : Instr) : (again s i).asks = s.asks := rfl
@[simp] theorem again_dumps (s : State) (i : Instr) : (again s i).dumps = s.dumps := rfl
@[simp] theorem again_offer (s : State) (i : Instr) : (again s i).offer = s.offer := rfl
@[simp] theorem again_repairSum (s : State) (i : Instr) : (again s i).repairSum = s.repairSum := rfl
@[simp] theorem again_done (s : State) (i : Instr) : (again s i).done = s.done := rfl
@[simp] theorem again_journal (s : State) (i : Instr) : (again s i).journal = s.journal := rfl

/-! ### setDbg -/

@[simp] theorem setDbg_edge (s : State) (a off x : Nat) : (setDbg s a off x).edge = s.edge := rfl
@[simp] theorem setDbg_phase (s : State) (a off x : Nat) : (setDbg s a off x).phase = s.phase := rfl
@[simp] theorem setDbg_agenda (s : State) (a off x : Nat) : (setDbg s a off x).agenda = s.agenda := rfl
@[simp] theorem setDbg_todo (s : State) (a off x : Nat) : (setDbg s a off x).todo = s.todo := rfl
@[simp] theorem setDbg_cur (s : State) (a off x : Nat) : (setDbg s a off x).cur = s.cur := rfl
@[simp] theorem setDbg_pending (s : State) (a off x : Nat) : (setDbg s a off x).pending = s.pending := rfl
@[simp] theorem setDbg_seqNo (s : State) (a off x : Nat) : (setDbg s a off x).seqNo = s.seqNo := rfl
@[simp] theorem setDbg_freeCtr (s : State) (a off x : Nat) : (setDbg s a off x).freeCtr = s.freeCtr := rfl
@[simp] theorem setDbg_inputs (s : State) (a off x : Nat) : (setDbg s a off x).inputs = s.inputs := rfl
@[simp] theorem setDbg_outbox (s : State) (a off x : Nat) : (setDbg s a off x).outbox = s.outbox := rfl
@[simp] theorem setDbg_parts (s : State) (a off x : Nat) : (setDbg s a off x).parts = s.parts := rfl
@[simp] theorem setDbg_ports (s : State) (a off x : Nat) : (setDbg s a off x).ports = s.ports := rfl
@[simp] theorem setDbg_dram (s : State) (a off x : Nat) : (setDbg s a off x).dram = s.dram := rfl
@[simp] theorem setDbg_dramPoison (s : State) (a off x : Nat) : (setDbg s a off x).dramPoison = s.dramPoison := rfl
@[simp] theorem setDbg_hostMem (s : State) (a off x : Nat) : (setDbg s a off x).hostMem = s.hostMem := rfl
@[simp] theorem setDbg_powered (s : State) (a off x : Nat) : (setDbg s a off x).powered = s.powered := rfl
@[simp] theorem setDbg_status (s : State) (a off x : Nat) : (setDbg s a off x).status = s.status := rfl
@[simp] theorem setDbg_store (s : State) (a off x : Nat) : (setDbg s a off x).store = s.store := rfl
@[simp] theorem setDbg_moduleId (s : State) (a off x : Nat) : (setDbg s a off x).moduleId = s.moduleId := rfl
@[simp] theorem setDbg_budget (s : State) (a off x : Nat) : (setDbg s a off x).budget = s.budget := rfl
@[simp] theorem setDbg_bandFault (s : State) (a off x : Nat) : (setDbg s a off x).bandFault = s.bandFault := rfl
@[simp] theorem setDbg_retrain (s : State) (a off x : Nat) : (setDbg s a off x).retrain = s.retrain := rfl
@[simp] theorem setDbg_power (s : State) (a off x : Nat) : (setDbg s a off x).power = s.power := rfl
@[simp] theorem setDbg_idlePower (s : State) (a off x : Nat) : (setDbg s a off x).idlePower = s.idlePower := rfl
@[simp] theorem setDbg_leftPower (s : State) (a off x : Nat) : (setDbg s a off x).leftPower = s.leftPower := rfl
@[simp] theorem setDbg_poolBad (s : State) (a off x : Nat) : (setDbg s a off x).poolBad = s.poolBad := rfl
@[simp] theorem setDbg_kicks (s : State) (a off x : Nat) : (setDbg s a off x).kicks = s.kicks := rfl
@[simp] theorem setDbg_queues (s : State) (a off x : Nat) : (setDbg s a off x).queues = s.queues := rfl
@[simp] theorem setDbg_keys (s : State) (a off x : Nat) : (setDbg s a off x).keys = s.keys := rfl
@[simp] theorem setDbg_tenants (s : State) (a off x : Nat) : (setDbg s a off x).tenants = s.tenants := rfl
@[simp] theorem setDbg_ctxs (s : State) (a off x : Nat) : (setDbg s a off x).ctxs = s.ctxs := rfl
@[simp] theorem setDbg_seen (s : State) (a off x : Nat) : (setDbg s a off x).seen = s.seen := rfl
@[simp] theorem setDbg_lastQ (s : State) (a off x : Nat) : (setDbg s a off x).lastQ = s.lastQ := rfl
@[simp] theorem setDbg_ring (s : State) (a off x : Nat) : (setDbg s a off x).ring = s.ring := rfl
@[simp] theorem setDbg_ringNo (s : State) (a off x : Nat) : (setDbg s a off x).ringNo = s.ringNo := rfl
@[simp] theorem setDbg_scrubLog (s : State) (a off x : Nat) : (setDbg s a off x).scrubLog = s.scrubLog := rfl
@[simp] theorem setDbg_corrLog (s : State) (a off x : Nat) : (setDbg s a off x).corrLog = s.corrLog := rfl
@[simp] theorem setDbg_mismatches (s : State) (a off x : Nat) : (setDbg s a off x).mismatches = s.mismatches := rfl
@[simp] theorem setDbg_asks (s : State) (a off x : Nat) : (setDbg s a off x).asks = s.asks := rfl
@[simp] theorem setDbg_dumps (s : State) (a off x : Nat) : (setDbg s a off x).dumps = s.dumps := rfl
@[simp] theorem setDbg_offer (s : State) (a off x : Nat) : (setDbg s a off x).offer = s.offer := rfl
@[simp] theorem setDbg_repairSum (s : State) (a off x : Nat) : (setDbg s a off x).repairSum = s.repairSum := rfl
@[simp] theorem setDbg_done (s : State) (a off x : Nat) : (setDbg s a off x).done = s.done := rfl
@[simp] theorem setDbg_journal (s : State) (a off x : Nat) : (setDbg s a off x).journal = s.journal := rfl

/-! ### hostPut -/

@[simp] theorem hostPut_edge (s : State) (a : Nat) (bs : List Byte) : (hostPut s a bs).edge = s.edge := rfl
@[simp] theorem hostPut_phase (s : State) (a : Nat) (bs : List Byte) : (hostPut s a bs).phase = s.phase := rfl
@[simp] theorem hostPut_agenda (s : State) (a : Nat) (bs : List Byte) : (hostPut s a bs).agenda = s.agenda := rfl
@[simp] theorem hostPut_todo (s : State) (a : Nat) (bs : List Byte) : (hostPut s a bs).todo = s.todo := rfl
@[simp] theorem hostPut_cur (s : State) (a : Nat) (bs : List Byte) : (hostPut s a bs).cur = s.cur := rfl
@[simp] theorem hostPut_pending (s : State) (a : Nat) (bs : List Byte) : (hostPut s a bs).pending = s.pending := rfl
@[simp] theorem hostPut_seqNo (s : State) (a : Nat) (bs : List Byte) : (hostPut s a bs).seqNo = s.seqNo := rfl
@[simp] theorem hostPut_freeCtr (s : State) (a : Nat) (bs : List Byte) : (hostPut s a bs).freeCtr = s.freeCtr := rfl
@[simp] theorem hostPut_inputs (s : State) (a : Nat) (bs : List Byte) : (hostPut s a bs).inputs = s.inputs := rfl
@[simp] theorem hostPut_outbox (s : State) (a : Nat) (bs : List Byte) : (hostPut s a bs).outbox = s.outbox := rfl
@[simp] theorem hostPut_parts (s : State) (a : Nat) (bs : List Byte) : (hostPut s a bs).parts = s.parts := rfl
@[simp] theorem hostPut_ports (s : State) (a : Nat) (bs : List Byte) : (hostPut s a bs).ports = s.ports := rfl
@[simp] theorem hostPut_dram (s : State) (a : Nat) (bs : List Byte) : (hostPut s a bs).dram = s.dram := rfl
@[simp] theorem hostPut_dramPoison (s : State) (a : Nat) (bs : List Byte) : (hostPut s a bs).dramPoison = s.dramPoison := rfl
@[simp] theorem hostPut_powered (s : State) (a : Nat) (bs : List Byte) : (hostPut s a bs).powered = s.powered := rfl
@[simp] theorem hostPut_status (s : State) (a : Nat) (bs : List Byte) : (hostPut s a bs).status = s.status := rfl
@[simp] theorem hostPut_store (s : State) (a : Nat) (bs : List Byte) : (hostPut s a bs).store = s.store := rfl
@[simp] theorem hostPut_moduleId (s : State) (a : Nat) (bs : List Byte) : (hostPut s a bs).moduleId = s.moduleId := rfl
@[simp] theorem hostPut_budget (s : State) (a : Nat) (bs : List Byte) : (hostPut s a bs).budget = s.budget := rfl
@[simp] theorem hostPut_bandFault (s : State) (a : Nat) (bs : List Byte) : (hostPut s a bs).bandFault = s.bandFault := rfl
@[simp] theorem hostPut_retrain (s : State) (a : Nat) (bs : List Byte) : (hostPut s a bs).retrain = s.retrain := rfl
@[simp] theorem hostPut_power (s : State) (a : Nat) (bs : List Byte) : (hostPut s a bs).power = s.power := rfl
@[simp] theorem hostPut_idlePower (s : State) (a : Nat) (bs : List Byte) : (hostPut s a bs).idlePower = s.idlePower := rfl
@[simp] theorem hostPut_leftPower (s : State) (a : Nat) (bs : List Byte) : (hostPut s a bs).leftPower = s.leftPower := rfl
@[simp] theorem hostPut_poolBad (s : State) (a : Nat) (bs : List Byte) : (hostPut s a bs).poolBad = s.poolBad := rfl
@[simp] theorem hostPut_kicks (s : State) (a : Nat) (bs : List Byte) : (hostPut s a bs).kicks = s.kicks := rfl
@[simp] theorem hostPut_queues (s : State) (a : Nat) (bs : List Byte) : (hostPut s a bs).queues = s.queues := rfl
@[simp] theorem hostPut_keys (s : State) (a : Nat) (bs : List Byte) : (hostPut s a bs).keys = s.keys := rfl
@[simp] theorem hostPut_tenants (s : State) (a : Nat) (bs : List Byte) : (hostPut s a bs).tenants = s.tenants := rfl
@[simp] theorem hostPut_debug (s : State) (a : Nat) (bs : List Byte) : (hostPut s a bs).debug = s.debug := rfl
@[simp] theorem hostPut_ctxs (s : State) (a : Nat) (bs : List Byte) : (hostPut s a bs).ctxs = s.ctxs := rfl
@[simp] theorem hostPut_seen (s : State) (a : Nat) (bs : List Byte) : (hostPut s a bs).seen = s.seen := rfl
@[simp] theorem hostPut_lastQ (s : State) (a : Nat) (bs : List Byte) : (hostPut s a bs).lastQ = s.lastQ := rfl
@[simp] theorem hostPut_ring (s : State) (a : Nat) (bs : List Byte) : (hostPut s a bs).ring = s.ring := rfl
@[simp] theorem hostPut_ringNo (s : State) (a : Nat) (bs : List Byte) : (hostPut s a bs).ringNo = s.ringNo := rfl
@[simp] theorem hostPut_scrubLog (s : State) (a : Nat) (bs : List Byte) : (hostPut s a bs).scrubLog = s.scrubLog := rfl
@[simp] theorem hostPut_corrLog (s : State) (a : Nat) (bs : List Byte) : (hostPut s a bs).corrLog = s.corrLog := rfl
@[simp] theorem hostPut_mismatches (s : State) (a : Nat) (bs : List Byte) : (hostPut s a bs).mismatches = s.mismatches := rfl
@[simp] theorem hostPut_asks (s : State) (a : Nat) (bs : List Byte) : (hostPut s a bs).asks = s.asks := rfl
@[simp] theorem hostPut_dumps (s : State) (a : Nat) (bs : List Byte) : (hostPut s a bs).dumps = s.dumps := rfl
@[simp] theorem hostPut_offer (s : State) (a : Nat) (bs : List Byte) : (hostPut s a bs).offer = s.offer := rfl
@[simp] theorem hostPut_repairSum (s : State) (a : Nat) (bs : List Byte) : (hostPut s a bs).repairSum = s.repairSum := rfl
@[simp] theorem hostPut_done (s : State) (a : Nat) (bs : List Byte) : (hostPut s a bs).done = s.done := rfl
@[simp] theorem hostPut_journal (s : State) (a : Nat) (bs : List Byte) : (hostPut s a bs).journal = s.journal := rfl

/-! ### storeDram -/

@[simp] theorem storeDram_edge (s : State) (a : Nat) (bs : List Byte) : (storeDram s a bs).edge = s.edge := rfl
@[simp] theorem storeDram_phase (s : State) (a : Nat) (bs : List Byte) : (storeDram s a bs).phase = s.phase := rfl
@[simp] theorem storeDram_agenda (s : State) (a : Nat) (bs : List Byte) : (storeDram s a bs).agenda = s.agenda := rfl
@[simp] theorem storeDram_todo (s : State) (a : Nat) (bs : List Byte) : (storeDram s a bs).todo = s.todo := rfl
@[simp] theorem storeDram_cur (s : State) (a : Nat) (bs : List Byte) : (storeDram s a bs).cur = s.cur := rfl
@[simp] theorem storeDram_pending (s : State) (a : Nat) (bs : List Byte) : (storeDram s a bs).pending = s.pending := rfl
@[simp] theorem storeDram_seqNo (s : State) (a : Nat) (bs : List Byte) : (storeDram s a bs).seqNo = s.seqNo := rfl
@[simp] theorem storeDram_freeCtr (s : State) (a : Nat) (bs : List Byte) : (storeDram s a bs).freeCtr = s.freeCtr := rfl
@[simp] theorem storeDram_inputs (s : State) (a : Nat) (bs : List Byte) : (storeDram s a bs).inputs = s.inputs := rfl
@[simp] theorem storeDram_outbox (s : State) (a : Nat) (bs : List Byte) : (storeDram s a bs).outbox = s.outbox := rfl
@[simp] theorem storeDram_parts (s : State) (a : Nat) (bs : List Byte) : (storeDram s a bs).parts = s.parts := rfl
@[simp] theorem storeDram_ports (s : State) (a : Nat) (bs : List Byte) : (storeDram s a bs).ports = s.ports := rfl
@[simp] theorem storeDram_dramPoison (s : State) (a : Nat) (bs : List Byte) : (storeDram s a bs).dramPoison = s.dramPoison := rfl
@[simp] theorem storeDram_hostMem (s : State) (a : Nat) (bs : List Byte) : (storeDram s a bs).hostMem = s.hostMem := rfl
@[simp] theorem storeDram_powered (s : State) (a : Nat) (bs : List Byte) : (storeDram s a bs).powered = s.powered := rfl
@[simp] theorem storeDram_status (s : State) (a : Nat) (bs : List Byte) : (storeDram s a bs).status = s.status := rfl
@[simp] theorem storeDram_store (s : State) (a : Nat) (bs : List Byte) : (storeDram s a bs).store = s.store := rfl
@[simp] theorem storeDram_moduleId (s : State) (a : Nat) (bs : List Byte) : (storeDram s a bs).moduleId = s.moduleId := rfl
@[simp] theorem storeDram_budget (s : State) (a : Nat) (bs : List Byte) : (storeDram s a bs).budget = s.budget := rfl
@[simp] theorem storeDram_bandFault (s : State) (a : Nat) (bs : List Byte) : (storeDram s a bs).bandFault = s.bandFault := rfl
@[simp] theorem storeDram_retrain (s : State) (a : Nat) (bs : List Byte) : (storeDram s a bs).retrain = s.retrain := rfl
@[simp] theorem storeDram_power (s : State) (a : Nat) (bs : List Byte) : (storeDram s a bs).power = s.power := rfl
@[simp] theorem storeDram_idlePower (s : State) (a : Nat) (bs : List Byte) : (storeDram s a bs).idlePower = s.idlePower := rfl
@[simp] theorem storeDram_leftPower (s : State) (a : Nat) (bs : List Byte) : (storeDram s a bs).leftPower = s.leftPower := rfl
@[simp] theorem storeDram_poolBad (s : State) (a : Nat) (bs : List Byte) : (storeDram s a bs).poolBad = s.poolBad := rfl
@[simp] theorem storeDram_kicks (s : State) (a : Nat) (bs : List Byte) : (storeDram s a bs).kicks = s.kicks := rfl
@[simp] theorem storeDram_queues (s : State) (a : Nat) (bs : List Byte) : (storeDram s a bs).queues = s.queues := rfl
@[simp] theorem storeDram_keys (s : State) (a : Nat) (bs : List Byte) : (storeDram s a bs).keys = s.keys := rfl
@[simp] theorem storeDram_tenants (s : State) (a : Nat) (bs : List Byte) : (storeDram s a bs).tenants = s.tenants := rfl
@[simp] theorem storeDram_debug (s : State) (a : Nat) (bs : List Byte) : (storeDram s a bs).debug = s.debug := rfl
@[simp] theorem storeDram_ctxs (s : State) (a : Nat) (bs : List Byte) : (storeDram s a bs).ctxs = s.ctxs := rfl
@[simp] theorem storeDram_seen (s : State) (a : Nat) (bs : List Byte) : (storeDram s a bs).seen = s.seen := rfl
@[simp] theorem storeDram_lastQ (s : State) (a : Nat) (bs : List Byte) : (storeDram s a bs).lastQ = s.lastQ := rfl
@[simp] theorem storeDram_ring (s : State) (a : Nat) (bs : List Byte) : (storeDram s a bs).ring = s.ring := rfl
@[simp] theorem storeDram_ringNo (s : State) (a : Nat) (bs : List Byte) : (storeDram s a bs).ringNo = s.ringNo := rfl
@[simp] theorem storeDram_scrubLog (s : State) (a : Nat) (bs : List Byte) : (storeDram s a bs).scrubLog = s.scrubLog := rfl
@[simp] theorem storeDram_corrLog (s : State) (a : Nat) (bs : List Byte) : (storeDram s a bs).corrLog = s.corrLog := rfl
@[simp] theorem storeDram_mismatches (s : State) (a : Nat) (bs : List Byte) : (storeDram s a bs).mismatches = s.mismatches := rfl
@[simp] theorem storeDram_asks (s : State) (a : Nat) (bs : List Byte) : (storeDram s a bs).asks = s.asks := rfl
@[simp] theorem storeDram_dumps (s : State) (a : Nat) (bs : List Byte) : (storeDram s a bs).dumps = s.dumps := rfl
@[simp] theorem storeDram_offer (s : State) (a : Nat) (bs : List Byte) : (storeDram s a bs).offer = s.offer := rfl
@[simp] theorem storeDram_repairSum (s : State) (a : Nat) (bs : List Byte) : (storeDram s a bs).repairSum = s.repairSum := rfl
@[simp] theorem storeDram_done (s : State) (a : Nat) (bs : List Byte) : (storeDram s a bs).done = s.done := rfl
@[simp] theorem storeDram_journal (s : State) (a : Nat) (bs : List Byte) : (storeDram s a bs).journal = s.journal := rfl

/-! ### fly -/

@[simp] theorem fly_g (t : Tile) (e : Landing) : (fly t e).g = t.g := rfl
@[simp] theorem fly_q (t : Tile) (e : Landing) : (fly t e).q = t.q := rfl
@[simp] theorem fly_v (t : Tile) (e : Landing) : (fly t e).v = t.v := rfl
@[simp] theorem fly_m (t : Tile) (e : Landing) : (fly t e).m = t.m := rfl
@[simp] theorem fly_z (t : Tile) (e : Landing) : (fly t e).z = t.z := rfl
@[simp] theorem fly_zp (t : Tile) (e : Landing) : (fly t e).zp = t.zp := rfl
@[simp] theorem fly_kc (t : Tile) (e : Landing) : (fly t e).kc = t.kc := rfl
@[simp] theorem fly_ma (t : Tile) (e : Landing) : (fly t e).ma = t.ma := rfl
@[simp] theorem fly_at_ (t : Tile) (e : Landing) : (fly t e).at_ = t.at_ := rfl
@[simp] theorem fly_lfsr (t : Tile) (e : Landing) : (fly t e).lfsr = t.lfsr := rfl
@[simp] theorem fly_loop (t : Tile) (e : Landing) : (fly t e).loop = t.loop := rfl
@[simp] theorem fly_stage (t : Tile) (e : Landing) : (fly t e).stage = t.stage := rfl
@[simp] theorem fly_flg (t : Tile) (e : Landing) : (fly t e).flg = t.flg := rfl
@[simp] theorem fly_fpm (t : Tile) (e : Landing) : (fly t e).fpm = t.fpm := rfl
@[simp] theorem fly_sbCount (t : Tile) (e : Landing) : (fly t e).sbCount = t.sbCount := rfl
@[simp] theorem fly_dramCount (t : Tile) (e : Landing) : (fly t e).dramCount = t.dramCount := rfl
@[simp] theorem fly_raceBound (t : Tile) (e : Landing) : (fly t e).raceBound = t.raceBound := rfl
@[simp] theorem fly_dramMode (t : Tile) (e : Landing) : (fly t e).dramMode = t.dramMode := rfl
@[simp] theorem fly_sbMode (t : Tile) (e : Landing) : (fly t e).sbMode = t.sbMode := rfl
@[simp] theorem fly_evc (t : Tile) (e : Landing) : (fly t e).evc = t.evc := rfl
@[simp] theorem fly_epc (t : Tile) (e : Landing) : (fly t e).epc = t.epc := rfl
@[simp] theorem fly_done (t : Tile) (e : Landing) : (fly t e).done = t.done := rfl
@[simp] theorem fly_ltc (t : Tile) (e : Landing) : (fly t e).ltc = t.ltc := rfl
@[simp] theorem fly_snap (t : Tile) (e : Landing) : (fly t e).snap = t.snap := rfl
@[simp] theorem fly_skew (t : Tile) (e : Landing) : (fly t e).skew = t.skew := rfl
@[simp] theorem fly_regions (t : Tile) (e : Landing) : (fly t e).regions = t.regions := rfl
@[simp] theorem fly_serial (t : Tile) (e : Landing) : (fly t e).serial = t.serial := rfl
@[simp] theorem fly_seq (t : Tile) (e : Landing) : (fly t e).seq = t.seq := rfl
@[simp] theorem fly_mx (t : Tile) (e : Landing) : (fly t e).mx = t.mx := rfl
@[simp] theorem fly_rankBusy (t : Tile) (e : Landing) : (fly t e).rankBusy = t.rankBusy := rfl
@[simp] theorem fly_termBusy (t : Tile) (e : Landing) : (fly t e).termBusy = t.termBusy := rfl
@[simp] theorem fly_copies (t : Tile) (e : Landing) : (fly t e).copies = t.copies := rfl
@[simp] theorem fly_copyBusy (t : Tile) (e : Landing) : (fly t e).copyBusy = t.copyBusy := rfl
@[simp] theorem fly_bursts (t : Tile) (e : Landing) : (fly t e).bursts = t.bursts := rfl
@[simp] theorem fly_puts (t : Tile) (e : Landing) : (fly t e).puts = t.puts := rfl
@[simp] theorem fly_pslots (t : Tile) (e : Landing) : (fly t e).pslots = t.pslots := rfl
@[simp] theorem fly_held (t : Tile) (e : Landing) : (fly t e).held = t.held := rfl
@[simp] theorem fly_heldAt (t : Tile) (e : Landing) : (fly t e).heldAt = t.heldAt := rfl
@[simp] theorem fly_nextAcc (t : Tile) (e : Landing) : (fly t e).nextAcc = t.nextAcc := rfl
@[simp] theorem fly_depWait (t : Tile) (e : Landing) : (fly t e).depWait = t.depWait := rfl
@[simp] theorem fly_unit (t : Tile) (e : Landing) : (fly t e).unit = t.unit := rfl
@[simp] theorem fly_units (t : Tile) (e : Landing) : (fly t e).units = t.units := rfl
@[simp] theorem fly_evts (t : Tile) (e : Landing) : (fly t e).evts = t.evts := rfl
@[simp] theorem fly_evtDropped (t : Tile) (e : Landing) : (fly t e).evtDropped = t.evtDropped := rfl
@[simp] theorem fly_traces (t : Tile) (e : Landing) : (fly t e).traces = t.traces := rfl
@[simp] theorem fly_traceDropped (t : Tile) (e : Landing) : (fly t e).traceDropped = t.traceDropped := rfl
@[simp] theorem fly_discard (t : Tile) (e : Landing) : (fly t e).discard = t.discard := rfl
@[simp] theorem fly_watches (t : Tile) (e : Landing) : (fly t e).watches = t.watches := rfl
@[simp] theorem fly_evRec (t : Tile) (e : Landing) : (fly t e).evRec = t.evRec := rfl
@[simp] theorem fly_replays (t : Tile) (e : Landing) : (fly t e).replays = t.replays := rfl
@[simp] theorem fly_raisedAt (t : Tile) (e : Landing) : (fly t e).raisedAt = t.raisedAt := rfl
@[simp] theorem fly_imem (t : Tile) (e : Landing) : (fly t e).imem = t.imem := rfl
@[simp] theorem fly_sram (t : Tile) (e : Landing) : (fly t e).sram = t.sram := rfl
@[simp] theorem fly_poison (t : Tile) (e : Landing) : (fly t e).poison = t.poison := rfl
@[simp] theorem fly_uncorr (t : Tile) (e : Landing) : (fly t e).uncorr = t.uncorr := rfl
@[simp] theorem fly_corr (t : Tile) (e : Landing) : (fly t e).corr = t.corr := rfl
@[simp] theorem fly_regErr (t : Tile) (e : Landing) : (fly t e).regErr = t.regErr := rfl
@[simp] theorem fly_zErr (t : Tile) (e : Landing) : (fly t e).zErr = t.zErr := rfl
@[simp] theorem fly_imemErr (t : Tile) (e : Landing) : (fly t e).imemErr = t.imemErr := rfl
@[simp] theorem fly_recs (t : Tile) (e : Landing) : (fly t e).recs = t.recs := rfl
@[simp] theorem fly_tainted (t : Tile) (e : Landing) : (fly t e).tainted = t.tainted := rfl
@[simp] theorem fly_served (t : Tile) (e : Landing) : (fly t e).served = t.served := rfl
@[simp] theorem fly_servedDirty (t : Tile) (e : Landing) : (fly t e).servedDirty = t.servedDirty := rfl
@[simp] theorem fly_audWatch (t : Tile) (e : Landing) : (fly t e).audWatch = t.audWatch := rfl
@[simp] theorem fly_audDirty (t : Tile) (e : Landing) : (fly t e).audDirty = t.audDirty := rfl
@[simp] theorem fly_found (t : Tile) (e : Landing) : (fly t e).found = t.found := rfl
@[simp] theorem fly_corrected (t : Tile) (e : Landing) : (fly t e).corrected = t.corrected := rfl
@[simp] theorem fly_accs (t : Tile) (e : Landing) : (fly t e).accs = t.accs := rfl
@[simp] theorem fly_counts (t : Tile) (e : Landing) : (fly t e).counts = t.counts := rfl
@[simp] theorem fly_dropBars (t : Tile) (e : Landing) : (fly t e).dropBars = t.dropBars := rfl
@[simp] theorem fly_barWrote (t : Tile) (e : Landing) : (fly t e).barWrote = t.barWrote := rfl
@[simp] theorem fly_dropNext (t : Tile) (e : Landing) : (fly t e).dropNext = t.dropNext := rfl
@[simp] theorem fly_flight (t : Tile) (e : Landing) : (fly t e).flight = t.flight ++ [e] := rfl

/-! ### orFlags -/

@[simp] theorem orFlags_g (t : Tile) (f : Flags) : (orFlags t f).g = t.g := rfl
@[simp] theorem orFlags_q (t : Tile) (f : Flags) : (orFlags t f).q = t.q := rfl
@[simp] theorem orFlags_v (t : Tile) (f : Flags) : (orFlags t f).v = t.v := rfl
@[simp] theorem orFlags_m (t : Tile) (f : Flags) : (orFlags t f).m = t.m := rfl
@[simp] theorem orFlags_z (t : Tile) (f : Flags) : (orFlags t f).z = t.z := rfl
@[simp] theorem orFlags_zp (t : Tile) (f : Flags) : (orFlags t f).zp = t.zp := rfl
@[simp] theorem orFlags_kc (t : Tile) (f : Flags) : (orFlags t f).kc = t.kc := rfl
@[simp] theorem orFlags_ma (t : Tile) (f : Flags) : (orFlags t f).ma = t.ma := rfl
@[simp] theorem orFlags_at_ (t : Tile) (f : Flags) : (orFlags t f).at_ = t.at_ := rfl
@[simp] theorem orFlags_lfsr (t : Tile) (f : Flags) : (orFlags t f).lfsr = t.lfsr := rfl
@[simp] theorem orFlags_loop (t : Tile) (f : Flags) : (orFlags t f).loop = t.loop := rfl
@[simp] theorem orFlags_stage (t : Tile) (f : Flags) : (orFlags t f).stage = t.stage := rfl
@[simp] theorem orFlags_fpm (t : Tile) (f : Flags) : (orFlags t f).fpm = t.fpm := rfl
@[simp] theorem orFlags_sbCount (t : Tile) (f : Flags) : (orFlags t f).sbCount = t.sbCount := rfl
@[simp] theorem orFlags_dramCount (t : Tile) (f : Flags) : (orFlags t f).dramCount = t.dramCount := rfl
@[simp] theorem orFlags_raceBound (t : Tile) (f : Flags) : (orFlags t f).raceBound = t.raceBound := rfl
@[simp] theorem orFlags_dramMode (t : Tile) (f : Flags) : (orFlags t f).dramMode = t.dramMode := rfl
@[simp] theorem orFlags_sbMode (t : Tile) (f : Flags) : (orFlags t f).sbMode = t.sbMode := rfl
@[simp] theorem orFlags_evc (t : Tile) (f : Flags) : (orFlags t f).evc = t.evc := rfl
@[simp] theorem orFlags_epc (t : Tile) (f : Flags) : (orFlags t f).epc = t.epc := rfl
@[simp] theorem orFlags_done (t : Tile) (f : Flags) : (orFlags t f).done = t.done := rfl
@[simp] theorem orFlags_ltc (t : Tile) (f : Flags) : (orFlags t f).ltc = t.ltc := rfl
@[simp] theorem orFlags_snap (t : Tile) (f : Flags) : (orFlags t f).snap = t.snap := rfl
@[simp] theorem orFlags_skew (t : Tile) (f : Flags) : (orFlags t f).skew = t.skew := rfl
@[simp] theorem orFlags_regions (t : Tile) (f : Flags) : (orFlags t f).regions = t.regions := rfl
@[simp] theorem orFlags_serial (t : Tile) (f : Flags) : (orFlags t f).serial = t.serial := rfl
@[simp] theorem orFlags_seq (t : Tile) (f : Flags) : (orFlags t f).seq = t.seq := rfl
@[simp] theorem orFlags_flight (t : Tile) (f : Flags) : (orFlags t f).flight = t.flight := rfl
@[simp] theorem orFlags_mx (t : Tile) (f : Flags) : (orFlags t f).mx = t.mx := rfl
@[simp] theorem orFlags_rankBusy (t : Tile) (f : Flags) : (orFlags t f).rankBusy = t.rankBusy := rfl
@[simp] theorem orFlags_termBusy (t : Tile) (f : Flags) : (orFlags t f).termBusy = t.termBusy := rfl
@[simp] theorem orFlags_copies (t : Tile) (f : Flags) : (orFlags t f).copies = t.copies := rfl
@[simp] theorem orFlags_copyBusy (t : Tile) (f : Flags) : (orFlags t f).copyBusy = t.copyBusy := rfl
@[simp] theorem orFlags_bursts (t : Tile) (f : Flags) : (orFlags t f).bursts = t.bursts := rfl
@[simp] theorem orFlags_puts (t : Tile) (f : Flags) : (orFlags t f).puts = t.puts := rfl
@[simp] theorem orFlags_pslots (t : Tile) (f : Flags) : (orFlags t f).pslots = t.pslots := rfl
@[simp] theorem orFlags_held (t : Tile) (f : Flags) : (orFlags t f).held = t.held := rfl
@[simp] theorem orFlags_heldAt (t : Tile) (f : Flags) : (orFlags t f).heldAt = t.heldAt := rfl
@[simp] theorem orFlags_nextAcc (t : Tile) (f : Flags) : (orFlags t f).nextAcc = t.nextAcc := rfl
@[simp] theorem orFlags_depWait (t : Tile) (f : Flags) : (orFlags t f).depWait = t.depWait := rfl
@[simp] theorem orFlags_unit (t : Tile) (f : Flags) : (orFlags t f).unit = t.unit := rfl
@[simp] theorem orFlags_units (t : Tile) (f : Flags) : (orFlags t f).units = t.units := rfl
@[simp] theorem orFlags_evts (t : Tile) (f : Flags) : (orFlags t f).evts = t.evts := rfl
@[simp] theorem orFlags_evtDropped (t : Tile) (f : Flags) : (orFlags t f).evtDropped = t.evtDropped := rfl
@[simp] theorem orFlags_traces (t : Tile) (f : Flags) : (orFlags t f).traces = t.traces := rfl
@[simp] theorem orFlags_traceDropped (t : Tile) (f : Flags) : (orFlags t f).traceDropped = t.traceDropped := rfl
@[simp] theorem orFlags_discard (t : Tile) (f : Flags) : (orFlags t f).discard = t.discard := rfl
@[simp] theorem orFlags_watches (t : Tile) (f : Flags) : (orFlags t f).watches = t.watches := rfl
@[simp] theorem orFlags_evRec (t : Tile) (f : Flags) : (orFlags t f).evRec = t.evRec := rfl
@[simp] theorem orFlags_replays (t : Tile) (f : Flags) : (orFlags t f).replays = t.replays := rfl
@[simp] theorem orFlags_raisedAt (t : Tile) (f : Flags) : (orFlags t f).raisedAt = t.raisedAt := rfl
@[simp] theorem orFlags_imem (t : Tile) (f : Flags) : (orFlags t f).imem = t.imem := rfl
@[simp] theorem orFlags_sram (t : Tile) (f : Flags) : (orFlags t f).sram = t.sram := rfl
@[simp] theorem orFlags_poison (t : Tile) (f : Flags) : (orFlags t f).poison = t.poison := rfl
@[simp] theorem orFlags_uncorr (t : Tile) (f : Flags) : (orFlags t f).uncorr = t.uncorr := rfl
@[simp] theorem orFlags_corr (t : Tile) (f : Flags) : (orFlags t f).corr = t.corr := rfl
@[simp] theorem orFlags_regErr (t : Tile) (f : Flags) : (orFlags t f).regErr = t.regErr := rfl
@[simp] theorem orFlags_zErr (t : Tile) (f : Flags) : (orFlags t f).zErr = t.zErr := rfl
@[simp] theorem orFlags_imemErr (t : Tile) (f : Flags) : (orFlags t f).imemErr = t.imemErr := rfl
@[simp] theorem orFlags_recs (t : Tile) (f : Flags) : (orFlags t f).recs = t.recs := rfl
@[simp] theorem orFlags_tainted (t : Tile) (f : Flags) : (orFlags t f).tainted = t.tainted := rfl
@[simp] theorem orFlags_served (t : Tile) (f : Flags) : (orFlags t f).served = t.served := rfl
@[simp] theorem orFlags_servedDirty (t : Tile) (f : Flags) : (orFlags t f).servedDirty = t.servedDirty := rfl
@[simp] theorem orFlags_audWatch (t : Tile) (f : Flags) : (orFlags t f).audWatch = t.audWatch := rfl
@[simp] theorem orFlags_audDirty (t : Tile) (f : Flags) : (orFlags t f).audDirty = t.audDirty := rfl
@[simp] theorem orFlags_found (t : Tile) (f : Flags) : (orFlags t f).found = t.found := rfl
@[simp] theorem orFlags_corrected (t : Tile) (f : Flags) : (orFlags t f).corrected = t.corrected := rfl
@[simp] theorem orFlags_accs (t : Tile) (f : Flags) : (orFlags t f).accs = t.accs := rfl
@[simp] theorem orFlags_counts (t : Tile) (f : Flags) : (orFlags t f).counts = t.counts := rfl
@[simp] theorem orFlags_dropBars (t : Tile) (f : Flags) : (orFlags t f).dropBars = t.dropBars := rfl
@[simp] theorem orFlags_barWrote (t : Tile) (f : Flags) : (orFlags t f).barWrote = t.barWrote := rfl
@[simp] theorem orFlags_dropNext (t : Tile) (f : Flags) : (orFlags t f).dropNext = t.dropNext := rfl
@[simp] theorem orFlags_flg (t : Tile) (f : Flags) : (orFlags t f).flg = t.flg ||| f := rfl

/-! ### performed -/

@[simp] theorem performed_first (p : Part) : (performed p).first = p.first := rfl
@[simp] theorem performed_count (p : Part) : (performed p).count = p.count := rfl
@[simp] theorem performed_rec_ (p : Part) : (performed p).rec_ = p.rec_ := rfl
@[simp] theorem performed_queue (p : Part) : (performed p).queue = p.queue := rfl
@[simp] theorem performed_gcyc (p : Part) : (performed p).gcyc = p.gcyc := rfl
@[simp] theorem performed_mode (p : Part) : (performed p).mode = p.mode := rfl
@[simp] theorem performed_tiles (p : Part) : (performed p).tiles = p.tiles := rfl
@[simp] theorem performed_flits (p : Part) : (performed p).flits = p.flits := rfl
@[simp] theorem performed_linkUse (p : Part) : (performed p).linkUse = p.linkUse := rfl
@[simp] theorem performed_engines (p : Part) : (performed p).engines = p.engines := rfl
@[simp] theorem performed_ticks (p : Part) : (performed p).ticks = p.ticks := rfl
@[simp] theorem performed_startEdge (p : Part) : (performed p).startEdge = p.startEdge := rfl
@[simp] theorem performed_k (p : Part) : (performed p).k = p.k := rfl
@[simp] theorem performed_kNext (p : Part) : (performed p).kNext = p.kNext := rfl
@[simp] theorem performed_holds (p : Part) : (performed p).holds = p.holds := rfl
@[simp] theorem performed_stop (p : Part) : (performed p).stop = p.stop := rfl
@[simp] theorem performed_found (p : Part) : (performed p).found = p.found := rfl
@[simp] theorem performed_misses (p : Part) : (performed p).misses = p.misses := rfl
@[simp] theorem performed_foundLater (p : Part) : (performed p).foundLater = p.foundLater := rfl
@[simp] theorem performed_audit (p : Part) : (performed p).audit = p.audit := rfl
@[simp] theorem performed_samples (p : Part) : (performed p).samples = p.samples := rfl
@[simp] theorem performed_pool (p : Part) : (performed p).pool = p.pool := rfl
@[simp] theorem performed_lastEvent (p : Part) : (performed p).lastEvent = p.lastEvent := rfl
@[simp] theorem performed_activity (p : Part) : (performed p).activity = p.activity := rfl
@[simp] theorem performed_resid (p : Part) : (performed p).resid = p.resid := rfl
@[simp] theorem performed_energy (p : Part) : (performed p).energy = p.energy := rfl
@[simp] theorem performed_power (p : Part) : (performed p).power = p.power := rfl
@[simp] theorem performed_frozenCyc (p : Part) : (performed p).frozenCyc = p.frozenCyc := rfl
@[simp] theorem performed_log (p : Part) : (performed p).log = p.log := rfl
@[simp] theorem performed_logDone (p : Part) : (performed p).logDone = p.logDone := rfl
@[simp] theorem performed_logOpen (p : Part) : (performed p).logOpen = p.logOpen := rfl
@[simp] theorem performed_logFull (p : Part) : (performed p).logFull = p.logFull := rfl
@[simp] theorem performed_diverged (p : Part) : (performed p).diverged = p.diverged := rfl
@[simp] theorem performed_replay (p : Part) : (performed p).replay = p.replay := rfl
@[simp] theorem performed_acted (p : Part) : (performed p).acted = p.acted := rfl
@[simp] theorem performed_frozenActs (p : Part) : (performed p).frozenActs = p.frozenActs := rfl
@[simp] theorem performed_divergeAt (p : Part) : (performed p).divergeAt = p.divergeAt := rfl
@[simp] theorem performed_missed (p : Part) : (performed p).missed = p.missed := rfl
@[simp] theorem performed_quantum (p : Part) : (performed p).quantum = p.quantum := rfl
@[simp] theorem performed_expired (p : Part) : (performed p).expired = p.expired := rfl
@[simp] theorem performed_sampleAt (p : Part) : (performed p).sampleAt = p.sampleAt := rfl
@[simp] theorem performed_breaks (p : Part) : (performed p).breaks = p.breaks := rfl
@[simp] theorem performed_slotBreaks (p : Part) : (performed p).slotBreaks = p.slotBreaks := rfl
@[simp] theorem performed_debugHold (p : Part) : (performed p).debugHold = p.debugHold := rfl
@[simp] theorem performed_traceOn (p : Part) : (performed p).traceOn = p.traceOn := rfl
@[simp] theorem performed_traceMask (p : Part) : (performed p).traceMask = p.traceMask := rfl
@[simp] theorem performed_traceSize (p : Part) : (performed p).traceSize = p.traceSize := rfl
@[simp] theorem performed_tracePeriod (p : Part) : (performed p).tracePeriod = p.tracePeriod := rfl
@[simp] theorem performed_traceW (p : Part) : (performed p).traceW = p.traceW := rfl
@[simp] theorem performed_traceOld (p : Part) : (performed p).traceOld = p.traceOld := rfl
@[simp] theorem performed_traceLens (p : Part) : (performed p).traceLens = p.traceLens := rfl
@[simp] theorem performed_traceRow (p : Part) : (performed p).traceRow = p.traceRow := rfl
@[simp] theorem performed_stageRow (p : Part) : (performed p).stageRow = p.stageRow := rfl
@[simp] theorem performed_inject (p : Part) : (performed p).inject = p.inject := rfl
@[simp] theorem performed_audPolicyFail (p : Part) : (performed p).audPolicyFail = p.audPolicyFail := rfl
@[simp] theorem performed_failStatus (p : Part) : (performed p).failStatus = p.failStatus := rfl
@[simp] theorem performed_stitched (p : Part) : (performed p).stitched = p.stitched := rfl

/-! ### performedNext -/

@[simp] theorem performedNext_first (p : Part) : (performedNext p).first = p.first := rfl
@[simp] theorem performedNext_count (p : Part) : (performedNext p).count = p.count := rfl
@[simp] theorem performedNext_rec_ (p : Part) : (performedNext p).rec_ = p.rec_ := rfl
@[simp] theorem performedNext_queue (p : Part) : (performedNext p).queue = p.queue := rfl
@[simp] theorem performedNext_gcyc (p : Part) : (performedNext p).gcyc = p.gcyc := rfl
@[simp] theorem performedNext_mode (p : Part) : (performedNext p).mode = p.mode := rfl
@[simp] theorem performedNext_tiles (p : Part) : (performedNext p).tiles = p.tiles := rfl
@[simp] theorem performedNext_flits (p : Part) : (performedNext p).flits = p.flits := rfl
@[simp] theorem performedNext_linkUse (p : Part) : (performedNext p).linkUse = p.linkUse := rfl
@[simp] theorem performedNext_engines (p : Part) : (performedNext p).engines = p.engines := rfl
@[simp] theorem performedNext_ticks (p : Part) : (performedNext p).ticks = p.ticks := rfl
@[simp] theorem performedNext_startEdge (p : Part) : (performedNext p).startEdge = p.startEdge := rfl
@[simp] theorem performedNext_k (p : Part) : (performedNext p).k = p.k := rfl
@[simp] theorem performedNext_kNext (p : Part) : (performedNext p).kNext = p.kNext := rfl
@[simp] theorem performedNext_holds (p : Part) : (performedNext p).holds = p.holds := rfl
@[simp] theorem performedNext_stop (p : Part) : (performedNext p).stop = p.stop := rfl
@[simp] theorem performedNext_found (p : Part) : (performedNext p).found = p.found := rfl
@[simp] theorem performedNext_misses (p : Part) : (performedNext p).misses = p.misses := rfl
@[simp] theorem performedNext_foundLater (p : Part) : (performedNext p).foundLater = p.foundLater := rfl
@[simp] theorem performedNext_audit (p : Part) : (performedNext p).audit = p.audit := rfl
@[simp] theorem performedNext_samples (p : Part) : (performedNext p).samples = p.samples := rfl
@[simp] theorem performedNext_pool (p : Part) : (performedNext p).pool = p.pool := rfl
@[simp] theorem performedNext_lastEvent (p : Part) : (performedNext p).lastEvent = p.lastEvent := rfl
@[simp] theorem performedNext_activity (p : Part) : (performedNext p).activity = p.activity := rfl
@[simp] theorem performedNext_resid (p : Part) : (performedNext p).resid = p.resid := rfl
@[simp] theorem performedNext_energy (p : Part) : (performedNext p).energy = p.energy := rfl
@[simp] theorem performedNext_power (p : Part) : (performedNext p).power = p.power := rfl
@[simp] theorem performedNext_frozenCyc (p : Part) : (performedNext p).frozenCyc = p.frozenCyc := rfl
@[simp] theorem performedNext_log (p : Part) : (performedNext p).log = p.log := rfl
@[simp] theorem performedNext_logDone (p : Part) : (performedNext p).logDone = p.logDone := rfl
@[simp] theorem performedNext_logOpen (p : Part) : (performedNext p).logOpen = p.logOpen := rfl
@[simp] theorem performedNext_logFull (p : Part) : (performedNext p).logFull = p.logFull := rfl
@[simp] theorem performedNext_diverged (p : Part) : (performedNext p).diverged = p.diverged := rfl
@[simp] theorem performedNext_replay (p : Part) : (performedNext p).replay = p.replay := rfl
@[simp] theorem performedNext_acted (p : Part) : (performedNext p).acted = p.acted := rfl
@[simp] theorem performedNext_frozenActs (p : Part) : (performedNext p).frozenActs = p.frozenActs := rfl
@[simp] theorem performedNext_divergeAt (p : Part) : (performedNext p).divergeAt = p.divergeAt := rfl
@[simp] theorem performedNext_missed (p : Part) : (performedNext p).missed = p.missed := rfl
@[simp] theorem performedNext_quantum (p : Part) : (performedNext p).quantum = p.quantum := rfl
@[simp] theorem performedNext_expired (p : Part) : (performedNext p).expired = p.expired := rfl
@[simp] theorem performedNext_sampleAt (p : Part) : (performedNext p).sampleAt = p.sampleAt := rfl
@[simp] theorem performedNext_breaks (p : Part) : (performedNext p).breaks = p.breaks := rfl
@[simp] theorem performedNext_slotBreaks (p : Part) : (performedNext p).slotBreaks = p.slotBreaks := rfl
@[simp] theorem performedNext_debugHold (p : Part) : (performedNext p).debugHold = p.debugHold := rfl
@[simp] theorem performedNext_traceOn (p : Part) : (performedNext p).traceOn = p.traceOn := rfl
@[simp] theorem performedNext_traceMask (p : Part) : (performedNext p).traceMask = p.traceMask := rfl
@[simp] theorem performedNext_traceSize (p : Part) : (performedNext p).traceSize = p.traceSize := rfl
@[simp] theorem performedNext_tracePeriod (p : Part) : (performedNext p).tracePeriod = p.tracePeriod := rfl
@[simp] theorem performedNext_traceW (p : Part) : (performedNext p).traceW = p.traceW := rfl
@[simp] theorem performedNext_traceOld (p : Part) : (performedNext p).traceOld = p.traceOld := rfl
@[simp] theorem performedNext_traceLens (p : Part) : (performedNext p).traceLens = p.traceLens := rfl
@[simp] theorem performedNext_traceRow (p : Part) : (performedNext p).traceRow = p.traceRow := rfl
@[simp] theorem performedNext_stageRow (p : Part) : (performedNext p).stageRow = p.stageRow := rfl
@[simp] theorem performedNext_inject (p : Part) : (performedNext p).inject = p.inject := rfl
@[simp] theorem performedNext_audPolicyFail (p : Part) : (performedNext p).audPolicyFail = p.audPolicyFail := rfl
@[simp] theorem performedNext_failStatus (p : Part) : (performedNext p).failStatus = p.failStatus := rfl
@[simp] theorem performedNext_stitched (p : Part) : (performedNext p).stitched = p.stitched := rfl

/-! ### countAct -/

@[simp] theorem countAct_first (p : Part) (k n : Nat) : (countAct p k n).first = p.first := rfl
@[simp] theorem countAct_count (p : Part) (k n : Nat) : (countAct p k n).count = p.count := rfl
@[simp] theorem countAct_rec_ (p : Part) (k n : Nat) : (countAct p k n).rec_ = p.rec_ := rfl
@[simp] theorem countAct_queue (p : Part) (k n : Nat) : (countAct p k n).queue = p.queue := rfl
@[simp] theorem countAct_gcyc (p : Part) (k n : Nat) : (countAct p k n).gcyc = p.gcyc := rfl
@[simp] theorem countAct_mode (p : Part) (k n : Nat) : (countAct p k n).mode = p.mode := rfl
@[simp] theorem countAct_tiles (p : Part) (k n : Nat) : (countAct p k n).tiles = p.tiles := rfl
@[simp] theorem countAct_flits (p : Part) (k n : Nat) : (countAct p k n).flits = p.flits := rfl
@[simp] theorem countAct_linkUse (p : Part) (k n : Nat) : (countAct p k n).linkUse = p.linkUse := rfl
@[simp] theorem countAct_engines (p : Part) (k n : Nat) : (countAct p k n).engines = p.engines := rfl
@[simp] theorem countAct_ticks (p : Part) (k n : Nat) : (countAct p k n).ticks = p.ticks := rfl
@[simp] theorem countAct_startEdge (p : Part) (k n : Nat) : (countAct p k n).startEdge = p.startEdge := rfl
@[simp] theorem countAct_k (p : Part) (k n : Nat) : (countAct p k n).k = p.k := rfl
@[simp] theorem countAct_kNext (p : Part) (k n : Nat) : (countAct p k n).kNext = p.kNext := rfl
@[simp] theorem countAct_holds (p : Part) (k n : Nat) : (countAct p k n).holds = p.holds := rfl
@[simp] theorem countAct_stop (p : Part) (k n : Nat) : (countAct p k n).stop = p.stop := rfl
@[simp] theorem countAct_found (p : Part) (k n : Nat) : (countAct p k n).found = p.found := rfl
@[simp] theorem countAct_misses (p : Part) (k n : Nat) : (countAct p k n).misses = p.misses := rfl
@[simp] theorem countAct_foundLater (p : Part) (k n : Nat) : (countAct p k n).foundLater = p.foundLater := rfl
@[simp] theorem countAct_audit (p : Part) (k n : Nat) : (countAct p k n).audit = p.audit := rfl
@[simp] theorem countAct_samples (p : Part) (k n : Nat) : (countAct p k n).samples = p.samples := rfl
@[simp] theorem countAct_pool (p : Part) (k n : Nat) : (countAct p k n).pool = p.pool := rfl
@[simp] theorem countAct_lastPerf (p : Part) (k n : Nat) : (countAct p k n).lastPerf = p.lastPerf := rfl
@[simp] theorem countAct_lastEvent (p : Part) (k n : Nat) : (countAct p k n).lastEvent = p.lastEvent := rfl
@[simp] theorem countAct_resid (p : Part) (k n : Nat) : (countAct p k n).resid = p.resid := rfl
@[simp] theorem countAct_energy (p : Part) (k n : Nat) : (countAct p k n).energy = p.energy := rfl
@[simp] theorem countAct_power (p : Part) (k n : Nat) : (countAct p k n).power = p.power := rfl
@[simp] theorem countAct_frozenCyc (p : Part) (k n : Nat) : (countAct p k n).frozenCyc = p.frozenCyc := rfl
@[simp] theorem countAct_log (p : Part) (k n : Nat) : (countAct p k n).log = p.log := rfl
@[simp] theorem countAct_logDone (p : Part) (k n : Nat) : (countAct p k n).logDone = p.logDone := rfl
@[simp] theorem countAct_logOpen (p : Part) (k n : Nat) : (countAct p k n).logOpen = p.logOpen := rfl
@[simp] theorem countAct_logFull (p : Part) (k n : Nat) : (countAct p k n).logFull = p.logFull := rfl
@[simp] theorem countAct_diverged (p : Part) (k n : Nat) : (countAct p k n).diverged = p.diverged := rfl
@[simp] theorem countAct_replay (p : Part) (k n : Nat) : (countAct p k n).replay = p.replay := rfl
@[simp] theorem countAct_acted (p : Part) (k n : Nat) : (countAct p k n).acted = p.acted := rfl
@[simp] theorem countAct_frozenActs (p : Part) (k n : Nat) : (countAct p k n).frozenActs = p.frozenActs := rfl
@[simp] theorem countAct_divergeAt (p : Part) (k n : Nat) : (countAct p k n).divergeAt = p.divergeAt := rfl
@[simp] theorem countAct_missed (p : Part) (k n : Nat) : (countAct p k n).missed = p.missed := rfl
@[simp] theorem countAct_quantum (p : Part) (k n : Nat) : (countAct p k n).quantum = p.quantum := rfl
@[simp] theorem countAct_expired (p : Part) (k n : Nat) : (countAct p k n).expired = p.expired := rfl
@[simp] theorem countAct_sampleAt (p : Part) (k n : Nat) : (countAct p k n).sampleAt = p.sampleAt := rfl
@[simp] theorem countAct_breaks (p : Part) (k n : Nat) : (countAct p k n).breaks = p.breaks := rfl
@[simp] theorem countAct_slotBreaks (p : Part) (k n : Nat) : (countAct p k n).slotBreaks = p.slotBreaks := rfl
@[simp] theorem countAct_debugHold (p : Part) (k n : Nat) : (countAct p k n).debugHold = p.debugHold := rfl
@[simp] theorem countAct_traceOn (p : Part) (k n : Nat) : (countAct p k n).traceOn = p.traceOn := rfl
@[simp] theorem countAct_traceMask (p : Part) (k n : Nat) : (countAct p k n).traceMask = p.traceMask := rfl
@[simp] theorem countAct_traceSize (p : Part) (k n : Nat) : (countAct p k n).traceSize = p.traceSize := rfl
@[simp] theorem countAct_tracePeriod (p : Part) (k n : Nat) : (countAct p k n).tracePeriod = p.tracePeriod := rfl
@[simp] theorem countAct_traceW (p : Part) (k n : Nat) : (countAct p k n).traceW = p.traceW := rfl
@[simp] theorem countAct_traceOld (p : Part) (k n : Nat) : (countAct p k n).traceOld = p.traceOld := rfl
@[simp] theorem countAct_traceLens (p : Part) (k n : Nat) : (countAct p k n).traceLens = p.traceLens := rfl
@[simp] theorem countAct_traceRow (p : Part) (k n : Nat) : (countAct p k n).traceRow = p.traceRow := rfl
@[simp] theorem countAct_stageRow (p : Part) (k n : Nat) : (countAct p k n).stageRow = p.stageRow := rfl
@[simp] theorem countAct_inject (p : Part) (k n : Nat) : (countAct p k n).inject = p.inject := rfl
@[simp] theorem countAct_audPolicyFail (p : Part) (k n : Nat) : (countAct p k n).audPolicyFail = p.audPolicyFail := rfl
@[simp] theorem countAct_failStatus (p : Part) (k n : Nat) : (countAct p k n).failStatus = p.failStatus := rfl
@[simp] theorem countAct_stitched (p : Part) (k n : Nat) : (countAct p k n).stitched = p.stitched := rfl

/-! ### foundAdd -/

@[simp] theorem foundAdd_first (p : Part) (i c d : Nat) (n : Option (BitVec 13 × Nat)) : (foundAdd p i c d n).first = p.first := rfl
@[simp] theorem foundAdd_count (p : Part) (i c d : Nat) (n : Option (BitVec 13 × Nat)) : (foundAdd p i c d n).count = p.count := rfl
@[simp] theorem foundAdd_rec_ (p : Part) (i c d : Nat) (n : Option (BitVec 13 × Nat)) : (foundAdd p i c d n).rec_ = p.rec_ := rfl
@[simp] theorem foundAdd_queue (p : Part) (i c d : Nat) (n : Option (BitVec 13 × Nat)) : (foundAdd p i c d n).queue = p.queue := rfl
@[simp] theorem foundAdd_gcyc (p : Part) (i c d : Nat) (n : Option (BitVec 13 × Nat)) : (foundAdd p i c d n).gcyc = p.gcyc := rfl
@[simp] theorem foundAdd_mode (p : Part) (i c d : Nat) (n : Option (BitVec 13 × Nat)) : (foundAdd p i c d n).mode = p.mode := rfl
@[simp] theorem foundAdd_tiles (p : Part) (i c d : Nat) (n : Option (BitVec 13 × Nat)) : (foundAdd p i c d n).tiles = p.tiles := rfl
@[simp] theorem foundAdd_flits (p : Part) (i c d : Nat) (n : Option (BitVec 13 × Nat)) : (foundAdd p i c d n).flits = p.flits := rfl
@[simp] theorem foundAdd_linkUse (p : Part) (i c d : Nat) (n : Option (BitVec 13 × Nat)) : (foundAdd p i c d n).linkUse = p.linkUse := rfl
@[simp] theorem foundAdd_engines (p : Part) (i c d : Nat) (n : Option (BitVec 13 × Nat)) : (foundAdd p i c d n).engines = p.engines := rfl
@[simp] theorem foundAdd_ticks (p : Part) (i c d : Nat) (n : Option (BitVec 13 × Nat)) : (foundAdd p i c d n).ticks = p.ticks := rfl
@[simp] theorem foundAdd_startEdge (p : Part) (i c d : Nat) (n : Option (BitVec 13 × Nat)) : (foundAdd p i c d n).startEdge = p.startEdge := rfl
@[simp] theorem foundAdd_k (p : Part) (i c d : Nat) (n : Option (BitVec 13 × Nat)) : (foundAdd p i c d n).k = p.k := rfl
@[simp] theorem foundAdd_kNext (p : Part) (i c d : Nat) (n : Option (BitVec 13 × Nat)) : (foundAdd p i c d n).kNext = p.kNext := rfl
@[simp] theorem foundAdd_holds (p : Part) (i c d : Nat) (n : Option (BitVec 13 × Nat)) : (foundAdd p i c d n).holds = p.holds := rfl
@[simp] theorem foundAdd_stop (p : Part) (i c d : Nat) (n : Option (BitVec 13 × Nat)) : (foundAdd p i c d n).stop = p.stop := rfl
@[simp] theorem foundAdd_misses (p : Part) (i c d : Nat) (n : Option (BitVec 13 × Nat)) : (foundAdd p i c d n).misses = p.misses := rfl
@[simp] theorem foundAdd_foundLater (p : Part) (i c d : Nat) (n : Option (BitVec 13 × Nat)) : (foundAdd p i c d n).foundLater = p.foundLater := rfl
@[simp] theorem foundAdd_audit (p : Part) (i c d : Nat) (n : Option (BitVec 13 × Nat)) : (foundAdd p i c d n).audit = p.audit := rfl
@[simp] theorem foundAdd_samples (p : Part) (i c d : Nat) (n : Option (BitVec 13 × Nat)) : (foundAdd p i c d n).samples = p.samples := rfl
@[simp] theorem foundAdd_pool (p : Part) (i c d : Nat) (n : Option (BitVec 13 × Nat)) : (foundAdd p i c d n).pool = p.pool := rfl
@[simp] theorem foundAdd_lastPerf (p : Part) (i c d : Nat) (n : Option (BitVec 13 × Nat)) : (foundAdd p i c d n).lastPerf = p.lastPerf := rfl
@[simp] theorem foundAdd_lastEvent (p : Part) (i c d : Nat) (n : Option (BitVec 13 × Nat)) : (foundAdd p i c d n).lastEvent = p.lastEvent := rfl
@[simp] theorem foundAdd_activity (p : Part) (i c d : Nat) (n : Option (BitVec 13 × Nat)) : (foundAdd p i c d n).activity = p.activity := rfl
@[simp] theorem foundAdd_resid (p : Part) (i c d : Nat) (n : Option (BitVec 13 × Nat)) : (foundAdd p i c d n).resid = p.resid := rfl
@[simp] theorem foundAdd_energy (p : Part) (i c d : Nat) (n : Option (BitVec 13 × Nat)) : (foundAdd p i c d n).energy = p.energy := rfl
@[simp] theorem foundAdd_power (p : Part) (i c d : Nat) (n : Option (BitVec 13 × Nat)) : (foundAdd p i c d n).power = p.power := rfl
@[simp] theorem foundAdd_frozenCyc (p : Part) (i c d : Nat) (n : Option (BitVec 13 × Nat)) : (foundAdd p i c d n).frozenCyc = p.frozenCyc := rfl
@[simp] theorem foundAdd_log (p : Part) (i c d : Nat) (n : Option (BitVec 13 × Nat)) : (foundAdd p i c d n).log = p.log := rfl
@[simp] theorem foundAdd_logDone (p : Part) (i c d : Nat) (n : Option (BitVec 13 × Nat)) : (foundAdd p i c d n).logDone = p.logDone := rfl
@[simp] theorem foundAdd_logOpen (p : Part) (i c d : Nat) (n : Option (BitVec 13 × Nat)) : (foundAdd p i c d n).logOpen = p.logOpen := rfl
@[simp] theorem foundAdd_logFull (p : Part) (i c d : Nat) (n : Option (BitVec 13 × Nat)) : (foundAdd p i c d n).logFull = p.logFull := rfl
@[simp] theorem foundAdd_diverged (p : Part) (i c d : Nat) (n : Option (BitVec 13 × Nat)) : (foundAdd p i c d n).diverged = p.diverged := rfl
@[simp] theorem foundAdd_replay (p : Part) (i c d : Nat) (n : Option (BitVec 13 × Nat)) : (foundAdd p i c d n).replay = p.replay := rfl
@[simp] theorem foundAdd_acted (p : Part) (i c d : Nat) (n : Option (BitVec 13 × Nat)) : (foundAdd p i c d n).acted = p.acted := rfl
@[simp] theorem foundAdd_frozenActs (p : Part) (i c d : Nat) (n : Option (BitVec 13 × Nat)) : (foundAdd p i c d n).frozenActs = p.frozenActs := rfl
@[simp] theorem foundAdd_divergeAt (p : Part) (i c d : Nat) (n : Option (BitVec 13 × Nat)) : (foundAdd p i c d n).divergeAt = p.divergeAt := rfl
@[simp] theorem foundAdd_missed (p : Part) (i c d : Nat) (n : Option (BitVec 13 × Nat)) : (foundAdd p i c d n).missed = p.missed := rfl
@[simp] theorem foundAdd_quantum (p : Part) (i c d : Nat) (n : Option (BitVec 13 × Nat)) : (foundAdd p i c d n).quantum = p.quantum := rfl
@[simp] theorem foundAdd_expired (p : Part) (i c d : Nat) (n : Option (BitVec 13 × Nat)) : (foundAdd p i c d n).expired = p.expired := rfl
@[simp] theorem foundAdd_sampleAt (p : Part) (i c d : Nat) (n : Option (BitVec 13 × Nat)) : (foundAdd p i c d n).sampleAt = p.sampleAt := rfl
@[simp] theorem foundAdd_breaks (p : Part) (i c d : Nat) (n : Option (BitVec 13 × Nat)) : (foundAdd p i c d n).breaks = p.breaks := rfl
@[simp] theorem foundAdd_slotBreaks (p : Part) (i c d : Nat) (n : Option (BitVec 13 × Nat)) : (foundAdd p i c d n).slotBreaks = p.slotBreaks := rfl
@[simp] theorem foundAdd_debugHold (p : Part) (i c d : Nat) (n : Option (BitVec 13 × Nat)) : (foundAdd p i c d n).debugHold = p.debugHold := rfl
@[simp] theorem foundAdd_traceOn (p : Part) (i c d : Nat) (n : Option (BitVec 13 × Nat)) : (foundAdd p i c d n).traceOn = p.traceOn := rfl
@[simp] theorem foundAdd_traceMask (p : Part) (i c d : Nat) (n : Option (BitVec 13 × Nat)) : (foundAdd p i c d n).traceMask = p.traceMask := rfl
@[simp] theorem foundAdd_traceSize (p : Part) (i c d : Nat) (n : Option (BitVec 13 × Nat)) : (foundAdd p i c d n).traceSize = p.traceSize := rfl
@[simp] theorem foundAdd_tracePeriod (p : Part) (i c d : Nat) (n : Option (BitVec 13 × Nat)) : (foundAdd p i c d n).tracePeriod = p.tracePeriod := rfl
@[simp] theorem foundAdd_traceW (p : Part) (i c d : Nat) (n : Option (BitVec 13 × Nat)) : (foundAdd p i c d n).traceW = p.traceW := rfl
@[simp] theorem foundAdd_traceOld (p : Part) (i c d : Nat) (n : Option (BitVec 13 × Nat)) : (foundAdd p i c d n).traceOld = p.traceOld := rfl
@[simp] theorem foundAdd_traceLens (p : Part) (i c d : Nat) (n : Option (BitVec 13 × Nat)) : (foundAdd p i c d n).traceLens = p.traceLens := rfl
@[simp] theorem foundAdd_traceRow (p : Part) (i c d : Nat) (n : Option (BitVec 13 × Nat)) : (foundAdd p i c d n).traceRow = p.traceRow := rfl
@[simp] theorem foundAdd_stageRow (p : Part) (i c d : Nat) (n : Option (BitVec 13 × Nat)) : (foundAdd p i c d n).stageRow = p.stageRow := rfl
@[simp] theorem foundAdd_inject (p : Part) (i c d : Nat) (n : Option (BitVec 13 × Nat)) : (foundAdd p i c d n).inject = p.inject := rfl
@[simp] theorem foundAdd_audPolicyFail (p : Part) (i c d : Nat) (n : Option (BitVec 13 × Nat)) : (foundAdd p i c d n).audPolicyFail = p.audPolicyFail := rfl
@[simp] theorem foundAdd_failStatus (p : Part) (i c d : Nat) (n : Option (BitVec 13 × Nat)) : (foundAdd p i c d n).failStatus = p.failStatus := rfl
@[simp] theorem foundAdd_stitched (p : Part) (i c d : Nat) (n : Option (BitVec 13 × Nat)) : (foundAdd p i c d n).stitched = p.stitched := rfl

/-! ### putTile and modTile -/

@[simp] theorem putTile_first (p : Part) (i : Nat) (t : Tile) : (putTile p i t).first = p.first := by
  unfold putTile; split <;> rfl
@[simp] theorem modTile_first (p : Part) (i : Nat) (f : Tile → Tile) : (modTile p i f).first = p.first := by simp [modTile]
@[simp] theorem putTile_count (p : Part) (i : Nat) (t : Tile) : (putTile p i t).count = p.count := by
  unfold putTile; split <;> rfl
@[simp] theorem modTile_count (p : Part) (i : Nat) (f : Tile → Tile) : (modTile p i f).count = p.count := by simp [modTile]
@[simp] theorem putTile_rec_ (p : Part) (i : Nat) (t : Tile) : (putTile p i t).rec_ = p.rec_ := by
  unfold putTile; split <;> rfl
@[simp] theorem modTile_rec_ (p : Part) (i : Nat) (f : Tile → Tile) : (modTile p i f).rec_ = p.rec_ := by simp [modTile]
@[simp] theorem putTile_queue (p : Part) (i : Nat) (t : Tile) : (putTile p i t).queue = p.queue := by
  unfold putTile; split <;> rfl
@[simp] theorem modTile_queue (p : Part) (i : Nat) (f : Tile → Tile) : (modTile p i f).queue = p.queue := by simp [modTile]
@[simp] theorem putTile_gcyc (p : Part) (i : Nat) (t : Tile) : (putTile p i t).gcyc = p.gcyc := by
  unfold putTile; split <;> rfl
@[simp] theorem modTile_gcyc (p : Part) (i : Nat) (f : Tile → Tile) : (modTile p i f).gcyc = p.gcyc := by simp [modTile]
@[simp] theorem putTile_mode (p : Part) (i : Nat) (t : Tile) : (putTile p i t).mode = p.mode := by
  unfold putTile; split <;> rfl
@[simp] theorem modTile_mode (p : Part) (i : Nat) (f : Tile → Tile) : (modTile p i f).mode = p.mode := by simp [modTile]
@[simp] theorem putTile_flits (p : Part) (i : Nat) (t : Tile) : (putTile p i t).flits = p.flits := by
  unfold putTile; split <;> rfl
@[simp] theorem modTile_flits (p : Part) (i : Nat) (f : Tile → Tile) : (modTile p i f).flits = p.flits := by simp [modTile]
@[simp] theorem putTile_linkUse (p : Part) (i : Nat) (t : Tile) : (putTile p i t).linkUse = p.linkUse := by
  unfold putTile; split <;> rfl
@[simp] theorem modTile_linkUse (p : Part) (i : Nat) (f : Tile → Tile) : (modTile p i f).linkUse = p.linkUse := by simp [modTile]
@[simp] theorem putTile_engines (p : Part) (i : Nat) (t : Tile) : (putTile p i t).engines = p.engines := by
  unfold putTile; split <;> rfl
@[simp] theorem modTile_engines (p : Part) (i : Nat) (f : Tile → Tile) : (modTile p i f).engines = p.engines := by simp [modTile]
@[simp] theorem putTile_ticks (p : Part) (i : Nat) (t : Tile) : (putTile p i t).ticks = p.ticks := by
  unfold putTile; split <;> rfl
@[simp] theorem modTile_ticks (p : Part) (i : Nat) (f : Tile → Tile) : (modTile p i f).ticks = p.ticks := by simp [modTile]
@[simp] theorem putTile_startEdge (p : Part) (i : Nat) (t : Tile) : (putTile p i t).startEdge = p.startEdge := by
  unfold putTile; split <;> rfl
@[simp] theorem modTile_startEdge (p : Part) (i : Nat) (f : Tile → Tile) : (modTile p i f).startEdge = p.startEdge := by simp [modTile]
@[simp] theorem putTile_k (p : Part) (i : Nat) (t : Tile) : (putTile p i t).k = p.k := by
  unfold putTile; split <;> rfl
@[simp] theorem modTile_k (p : Part) (i : Nat) (f : Tile → Tile) : (modTile p i f).k = p.k := by simp [modTile]
@[simp] theorem putTile_kNext (p : Part) (i : Nat) (t : Tile) : (putTile p i t).kNext = p.kNext := by
  unfold putTile; split <;> rfl
@[simp] theorem modTile_kNext (p : Part) (i : Nat) (f : Tile → Tile) : (modTile p i f).kNext = p.kNext := by simp [modTile]
@[simp] theorem putTile_holds (p : Part) (i : Nat) (t : Tile) : (putTile p i t).holds = p.holds := by
  unfold putTile; split <;> rfl
@[simp] theorem modTile_holds (p : Part) (i : Nat) (f : Tile → Tile) : (modTile p i f).holds = p.holds := by simp [modTile]
@[simp] theorem putTile_stop (p : Part) (i : Nat) (t : Tile) : (putTile p i t).stop = p.stop := by
  unfold putTile; split <;> rfl
@[simp] theorem modTile_stop (p : Part) (i : Nat) (f : Tile → Tile) : (modTile p i f).stop = p.stop := by simp [modTile]
@[simp] theorem putTile_found (p : Part) (i : Nat) (t : Tile) : (putTile p i t).found = p.found := by
  unfold putTile; split <;> rfl
@[simp] theorem modTile_found (p : Part) (i : Nat) (f : Tile → Tile) : (modTile p i f).found = p.found := by simp [modTile]
@[simp] theorem putTile_misses (p : Part) (i : Nat) (t : Tile) : (putTile p i t).misses = p.misses := by
  unfold putTile; split <;> rfl
@[simp] theorem modTile_misses (p : Part) (i : Nat) (f : Tile → Tile) : (modTile p i f).misses = p.misses := by simp [modTile]
@[simp] theorem putTile_foundLater (p : Part) (i : Nat) (t : Tile) : (putTile p i t).foundLater = p.foundLater := by
  unfold putTile; split <;> rfl
@[simp] theorem modTile_foundLater (p : Part) (i : Nat) (f : Tile → Tile) : (modTile p i f).foundLater = p.foundLater := by simp [modTile]
@[simp] theorem putTile_audit (p : Part) (i : Nat) (t : Tile) : (putTile p i t).audit = p.audit := by
  unfold putTile; split <;> rfl
@[simp] theorem modTile_audit (p : Part) (i : Nat) (f : Tile → Tile) : (modTile p i f).audit = p.audit := by simp [modTile]
@[simp] theorem putTile_samples (p : Part) (i : Nat) (t : Tile) : (putTile p i t).samples = p.samples := by
  unfold putTile; split <;> rfl
@[simp] theorem modTile_samples (p : Part) (i : Nat) (f : Tile → Tile) : (modTile p i f).samples = p.samples := by simp [modTile]
@[simp] theorem putTile_lastPerf (p : Part) (i : Nat) (t : Tile) : (putTile p i t).lastPerf = p.lastPerf := by
  unfold putTile; split <;> rfl
@[simp] theorem modTile_lastPerf (p : Part) (i : Nat) (f : Tile → Tile) : (modTile p i f).lastPerf = p.lastPerf := by simp [modTile]
@[simp] theorem putTile_lastEvent (p : Part) (i : Nat) (t : Tile) : (putTile p i t).lastEvent = p.lastEvent := by
  unfold putTile; split <;> rfl
@[simp] theorem modTile_lastEvent (p : Part) (i : Nat) (f : Tile → Tile) : (modTile p i f).lastEvent = p.lastEvent := by simp [modTile]
@[simp] theorem putTile_activity (p : Part) (i : Nat) (t : Tile) : (putTile p i t).activity = p.activity := by
  unfold putTile; split <;> rfl
@[simp] theorem modTile_activity (p : Part) (i : Nat) (f : Tile → Tile) : (modTile p i f).activity = p.activity := by simp [modTile]
@[simp] theorem putTile_resid (p : Part) (i : Nat) (t : Tile) : (putTile p i t).resid = p.resid := by
  unfold putTile; split <;> rfl
@[simp] theorem modTile_resid (p : Part) (i : Nat) (f : Tile → Tile) : (modTile p i f).resid = p.resid := by simp [modTile]
@[simp] theorem putTile_energy (p : Part) (i : Nat) (t : Tile) : (putTile p i t).energy = p.energy := by
  unfold putTile; split <;> rfl
@[simp] theorem modTile_energy (p : Part) (i : Nat) (f : Tile → Tile) : (modTile p i f).energy = p.energy := by simp [modTile]
@[simp] theorem putTile_power (p : Part) (i : Nat) (t : Tile) : (putTile p i t).power = p.power := by
  unfold putTile; split <;> rfl
@[simp] theorem modTile_power (p : Part) (i : Nat) (f : Tile → Tile) : (modTile p i f).power = p.power := by simp [modTile]
@[simp] theorem putTile_frozenCyc (p : Part) (i : Nat) (t : Tile) : (putTile p i t).frozenCyc = p.frozenCyc := by
  unfold putTile; split <;> rfl
@[simp] theorem modTile_frozenCyc (p : Part) (i : Nat) (f : Tile → Tile) : (modTile p i f).frozenCyc = p.frozenCyc := by simp [modTile]
@[simp] theorem putTile_log (p : Part) (i : Nat) (t : Tile) : (putTile p i t).log = p.log := by
  unfold putTile; split <;> rfl
@[simp] theorem modTile_log (p : Part) (i : Nat) (f : Tile → Tile) : (modTile p i f).log = p.log := by simp [modTile]
@[simp] theorem putTile_logDone (p : Part) (i : Nat) (t : Tile) : (putTile p i t).logDone = p.logDone := by
  unfold putTile; split <;> rfl
@[simp] theorem modTile_logDone (p : Part) (i : Nat) (f : Tile → Tile) : (modTile p i f).logDone = p.logDone := by simp [modTile]
@[simp] theorem putTile_logOpen (p : Part) (i : Nat) (t : Tile) : (putTile p i t).logOpen = p.logOpen := by
  unfold putTile; split <;> rfl
@[simp] theorem modTile_logOpen (p : Part) (i : Nat) (f : Tile → Tile) : (modTile p i f).logOpen = p.logOpen := by simp [modTile]
@[simp] theorem putTile_logFull (p : Part) (i : Nat) (t : Tile) : (putTile p i t).logFull = p.logFull := by
  unfold putTile; split <;> rfl
@[simp] theorem modTile_logFull (p : Part) (i : Nat) (f : Tile → Tile) : (modTile p i f).logFull = p.logFull := by simp [modTile]
@[simp] theorem putTile_diverged (p : Part) (i : Nat) (t : Tile) : (putTile p i t).diverged = p.diverged := by
  unfold putTile; split <;> rfl
@[simp] theorem modTile_diverged (p : Part) (i : Nat) (f : Tile → Tile) : (modTile p i f).diverged = p.diverged := by simp [modTile]
@[simp] theorem putTile_replay (p : Part) (i : Nat) (t : Tile) : (putTile p i t).replay = p.replay := by
  unfold putTile; split <;> rfl
@[simp] theorem modTile_replay (p : Part) (i : Nat) (f : Tile → Tile) : (modTile p i f).replay = p.replay := by simp [modTile]
@[simp] theorem putTile_acted (p : Part) (i : Nat) (t : Tile) : (putTile p i t).acted = p.acted := by
  unfold putTile; split <;> rfl
@[simp] theorem modTile_acted (p : Part) (i : Nat) (f : Tile → Tile) : (modTile p i f).acted = p.acted := by simp [modTile]
@[simp] theorem putTile_frozenActs (p : Part) (i : Nat) (t : Tile) : (putTile p i t).frozenActs = p.frozenActs := by
  unfold putTile; split <;> rfl
@[simp] theorem modTile_frozenActs (p : Part) (i : Nat) (f : Tile → Tile) : (modTile p i f).frozenActs = p.frozenActs := by simp [modTile]
@[simp] theorem putTile_divergeAt (p : Part) (i : Nat) (t : Tile) : (putTile p i t).divergeAt = p.divergeAt := by
  unfold putTile; split <;> rfl
@[simp] theorem modTile_divergeAt (p : Part) (i : Nat) (f : Tile → Tile) : (modTile p i f).divergeAt = p.divergeAt := by simp [modTile]
@[simp] theorem putTile_missed (p : Part) (i : Nat) (t : Tile) : (putTile p i t).missed = p.missed := by
  unfold putTile; split <;> rfl
@[simp] theorem modTile_missed (p : Part) (i : Nat) (f : Tile → Tile) : (modTile p i f).missed = p.missed := by simp [modTile]
@[simp] theorem putTile_quantum (p : Part) (i : Nat) (t : Tile) : (putTile p i t).quantum = p.quantum := by
  unfold putTile; split <;> rfl
@[simp] theorem modTile_quantum (p : Part) (i : Nat) (f : Tile → Tile) : (modTile p i f).quantum = p.quantum := by simp [modTile]
@[simp] theorem putTile_expired (p : Part) (i : Nat) (t : Tile) : (putTile p i t).expired = p.expired := by
  unfold putTile; split <;> rfl
@[simp] theorem modTile_expired (p : Part) (i : Nat) (f : Tile → Tile) : (modTile p i f).expired = p.expired := by simp [modTile]
@[simp] theorem putTile_sampleAt (p : Part) (i : Nat) (t : Tile) : (putTile p i t).sampleAt = p.sampleAt := by
  unfold putTile; split <;> rfl
@[simp] theorem modTile_sampleAt (p : Part) (i : Nat) (f : Tile → Tile) : (modTile p i f).sampleAt = p.sampleAt := by simp [modTile]
@[simp] theorem putTile_breaks (p : Part) (i : Nat) (t : Tile) : (putTile p i t).breaks = p.breaks := by
  unfold putTile; split <;> rfl
@[simp] theorem modTile_breaks (p : Part) (i : Nat) (f : Tile → Tile) : (modTile p i f).breaks = p.breaks := by simp [modTile]
@[simp] theorem putTile_slotBreaks (p : Part) (i : Nat) (t : Tile) : (putTile p i t).slotBreaks = p.slotBreaks := by
  unfold putTile; split <;> rfl
@[simp] theorem modTile_slotBreaks (p : Part) (i : Nat) (f : Tile → Tile) : (modTile p i f).slotBreaks = p.slotBreaks := by simp [modTile]
@[simp] theorem putTile_debugHold (p : Part) (i : Nat) (t : Tile) : (putTile p i t).debugHold = p.debugHold := by
  unfold putTile; split <;> rfl
@[simp] theorem modTile_debugHold (p : Part) (i : Nat) (f : Tile → Tile) : (modTile p i f).debugHold = p.debugHold := by simp [modTile]
@[simp] theorem putTile_traceOn (p : Part) (i : Nat) (t : Tile) : (putTile p i t).traceOn = p.traceOn := by
  unfold putTile; split <;> rfl
@[simp] theorem modTile_traceOn (p : Part) (i : Nat) (f : Tile → Tile) : (modTile p i f).traceOn = p.traceOn := by simp [modTile]
@[simp] theorem putTile_traceMask (p : Part) (i : Nat) (t : Tile) : (putTile p i t).traceMask = p.traceMask := by
  unfold putTile; split <;> rfl
@[simp] theorem modTile_traceMask (p : Part) (i : Nat) (f : Tile → Tile) : (modTile p i f).traceMask = p.traceMask := by simp [modTile]
@[simp] theorem putTile_traceSize (p : Part) (i : Nat) (t : Tile) : (putTile p i t).traceSize = p.traceSize := by
  unfold putTile; split <;> rfl
@[simp] theorem modTile_traceSize (p : Part) (i : Nat) (f : Tile → Tile) : (modTile p i f).traceSize = p.traceSize := by simp [modTile]
@[simp] theorem putTile_tracePeriod (p : Part) (i : Nat) (t : Tile) : (putTile p i t).tracePeriod = p.tracePeriod := by
  unfold putTile; split <;> rfl
@[simp] theorem modTile_tracePeriod (p : Part) (i : Nat) (f : Tile → Tile) : (modTile p i f).tracePeriod = p.tracePeriod := by simp [modTile]
@[simp] theorem putTile_traceW (p : Part) (i : Nat) (t : Tile) : (putTile p i t).traceW = p.traceW := by
  unfold putTile; split <;> rfl
@[simp] theorem modTile_traceW (p : Part) (i : Nat) (f : Tile → Tile) : (modTile p i f).traceW = p.traceW := by simp [modTile]
@[simp] theorem putTile_traceOld (p : Part) (i : Nat) (t : Tile) : (putTile p i t).traceOld = p.traceOld := by
  unfold putTile; split <;> rfl
@[simp] theorem modTile_traceOld (p : Part) (i : Nat) (f : Tile → Tile) : (modTile p i f).traceOld = p.traceOld := by simp [modTile]
@[simp] theorem putTile_traceLens (p : Part) (i : Nat) (t : Tile) : (putTile p i t).traceLens = p.traceLens := by
  unfold putTile; split <;> rfl
@[simp] theorem modTile_traceLens (p : Part) (i : Nat) (f : Tile → Tile) : (modTile p i f).traceLens = p.traceLens := by simp [modTile]
@[simp] theorem putTile_traceRow (p : Part) (i : Nat) (t : Tile) : (putTile p i t).traceRow = p.traceRow := by
  unfold putTile; split <;> rfl
@[simp] theorem modTile_traceRow (p : Part) (i : Nat) (f : Tile → Tile) : (modTile p i f).traceRow = p.traceRow := by simp [modTile]
@[simp] theorem putTile_stageRow (p : Part) (i : Nat) (t : Tile) : (putTile p i t).stageRow = p.stageRow := by
  unfold putTile; split <;> rfl
@[simp] theorem modTile_stageRow (p : Part) (i : Nat) (f : Tile → Tile) : (modTile p i f).stageRow = p.stageRow := by simp [modTile]
@[simp] theorem putTile_inject (p : Part) (i : Nat) (t : Tile) : (putTile p i t).inject = p.inject := by
  unfold putTile; split <;> rfl
@[simp] theorem modTile_inject (p : Part) (i : Nat) (f : Tile → Tile) : (modTile p i f).inject = p.inject := by simp [modTile]
@[simp] theorem putTile_audPolicyFail (p : Part) (i : Nat) (t : Tile) : (putTile p i t).audPolicyFail = p.audPolicyFail := by
  unfold putTile; split <;> rfl
@[simp] theorem modTile_audPolicyFail (p : Part) (i : Nat) (f : Tile → Tile) : (modTile p i f).audPolicyFail = p.audPolicyFail := by simp [modTile]
@[simp] theorem putTile_failStatus (p : Part) (i : Nat) (t : Tile) : (putTile p i t).failStatus = p.failStatus := by
  unfold putTile; split <;> rfl
@[simp] theorem modTile_failStatus (p : Part) (i : Nat) (f : Tile → Tile) : (modTile p i f).failStatus = p.failStatus := by simp [modTile]
@[simp] theorem putTile_stitched (p : Part) (i : Nat) (t : Tile) : (putTile p i t).stitched = p.stitched := by
  unfold putTile; split <;> rfl
@[simp] theorem modTile_stitched (p : Part) (i : Nat) (f : Tile → Tile) : (modTile p i f).stitched = p.stitched := by simp [modTile]

end Sys2Proof.Machine
end

