-- ==== Sys2Proof/Laws/Tile.lean ====
section
/-! SUPPORT. Laws of the tile view: a tile after an update of itself, of another tile, of its partition or
of another one. -/

namespace Sys2Proof.Machine

/-! ## Partitions -/

theorem getPart_setPart_same (s : State) (p : Part) : getPart (setPart s p) p.first = some p := by
  simp [getPart, setPart]

theorem getPart_setPart_other (s : State) (p : Part) (b : Nat) (h : b ≠ p.first) :
    getPart (setPart s p) b = getPart s b := by
  simp [getPart, setPart, mfind_mput_other _ _ _ _ h]

theorem mem_of_mfind {β : Type} {m : SMap β} {k : Nat} {v : β} (h : mfind m k = some v) : (k, v) ∈ m := by
  induction m with
  | nil => simp [mfind] at h
  | cons x r ih =>
    obtain ⟨a, b⟩ := x
    simp only [mfind] at h
    split at h
    · next e => subst e; simp_all
    · split at h
      · simp at h
      · simp [ih h]

/-- A resident launch is listed under its own first column. -/
theorem first_of_getPart {s : State} {b : Nat} {p : Part} (hi : ModuleInv s) (h : getPart s b = some p) : p.first = b :=
  hi.1.2 (b, p) (mem_of_mfind h)

theorem onPart_eq {s : State} {b : Nat} {p : Part} (h : getPart s b = some p) (f : Part → Part) :
    onPart s b f = setPart s (f p) := by simp [onPart, h]

theorem getPart_onPart_same {s : State} {b : Nat} {p : Part} (h : getPart s b = some p) (f : Part → Part)
    (hf : (f p).first = b) : getPart (onPart s b f) b = some (f p) := by
  rw [onPart_eq h]
  have := getPart_setPart_same s (f p)
  rwa [hf] at this

theorem getPart_onPart_other {s : State} {b c : Nat} (f : Part → Part) (hc : c ≠ b)
    (hf : ∀ p, getPart s b = some p → (f p).first = b) : getPart (onPart s b f) c = getPart s c := by
  unfold onPart
  split
  · next p h => exact getPart_setPart_other s (f p) c (by rw [hf p h]; exact hc)
  · rfl

/-! ## Tiles of a partition -/

@[simp] theorem getTile_putTile_same (p : Part) (i : Nat) (t : Tile) : getTile (putTile p i t) i = t := by
  unfold getTile putTile
  split <;> simp

theorem getTile_putTile_other (p : Part) (i j : Nat) (t : Tile) (h : j ≠ i) :
    getTile (putTile p i t) j = getTile p j := by
  unfold getTile putTile
  by_cases hi : poolBase ≤ i <;> by_cases hj : poolBase ≤ j <;> simp [hi, hj, mfind_mput_other _ _ _ _ h]

/-- What a tile's view depends on. -/
structure SameTiles (p q : Part) : Prop where
  tiles : q.tiles = p.tiles
  pool : q.pool = p.pool
  count : q.count = p.count
  rec_ : q.rec_ = p.rec_
  first : q.first = p.first

/-- The tile at a place, read off its partition. -/
def tileIn (p : Part) (idx : Nat) : Option Tile :=
  if poolBase ≤ idx then some (getTile p idx)
  else if inBand p (tx idx) (ty idx) then some (getTile p idx) else none

theorem tileOf_eq (s : State) (l : Loc) : tileOf s l = (getPart s l.band).bind (fun p => tileIn p l.idx) := by
  unfold tileOf tileAt tileIn
  cases getPart s l.band with
  | none => rfl
  | some p => simp only [Option.bind_some]; split <;> (try split) <;> rfl

theorem tileOf_of_tileAt {s : State} {l : Loc} {p : Part} {t : Tile} (h : tileAt s l = some (p, t)) :
    tileOf s l = some t := by simp [tileOf, h]

theorem tileIn_of_same {p q : Part} (h : SameTiles p q) (idx : Nat) : tileIn q idx = tileIn p idx := by
  unfold tileIn getTile inBand pw
  rw [h.tiles, h.pool, h.count, h.rec_]

theorem inBand_putTile (p : Part) (i : Nat) (t : Tile) (x y : Int) : inBand (putTile p i t) x y = inBand p x y := by
  unfold inBand pw
  rw [putTile_count]

theorem tileIn_putTile_same {p : Part} {i : Nat} {t u : Tile} (h : tileIn p i = some t) :
    tileIn (putTile p i u) i = some u := by
  unfold tileIn at *
  rw [inBand_putTile]
  split
  · simp
  · split
    · simp
    · next h1 h2 => simp [h1, h2] at h

theorem tileIn_putTile_other (p : Part) (i j : Nat) (u : Tile) (h : j ≠ i) : tileIn (putTile p i u) j = tileIn p j := by
  simp only [tileIn, inBand_putTile, getTile_putTile_other p i j u h]

/-! ## The partition and the tile behind a place -/

theorem tileAt_part {s : State} {l : Loc} {p : Part} {t : Tile} (h : tileAt s l = some (p, t)) :
    ∃ q, getPart s l.band = some q ∧ tileIn q l.idx = some t ∧ t = getTile q l.idx ∧ p = { q with gcyc := cycOf q l.idx } := by
  unfold tileAt at h
  split at h
  · next q hq =>
    refine ⟨q, hq, ?_⟩
    unfold tileIn cycOf
    split at h
    · next hp => simp only [Option.some.injEq, Prod.mk.injEq] at h; simp [hp, ← h.1, ← h.2, cycOf]
    · next hp =>
      split at h
      · next hb => simp only [Option.some.injEq, Prod.mk.injEq] at h; simp [hp, hb, ← h.1, ← h.2]
      · simp at h
  · simp at h

/-- Looking at a place after its partition has changed in a way that keeps its tiles. -/
theorem tileOf_onPart_same {s : State} {b : Nat} (f : Part → Part) (l : Loc)
    (hf : ∀ p, getPart s b = some p → p.first = b ∧ SameTiles p (f p)) : tileOf (onPart s b f) l = tileOf s l := by
  rw [tileOf_eq, tileOf_eq]
  by_cases hb : l.band = b
  · rw [hb]
    cases hp : getPart s b with
    | none => simp [onPart, hp]
    | some p =>
      have h1 := hf p hp
      rw [getPart_onPart_same hp f (by rw [h1.2.first]; exact h1.1)]
      simp [tileIn_of_same h1.2]
  · rw [getPart_onPart_other f hb (fun p hp => by rw [(hf p hp).2.first]; exact (hf p hp).1)]

/-- A tile after it has been changed. -/
theorem tileOf_onTile_same {s : State} {l : Loc} {p : Part} {t : Tile} (f : Tile → Tile)
    (h : tileAt s l = some (p, t)) (hk : p.first = l.band) : tileOf (onTile s l f) l = some (f t) := by
  obtain ⟨q, hq, ht, he, hp⟩ := tileAt_part h
  rw [tileOf_eq]
  unfold onTile
  rw [getPart_onPart_same hq _ (by rw [modTile_first]; rw [hp] at hk; exact hk)]
  simp only [Option.bind_some, modTile]
  rw [tileIn_putTile_same ht, he]

/-- Another tile after a tile has been changed. -/
theorem tileOf_onTile_other {s : State} {l k : Loc} (f : Tile → Tile) (hkl : k ≠ l)
    (hk : ∀ p, getPart s l.band = some p → p.first = l.band) : tileOf (onTile s l f) k = tileOf s k := by
  rw [tileOf_eq, tileOf_eq]
  unfold onTile
  by_cases hb : k.band = l.band
  · rw [hb]
    cases hp : getPart s l.band with
    | none => simp [onPart, hp]
    | some p =>
      rw [getPart_onPart_same hp _ (by rw [modTile_first]; exact hk p hp)]
      simp only [Option.bind_some, modTile]
      rw [tileIn_putTile_other]
      intro he
      exact hkl (by cases k; cases l; simp_all)
  · rw [getPart_onPart_other _ hb (fun p hp => by rw [modTile_first]; exact hk p hp)]

/-- The partition behind a place after a tile of it has been changed. -/
theorem tileAt_onTile_same {s : State} {l : Loc} {p : Part} {t : Tile} (f : Tile → Tile)
    (h : tileAt s l = some (p, t)) (hk : p.first = l.band) (hs : (f t).skew = t.skew) :
    ∃ q, tileAt (onTile s l f) l = some (q, f t) ∧ q.gcyc = p.gcyc ∧ q.first = p.first ∧ q.rec_ = p.rec_ ∧ q.count = p.count := by
  obtain ⟨q, hq, ht, he, hp⟩ := tileAt_part h
  have hk' : q.first = l.band := by rw [hp] at hk; exact hk
  have hg : getPart (onTile s l f) l.band = some (modTile q l.idx f) := by
    unfold onTile; exact getPart_onPart_same hq _ (by rw [modTile_first]; exact hk')
  unfold tileAt at h ⊢
  rw [hg]
  rw [hq] at h
  simp only at h ⊢
  by_cases hb : poolBase ≤ l.idx
  · simp only [hb, if_true] at h ⊢
    simp only [Option.some.injEq, Prod.mk.injEq] at h
    refine ⟨{ modTile q l.idx f with gcyc := cycOf (modTile q l.idx f) l.idx }, by simp [modTile, he], ?_⟩
    subst hp; subst he
    simp [cycOf, hb, modTile, hs]
  · simp only [hb, if_false] at h ⊢
    have hin : inBand (modTile q l.idx f) (tx l.idx) (ty l.idx) = inBand q (tx l.idx) (ty l.idx) := by
      simp [modTile, inBand_putTile]
    rw [hin]
    split at h
    · next hi =>
      simp only [hi, if_true]
      refine ⟨modTile q l.idx f, by simp [modTile, he], ?_⟩
      simp [hp, cycOf, hb]
    · simp at h

end Sys2Proof.Machine
end

