-- ==== Sys2Proof/Laws/Slot.lean ====
section
/-! SUPPORT. What running a slot instruction does once its issue checks pass (R415), and what putting a
result in flight does (R257). -/

namespace Sys2Proof.Machine

/-! ## Nothing outside one tile changes -/

theorem OnlyTile.refl (s : State) (l : Loc) : OnlyTile s s l :=
  ⟨fun _ _ => rfl, rfl, rfl, rfl, ⟨rfl, rfl, rfl, rfl, rfl⟩, rfl, rfl, rfl⟩

theorem OnlyTile.trans {a b c : State} {l : Loc} (h : OnlyTile a b l) (k : OnlyTile b c l) : OnlyTile a c l :=
  ⟨fun x hx => (k.tiles x hx).trans (h.tiles x hx), k.dram.trans h.dram, k.host.trans h.host, k.ports.trans h.ports,
    ⟨k.hub.1.trans h.hub.1, k.hub.2.1.trans h.hub.2.1, k.hub.2.2.1.trans h.hub.2.2.1, k.hub.2.2.2.1.trans h.hub.2.2.2.1,
      k.hub.2.2.2.2.trans h.hub.2.2.2.2⟩, k.ring.trans h.ring, k.clock.trans h.clock, k.cur.trans h.cur⟩

theorem OnlyTile.onPart (s : State) (l : Loc) (f : Part → Part)
    (hf : ∀ p, getPart s l.band = some p → p.first = l.band ∧ SameTiles p (f p)) : OnlyTile s (onPart s l.band f) l :=
  ⟨fun k _ => tileOf_onPart_same f k hf, by simp, by simp, by simp, by simp, by simp, by simp, by simp⟩

theorem OnlyTile.onTile (s : State) (l : Loc) (f : Tile → Tile)
    (hk : ∀ p, getPart s l.band = some p → p.first = l.band) : OnlyTile s (onTile s l f) l :=
  ⟨fun _ hx => tileOf_onTile_other f hx hk, by simp, by simp, by simp, by simp, by simp, by simp, by simp⟩

theorem tileOf_nextSeq (s : State) (l : Loc) : tileOf (nextSeq s) l = tileOf s l := rfl

theorem OnlyTile.nextSeq (s : State) (l : Loc) : OnlyTile s (nextSeq s) l :=
  ⟨fun _ _ => rfl, rfl, rfl, rfl, ⟨rfl, rfl, rfl, rfl, rfl⟩, rfl, rfl, rfl⟩

theorem sameTiles_countAct (p : Part) (k n : Nat) : SameTiles p (countAct p k n) := ⟨rfl, rfl, rfl, rfl, rfl⟩
theorem sameTiles_performed (p : Part) : SameTiles p (performed p) := ⟨rfl, rfl, rfl, rfl, rfl⟩
theorem sameTiles_performedNext (p : Part) : SameTiles p (performedNext p) := ⟨rfl, rfl, rfl, rfl, rfl⟩

/-! ## The tile at a place, with the cycle it issues by -/

/-- A place shows a tile of a partition at a cycle. -/
structure Shows (s : State) (l : Loc) (g first : Nat) (t : Tile) : Prop where
  ex : ∃ q, tileAt s l = some (q, t) ∧ q.gcyc = g ∧ q.first = first

theorem Shows.tile {s : State} {l : Loc} {g first : Nat} {t : Tile} (h : Shows s l g first t) : tileOf s l = some t := by
  obtain ⟨q, hq, _, _⟩ := h.ex; exact tileOf_of_tileAt hq

theorem Shows.part {s : State} {l : Loc} {g first : Nat} {t : Tile} (h : Shows s l g first t) :
    ∀ p, getPart s l.band = some p → p.first = first := by
  obtain ⟨q, hq, _, hf⟩ := h.ex
  obtain ⟨r, hr, _, _, he⟩ := tileAt_part hq
  intro p hp
  rw [hr] at hp
  simp only [Option.some.injEq] at hp
  rw [← hp, ← hf, he]

theorem Shows.onTile {s : State} {l : Loc} {g : Nat} {t : Tile} (h : Shows s l g l.band t) (f : Tile → Tile)
    (hs : (f t).skew = t.skew) : Shows (onTile s l f) l g l.band (f t) := by
  obtain ⟨q, hq, hg, hf⟩ := h.ex
  obtain ⟨r, hr, hg', hf', _, _⟩ := tileAt_onTile_same f hq hf hs
  exact ⟨r, hr, hg'.trans hg, hf'.trans hf⟩

theorem Shows.onPart {s : State} {l : Loc} {g : Nat} {t : Tile} (h : Shows s l g l.band t) (f : Part → Part)
    (hf : ∀ p, SameTiles p (f p)) (hg : ∀ p, (f p).gcyc = p.gcyc) : Shows (onPart s l.band f) l g l.band t := by
  obtain ⟨q, hq, hgc, hfi⟩ := h.ex
  obtain ⟨r, hr, ht, he, hp⟩ := tileAt_part hq
  have hrf : r.first = l.band := by rw [hp] at hfi; exact hfi
  have hgp : getPart (Machine.onPart s l.band f) l.band = some (f r) :=
    getPart_onPart_same hr f (by rw [(hf r).first]; exact hrf)
  unfold tileAt at hq
  rw [hr] at hq
  have hgt : getTile (f r) l.idx = getTile r l.idx := by simp only [getTile, (hf r).tiles, (hf r).pool, (hf r).rec_]
  have hib : ∀ x y, inBand (f r) x y = inBand r x y := by intro x y; unfold inBand pw; rw [(hf r).count]
  refine ⟨⟨{ f r with gcyc := cycOf (f r) l.idx }, ?_, ?_, ?_⟩⟩
  · unfold tileAt
    rw [hgp]
    simp only [hgt, hib] at hq ⊢
    split at hq
    · next hb => simp only [hb, if_true]; simp at hq; simp [hq.2]
    · next hb =>
      split at hq
      · next hi => simp at hq; simp [hb, hi, cycOf, hq.2]
      · simp at hq
  · rw [← hgc, hp]; simp [cycOf, hgt, hg]
  · simp [(hf r).first, hrf]

theorem Ready.shows {s : State} {p : Part} {t : Tile} {gu : Guard} {codes : List Nat} (h : Ready s p t gu codes) :
    Shows s s.cur p.gcyc s.cur.band t := ⟨⟨p, h.here, rfl, h.keyed⟩⟩

/-! ## The scoreboard -/

theorem lateDetail_none {t : Tile} {g : Nat} {codes : List Nat} (h : ∀ c ∈ codes, isLate t g c = false) :
    lateDetail t g codes = none := by
  unfold lateDetail
  have : codes.find? (fun c => isLate t g c) = none := List.find?_eq_none.2 (fun c hc => by simp [h c hc])
  simp [this]

theorem regBad_none {t : Tile} {codes : List Nat} (h : ∀ c ∈ codes, smem t.regErr c = false) : regBad t codes = none := by
  unfold regBad
  have : codes.find? (fun c => smem t.regErr c) = none := List.find?_eq_none.2 (fun c hc => by simp [h c hc])
  simp [this]

/-! ## Running a slot -/

/-- The tile as an instruction that runs leaves it before its effect: what its reads marked, the banks it
used, and whether an open audit unit is still closed. -/
def enterTile (t : Tile) (r : Req) : Tile :=
  let is := (localScan t (issueOf t r.sl) (slotNum r.sl) r.lines).1
  let t1 := if t.seq.issue.isSome then
    { t with seq := { t.seq with issue := some { is with
        ranCp := is.ranCp || r.opens || r.sl == .cp, was := if r.sl == .st then is.was ++ lineContents t r.lines else is.was } } } else t
  let t2 := auditMem (markReads t1 r.mreads) (r.mreads ++ r.auReads) r.auWrites
  if r.opens || r.sl == .cp then auditOpen t2 else t2

/-- What a state is when an instruction's effect begins. -/
structure Entered (s u : State) (p : Part) (t : Tile) : Prop where
  shows : Shows u s.cur p.gcyc s.cur.band t
  only : OnlyTile s u s.cur
  seqNo : u.seqNo = s.seqNo
  freeCtr : u.freeCtr = s.freeCtr
  agenda : u.agenda = s.agenda
  outbox : u.outbox = s.outbox

theorem markRead_skew (t : Tile) (gr : Nat) : (markRead t gr).skew = t.skew := by unfold markRead; (repeat' split) <;> rfl

theorem foldl_inv {α β γ : Type} (f : α → β → α) (g : α → γ) (h : ∀ a b, g (f a b) = g a) (l : List β) (a : α) :
    g (l.foldl f a) = g a := by
  induction l generalizing a with
  | nil => rfl
  | cons x r ih => simp [ih, h]

theorem markReads_inv {γ : Type} (g : Tile → γ) (h : ∀ t gr, g (markRead t gr) = g t) (t : Tile) (rs : List (Nat × Nat)) :
    g (markReads t rs) = g t := by
  unfold markReads; exact foldl_inv _ g (fun t a => h t (a / 8)) _ t

theorem auditMem_inv {γ : Type} (g : Tile → γ) (h : ∀ t u, g { t with unit := u } = g t) (t : Tile) (r w : List (Nat × Nat)) :
    g (auditMem t r w) = g t := by
  unfold auditMem
  split
  · rfl
  · split
    · exact h _ _
    · rfl

/-- Anything that neither marks on granules, nor the issue record, nor the open audit unit can change. -/
theorem enterTile_inv {γ : Type} (g : Tile → γ) (hm : ∀ t gr, g (markRead t gr) = g t) (hu : ∀ t u, g { t with unit := u } = g t)
    (hi : ∀ (t : Tile) is, g { t with seq := { t.seq with issue := is } } = g t) (t : Tile) (r : Req) : g (enterTile t r) = g t := by
  unfold enterTile
  simp only
  have h1 : ∀ (t1 : Tile), g (auditMem (markReads t1 r.mreads) (r.mreads ++ r.auReads) r.auWrites) = g t1 := fun t1 =>
    (auditMem_inv g hu _ _ _).trans (markReads_inv g hm _ _)
  have h2 : ∀ is, g (if t.seq.issue.isSome then { t with seq := { t.seq with issue := is } } else t) = g t := by
    intro is; split
    · exact hi t _
    · rfl
  split
  · unfold auditOpen; rw [hu, h1]; exact h2 _
  · rw [h1]; exact h2 _

theorem enterTile_skew (t : Tile) (r : Req) : (enterTile t r).skew = t.skew :=
  enterTile_inv Tile.skew markRead_skew (fun _ _ => rfl) (fun _ _ => rfl) t r

theorem enterTile_flight (t : Tile) (r : Req) : (enterTile t r).flight = t.flight :=
  enterTile_inv Tile.flight (fun t gr => by unfold markRead; (repeat' split) <;> rfl) (fun _ _ => rfl) (fun _ _ => rfl) t r

theorem enterTile_lfsr (t : Tile) (r : Req) : (enterTile t r).lfsr = t.lfsr :=
  enterTile_inv Tile.lfsr (fun t gr => by unfold markRead; (repeat' split) <;> rfl) (fun _ _ => rfl) (fun _ _ => rfl) t r

theorem enterTile_regs (t : Tile) (r : Req) : SameRegs t (enterTile t r) := by
  have h : ∀ {γ : Type} (g : Tile → γ), (∀ t gr, g (markRead t gr) = g t) → (∀ t u, g { t with unit := u } = g t) →
      (∀ (t : Tile) is, g { t with seq := { t.seq with issue := is } } = g t) → g (enterTile t r) = g t :=
    fun g a b c => enterTile_inv g a b c t r
  constructor <;> first
    | exact h _ (fun t gr => by unfold markRead; (repeat' split) <;> rfl) (fun _ _ => rfl) (fun _ _ => rfl)
    | (refine ⟨?_, ?_, ?_⟩ <;> exact h _ (fun t gr => by unfold markRead; (repeat' split) <;> rfl) (fun _ _ => rfl) (fun _ _ => rfl))
    | (refine ⟨?_, ?_, ?_, ?_⟩ <;> exact h _ (fun t gr => by unfold markRead; (repeat' split) <;> rfl) (fun _ _ => rfl) (fun _ _ => rfl))

theorem enterTile_event (t : Tile) (r : Req) : SameEvent t (enterTile t r) := by
  constructor <;> exact enterTile_inv _ (fun t gr => by unfold markRead; (repeat' split) <;> rfl) (fun _ _ => rfl) (fun _ _ => rfl) t r

theorem enterTile_mem (t : Tile) (r : Req) : SameMem t (enterTile t r) := by
  constructor <;> exact enterTile_inv _ (fun t gr => by unfold markRead; (repeat' split) <;> rfl) (fun _ _ => rfl) (fun _ _ => rfl) t r

/-- An instruction that reads no memory, uses no bank and leaves an audit unit alone leaves its tile alone
until its effect. -/
theorem enterTile_plain (t : Tile) (r : Req) (hl : r.lines = []) (hm : r.mreads = []) (ha : r.auReads = []) (hw : r.auWrites = [])
    (ho : r.opens = false) (hc : (r.sl == .cp) = false) : enterTile t r = t := by
  have h1 : (if t.seq.issue.isSome then
      { t with seq := { t.seq with issue := some { issueOf t r.sl with ranCp := (issueOf t r.sl).ranCp } } } else t) = t := by
    cases h : t.seq.issue with
    | none => simp
    | some is => simp [issueOf, h]; rw [← h]
  have h2 : ∀ u : Tile, auditMem (markReads u []) [] [] = u := by
    intro u
    simp only [markReads, List.flatMap_nil, List.foldl_nil, auditMem, List.all_nil]
    split
    · rfl
    · split
      · next h => simp at h
      · rfl
  unfold enterTile
  simp only [hl, hm, ha, hw, ho, hc, localScan, lineContents, List.flatMap_nil, Bool.or_false, List.append_nil, ite_self, h1, h2]
  simp

/-- The checks of R415 pass for a request. -/
structure Passes (i : Instr) (p : Part) (t : Tile) (r : Req) : Prop where
  enc : encFault i = none
  check : r.check = none
  scale : r.scale = none
  guard : guardTrue t r.gu = true
  timely : ∀ c ∈ guardReads r.gu ++ r.reads, isLate t p.gcyc c = false
  mxBad : r.mxBad = none
  busy : r.busy = none
  refuse : r.refuse = none
  watch : stWatch t (issueOf t r.sl) r.watch = []
  banks : (localScan t (issueOf t r.sl) (slotNum r.sl) r.lines).2 = none
  clean : consumed t r.mreads = none
  sound : ∀ c ∈ guardReads r.gu ++ r.reads, smem t.regErr c = false
  zsound : r.zreads.any (smem t.zErr) = false

/-- R415: an instruction whose checks pass has its effect. -/
theorem runSlot_passes {i : Instr} {req : Part → Tile → Req} {eff : Part → Tile → State → State} {s : State} {p : Part} {t : Tile}
    (here : tileAt s s.cur = some (p, t)) (keyed : p.first = s.cur.band) (h : Passes i p t (req p t)) :
    ∃ u, runSlot i req eff s = .next (eff p t u) ∧ Entered s u p (enterTile t (req p t)) := by
  have hsh : Shows s s.cur p.gcyc s.cur.band t := ⟨⟨p, here, rfl, keyed⟩⟩
  refine ⟨onPart (onTile s s.cur (fun _ => enterTile t (req p t))) s.cur.band (fun p' => countAct p' 8 (req p t).lines.length), ?_, ?_⟩
  · have hsb : sbDetail t p.gcyc (req p t) true = none := by
      simp [sbDetail, firstSome, lateDetail_none h.timely, h.mxBad, h.busy]
    obtain ⟨is, his⟩ : ∃ is, localScan t (issueOf t (req p t).sl) (slotNum (req p t).sl) (req p t).lines = (is, none) :=
      ⟨(localScan t (issueOf t (req p t).sl) (slotNum (req p t).sl) (req p t).lines).1, by rw [← h.banks]⟩
    have hfin : onTile s s.cur (fun t => enterTile t (req p t)) = onTile s s.cur (fun _ => enterTile t (req p t)) := by
      obtain ⟨q, hq, _, he, _⟩ := tileAt_part here
      simp only [onTile, onPart_eq hq, modTile, ← he]
    unfold runSlot
    simp only [here, h.enc, h.check, h.scale, h.guard, hsb, if_true, firstSome, List.findSome?_cons, List.findSome?_nil, id]
    unfold runTail
    simp only [h.refuse, h.watch, his, h.clean, firstSome, regBad_none h.sound, h.zsound, List.findSome?_cons, List.findSome?_nil, id]
    rw [← hfin]
    obtain ⟨q, hq, _, he, _⟩ := tileAt_part here
    simp only [onTile, onPart_eq hq, modTile, ← he, enterTile, his]
    rfl
  · have h1 := hsh.onTile (fun _ => enterTile t (req p t)) (enterTile_skew t _)
    have hf : ∀ q, getPart s s.cur.band = some q → q.first = s.cur.band := hsh.part
    refine ⟨?_, ?_, by simp, by simp, by simp, by simp⟩
    · exact h1.onPart _ (fun q => sameTiles_countAct q 8 _) (fun _ => rfl)
    · refine OnlyTile.trans (OnlyTile.onTile s s.cur (fun _ => enterTile t (req p t)) hf) ?_
      have := OnlyTile.onPart (onTile s s.cur (fun _ => enterTile t (req p t))) s.cur (fun p' => countAct p' 8 (req p t).lines.length)
        (fun q hq => ⟨h1.part q hq, sameTiles_countAct q 8 _⟩)
      exact this

/-! ## Results in flight -/

/-- R257: putting a result in flight adds one landing to the tile and changes nothing else. -/
theorem result_flies {s u : State} {p : Part} {t : Tile} (h : Entered s u p t) (sl : Slot) (lat : Nat) (d : Dest) (f : Flags) :
    tileOf (result u sl lat d f) s.cur = some (fly t (landingOf s p sl lat d f)) ∧ OnlyTile s (result u sl lat d f) s.cur := by
  have hcur : u.cur = s.cur := h.only.cur
  obtain ⟨q, hq, hg, hf⟩ := h.shows.ex
  obtain ⟨r, hr, _, he, hp⟩ := tileAt_part hq
  have hn : tileAt (nextSeq u) (nextSeq u).cur = some (q, t) := by
    simp only [nextSeq_cur, hcur]; exact hq
  have hrc : cycOf r s.cur.idx = p.gcyc := by rw [← hg, hp]
  have hres : result u sl lat d f = onTile (nextSeq u) s.cur (fun _ => fly t (landingOf s p sl lat d f)) := by
    unfold result onTile onPart
    simp only [hcur]
    have hr' : getPart (nextSeq u) s.cur.band = some r := hr
    simp only [hr, hr', modTile, ← he, hrc, h.seqNo, landingOf]
  have hsn : Shows (nextSeq u) s.cur p.gcyc s.cur.band t := ⟨⟨q, hq, hg, hf⟩⟩
  refine ⟨?_, ?_⟩
  · rw [hres]; exact (hsn.onTile (fun _ => fly t (landingOf s p sl lat d f)) rfl).tile
  · rw [hres]
    exact h.only.trans ((OnlyTile.nextSeq u s.cur).trans (OnlyTile.onTile _ s.cur _ hsn.part))

/-- A request that R415 passes as soon as its registers are ready: it touches no memory and no unit. -/
def plainReq (sl : Slot) (gu : Guard) (reads : List Nat) : Req := { sl := sl, gu := gu, reads := reads }

theorem wellFormed_enc {i : Instr} (h : WellFormed i) (hu : ∀ sl op, i ≠ .unassignedOpcode sl op) : encFault i = none := by
  unfold WellFormed wellFormed at h
  cases i <;> simp_all

theorem Ready.passes {i : Instr} {s : State} {p : Part} {t : Tile} {gu : Guard} {codes reads : List Nat} {sl : Slot}
    (h : Ready s p t gu codes) (he : encFault i = none) (hs : ∀ c ∈ reads, c ∈ codes) : Passes i p t (plainReq sl gu reads) where
  enc := he
  check := rfl
  scale := rfl
  guard := h.guard
  timely c hc := h.timely c (by
    simp only [plainReq, List.mem_append] at hc ⊢
    exact hc.elim Or.inl (fun x => Or.inr (hs c x)))
  mxBad := rfl
  busy := rfl
  refuse := rfl
  watch := rfl
  banks := rfl
  clean := by simp [plainReq, consumed]
  sound c hc := h.sound c (by
    simp only [plainReq, List.mem_append] at hc ⊢
    exact hc.elim Or.inl (fun x => Or.inr (hs c x)))
  zsound := rfl

/-- R257, R415: a plain instruction that is ready puts its result in flight. -/
theorem plain_flies {i : Instr} {s : State} {p : Part} {t : Tile} {gu : Guard} {codes reads : List Nat} {sl : Slot} {lat : Nat}
    {d : Tile → Dest} {f : Flags} {req : Part → Tile → Req} (h : Ready s p t gu codes)
    (hx : exec i s = runSlot i req (fun _ t s => result s sl lat (d t) f) s)
    (hq : req p t = plainReq sl gu reads) (he : encFault i = none) (hs : ∀ c ∈ reads, c ∈ codes) (hc : (sl == .cp) = false) :
    PutsInFlight i s t (landingOf s p sl lat (d t) f) := by
  obtain ⟨u, hu, hen⟩ := runSlot_passes (i := i) (eff := fun _ t s => result s sl lat (d t) f) (req := req) h.here h.keyed
    (by rw [hq]; exact h.passes he hs)
  rw [hq, enterTile_plain t _ rfl rfl rfl rfl rfl hc] at hen
  have := result_flies hen sl lat (d t) f
  exact ⟨_, hx.trans hu, this.1, this.2⟩

end Sys2Proof.Machine
end

