-- ==== Sys2Proof/Laws/Memory.lean ====
section
/-! SUPPORT. Laws of vector elements and of memory: element reads of built vectors, reads after writes, and
the canonical form of every memory operation. -/

namespace Sys2Proof.Machine

/-! ## Elements (R12) -/

theorem field_zero (x w : Nat) : field x 0 w = x % 2 ^ w := by simp [field]

theorem field_packElems {w : Nat} (es : List Nat) (i : Nat) (hi : i < es.length) :
    field (packElems w es) (w * i) w = es.getD i 0 % 2 ^ w := by
  induction es generalizing i with
  | nil => simp at hi
  | cons e r ih =>
    cases i with
    | zero =>
      simp only [packElems, field, Nat.mul_zero, Nat.shiftRight_zero, List.getD_cons_zero]
      rw [Nat.add_mod, Nat.mul_mod_right, Nat.add_zero, Nat.mod_mod, Nat.mod_mod]
    | succ k =>
      simp only [List.length_cons] at hi
      have := ih k (by omega)
      simp only [packElems, field, List.getD_cons_succ, Nat.shiftRight_eq_div_pow] at this ⊢
      rw [← this]
      have h1 : 2 ^ (w * (k + 1)) = 2 ^ w * 2 ^ (w * k) := by rw [Nat.mul_succ, Nat.pow_add, Nat.mul_comm]
      rw [h1, ← Nat.div_div_eq_div_mul, Nat.add_mul_div_left _ _ (Nat.two_pow_pos w),
        Nat.div_eq_of_lt (Nat.mod_lt _ (Nat.two_pow_pos w)), Nat.zero_add]

theorem packElems_lt {w : Nat} (es : List Nat) : packElems w es < 2 ^ (w * es.length) := by
  induction es with
  | nil => simp [packElems]
  | cons e r ih =>
    simp only [packElems, List.length_cons, Nat.mul_succ, Nat.pow_add]
    have h1 := Nat.mod_lt e (Nat.two_pow_pos w)
    have h2 : 2 ^ w * packElems w r + 2 ^ w ≤ 2 ^ (w * r.length) * 2 ^ w := by
      have := Nat.mul_le_mul_right (2 ^ w) ih
      rw [Nat.succ_mul] at this
      rw [Nat.mul_comm (2 ^ w)]
      exact this
    omega

/-- R12: an element of a vector built from its elements. -/
theorem elem_lineOf {w : Nat} (es : List Nat) (i : Nat) (hi : i < es.length) (hw : w * es.length ≤ 128) :
    elem w (lineOf w es) i = es.getD i 0 % 2 ^ w := by
  unfold elem lineOf
  rw [BitVec.toNat_ofNat, Nat.mod_eq_of_lt, field_packElems es i hi]
  exact Nat.lt_of_lt_of_le (packElems_lt es) (Nat.pow_le_pow_right (by omega) hw)

theorem elem_lineOf_map {w n : Nat} (f : Nat → Nat) (i : Nat) (hi : i < n) (hw : w * n ≤ 128) :
    elem w (lineOf w ((upto n).map f)) i = f i % 2 ^ w := by
  rw [elem_lineOf _ i (by simpa [upto] using hi) (by simpa [upto] using hw)]
  simp [upto, hi]

/-! ## The canonical form (R34) -/

theorem memWf_sorted {m : SMap Byte} (h : memWf m = true) : msorted m = true := (mwf_iff.1 h).1

theorem memWf_mset {m : SMap Byte} (a : Nat) (b : Byte) (h : memWf m = true) : memWf (mset 0 m a b) = true := mwf_mset a b h

theorem memWf_storeBytes {m : SMap Byte} (a : Nat) (bs : List Byte) (h : memWf m = true) : memWf (storeBytes m a bs) = true := by
  induction bs generalizing m a with
  | nil => exact h
  | cons b r ih => exact ih (a + 1) (memWf_mset a b h)

theorem foldl_keeps {α β : Type} (P : α → Prop) (f : α → β → α) (h : ∀ a b, P a → P (f a b)) (l : List β) (a : α) (ha : P a) :
    P (l.foldl f a) := by
  induction l generalizing a with
  | nil => exact ha
  | cons x r ih => exact ih _ (h _ _ ha)

theorem noteWrite_sram (t : Tile) (a : Nat) : (noteWrite t a).sram = t.sram := by
  simp only [noteWrite]; split <;> split <;> split <;> rfl

theorem cleanGran_sram (t : Tile) (g : Nat) : (cleanGran t g).sram = t.sram := rfl

theorem memWf_writeBytes {t : Tile} (a : Nat) (bs : List Byte) (h : memWf t.sram = true) :
    memWf (writeBytes t a bs).sram = true := by
  have h1 : memWf (storeBytes (noteWrite t a).sram a bs) = true := memWf_storeBytes a bs (by rw [noteWrite_sram]; exact h)
  unfold writeBytes
  simp only
  split <;> split <;> exact h1

theorem writeMasked_sram (t : Tile) (line : Nat) (x : Line) (mask : BitVec 16) :
    (writeMasked t line x mask).sram = ((upto 16).foldl (fun a i =>
      if mask.getLsbD i then mset 0 a (line + i) (BitVec.ofNat 8 (elem 8 x i)) else a) t.sram) := by
  have h : ∀ (l : List Nat) (u : Tile), (l.foldl (fun a i =>
      if mask.getLsbD i then { a with sram := mset 0 a.sram (line + i) (BitVec.ofNat 8 (elem 8 x i)) } else a) u).sram =
      l.foldl (fun a i => if mask.getLsbD i then mset 0 a (line + i) (BitVec.ofNat 8 (elem 8 x i)) else a) u.sram := by
    intro l
    induction l with
    | nil => intro u; rfl
    | cons k r ih =>
      intro u
      simp only [List.foldl_cons]
      rw [ih]
      split <;> rfl
  have h0 : (if mask = 0 then t else noteWrite t line).sram = t.sram := by
    split
    · rfl
    · exact noteWrite_sram t line
  unfold writeMasked
  simp only
  split <;> split <;> simp only [cleanGran_sram, h, h0]

theorem memWf_writeMasked {t : Tile} (line : Nat) (x : Line) (mask : BitVec 16) (h : memWf t.sram = true) :
    memWf (writeMasked t line x mask).sram = true := by
  rw [writeMasked_sram]
  exact foldl_keeps (fun m => memWf m = true) _ (fun a i ha => by
    split
    · exact memWf_mset _ _ ha
    · exact ha) _ _ h

theorem setPoison_sram (t : Tile) (g : Nat) (b : Bool) : (setPoison t g b).sram = t.sram := by
  unfold setPoison; split <;> rfl

theorem memWf_writeLine {t : Tile} (line : Nat) (x : Line) (po : Nat) (h : memWf t.sram = true) :
    memWf (writeLine t line x po).sram = true := by
  unfold writeLine
  simp only [setPoison_sram]
  exact memWf_writeMasked line x _ h

theorem memWf_storeAll {t : Tile} (es : List StoreEl) (h : memWf t.sram = true) : memWf (storeAll t es).sram = true :=
  foldl_keeps (fun t : Tile => memWf t.sram = true) _ (fun _ _ ha => memWf_writeMasked _ _ _ ha) _ _ h

theorem memWf_hostPut {s : State} (a : Nat) (bs : List Byte) (h : memWf s.hostMem = true) :
    memWf (hostPut s a bs).hostMem = true := memWf_storeBytes a bs h

/-- Writing the addresses that a test names keeps memory's canonical form. -/
theorem memWf_blit {m : SMap Byte} (covers : Nat → Bool) (cells : SMap Byte) (h : memWf m = true) : memWf (blit m covers cells) = true := by
  have h0 : memWf (m.filter (fun e => !covers e.1)) = true := by
    have hm := mwf_iff.1 h
    refine mwf_iff.2 ⟨msorted_filter _ hm.1, fun e he => hm.2 e (List.mem_filter.1 he).1⟩
  unfold blit
  induction cells with
  | nil => exact h0
  | cons e r ih =>
    simp only [List.foldr_cons]
    split
    · exact memWf_mset _ _ ih
    · exact ih

/-- It leaves every other byte. -/
theorem mget_blit_other {m : SMap Byte} {covers : Nat → Bool} (cells : SMap Byte) {a : Nat} (h : memWf m = true) (ha : covers a = false) :
    mget 0 (blit m covers cells) a = mget 0 m a := by
  have wf : ∀ l : SMap Byte, memWf (blit m covers l) = true := fun l => memWf_blit covers l h
  unfold blit at wf ⊢
  induction cells with
  | nil => simp [mget, mfind_filter (fun k => !covers k) a (memWf_sorted h), ha]
  | cons e r ih =>
    simp only [List.foldr_cons]
    split
    · rename_i he
      rw [mget_mset_other _ _ _ (fun h => by rw [h] at ha; simp [ha] at he) (memWf_sorted (wf r)), ih]
    · exact ih

theorem memWf_storeDram {s : State} (a : Nat) (bs : List Byte) (h : memWf s.dram = true) :
    memWf (storeDram s a bs).dram = true := memWf_storeBytes a bs h

/-! ## Read after write -/

/-- A byte after bytes have been stored: the byte stored there, or the one before. -/
theorem mget_storeBytes {m : SMap Byte} (a : Nat) (bs : List Byte) (k : Nat) (h : memWf m = true) :
    mget 0 (storeBytes m a bs) k = if a ≤ k ∧ k < a + bs.length then bs.getD (k - a) 0 else mget 0 m k := by
  induction bs generalizing m a with
  | nil => simp only [storeBytes, List.length_nil]; rw [if_neg (by omega)]
  | cons b r ih =>
    simp only [storeBytes, List.length_cons]
    rw [ih (a + 1) (memWf_mset a b h)]
    by_cases hk : k = a
    · subst hk
      rw [if_neg (by omega), if_pos (by omega), mget_mset_same k b (memWf_sorted h)]
      simp
    · rw [mget_mset_other a k b hk (memWf_sorted h)]
      by_cases hr : a + 1 ≤ k ∧ k < a + 1 + r.length
      · rw [if_pos hr, if_pos (by omega)]
        obtain ⟨j, rfl⟩ : ∃ j, k = a + 1 + j := ⟨k - (a + 1), by omega⟩
        have h1 : a + 1 + j - a = j + 1 := by omega
        simp [h1]
      · rw [if_neg hr, if_neg (by omega)]

/-- A byte after lanes of a line have been written: the new byte in a lane of the mask, or the one before. -/
theorem mget_writeMasked {t : Tile} (line : Nat) (x : Line) (mask : BitVec 16) (k : Nat) (h : memWf t.sram = true) :
    mget 0 (writeMasked t line x mask).sram k =
      if line ≤ k ∧ k < line + 16 ∧ mask.getLsbD (k - line) = true then BitVec.ofNat 8 (elem 8 x (k - line)) else mget 0 t.sram k := by
  rw [writeMasked_sram]
  have hall : ∀ n, n ≤ 16 → ∀ m : SMap Byte, memWf m = true →
      memWf ((List.range n).foldl (fun a i => if mask.getLsbD i then mset 0 a (line + i) (BitVec.ofNat 8 (elem 8 x i)) else a) m) = true ∧
      mget 0 ((List.range n).foldl (fun a i => if mask.getLsbD i then mset 0 a (line + i) (BitVec.ofNat 8 (elem 8 x i)) else a) m) k =
        if line ≤ k ∧ k < line + n ∧ mask.getLsbD (k - line) = true then BitVec.ofNat 8 (elem 8 x (k - line)) else mget 0 m k := by
    intro n hn m hm
    induction n with
    | zero => refine ⟨hm, ?_⟩; simp only [List.range_zero, List.foldl_nil]; rw [if_neg (by omega)]
    | succ n ih =>
      obtain ⟨h1, h2⟩ := ih (by omega)
      rw [List.range_succ, List.foldl_append]
      simp only [List.foldl_cons, List.foldl_nil]
      by_cases hb : mask.getLsbD n = true
      · rw [if_pos hb]
        refine ⟨memWf_mset _ _ h1, ?_⟩
        by_cases hk : k = line + n
        · subst hk
          rw [mget_mset_same _ _ (memWf_sorted h1), if_pos ⟨by omega, by omega, by rwa [Nat.add_sub_cancel_left]⟩]
          rw [Nat.add_sub_cancel_left]
        · rw [mget_mset_other _ _ _ hk (memWf_sorted h1), h2]
          by_cases hr : line ≤ k ∧ k < line + n ∧ mask.getLsbD (k - line) = true
          · rw [if_pos hr, if_pos ⟨hr.1, by omega, hr.2.2⟩]
          · rw [if_neg hr, if_neg (fun hc => hr ⟨hc.1, by omega, hc.2.2⟩)]
      · rw [if_neg hb]
        refine ⟨h1, ?_⟩
        rw [h2]
        by_cases hr : line ≤ k ∧ k < line + n ∧ mask.getLsbD (k - line) = true
        · rw [if_pos hr, if_pos ⟨hr.1, by omega, hr.2.2⟩]
        · rw [if_neg hr, if_neg]
          intro hc
          by_cases hk : k = line + n
          · subst hk; rw [Nat.add_sub_cancel_left] at hc; exact hb hc.2.2
          · exact hr ⟨hc.1, by omega, hc.2.2⟩
  exact (hall 16 (by omega) t.sram h).2

end Sys2Proof.Machine
end

