-- ==== Sys2Proof/Laws/Hub.lean ====
section
/-! SUPPORT. What the shared operations of the ports and the hub can do: a message leaves or is carried back (R306), a
change waits for its journal entry (R391), and what an edge brings leaves the launches and the memories as they are. -/

namespace Sys2Proof.Machine

/-! ## Messages (R306) -/

theorem emit_out {s : State} {m : OutMsg} (h : loopStep s m = none) : emit s m = sendOut s m := by simp [emit, h]

theorem emit_loop {s : State} {m : OutMsg} {i : Instr} (h : loopStep s m = some i) :
    emit s m = { s with inputs := s.inputs ++ [(s.edge + 1 + Config.loopEdges s.freeCtr, i)], freeCtr := s.freeCtr + 1 } := by
  simp [emit, h]

theorem loopStep_put_away {s : State} {k cls asid pa n xid : Nat} {d : List Byte} (h : paModule pa ≠ s.moduleId) :
    loopStep s (.put k cls asid pa n xid d) = none := by simp [loopStep, h]

theorem loopStep_get_away {s : State} {k cls asid pa n xid : Nat} (h : paModule pa ≠ s.moduleId) :
    loopStep s (.get k cls asid pa n xid) = none := by simp [loopStep, h]

theorem loopStep_ack_away {s : State} {k dst xid : Nat} (h : dst ≠ s.moduleId) : loopStep s (.ack k dst xid) = none := by
  simp [loopStep, h]

theorem loopStep_reply_away {s : State} {k dst xid : Nat} {d : List Byte} (h : dst ≠ s.moduleId) :
    loopStep s (.reply k dst xid d) = none := by
  have hb : (dst == s.moduleId) = false := by simpa using h
  simp [loopStep, hb]

/-- A message changes nothing but what has been sent, what is to come, and the number of values drawn. -/
theorem emit_frame (s : State) (m : OutMsg) :
    (emit s m).parts = s.parts ∧ (emit s m).ports = s.ports ∧ (emit s m).dram = s.dram ∧ (emit s m).hostMem = s.hostMem ∧
    (emit s m).ctxs = s.ctxs := by
  unfold emit
  split <;> exact ⟨rfl, rfl, rfl, rfl, rfl⟩

/-! ## The journal (R391) -/

theorem journaled_intends {s : State} {w : JWhat} {f : State → State} (h : hasIntent s w = false) :
    journaled s w f = intend s w := by simp [journaled, h]

theorem journaled_acts {s : State} {w : JWhat} {f : State → State} (h : hasIntent s w = true) :
    journaled s w f = f (commit s w) := by simp [journaled, h]

theorem journaledBy_intends {s : State} {w : JWhat} {i : Instr} {f : State → State} (h : hasIntent s w = false) :
    journaledBy s w i f = again (intend s w) i := by simp [journaledBy, h]

theorem journaledBy_acts {s : State} {w : JWhat} {i : Instr} {f : State → State} (h : hasIntent s w = true) :
    journaledBy s w i f = f (commit s w) := by simp [journaledBy, h]

/-- An entry that has been written is an intent. -/
theorem hasIntent_intend (s : State) (w : JWhat) : hasIntent (intend s w) w = true := by
  simp [hasIntent, intend]

/-- An entry with its commit word is an intent no longer. -/
theorem hasIntent_commit (s : State) (w : JWhat) : hasIntent (commit s w) w = false := by
  simp [hasIntent, commit]
  intro e _ h
  split at h <;> simp_all

/-! ## An edge -/

/-- Charging a launch leaves the launches' tiles and the memories. -/
theorem chargeCtx_frame (s : State) (c : Ctx) (e : Nat) :
    (chargeCtx s c e).parts = s.parts ∧ (chargeCtx s c e).dram = s.dram ∧ (chargeCtx s c e).hostMem = s.hostMem := ⟨rfl, rfl, rfl⟩

theorem idleEnergy_frame (s : State) :
    (idleEnergy s).parts = s.parts ∧ (idleEnergy s).dram = s.dram ∧ (idleEnergy s).hostMem = s.hostMem := by
  have fold : ∀ (l : List Ctx) (u : State), u.parts = s.parts ∧ u.dram = s.dram ∧ u.hostMem = s.hostMem →
      let v := l.foldl (fun s c => chargeCtx s c (coef s 0 * c.rec_.count)) u
      v.parts = s.parts ∧ v.dram = s.dram ∧ v.hostMem = s.hostMem := by
    intro l
    induction l with
    | nil => exact fun u h => h
    | cons c r ih => exact fun u h => ih _ h
  unfold idleEnergy
  split
  · have h := fold (comingCtxs s) s ⟨rfl, rfl, rfl⟩
    dsimp only at h ⊢
    split <;> exact h
  · exact ⟨rfl, rfl, rfl⟩

/-- The record of a dump keeps the canonical form of host memory. -/
theorem putDump_host (s : State) (p : Part) (a : DumpAsk) (d : TileDump) (h : memWf s.hostMem = true) :
    memWf (putDump s p a d).hostMem = true := by
  have w := memWf_blit (fun x => decide (a.addr ≤ x) && dumpWrites p d (x - a.addr)) (dumpCells a.addr p d) h
  unfold putDump
  exact w

/-- An image changes no byte of DRAM outside its save area, and keeps DRAM's canonical form (R359, R360). -/
theorem writeImage_frame {m : SMap Byte} (p : Part) (ports : SMap Port) (row : Option Nat) (h : memWf m = true) :
    memWf (writeImage m p ports row) = true ∧
    ∀ a, (∀ r, row = some r → saveOff p r a = none) → mget 0 (writeImage m p ports row) a = mget 0 m a := by
  cases row with
  | none => exact ⟨h, fun _ _ => rfl⟩
  | some r => exact ⟨memWf_blit _ _ h, fun a ha => mget_blit_other _ h (by simp [saveWrites, ha r rfl])⟩

/-- Dumps leave the launches and DRAM; what they write to host memory keeps its canonical form. -/
theorem serveDumps_frame (s : State) :
    (serveDumps s).parts = s.parts ∧ (serveDumps s).dram = s.dram ∧ (memWf s.hostMem = true → memWf (serveDumps s).hostMem = true) := by
  unfold serveDumps
  refine foldl_keeps (fun u : State => u.parts = s.parts ∧ u.dram = s.dram ∧ (memWf s.hostMem = true → memWf u.hostMem = true)) _
    (fun u a h => ?_) s.asks s ⟨rfl, rfl, fun w => w⟩
  split
  · exact ⟨h.1, h.2.1, fun w => putDump_host _ _ _ _ (h.2.2 w)⟩
  · exact h

/-- Where nothing is asked for, no byte of host memory changes. -/
theorem serveDumps_none {s : State} (h : s.asks = []) : serveDumps s = s := by simp [serveDumps, h]

theorem takeOffer_frame (s : State) :
    (takeOffer s).parts = s.parts ∧ (takeOffer s).dram = s.dram ∧ (takeOffer s).hostMem = s.hostMem := by
  unfold takeOffer
  split <;> exact ⟨rfl, rfl, rfl⟩

/-- A stop request that a log holds changes no byte of memory. -/
theorem loggedStop_memories (s : State) (p : Part) (e : LogEntry) :
    (loggedStop s p e).dram = s.dram ∧ (loggedStop s p e).hostMem = s.hostMem := by
  unfold loggedStop cancelStop
  split
  · split <;> split <;> exact ⟨rfl, rfl⟩
  · exact ⟨rfl, rfl⟩

/-- Making the hub acts that end a freeze of a replay changes no byte of memory. -/
theorem playActs_memories (s : State) (p : Part) : (playActs s p).dram = s.dram ∧ (playActs s p).hostMem = s.hostMem := by
  unfold playActs
  dsimp only
  split
  · exact ⟨rfl, rfl⟩
  · refine foldl_keeps (fun u : State => u.dram = s.dram ∧ u.hostMem = s.hostMem) _ (fun u e h => ?_) _ _ ⟨rfl, rfl⟩
    split
    · rename_i q _
      exact ⟨(loggedStop_memories u q e).1.trans h.1, (loggedStop_memories u q e).2.trans h.2⟩
    · exact h

/-- An edge changes no byte of DRAM, and of host memory only what dumps write, which keeps its canonical form. -/
theorem advance_memories (s : State) : (advance s).dram = s.dram ∧ (memWf s.hostMem = true → memWf (advance s).hostMem = true) := by
  have h1 := idleEnergy_frame { s with edge := s.edge + 1 }
  have h2 := serveDumps_frame (idleEnergy { s with edge := s.edge + 1 })
  have h3 := takeOffer_frame (serveDumps (idleEnergy { s with edge := s.edge + 1 }))
  have acts : ∀ (l : SMap Part) (u : State),
      (l.foldl (fun s e => playActs s e.2) u).dram = u.dram ∧ (l.foldl (fun s e => playActs s e.2) u).hostMem = u.hostMem := by
    intro l u
    refine foldl_keeps (fun v : State => v.dram = u.dram ∧ v.hostMem = u.hostMem) _ (fun v e h => ?_) l u ⟨rfl, rfl⟩
    exact ⟨(playActs_memories v e.2).1.trans h.1, (playActs_memories v e.2).2.trans h.2⟩
  refine ⟨(acts _ _).1.trans (h3.2.1.trans (h2.2.1.trans h1.2.1)), fun w => ?_⟩
  have h4 : (advance s).hostMem = (serveDumps (idleEnergy { s with edge := s.edge + 1 })).hostMem := (acts _ _).2.trans h3.2.2
  have h5 : (idleEnergy { s with edge := s.edge + 1 }).hostMem = s.hostMem := h1.2.2
  rw [h4]
  exact h2.2.2 (by rw [h5]; exact w)

/-! ## The hub's own areas of DRAM (R393) -/

/-- Offsets of an area that lie in rows of a stack have addresses of their own. -/
theorem hubAt_inj {first row a b : Nat} (ha : row + a / 2 ^ 21 < 32768) (hb : row + b / 2 ^ 21 < 32768)
    (h : hubAt first row a = hubAt first row b) : a = b := by
  have fields : ∀ f pa qa ra ca oa pb qb rb cb ob : Nat, pa < 32 → qa < 64 → ra < 32768 → ca < 16 → oa < 64 →
      pb < 32 → qb < 64 → rb < 32768 → cb < 16 → ob < 64 →
      (((((f + pa / 64) * 64 + pa % 64) * 64 + qa) * 32768 + ra) * 16 + ca) * 64 + oa =
        (((((f + pb / 64) * 64 + pb % 64) * 64 + qb) * 32768 + rb) * 16 + cb) * 64 + ob →
      pa = pb ∧ qa = qb ∧ ra = rb ∧ ca = cb ∧ oa = ob := by
    intros
    rw [Nat.div_eq_of_lt (by omega : _ < 64), Nat.div_eq_of_lt (by omega : _ < 64), Nat.mod_eq_of_lt (by omega : _ < 64),
      Nat.mod_eq_of_lt (by omega : _ < 64)] at *
    omega
  have := fields first _ _ _ _ _ _ _ _ _ _ (Nat.mod_lt _ (by decide)) (Nat.mod_lt _ (by decide)) ha (Nat.mod_lt _ (by decide))
    (Nat.mod_lt _ (by decide)) (Nat.mod_lt _ (by decide)) (Nat.mod_lt _ (by decide)) hb (Nat.mod_lt _ (by decide))
    (Nat.mod_lt _ (by decide)) h
  omega

/-- Writing an area keeps memory's canonical form. -/
theorem memWf_putHub {m : SMap Byte} (first row off : Nat) (bs : List Byte) (h : memWf m = true) :
    memWf (putHub m first row off bs) = true := by
  induction bs generalizing m off with
  | nil => exact h
  | cons b r ih => exact ih _ (memWf_mset _ _ h)

/-- Writing an area leaves every other byte. -/
theorem mget_putHub_other {m : SMap Byte} (first row off : Nat) (bs : List Byte) (a : Nat) (h : memWf m = true)
    (ha : ∀ k, k < bs.length → a ≠ hubAt first row (off + k)) : mget 0 (putHub m first row off bs) a = mget 0 m a := by
  induction bs generalizing m off with
  | nil => rfl
  | cons b r ih =>
    have h0 : a ≠ hubAt first row off := ha 0 (by simp)
    rw [putHub, ih (off + 1) (memWf_mset _ _ h) (fun k hk => by
      have := ha (k + 1) (by simpa using hk)
      rwa [Nat.add_assoc, Nat.add_comm 1 k])]
    exact mget_mset_other _ _ _ h0 (memWf_sorted h)

/-- A byte of an area that has been written. -/
theorem mget_putHub {m : SMap Byte} (first row off : Nat) (bs : List Byte) (k : Nat) (h : memWf m = true) (hk : k < bs.length)
    (hr : row + (off + bs.length - 1) / 2 ^ 21 < 32768) :
    mget 0 (putHub m first row off bs) (hubAt first row (off + k)) = bs.getD k 0 := by
  induction bs generalizing m off k with
  | nil => simp at hk
  | cons b r ih =>
    cases k with
    | zero =>
      rw [putHub, mget_putHub_other _ _ _ _ _ (memWf_mset _ _ h)]
      · simpa using mget_mset_same _ _ (memWf_sorted h)
      · intro j hj e
        have := hubAt_inj (by simp at hr; omega) (by simp at hr; omega) e
        omega
    | succ k =>
      have := ih (off + 1) k (memWf_mset (hubAt first row off) b h) (by simpa using hk)
        (by simp only [List.length_cons] at hr; rwa [show off + 1 + r.length - 1 = off + (r.length + 1) - 1 by omega])
      rw [show off + (k + 1) = off + 1 + k by omega, putHub, this]
      simp

/-- The rows of a place that the hub has found are free for it. -/
theorem placeRows_free {s : State} {p : Part} {want n row : Nat} (h : placeRows s p want n = some row) :
    rowsFree s p row (rowsOf n) = true := by
  unfold placeRows at h
  exact List.find?_some (p := fun r => rowsFree s p r (rowsOf n)) h

/-- What a write to an area leaves: everything but DRAM. -/
theorem storeHub_frame (s : State) (p : Part) (row : Option Nat) (off : Nat) (bs : List Byte) :
    (storeHub s p row off bs).parts = s.parts ∧ (storeHub s p row off bs).hostMem = s.hostMem ∧
    (memWf s.dram = true → memWf (storeHub s p row off bs).dram = true) := by
  unfold storeHub
  split
  · exact ⟨rfl, rfl, memWf_putHub _ _ _ _⟩
  · exact ⟨rfl, rfl, id⟩

/-! ## Events of the hub -/

/-- What the hub raises while cycles run is found with the events of the cycle to come, journaled and logged (R345, R391,
R402). -/
theorem hubEvent_found {s : State} {l : Loc} {p : Part} (cause detail : Nat) (named : Option (BitVec 13 × Nat))
    (hp : getPart s l.band = some p) (hm : p.mode = .running ∨ p.mode = .armedStop) :
    hubEvent s l cause detail named =
      setPart (if eventStop p then s else journal s (.stop p.rec_.token p.gcyc none))
        { logAdd p 4 l.idx p.gcyc [(0x10, 4, (evcOf cause detail false).toNat)] with
          found := (logAdd p 4 l.idx p.gcyc [(0x10, 4, (evcOf cause detail false).toNat)]).found ++
            [{ tile := l.idx, cause, detail, epc := named, hub := true }] } := by
  obtain h | h := hm <;> simp [hubEvent, hp, h]

/-- A launch that has failed takes no further event. -/
theorem hubEvent_failed {s : State} {l : Loc} {p : Part} (cause detail : Nat) (named : Option (BitVec 13 × Nat))
    (hp : getPart s l.band = some p) (hm : p.mode = .failed) : hubEvent s l cause detail named = s := by
  simp [hubEvent, hp, hm]

/-! ## Inbound puts (R219, R324) -/

/-- A put that is not dropped names a link entry, and lies whole in the SRAM of a tile of the band. -/
theorem putEntry_some {p : Part} {x : Inbound} {e : LRange} (h : putEntry p x = some e) :
    inboundEntry p.rec_ x.pa.toNat = some e ∧ 64 * p.first ≤ paCol x.pa.toNat ∧ paCol x.pa.toNat < 64 * (p.first + p.count) ∧
      paTy x.pa.toNat < ph ∧ paBad x.pa.toNat (x.n + maskLen x.cls.toNat x.n) = false := by
  simp only [putEntry] at h
  split at h
  · rename_i hc
    simp only [Bool.and_eq_true, decide_eq_true_eq, Bool.not_eq_true'] at hc
    exact ⟨h, hc.1.1.1, hc.1.1.2, hc.1.2, hc.2⟩
  · cases h

/-! ## Energy of an image (R387, R410) -/

/-- Charging a transfer of an image leaves the launches' tiles and the memories, and counts in POWER. -/
theorem chargeImage_frame (s : State) (c : Ctx) (e : Nat) :
    (chargeImage s c e).parts = s.parts ∧ (chargeImage s c e).dram = s.dram ∧ (chargeImage s c e).hostMem = s.hostMem ∧
      (chargeImage s c e).leftPower = s.leftPower + e :=
  ⟨rfl, rfl, rfl, rfl⟩
end Sys2Proof.Machine
end

