-- ==== Sys2Proof/Tests/Slice0.lean ====
section
/-! SUPPORT. The author's own tests: terms that the checks refuse, words written out from the encoding tables, single
steps whose results come from the spec's worked examples or by hand from its rules, and one witness for the
hypotheses of every statement. -/

open Sys2Proof Sys2Proof.Machine

namespace Sys2Proof.Tests

-- Theorems one after another: a thread for each of them would ask for too much stack at once.
set_option Elab.async false

/-! ## Ill-formed terms, one for each check of the encoding (R107 to R109) -/

theorem test_guard_index : wellFormed (.add ⟨false, true, 8⟩ 1 2 3) = false := by decide
theorem test_condition_code : wellFormed (.cmpReg always 1 10 2 3) = false ∧ wellFormed (.cmpImm always 1 10 2 3) = false := by decide
theorem test_odd_pair : wellFormed (.rdcyc always 3) = false := by decide
theorem test_window_size : wellFormed (.loop always 0 false true 7 1) = false ∧ wellFormed (.loopi always 0 false false 1 1) = false := by decide
theorem test_vector_number : wellFormed (.vmov .va always 0 0 1536 0) = false ∧ wellFormed (.ldv always 1536 0 0) = false ∧
    wellFormed (.stvScatter always 0 0 1536) = false := by decide
theorem test_reserved_type : wellFormed (.vmov .va always 1 0 0 0) = false ∧ wellFormed (.vadd .va always 8 0 0 0 0) = false ∧
    wellFormed (.vabs .va always 1 0 0 0) = false ∧ wellFormed (.vfadd .va always 9 0 0 0 0) = false ∧
    wellFormed (.vfclass .va always 7 0 0 0) = false ∧ wellFormed (.vpart .va always 1 0 0 0 0) = false ∧
    wellFormed (.vrot .va always 13 0 0 0 0) = false := by decide
theorem test_rounding : wellFormed (.vfadd .va always 12 6 0 0 0) = false ∧ wellFormed (.vadd .va always 6 1 0 0 0) = false ∧
    wellFormed (.vbincvt .va always 12 2 0 0) = false := by decide
theorem test_cluster : wellFormed (.vadd .va always 6 0 0 768 0) = false ∧ wellFormed (.vadd .vb always 6 0 0 768 767) = false ∧
    wellFormed (.vins .va always 6 0 768 0 0) = false := by decide
theorem test_counts_and_lanes : wellFormed (.vshl .va always 2 0 0 0 8) = false ∧ wellFormed (.vrot .va always 6 0 0 0 4) = false ∧
    wellFormed (.vext .va always 4 0 0 0 8) = false ∧ wellFormed (.vins .va always 2 0 0 0 16) = false ∧
    wellFormed (.vbcastVector .va always 6 0 0 0 4) = false := by decide
theorem test_vector_fields : wellFormed (.vli .va always 2 0 0 256) = false ∧ wellFormed (.vcmp .va always 6 0 0 0 0 6) = false ∧
    wellFormed (.vfcmp .va always 12 0 0 0 0 7) = false ∧ wellFormed (.vcvt .va always 12 0 0 0 12) = false ∧
    wellFormed (.vcvt .va always 2 1 0 0 4) = false ∧ wellFormed (.vcvt .va always 2 0 0 0 13) = false := by decide
theorem test_matrix_fields : wellFormed (.mma always 0 0 0 2 1 0) = false ∧ wellFormed (.mma always 0 0 0 10 11 0) = false ∧
    wellFormed (.mmaq always 0 0 0 4 2 0 0 0 0 0) = false ∧ wellFormed (.mmaq always 0 0 0 2 2 0 3 0 0 0) = false ∧
    wellFormed (.zclr always 0 0) = false ∧ wellFormed (.zst always 0 7 0 0 0) = false ∧ wellFormed (.zst always 0 12 1 0 0) = false ∧
    wellFormed (.zst always 0 8 6 0 0) = false ∧ wellFormed (.mxagImm always 0 7 0) = false ∧ wellFormed (.mxagReg always 0 7 0) = false ∧
    wellFormed (.attld always 255 1 0 0) = false := by decide
theorem test_rank_types : wellFormed (.rank always 10 0 0 0 0) = false ∧ wellFormed (.rankThreshold always 9 0 0 0 0 0) = false ∧
    wellFormed (.rkacc always 0 0 9 0 0 0) = false ∧ wellFormed (.unrank always 10 0 0 0 0) = false := by decide
theorem test_move_fields : wellFormed (.send always 6 0 0 false 0 0 0) = false ∧ wellFormed (.sendNb always 6 0 0 false 0 0) = false ∧
    wellFormed (.sendv always 7 0 0 false 0 0 0) = false ∧ wellFormed (.sendvNb always 0 0 0 false 0 1536) = false ∧
    wellFormed (.cpg always 0 0 0 31 1 0) = false ∧ wellFormed (.rksend always 0 0 true 0 0 1 0) = false ∧
    wellFormed (.lnkp always 0 3 0 0 0) = false ∧ wellFormed (.lnkg always 0 3 0 0 0 0) = false := by decide
theorem test_free_codes : wellFormed (.unassignedOpcode .s 1) = false ∧ wellFormed (.unassignedOpcode .va 1) = false ∧
    wellFormed (.unassignedOpcode .mx 1) = false ∧ wellFormed (.unassignedOpcode .ld 1) = false ∧ wellFormed (.unassignedOpcode .st 1) = false ∧
    wellFormed (.unassignedOpcode .cp 1) = false ∧ wellFormed (.unassignedOpcode .sy 1) = false ∧ wellFormed (.unassignedOpcode .s 0) = true := by
  decide
-- Reserved bits and free codes in words.
theorem test_reserved_bits : decodeSlot .s 0b00000001_000000_00011_00100_00101_0000000000000000001 = .error 0x0008 ∧
    decodeSlot .sy 0b01001_000000000000000000000000001 = .error 0x0008 ∧ decodeSlot .ld 0 = .ok (.unassignedOpcode .ld 0) := ⟨rfl, rfl, rfl⟩

/-! ## Words written out field by field from R92 to R106: opcode, guard, and the fields below them -/

theorem test_decode_S_registers :
    decodeSlot .s 0b00000001_100101_00011_10100_01001_0000000000000000000 = .ok (.add ⟨true, false, 5⟩ 3 20 9) ∧
    decodeSlot .s 0b00000010_100101_00011_10100_01001_0000000000000000000 = .ok (.sub ⟨true, false, 5⟩ 3 20 9) ∧
    decodeSlot .s 0b00000011_100101_00011_10100_01001_0000000000000000000 = .ok (.and_ ⟨true, false, 5⟩ 3 20 9) ∧
    decodeSlot .s 0b00000100_100101_00011_10100_01001_0000000000000000000 = .ok (.or_ ⟨true, false, 5⟩ 3 20 9) ∧
    decodeSlot .s 0b00000101_100101_00011_10100_01001_0000000000000000000 = .ok (.xor_ ⟨true, false, 5⟩ 3 20 9) ∧
    decodeSlot .s 0b00000110_100101_00011_10100_01001_0000000000000000000 = .ok (.shl ⟨true, false, 5⟩ 3 20 9) ∧
    decodeSlot .s 0b00000111_100101_00011_10100_01001_0000000000000000000 = .ok (.shr ⟨true, false, 5⟩ 3 20 9) ∧
    decodeSlot .s 0b00001000_100101_00011_10100_01001_0000000000000000000 = .ok (.sar ⟨true, false, 5⟩ 3 20 9) ∧
    decodeSlot .s 0b00001001_100101_00011_10100_01001_0000000000000000000 = .ok (.mul ⟨true, false, 5⟩ 3 20 9) ∧
    decodeSlot .s 0b00001010_100101_00011_10100_01001_0000000000000000000 = .ok (.mulh ⟨true, false, 5⟩ 3 20 9) ∧
    decodeSlot .s 0b00001011_100101_00011_10100_01001_0000000000000000000 = .ok (.mulhn ⟨true, false, 5⟩ 3 20 9) ∧
    decodeSlot .s 0b00001100_100101_00011_10100_01001_0000000000000000000 = .ok (.min ⟨true, false, 5⟩ 3 20 9) ∧
    decodeSlot .s 0b00001101_100101_00011_10100_01001_0000000000000000000 = .ok (.max ⟨true, false, 5⟩ 3 20 9) ∧
    decodeSlot .s 0b00001110_100101_00011_10100_01001_0000000000000000000 = .ok (.minn ⟨true, false, 5⟩ 3 20 9) ∧
    decodeSlot .s 0b00001111_100101_00011_10100_01001_0000000000000000000 = .ok (.maxn ⟨true, false, 5⟩ 3 20 9) ∧
    decodeSlot .s 0b00010000_100101_00011_10100_000000000000000000000000 = .ok (.clz ⟨true, false, 5⟩ 3 20) ∧
    decodeSlot .s 0b00010001_100101_00011_10100_000000000000000000000000 = .ok (.popc ⟨true, false, 5⟩ 3 20) := by
  repeat' apply And.intro
  all_goals rfl

theorem test_decode_S_immediates :
    decodeSlot .s 0b00100000_100101_00011_10100_100000000000000000000101 = .ok (.addi ⟨true, false, 5⟩ 3 20 0x800005) ∧
    decodeSlot .s 0b00100001_100101_00011_10100_100000000000000000000101 = .ok (.andi ⟨true, false, 5⟩ 3 20 0x800005) ∧
    decodeSlot .s 0b00100010_100101_00011_10100_100000000000000000000101 = .ok (.ori ⟨true, false, 5⟩ 3 20 0x800005) ∧
    decodeSlot .s 0b00100011_100101_00011_10100_100000000000000000000101 = .ok (.xori ⟨true, false, 5⟩ 3 20 0x800005) ∧
    decodeSlot .s 0b00100100_100101_00011_10100_0000000000000000000_10011 = .ok (.shli ⟨true, false, 5⟩ 3 20 19) ∧
    decodeSlot .s 0b00100101_100101_00011_10100_0000000000000000000_10011 = .ok (.shri ⟨true, false, 5⟩ 3 20 19) ∧
    decodeSlot .s 0b00100110_100101_00011_10100_0000000000000000000_10011 = .ok (.sari ⟨true, false, 5⟩ 3 20 19) ∧
    decodeSlot .s 0b00101000_100101_00011_00000_100000000000000000000101 = .ok (.li ⟨true, false, 5⟩ 3 0x800005) ∧
    decodeSlot .s 0b00101001_100101_00011_0000000000000_1000000000000101 = .ok (.lih ⟨true, false, 5⟩ 3 0x8005) := by
  repeat' apply And.intro
  all_goals rfl

theorem test_decode_S_selection :
    decodeSlot .s 0b00010010_100101_00011_10100_01001_1010_000000000000000 = .ok (.sel ⟨true, false, 5⟩ 3 20 9 10) ∧
    decodeSlot .s 0b00110000_100101_0011_0110_10100_0_01001_000000000000000 = .ok (.cmpReg ⟨true, false, 5⟩ 3 6 20 9) ∧
    decodeSlot .s 0b00110000_100101_0011_0110_10100_1_10000000000000000011 = .ok (.cmpImm ⟨true, false, 5⟩ 3 6 20 0x80003) ∧
    decodeSlot .s 0b00110001_100101_0011_1010_0101_0000000000000000000000 = .ok (.qand ⟨true, false, 5⟩ 3 10 5) ∧
    decodeSlot .s 0b00110010_100101_0011_1010_0101_0000000000000000000000 = .ok (.qor ⟨true, false, 5⟩ 3 10 5) ∧
    decodeSlot .s 0b00110011_100101_0011_1010_00000000000000000000000000 = .ok (.qnot ⟨true, false, 5⟩ 3 10) ∧
    decodeSlot .s 0b01010000_100101_00011_00010010_000000000000000000000 = .ok (.rds ⟨true, false, 5⟩ 3 0x12) ∧
    decodeSlot .s 0b01010001_100101_00011_00001100_000000000000000000000 = .ok (.wrs ⟨true, false, 5⟩ 3 0x0C) ∧
    decodeSlot .s 0b01010010_100101_00110_00000000000000000000000000000 = .ok (.rdcyc ⟨true, false, 5⟩ 6) := by
  repeat' apply And.intro
  all_goals rfl

theorem test_decode_S_transfers :
    decodeSlot .s 0b01000000_100101_1000000000011_000000000000000000000 = .ok (.br ⟨true, false, 5⟩ 0x1003) ∧
    decodeSlot .s 0b01000001_100101_1000000000011_1010_1_0000000000000000 = .ok (.brq ⟨true, false, 5⟩ 0x1003 10 true) ∧
    decodeSlot .s 0b01000010_100101_1000000000011_000000000000000000000 = .ok (.call ⟨true, false, 5⟩ 0x1003) ∧
    decodeSlot .s 0b01000011_100101_00000_10100_000000000000000000000000 = .ok (.ret ⟨true, false, 5⟩ 20) ∧
    decodeSlot .s 0b01000100_100101_00000_10100_000000000000000000000000 = .ok (.jmpg ⟨true, false, 5⟩ 20) ∧
    decodeSlot .s 0b01001000_100101_1000000000011_0_1_101_10100_00000000000 = .ok (.loop ⟨true, false, 5⟩ 0x1003 false true 5 20) ∧
    decodeSlot .s 0b01001001_100101_1000000000011_1_0_000_1000000000000101 = .ok (.loopi ⟨true, false, 5⟩ 0x1003 true false 0 0x8005) := by
  repeat' apply And.intro
  all_goals rfl

theorem test_decode_V_integers :
    decodeSlot .va 0b0000001_100101_0101_000_00000000011_01010111100_00111110100_00000000000 = .ok (.vadd .va ⟨true, false, 5⟩ 5 0 3 700 500) ∧
    decodeSlot .va 0b0000010_100101_0101_000_00000000011_01010111100_00111110100_00000000000 = .ok (.vsub .va ⟨true, false, 5⟩ 5 0 3 700 500) ∧
    decodeSlot .va 0b0000011_100101_0101_000_00000000011_01010111100_00111110100_00000000000 = .ok (.vmul .va ⟨true, false, 5⟩ 5 0 3 700 500) ∧
    decodeSlot .va 0b0000100_100101_0101_000_00000000011_01010111100_00111110100_00000000000 = .ok (.vmulh .va ⟨true, false, 5⟩ 5 0 3 700 500) ∧
    decodeSlot .va 0b0000110_100101_0101_000_00000000011_01010111100_00111110100_00000000000 = .ok (.vmin .va ⟨true, false, 5⟩ 5 0 3 700 500) ∧
    decodeSlot .va 0b0000111_100101_0101_000_00000000011_01010111100_00111110100_00000000000 = .ok (.vmax .va ⟨true, false, 5⟩ 5 0 3 700 500) ∧
    decodeSlot .va 0b0001010_100101_0101_000_00000000011_01010111100_00111110100_00000000000 = .ok (.vadds .va ⟨true, false, 5⟩ 5 0 3 700 500) ∧
    decodeSlot .va 0b0001011_100101_0101_000_00000000011_01010111100_00111110100_00000000000 = .ok (.vsubs .va ⟨true, false, 5⟩ 5 0 3 700 500) ∧
    decodeSlot .va 0b0000101_100101_0101_000_00000000011_01010111100_00111110100_01001011000 = .ok (.vmac .va ⟨true, false, 5⟩ 5 0 3 700 500 600) ∧
    decodeSlot .va 0b0001000_100101_0100_000_00000000011_01010111100_0000000000000000000000 = .ok (.vabs .va ⟨true, false, 5⟩ 4 0 3 700) ∧
    decodeSlot .va 0b0001001_100101_0100_000_00000000011_01010111100_0000000000000000000000 = .ok (.vneg .va ⟨true, false, 5⟩ 4 0 3 700) ∧
    decodeSlot .va 0b0001100_100101_0101_000_00000000011_01010111100_00000001011_00000000000 = .ok (.vshl .va ⟨true, false, 5⟩ 5 0 3 700 11) ∧
    decodeSlot .va 0b0001101_100101_0101_000_00000000011_01010111100_00000001011_00000000000 = .ok (.vshr .va ⟨true, false, 5⟩ 5 0 3 700 11) ∧
    decodeSlot .va 0b0001110_100101_0101_000_00000000011_01010111100_00000001011_00000000000 = .ok (.vsar .va ⟨true, false, 5⟩ 5 0 3 700 11) := by
  repeat' apply And.intro
  all_goals rfl

theorem test_decode_V_lanes :
    decodeSlot .va 0b0001111_100101_0000_000_00000000011_01010111100_00111110100_00000000000 = .ok (.vand .va ⟨true, false, 5⟩ 0 0 3 700 500) ∧
    decodeSlot .va 0b0010000_100101_0000_000_00000000011_01010111100_00111110100_00000000000 = .ok (.vor .va ⟨true, false, 5⟩ 0 0 3 700 500) ∧
    decodeSlot .va 0b0010001_100101_0000_000_00000000011_01010111100_00111110100_00000000000 = .ok (.vxor .va ⟨true, false, 5⟩ 0 0 3 700 500) ∧
    decodeSlot .va 0b0010010_100101_0000_000_00000000011_01010111100_0000000000000000000000 = .ok (.vnot .va ⟨true, false, 5⟩ 0 0 3 700) ∧
    decodeSlot .va 0b0010011_100101_0101_000_00000000_110_01010111100_00111110100_0000000_0100 = .ok (.vcmp .va ⟨true, false, 5⟩ 5 0 6 700 500 4) ∧
    decodeSlot .va 0b0010100_100101_0000_000_00000000011_01010111100_00111110100_00000000_110 = .ok (.vsel .va ⟨true, false, 5⟩ 0 0 3 700 500 6) ∧
    decodeSlot .va 0b0100000_100101_0110_000_00000000011_000000_10100_00000000000_0_0000000000 = .ok (.vbcastScalar .va ⟨true, false, 5⟩ 6 0 3 20) ∧
    decodeSlot .va 0b0100000_100101_0110_000_00000000011_01010111100_00000000000_1_00000_00011 = .ok (.vbcastVector .va ⟨true, false, 5⟩ 6 0 3 700 3) ∧
    decodeSlot .va 0b0100001_100101_0010_000_000000_10100_01010111100_00000000000_00000001101 = .ok (.vext .va ⟨true, false, 5⟩ 2 0 20 700 13) ∧
    decodeSlot .va 0b0100010_100101_0010_000_00000000011_000000_10100_00000000000_00000001101 = .ok (.vins .va ⟨true, false, 5⟩ 2 0 3 20 13) ∧
    decodeSlot .va 0b0100011_100101_0000_000_00000000011_01010111100_00111110100_01001011000 = .ok (.vshuf .va ⟨true, false, 5⟩ 0 0 3 700 500 600) ∧
    decodeSlot .va 0b0100100_100101_0010_000_00000000011_01010111100_00000000000_00000001101 = .ok (.vrot .va ⟨true, false, 5⟩ 2 0 3 700 13) ∧
    decodeSlot .va 0b0100101_100101_0010_000_00000000011_01010111100_00111110100_0000000000_1 = .ok (.vzip .va ⟨true, false, 5⟩ 2 0 3 700 500 true) ∧
    decodeSlot .va 0b0100110_100101_0010_000_00000000011_01010111100_00111110100_0000000000_1 = .ok (.vunzip .va ⟨true, false, 5⟩ 2 0 3 700 500 true) ∧
    decodeSlot .va 0b0100111_100101_0010_000_00000000011_01010111100_0000000000000000000_110 = .ok (.vpart .va ⟨true, false, 5⟩ 2 0 3 700 6) ∧
    decodeSlot .va 0b0101000_100101_0010_000_00000000011_01010111100_0000000000000000000000 = .ok (.vcnt .va ⟨true, false, 5⟩ 2 0 3 700) ∧
    decodeSlot .va 0b0101001_100101_0000_000_00000000011_01010111100_0000000000000000000000 = .ok (.vmov .va ⟨true, false, 5⟩ 0 0 3 700) ∧
    decodeSlot .va 0b0101010_100101_0111_000_00000000011_00000000000_1000000000000000000011 = .ok (.vli .va ⟨true, false, 5⟩ 7 0 3 0x200003) := by
  repeat' apply And.intro
  all_goals rfl

theorem test_decode_V_floats :
    decodeSlot .vb 0b1000000_100101_1011_101_10111011100_01100100000_10111111111_00000000000 = .ok (.vfadd .vb ⟨true, false, 5⟩ 11 5 1500 800 1535) ∧
    decodeSlot .vb 0b1000001_100101_1011_101_10111011100_01100100000_10111111111_00000000000 = .ok (.vfsub .vb ⟨true, false, 5⟩ 11 5 1500 800 1535) ∧
    decodeSlot .vb 0b1000010_100101_1011_101_10111011100_01100100000_10111111111_00000000000 = .ok (.vfmul .vb ⟨true, false, 5⟩ 11 5 1500 800 1535) ∧
    decodeSlot .vb 0b1001011_100101_1011_101_10111011100_01100100000_10111111111_00000000000 = .ok (.vfdiv .vb ⟨true, false, 5⟩ 11 5 1500 800 1535) ∧
    decodeSlot .vb 0b1010010_100101_1011_101_10111011100_01100100000_10111111111_00000000000 = .ok (.vmeanm .vb ⟨true, false, 5⟩ 11 5 1500 800 1535) ∧
    decodeSlot .vb 0b1010011_100101_1011_101_10111011100_01100100000_10111111111_00000000000 = .ok (.vfscl .vb ⟨true, false, 5⟩ 11 5 1500 800 1535) ∧
    decodeSlot .vb 0b1000011_100101_1011_101_10111011100_01100100000_10111111111_01100000001 = .ok (.vfma .vb ⟨true, false, 5⟩ 11 5 1500 800 1535 769) ∧
    decodeSlot .vb 0b1000100_100101_1011_101_10111011100_01100100000_10111111111_01100000001 = .ok (.vfms .vb ⟨true, false, 5⟩ 11 5 1500 800 1535 769) ∧
    decodeSlot .vb 0b1000101_100101_1011_101_10111011100_01100100000_10111111111_01100000001 = .ok (.vfnma .vb ⟨true, false, 5⟩ 11 5 1500 800 1535 769) ∧
    decodeSlot .vb 0b1000110_100101_1100_000_10111011100_01100100000_10111111111_00000000000 = .ok (.vfmin .vb ⟨true, false, 5⟩ 12 0 1500 800 1535) ∧
    decodeSlot .vb 0b1000111_100101_1100_000_10111011100_01100100000_10111111111_00000000000 = .ok (.vfmax .vb ⟨true, false, 5⟩ 12 0 1500 800 1535) ∧
    decodeSlot .vb 0b1001000_100101_1100_000_10111011100_01100100000_0000000000000000000000 = .ok (.vfabs .vb ⟨true, false, 5⟩ 12 0 1500 800) ∧
    decodeSlot .vb 0b1001001_100101_1100_000_10111011100_01100100000_0000000000000000000000 = .ok (.vfneg .vb ⟨true, false, 5⟩ 12 0 1500 800) ∧
    decodeSlot .vb 0b1001111_100101_1100_000_10111011100_01100100000_0000000000000000000000 = .ok (.vfclass .vb ⟨true, false, 5⟩ 12 0 1500 800) ∧
    decodeSlot .vb 0b1001010_100101_1100_000_00000000_110_01100100000_10111111111_0000000_0110 = .ok (.vfcmp .vb ⟨true, false, 5⟩ 12 0 6 800 1535 6) ∧
    decodeSlot .vb 0b1001100_100101_1010_011_10111011100_01100100000_0000000000000000000000 = .ok (.vfsqrt .vb ⟨true, false, 5⟩ 10 3 1500 800) ∧
    decodeSlot .vb 0b1001101_100101_1010_011_10111011100_01100100000_0000000000000000000000 = .ok (.vfrsq .vb ⟨true, false, 5⟩ 10 3 1500 800) ∧
    decodeSlot .vb 0b1001110_100101_1010_011_10111011100_01100100000_0000000000000000000000 = .ok (.vfrcp .vb ⟨true, false, 5⟩ 10 3 1500 800) ∧
    decodeSlot .vb 0b1010001_100101_1010_011_10111011100_01100100000_0000000000000000000000 = .ok (.vhsum .vb ⟨true, false, 5⟩ 10 3 1500 800) ∧
    decodeSlot .vb 0b1010000_100101_1010_011_10111011100_01100100000_000000000000000000_1100 = .ok (.vcvt .vb ⟨true, false, 5⟩ 10 3 1500 800 12) ∧
    decodeSlot .vb 0b1100000_100101_0000_000_10111011100_0000000000000000000000000_10010011 = .ok (.vbini .vb ⟨true, false, 5⟩ 0 0 1500 0x93) ∧
    decodeSlot .vb 0b1100001_100101_1100_000_10111011100_01100100000_10111111111_0000000000_0 = .ok (.vbinaddValue .vb ⟨true, false, 5⟩ 12 0 1500 800 1535) ∧
    decodeSlot .vb 0b1100001_100101_0000_000_10111011100_01100100000_10111111111_0000000000_1 = .ok (.vbinaddMerge .vb ⟨true, false, 5⟩ 0 0 1500 800 1535) ∧
    decodeSlot .vb 0b1100010_100101_1100_001_10111011100_01100100000_0000000000000000000000 = .ok (.vbincvt .vb ⟨true, false, 5⟩ 12 1 1500 800) := by
  repeat' apply And.intro
  all_goals rfl

theorem test_decode_MX :
    decodeSlot .mx 0b000001_100101_10_01_11_1000_1001_01_0000000000000000000000000000000000000000000000000000 = .ok (.mma ⟨true, false, 5⟩ 2 1 3 8 9 1) ∧
    decodeSlot .mx 0b000010_100101_10_01_11_0010_0001_11_10_10100_01001_01101_00000000000000000000000000000000000 = .ok (.mmaq ⟨true, false, 5⟩ 2 1 3 2 1 3 2 20 9 13) ∧
    decodeSlot .mx 0b000011_100101_10_000000000000_01_00_10100_01001_01101_00000000000000000000000000000000000 = .ok (.scalc ⟨true, false, 5⟩ 2 1 20 9 13) ∧
    decodeSlot .mx 0b001000_100101_10_11_0000000000000000000000000000000000000000000000000000000000000000 = .ok (.zclr ⟨true, false, 5⟩ 2 3) ∧
    decodeSlot .mx 0b001001_100101_10_0000000000000000000000000000000000000000000_10100_100000000000000011 = .ok (.zld ⟨true, false, 5⟩ 2 20 0x20003) ∧
    decodeSlot .mx 0b001010_100101_10_0000_1000_101_00000000000000000000000000000000_10100_100000000000000011 = .ok (.zst ⟨true, false, 5⟩ 2 8 5 20 0x20003) ∧
    decodeSlot .mx 0b010000_100101_10_101_0_10100_000000000000000000000000000000000000000000000000000000000 = .ok (.mxagReg ⟨true, false, 5⟩ 2 5 20) ∧
    decodeSlot .mx 0b010000_100101_10_101_1_00000_100000000000000011_000000000000000000000000000000000000000 = .ok (.mxagImm ⟨true, false, 5⟩ 2 5 0x20003) ∧
    decodeSlot .mx 0b011000_100101_00_10000011_01111100_000000000000000000000000000_10100_100000000000000011 = .ok (.attld ⟨true, false, 5⟩ 0x83 0x7C 20 0x20003) ∧
    decodeSlot .mx 0b011001_100101_000000_1011_1000000011_0000000101_000000_10100_01001_0000000000000000000000 = .ok (.rank ⟨true, false, 5⟩ 11 0x203 5 20 9) ∧
    decodeSlot .mx 0b011001_100101_000000_1011_1000000011_0000000101_1_01101_10100_01001_0000000000000000000000 = .ok (.rankThreshold ⟨true, false, 5⟩ 11 0x203 5 13 20 9) ∧
    decodeSlot .mx 0b011010_100101_10_1101_1011_1000000011_0000000000000000_10100_01001_0000000000000000000000 = .ok (.rkacc ⟨true, false, 5⟩ 2 13 11 0x203 20 9) ∧
    decodeSlot .mx 0b011011_100101_000000_1011_1000000011_1100000101_000000_10100_01001_0000000000000000000000 = .ok (.unrank ⟨true, false, 5⟩ 11 0x203 0x305 20 9) := by
  repeat' apply And.intro
  all_goals rfl

theorem test_decode_LD :
    decodeSlot .ld 0b0001_100101_10111011100_10100_100000000000000011_00000000000000000000 = .ok (.ldv ⟨true, false, 5⟩ 1500 20 0x20003) ∧
    decodeSlot .ld 0b0010_100101_10111011100_10100_100000000000000011_0_01001_10_000000000000 = .ok (.ldvsStrided ⟨true, false, 5⟩ 1500 20 0x20003 9 2) ∧
    decodeSlot .ld 0b0010_100101_10111011100_10100_100000000000000011_1_01110000100_00000000 = .ok (.ldvsGathered ⟨true, false, 5⟩ 1500 20 0x20003 900) ∧
    decodeSlot .ld 0b0011_100101_000000_01001_10100_100000000000000011_00000000000000000000 = .ok (.ldg ⟨true, false, 5⟩ 9 20 0x20003) ∧
    decodeSlot .ld 0b0100_100101_10111011100_10100_100000000000000011_000000_10_000000000000 = .ok (.ldb ⟨true, false, 5⟩ 1500 20 0x20003 2) ∧
    decodeSlot .ld 0b0101_100101_0000000_1001_10100_100000000000000011_00000000000000000000 = .ok (.ldq ⟨true, false, 5⟩ 9 20 0x20003) ∧
    decodeSlot .ld 0b0110_100101_00000000_110_10100_100000000000000011_00000000000000000000 = .ok (.ldm ⟨true, false, 5⟩ 6 20 0x20003) := by
  repeat' apply And.intro
  all_goals rfl

theorem test_decode_ST :
    decodeSlot .st 0b0001_100101_10111011100_10100_0_100000000000000011_000 = .ok (.stvOffset ⟨true, false, 5⟩ 1500 20 0x20003) ∧
    decodeSlot .st 0b0001_100101_10111011100_10100_1_01110000100_0000000000 = .ok (.stvScatter ⟨true, false, 5⟩ 1500 20 900) ∧
    decodeSlot .st 0b0010_100101_10111011100_10100_0_100000000000000011_110 = .ok (.stvmOffset ⟨true, false, 5⟩ 1500 20 0x20003 6) ∧
    decodeSlot .st 0b0010_100101_10111011100_10100_1_01110000100_0000000_110 = .ok (.stvmScatter ⟨true, false, 5⟩ 1500 20 900 6) ∧
    decodeSlot .st 0b0011_100101_000000_01001_10100_0_100000000000000011_000 = .ok (.stg ⟨true, false, 5⟩ 9 20 0x20003) ∧
    decodeSlot .st 0b0100_100101_0000000_1001_10100_0_100000000000000011_000 = .ok (.stq ⟨true, false, 5⟩ 9 20 0x20003) := by
  repeat' apply And.intro
  all_goals rfl

theorem test_decode_CP :
    decodeSlot .cp 0b00001_100101_100_11111111110_00000010010_1_0_10100_01001_01101_000000000000000000000000000 = .ok (.send ⟨true, false, 5⟩ 4 0x7FE 0x012 true 20 9 13) ∧
    decodeSlot .cp 0b00001_100101_100_11111111110_00000010010_1_1_10100_01001_00000000000000000000000000000000 = .ok (.sendNb ⟨true, false, 5⟩ 4 0x7FE 0x012 true 20 9) ∧
    decodeSlot .cp 0b00010_100101_100_11111111110_00000010010_1_0_00000_01001_01101_01110000100_0000000000000000 = .ok (.sendv ⟨true, false, 5⟩ 4 0x7FE 0x012 true 9 13 900) ∧
    decodeSlot .cp 0b00010_100101_100_11111111110_00000010010_1_1_00000_01001_00000_01110000100_0000000000000000 = .ok (.sendvNb ⟨true, false, 5⟩ 4 0x7FE 0x012 true 9 900) ∧
    decodeSlot .cp 0b00100_100101_000000000000000000000000000_10100_00000_01101_000000000000000000000000000 = .ok (.cpy ⟨true, false, 5⟩ 20 13) ∧
    decodeSlot .cp 0b00101_100101_000000000000000000000000000_10100_01001_01101_00011_10001_10010011_000000000 = .ok (.cpg ⟨true, false, 5⟩ 20 9 13 3 17 0x93) ∧
    decodeSlot .cp 0b00110_100101_000_11111111110_00000010010_0_0_10100_01001_01101_1000000011_00000000000000000 = .ok (.rksend ⟨true, false, 5⟩ 0x7FE 0x012 false 20 9 13 0x203) ∧
    decodeSlot .cp 0b01000_100101_1010_00000000000000000000000000000000000000000000000000000000000000000 = .ok (.dact ⟨true, false, 5⟩ 10) ∧
    decodeSlot .cp 0b01001_100101_1010_00000000000000000000000_10100_00000_01101_000000000000000000000000000 = .ok (.drd ⟨true, false, 5⟩ 10 20 13) ∧
    decodeSlot .cp 0b01010_100101_1010_00000000000000000000000_10100_0000000000000000000000000000000000000 = .ok (.dwr ⟨true, false, 5⟩ 10 20) ∧
    decodeSlot .cp 0b01011_100101_1010_00000000000000000000000000000000000000000000000000000000000000000 = .ok (.dpre ⟨true, false, 5⟩ 10) ∧
    decodeSlot .cp 0b01100_100101_000000000000000000000000000000000000000000000000000000000000000000000 = .ok (.dprea ⟨true, false, 5⟩) ∧
    decodeSlot .cp 0b01101_100101_000000000000000000000000000000000000000000000000000000000000000000000 = .ok (.dref ⟨true, false, 5⟩) ∧
    decodeSlot .cp 0b01110_100101_101001_000000000000000000000000000000000000000000000000000000000000000 = .ok (.drefb ⟨true, false, 5⟩ 0x29) ∧
    decodeSlot .cp 0b10000_100101_10_01_1010_0000000000000000000_10100_0000000000_00111_0000000000000000000000 = .ok (.lnkp ⟨true, false, 5⟩ 2 1 10 20 7) ∧
    decodeSlot .cp 0b10001_100101_10_01_1010_000000000000000000000000_01001_01101_00111_0000000000000000000000 = .ok (.lnkg ⟨true, false, 5⟩ 2 1 10 9 13 7) ∧
    decodeSlot .cp 0b10010_100101_000000000000000000000000000_10100_00000_01101_000000000000000000000000000 = .ok (.coll ⟨true, false, 5⟩ 20 13) := by
  repeat' apply And.intro
  all_goals rfl

theorem test_decode_SY :
    decodeSlot .sy 0b00001_1_10000000000000000000000011 = .ok (.waitcImm 0x2000003) ∧
    decodeSlot .sy 0b00001_0_1010_0000000000000000000000 = .ok (.waitcReg 10) ∧
    decodeSlot .sy 0b00010_10100_1_1_10000000000000000011 = .ok (.waitbImm 20 true 0x80003) ∧
    decodeSlot .sy 0b00010_10100_1_0_1010_0000000000000000 = .ok (.waitbReg 20 true 10) ∧
    decodeSlot .sy 0b00011_10100_1_100000000000000000011 = .ok (.bariImm 20 0x100003) ∧
    decodeSlot .sy 0b00011_10100_0_01001_0000000000000000 = .ok (.bariReg 20 9) ∧
    decodeSlot .sy 0b00100_10100_0000000000000000000000 = .ok (.barx 20) ∧
    decodeSlot .sy 0b00101_000000_1_10000000000000000011 = .ok (.drainImm 0x80003) ∧
    decodeSlot .sy 0b00101_000000_0_1010_0000000000000000 = .ok (.drainReg 10) ∧
    decodeSlot .sy 0b00110_1010_00000000000000000000000 = .ok (.realign 10) ∧
    decodeSlot .sy 0b01000_1000000000011_10010011_000000 = .ok (.cropen 0x1003 0x93) ∧
    decodeSlot .sy 0b01001_000000000000000000000000000 = .ok (.crclose) ∧
    decodeSlot .sy 0b01010_000000000000000000000000000 = .ok (.crabort) ∧
    decodeSlot .sy 0b01100_10100_1000000000000101_000000 = .ok (.audo 20 0x8005) ∧
    decodeSlot .sy 0b01101_00000_1000000000000101_000000 = .ok (.audc 0x8005) ∧
    decodeSlot .sy 0b10000_00000000000_1000000000000101 = .ok (.trap 0x8005) ∧
    decodeSlot .sy 0b10001_00000000000_1000000000000101 = .ok (.bkpt 0x8005) ∧
    decodeSlot .sy 0b10011_00000000000_1000000000000101 = .ok (.evt 0x8005) ∧
    decodeSlot .sy 0b10100_00000000000_1000000000000101 = .ok (.tmark 0x8005) ∧
    decodeSlot .sy 0b10010_000000000000000000000000000 = .ok (.halt) ∧
    decodeSlot .sy 0b10101_10100_01001_00000000000000000 = .ok (.dscrd 20 9) := by
  repeat' apply And.intro
  all_goals rfl

/-! ## States for the tests and the witnesses -/

/-- The smallest launch: one sheet column, whose tile (0, 0) is given. -/
def wPart (t : Tile) : Part := { tiles := [(0, t)] }

/-- The machine after reset, but with a partition on band 0, whose tile (0, 0) is under issue. -/
def wOn (p : Part) : State := { State.reset with parts := [(0, p)] }

/-- The machine with that launch. -/
def wState (t : Tile) : State := wOn (wPart t)

/-- Tile (0, 0) of band 0. -/
def wLoc : Loc := { band := 0, idx := 0 }

/-- A bundle under issue. -/
def wIs : Issue := { pc := 8, mask := 0x81, le := false, slots := [], next := 12, inDelay := false, sTransfer := false }

/-- A tile with some general registers. -/
def wTile (g : SMap Word) : Tile := { g := g }

theorem place_tile (s : State) (p : Part) (t : Tile) (hs : s.parts = [(0, p)]) (hc : p.count = 1)
    (ht : mfind p.tiles 0 = some t) : tileAt s { band := 0, idx := 0 } = some (p, t) := by
  simp [tileAt, getPart, mfind, hs, ht, poolBase, inBand, getTile, tx, ty, pw, ph, hc]

theorem place_ready (s : State) (p : Part) (t : Tile) (codes : List Nat) (hs : s.parts = [(0, p)]) (hl : s.cur = { band := 0, idx := 0 })
    (h0 : p.first = 0) (hc : p.count = 1) (ht : mfind p.tiles 0 = some t) (hf : t.flight = []) (hr : t.regErr = []) :
    Ready s p t always codes where
  here := by rw [hl]; exact place_tile s p t hs hc ht
  keyed := by rw [h0, hl]
  guard := by simp [guardTrue, always, rq]
  timely := by intro c _; simp [isLate, hf]
  sound := by intro c _; simp [hr, smem]

theorem wReady (t : Tile) (codes : List Nat) (hf : t.flight = []) (hr : t.regErr = []) :
    Ready (wState t) (wPart t) t always codes := place_ready _ _ _ _ rfl rfl rfl rfl rfl hf hr

theorem wStands (t : Tile) : Stands (wState t) wLoc (wPart t) t := ⟨place_tile _ _ _ rfl rfl rfl, rfl⟩

theorem wHolds (p : Part) (h : p.first = 0) : Holds (wOn p) 0 p := ⟨rfl, h⟩

/-! ## One step -/

/-- What one step of an instruction leaves of the state. -/
def stepped (i : Instr) (s : State) : Option State :=
  match exec i s with
  | .next u => some u
  | .fault _ => none
  | .refused _ => none

/-- What one step leaves of tile (0, 0). -/
def tileAfter (i : Instr) (t : Tile) : Option Tile := (stepped i (wState t)).bind (fun u => tileOf u wLoc)

/-- The results that one step of an instruction puts in flight: where they go, and their flags. -/
def results (i : Instr) (t : Tile) : Option (List (Nat × Dest × Flags)) :=
  (tileAfter i t).map (fun t => t.flight.map (fun e => (e.due, e.dest, e.flags)))

/-- Three registers. -/
def regs (a b c : Word) : Tile := { g := [(1, a), (2, b), (3, c)] }

/-- A vector of four words, element 0 first. -/
def lanes (a b c d : Nat) : Line := BitVec.ofNat 128 (a + b * 2 ^ 32 + c * 2 ^ 64 + d * 2 ^ 96)

/-- Two vector registers. -/
def vecs (a b : Line) : Tile := { v := [(1, a), (2, b)] }

-- R112 to R116, by hand.
theorem test_add_wraps : results (.add always 4 1 2) (regs 0xFFFFFFFF 2 0) = some [(1, .g 4 1, 0)] := by decide +kernel
theorem test_sub_order : results (.sub always 4 1 2) (regs 3 5 0) = some [(1, .g 4 0xFFFFFFFE, 0)] := by decide +kernel
theorem test_shift_count_modulo_32 : results (.sar always 4 1 2) (regs 0x80000000 33 0) = some [(1, .g 4 0xC0000000, 0)] := by decide +kernel
theorem test_mulh_signed : results (.mulh always 4 1 2) (regs 0xFFFFFFFF 2 0) = some [(2, .g 4 0xFFFFFFFF, 0)] := by decide +kernel
theorem test_mulhn_unsigned : results (.mulhn always 4 1 2) (regs 0xFFFFFFFF 2 0) = some [(2, .g 4 1, 0)] := by decide +kernel
theorem test_min_signed : results (.min always 4 1 2) (regs 0xFFFFFFFF 2 0) = some [(1, .g 4 0xFFFFFFFF, 0)] := by decide +kernel
theorem test_minn_unsigned : results (.minn always 4 1 2) (regs 0xFFFFFFFF 2 0) = some [(1, .g 4 2, 0)] := by decide +kernel
theorem test_clz : results (.clz always 4 1) (regs 0x00010000 0 0) = some [(1, .g 4 15, 0)] := by decide +kernel
theorem test_clz_of_zero : results (.clz always 4 0) (regs 1 0 0) = some [(1, .g 4 32, 0)] := by decide +kernel
theorem test_popc : results (.popc always 4 1) (regs 0xF0F00001 0 0) = some [(1, .g 4 9, 0)] := by decide +kernel
theorem test_addi_negative : results (.addi always 4 1 0xFFFFFF) (regs 0 0 0) = some [(1, .g 4 0xFFFFFFFF, 0)] := by decide +kernel
theorem test_lih_keeps_low_half : results (.lih always 1 0xABCD) (regs 0x11112222 0 0) = some [(1, .g 1 0xABCD2222, 0)] := by decide +kernel
theorem test_cmp_ltn : results (.cmpReg always 3 6 1 2) (regs 1 0xFFFFFFFF 0) = some [(1, .q 3 true, 0)] := by decide +kernel
theorem test_cmp_lt : results (.cmpImm always 3 2 1 0xFFFFF) (regs 1 0 0) = some [(1, .q 3 false, 0)] := by decide +kernel
theorem test_sel_true : results (.sel always 4 1 2 0) (regs 7 9 0) = some [(1, .g 4 7, 0)] := by decide +kernel
-- R92: a false guard has no effect.
theorem test_guard_false : tileAfter (.add ⟨true, false, 0⟩ 4 1 2) (regs 1 2 0) = some (regs 1 2 0) := by decide +kernel

-- R51, R48, R50: the worked example of chapter Number Formats, with its draw.
theorem test_vcvt_bf16_sr : results (.vcvt .va always 11 5 4 1 12) { vecs (lanes 0x3F806000 0 0 0) 0 with lfsr := [(0, 0x4C3A9E25), (1, 1), (2, 1), (3, 1)] } =
    some [(3, .v 4 0x3F81, 0x10)] := by decide +kernel
theorem test_vcvt_advances_lane : (tileAfter (.vcvt .va always 11 5 4 1 12)
    { vecs (lanes 0x3F806000 0 0 0) 0 with lfsr := [(0, 0x4C3A9E25), (1, 1), (2, 1), (3, 1)] }).map (fun t => mget 0 t.lfsr 0) =
    some 0xA63D4F11 := by decide +kernel
-- The worked example of R143.
theorem test_vfcmp_mask : results (.vfcmp .va always 12 0 2 1 2 2) (vecs (lanes 0x3F800000 0xC0000000 0x40400000 0xBF000000) 0) =
    some [(3, .m 2 0xF0F0, 0)] := by decide +kernel
theorem test_vpart_stable : results (.vpart .va always 6 0 10 1 2) { vecs (lanes 0 1 2 3) 0 with m := [(2, 0xF0F0)] } =
    some [(4, .v 10 (lanes 1 3 0 2), 0)] := by decide +kernel
theorem test_vcnt : results (.vcnt .va always 6 0 4 1) (vecs (lanes 0 1 0 1) 0) = some [(2, .v 4 (lanes 2 2 2 2), 0)] := by decide +kernel
-- The worked example of R154.
theorem test_vmeanm : results (.vmeanm .va always 12 1 30 1 2)
    (vecs (lanes 0x41400000 0x40E00000 0x3F800000 0xC0400000) (lanes 0xF 0xB 7 0)) =
    some [(14, .v 30 (lanes 0x40400000 0x40155555 0x3EAAAAAB 0x7FC00000), 0x11)] := by decide +kernel
-- The worked example of R69: 1.5, -0.25, 2^-30 and 2^-65 in a record of anchor 0x81.
theorem test_vbini : results (.vbini .va always 0 0 20 0x81) {} = some [(1, .v 20 0x81000000000000000000000000000000, 0)] := by decide +kernel
theorem test_vbinadd : results (.vbinaddValue .va always 12 0 20 1 2)
    (vecs 0x81000000000000000000000000000000 (lanes 0x3FC00000 0xBE800000 0x30800000 0x1F000000)) =
    some [(3, .v 20 0x81000000050000000000100000000000, 0)] := by decide +kernel
theorem test_vbincvt : results (.vbincvt .va always 12 0 22 1) (vecs 0x81000000050000000000100000000000 0) =
    some [(3, .v 22 0x3FA00000, 0x10)] := by decide +kernel
-- R134, R135, R141, R153 by hand.
theorem test_vadds_saturates : results (.vadds .va always 2 0 4 1 2) (vecs (lanes 0x7F7F7F7F 0x80808080 0 0) (lanes 0x01010101 0xFFFFFFFF 0 0)) =
    some [(1, .v 4 (lanes 0x7F7F7F7F 0x80808080 0 0), 0)] := by decide +kernel
theorem test_vmulh_i16 : results (.vmulh .va always 4 0 4 1 1) (vecs (lanes 0x80008000 0xFFFF0001 0 0) 0) =
    some [(3, .v 4 (lanes 0x40004000 0 0 0), 0)] := by decide +kernel
theorem test_vsar_i8 : results (.vsar .va always 2 0 4 1 4) (vecs (lanes 0x80 0x7F 0 0) 0) = some [(1, .v 4 (lanes 0xF8 7 0 0), 0)] := by decide +kernel
theorem test_vshuf_zero_and_second : results (.vshuf .va always 0 0 4 1 2 0) { vecs (lanes 0x04030201 0 0 0) (lanes 0xAA 0 0 0) with
    v := [(0, lanes 0x03801000 0 0 0), (1, lanes 0x04030201 0 0 0), (2, lanes 0xAA 0 0 0)] } =
    some [(2, .v 4 (lanes 0x0400AA01 0x01010101 0x01010101 0x01010101), 0)] := by decide +kernel
theorem test_vzip_low : results (.vzip .va always 6 0 4 1 2 false) (vecs (lanes 1 2 3 4) (lanes 5 6 7 8)) =
    some [(2, .v 4 (lanes 1 5 2 6), 0)] := by decide +kernel
theorem test_vfadd_to_nearest_even : results (.vfadd .va always 12 1 4 1 2) (vecs (lanes 0x3F800000 0x3F800001 0 0) (lanes 0x33800000 0x33800000 0 0)) =
    some [(3, .v 4 (lanes 0x3F800000 0x3F800002 0 0), 0x10)] := by decide +kernel
theorem test_vfdiv_by_zero : results (.vfdiv .va always 12 1 4 1 2) (vecs (lanes 0xBF800000 0x3F800000 0x3F800000 0x3F800000) (lanes 0 0x40400000 0x3F800000 0x3F800000)) =
    some [(14, .v 4 (lanes 0xFF800000 0x3EAAAAAB 0x3F800000 0x3F800000), 0x12)] := by decide +kernel
theorem test_vhsum_f32 : results (.vhsum .va always 12 1 4 1) (vecs (lanes 0x3F800000 0x40000000 0x40400000 0x40800000) 0) =
    some [(3, .v 4 (lanes 0x41200000 0 0 0), 0)] := by decide +kernel
-- R13: a destination in the other cluster lands one cycle later.
theorem test_other_cluster : results (.vfadd .va always 12 1 800 1 2) {} = some [(4, .v 800 0, 0)] := by decide +kernel

-- R161, R162, R164: little-endian bytes, addresses modulo 2^18, by hand.
def mem4 : Tile := { g := [(1, 0x104)], sram := [(0x100, 0x11), (0x101, 0x22), (0x102, 0x33), (0x103, 0x84)] }
theorem test_ldg_negative_offset : results (.ldg always 4 1 0x3FFFC) mem4 = some [(3, .g 4 0x84332211, 0)] := by decide +kernel
theorem test_ldb_halves : results (.ldb always 4 1 0x3FFFC 1) mem4 = some [(3, .v 4 (lanes 0x22112211 0x22112211 0x22112211 0x22112211), 0)] := by
  decide +kernel
theorem test_stg_little_endian : (tileAfter (.stg always 2 1 0) { mem4 with g := [(1, 0x102), (2, 0xAABBCCDD)] }).map (fun t => t.sram) =
    some [(0x100, 0xDD), (0x101, 0xCC), (0x102, 0xBB), (0x103, 0xAA)] := by decide +kernel
-- R170: the worked example's EVC.
theorem test_poisoned_load : (tileAfter (.ldv always 6 1 0) { g := [(1, 0x2400)], poison := [0x481] }).map (fun t => (t.evc, t.flight)) =
    some (0x04810109, []) := by decide +kernel

-- R175: two i8 products of -1 by -1 for every element.
def mmaRun : Tile := { mx := [{ id := 1, t := 0, pc := 0, kind := .mma 1 2 2 3 (2 ^ 256 - 1) (2 ^ 256 - 1) }] }
theorem test_mma_i8 : (tileAfter (.accumulatorChange wLoc 1 false) mmaRun).map (fun t => (mget 0 t.z 256, mget 0 t.z 375, mget 0 t.z 264, mget 0 t.z 0)) =
    some (2, 2, 0, 0) := by decide +kernel
-- R61: the worked example of a scale step.
theorem test_scalc_element : scalcElem (fdecode Ty.f16.fmt 0x3800) (fdecode Ty.f16.fmt 0x2E66) 1000 0x3FC00000 = (0x424DF380, 0) := by decide +kernel
-- R173: the worked example's second and third step, and its last.
def genTile (a : BitVec 18) (l0 l1 : Word) : Tile :=
  { ma := [(0, a), (1, 192), (2, 32)],
    loop := { levels := List.replicate 2 { start := 0, end_ := 9, d := 0, rp := false, rv := false, window := 0 }, lc := [(0, l0), (1, l1)] } }
theorem test_generator_inner : mget 0 (advanceBoth (genTile 0x1020 2 2) 0 0).ma 0 = 0x1040 := by decide +kernel
theorem test_generator_outer : mget 0 (advanceBoth (genTile 0x1040 2 1) 0 0).ma 0 = 0x1100 := by decide +kernel
theorem test_generator_none : mget 0 (advanceBoth (genTile 0x1140 1 1) 0 0).ma 0 = 0x1140 := by decide +kernel

-- R36: the worked example of a barrier record.
theorem test_barrier_overrun : mergeUpdate { expected := 256, arrived := 224, phase := false, armed := true, ovr := false, rest := 0 } 40 =
    { expected := 256, arrived := 0, phase := true, armed := false, ovr := true, rest := 0 } := by decide +kernel
-- R198: the worked example's route from (2, 5), three east and two north.
def wRoute (k : Nat) : Nat :=
  hopAt { src := tileIdx 2 5, dx := 3, dy := -2, inj := 400, hop := 0, engine := false, second := false, dop := 0, wide := true, part := false,
          pair := 0, addr := 0, bar := none, payload := 0, poison := false } k
theorem test_route : (List.range 6).map wRoute = [tileIdx 2 5, tileIdx 3 5, tileIdx 4 5, tileIdx 5 5, tileIdx 5 4, tileIdx 5 3] := by decide +kernel

-- R227: the worked example's encoding; R244, R26: TRAP's event.
theorem test_waitc_word : decodeSlot .sy 0x0C001388 = .ok (.waitcImm 5000) := rfl
theorem test_vpart_word : decodeSlot .va 0x4E03001402000002 = .ok (.vpart .va ⟨false, false, 0⟩ 6 0 10 8 2) := rfl
theorem test_trap : (tileAfter (.trap 0x1234) { seq := { issue := some wIs } }).map (fun t => (t.evc, t.epc, t.done, t.seq.stopped)) =
    some (0x1234010D, 8 * 8 + 7, 0x7F, true) := by decide +kernel
theorem test_free_opcode : (tileAfter (.unassignedOpcode .ld 0xF) { seq := { pc := 3 } }).map (fun t => (t.evc, t.epc)) =
    some (0x00070101, 3 * 8 + 4) := by decide +kernel
-- The worked example of R398: a store on watched bytes is precise and is not performed.
theorem test_watched_store : (tileAfter (.stg always 2 1 0) { g := [(1, 0x2408), (2, 9)], watches := [(2, { base := 0x2400, lines := 1, mask := 0x0FF0 })] }).map
    (fun t => (t.evc, t.epc, t.done, t.sram)) = some (0x0002010B, 5, 0xDF, []) := by decide +kernel

-- The worked example of R414: 600 is below the sum of resident caps, 640 and 680 are not.
def wCaps : State :=
  { State.reset with parts := [(0, { first := 0, rec_ := { cap := 400, first := 0, count := 6 } }), (8, { first := 8, rec_ := { cap := 240, first := 8, count := 4 } })] }
theorem test_budget_discarded : (stepped (.budgetWrite 600) wCaps).map (fun u => u.budget) = some 720 := by decide +kernel
theorem test_budget_accepted : (stepped (.budgetWrite 680) wCaps).map (fun u => u.budget) = some 680 := by decide +kernel

/-! ## Witnesses: states and operands that meet the hypotheses of the statements -/

/-! ### The S slot -/

theorem witness_ScalarArithmeticResults : Ready (wState {}) (wPart {}) {} always [codeG 31, codeG 0] ∧
    ∀ i ∈ ([.add always 31 31 0, .sub always 31 31 0, .and_ always 31 31 0, .or_ always 31 31 0, .xor_ always 31 31 0,
      .shl always 31 31 0, .shr always 31 31 0, .sar always 31 31 0, .mul always 31 31 0, .mulh always 31 31 0,
      .mulhn always 31 31 0, .min always 31 31 0, .max always 31 31 0, .minn always 31 31 0, .maxn always 31 31 0] : List Instr),
      WellFormed i :=
  ⟨wReady _ _ rfl rfl, by decide⟩

theorem witness_ScalarImmediateResults : Ready (wState {}) (wPart {}) {} always [codeG 31] ∧
    ∀ i ∈ ([.clz always 31 31, .popc always 31 31, .addi always 31 31 0xFFFFFF, .andi always 31 31 0xFFFFFF, .ori always 31 31 0xFFFFFF,
      .xori always 31 31 0xFFFFFF, .shli always 31 31 31, .shri always 31 31 31, .sari always 31 31 31, .li always 31 0xFFFFFF,
      .lih always 31 0xFFFF] : List Instr), WellFormed i :=
  ⟨wReady _ _ rfl rfl, by decide⟩

theorem witness_ScalarPredicateResults : Ready (wState {}) (wPart {}) {} always [codeG 31, codeG 0, codeQ 15, codeQ 0] ∧
    ∀ i ∈ ([.sel always 31 31 0 15, .cmpReg always 15 9 31 0, .cmpImm always 15 9 31 0xFFFFF, .qand always 15 15 0, .qor always 15 15 0,
      .qnot always 15 15] : List Instr), WellFormed i :=
  ⟨wReady _ _ rfl rfl, by decide⟩

theorem witness_SpecialRegisters : Ready (wState {}) (wPart {}) {} always [codeG 30] ∧
    (∀ i ∈ ([.rds always 31 0xE5, .rds always 31 0x14, .rds always 31 3, .wrs always 30 0x0E, .rdcyc always 30] : List Instr), WellFormed i) ∧
    (0xE5, (mget 0 ({} : Tile).ltc 0xE5).toNat) ∈ (List.range 102).map (fun k => (0x80 + k, (mget 0 ({} : Tile).ltc (0x80 + k)).toNat)) ∧
    (3#8 : BitVec 8).toNat = 3 :=
  ⟨wReady _ _ rfl rfl, by decide, by decide, rfl⟩

/-- Five open loop levels: one more may open. -/
def wLoops : Tile :=
  { loop := { levels := List.replicate 5 { start := 0, end_ := 100, d := 0, rp := false, rv := false, window := 0 } }, seq := { issue := some wIs } }

theorem witness_TransfersAndLoops : Ready (wState wLoops) (wPart wLoops) wLoops always [codeG 31, codeQ 15] ∧
    wLoops.seq.issue = some wIs ∧ wIs.inDelay = false ∧ levelsAfterLe wLoops wIs = 5 ∧ wIs.next.toNat ≤ (12 : BitVec 13).toNat ∧
    ∀ i ∈ ([.br always 0x1FFF, .brq always 0x1FFF 15 true, .call always 0x1FFF, .ret always 31, .jmpg always 31,
      .loop always 12 true true 6 31, .loopi always 12 false false 0 0xFFFF] : List Instr), WellFormed i :=
  ⟨wReady _ _ rfl rfl, rfl, rfl, by decide, by decide, by decide⟩

theorem witness_EmptyBundleChangesNothing : tileAt (wState {}) (wState {}).cur = some (wPart {}, {}) ∧
    (wPart {}).first = (wState {}).cur.band := ⟨place_tile _ _ _ rfl rfl rfl, rfl⟩

/-! ### The vector slots -/

theorem witness_VectorIntegerResults : Ready (wState {}) (wPart {}) {} always [codeV {} 767, codeV {} 0, codeV {} 1] ∧
    ∀ i ∈ ([.vadd .va always 7 0 1535 767 0, .vsub .va always 0 0 1535 767 0, .vmul .va always 1 0 1535 767 0,
      .vmulh .va always 6 0 1535 767 0, .vmac .va always 2 0 1535 767 0 1, .vmin .va always 3 0 1535 767 0,
      .vmax .va always 4 0 1535 767 0, .vabs .va always 6 0 1535 767, .vneg .va always 0 0 1535 767,
      .vadds .va always 5 0 1535 767 0, .vsubs .va always 6 0 1535 767 0] : List Instr), WellFormed i :=
  ⟨wReady _ _ rfl rfl, by decide⟩

theorem witness_VectorBitsAndSelection : Ready (wState {}) (wPart {}) {} always [codeV {} 1535, codeV {} 768, codeM 7] ∧
    ∀ i ∈ ([.vshl .vb always 6 0 0 1535 31, .vshr .vb always 1 0 0 1535 3, .vsar .vb always 2 0 0 1535 7, .vand .vb always 0 0 0 1535 768,
      .vor .vb always 0 0 0 1535 768, .vxor .vb always 0 0 0 1535 768, .vnot .vb always 0 0 0 1535, .vcmp .vb always 7 0 7 1535 768 5,
      .vsel .vb always 0 0 0 1535 768 7] : List Instr), WellFormed i :=
  ⟨wReady _ _ rfl rfl, by decide⟩

theorem witness_VectorLaneMoves :
    Ready (wState {}) (wPart {}) {} always [codeV {} 767, codeV {} 0, codeV {} 1, codeV {} 2, codeG 31, codeM 7] ∧
    ∀ i ∈ ([.vbcastScalar .va always 12 0 2 31, .vbcastVector .va always 0 0 2 767 31, .vext .va always 6 0 31 767 3,
      .vins .va always 2 0 2 31 15, .vshuf .va always 0 0 2 767 0 1, .vrot .va always 1 0 2 767 31, .vzip .va always 8 0 2 767 0 true,
      .vunzip .va always 9 0 2 767 0 false, .vpart .va always 7 0 2 767 7, .vcnt .va always 0 0 2 767, .vmov .va always 0 0 2 767,
      .vli .va always 7 0 2 0x3FFFFF] : List Instr), WellFormed i :=
  ⟨wReady _ _ rfl rfl, by decide⟩

theorem witness_VectorFloatArithmetic : Ready (wState {}) (wPart {}) {} always [codeV {} 767, codeV {} 0, codeV {} 1] ∧
    msorted ({} : Tile).lfsr = true ∧
    ∀ i ∈ ([.vfadd .va always 12 5 1535 767 0, .vfsub .va always 10 0 1535 767 0, .vfmul .va always 11 1 1535 767 0,
      .vfma .va always 12 2 1535 767 0 1, .vfms .va always 12 3 1535 767 0 1, .vfnma .va always 12 4 1535 767 0 1] : List Instr), WellFormed i :=
  ⟨wReady _ _ rfl rfl, rfl, by decide⟩

theorem witness_VectorFloatQuotientsAndConversions : Ready (wState {}) (wPart {}) {} always [codeV {} 767, codeV {} 0] ∧
    msorted ({} : Tile).lfsr = true ∧
    ∀ i ∈ ([.vfdiv .va always 12 5 1535 767 0, .vfsqrt .va always 10 0 1535 767, .vfrsq .va always 11 1 1535 767,
      .vfrcp .va always 12 2 1535 767, .vfscl .va always 12 3 1535 767 0, .vmeanm .va always 12 4 1535 767 0,
      .vcvt .va always 0 0 1535 767 7, .vcvt .va always 12 5 1535 767 0, .vhsum .va always 12 5 1535 767] : List Instr), WellFormed i :=
  ⟨wReady _ _ rfl rfl, rfl, by decide⟩

theorem witness_VectorFloatExact : Ready (wState {}) (wPart {}) {} always [codeV {} 767, codeV {} 0] ∧
    ∀ i ∈ ([.vfmin .va always 12 0 1535 767 0, .vfmax .va always 10 0 1535 767 0, .vfabs .va always 11 0 1535 767,
      .vfneg .va always 12 0 1535 767, .vfclass .va always 8 0 1535 767, .vfcmp .va always 12 0 7 767 0 6] : List Instr), WellFormed i :=
  ⟨wReady _ _ rfl rfl, by decide⟩

theorem witness_BinnedRecordResults : Ready (wState {}) (wPart {}) {} always [codeV {} 767, codeV {} 0] ∧
    ∀ i ∈ ([.vbini .va always 0 0 1535 0xFF, .vbinaddValue .va always 12 0 1535 767 0, .vbinaddMerge .va always 0 0 1535 767 0,
      .vbincvt .va always 10 1 1535 767] : List Instr), WellFormed i :=
  ⟨wReady _ _ rfl rfl, by decide⟩

theorem witness_BinnedSumsAreOrderFree :
    (List.replicate 16384 (fdecode Ty.f32.fmt 0x3F800000)).length + (List.replicate 16384 (fdecode Ty.f32.fmt 1)).length ≤ 32768 ∧
    (List.replicate 16384 (fdecode Ty.f32.fmt 1)).Perm (List.replicate 16384 (fdecode Ty.f32.fmt 1)) :=
  ⟨by simp only [List.length_replicate]; omega, List.Perm.refl _⟩

/-! ### Loads, stores and landings -/

/-- The last line of data SRAM in g1, and nothing else. -/
def wLast : Tile := wTile [(1, 0x27FF0)]

/-- A list of bytes fits the data SRAM, and its banks and granules are free. -/
abbrev Free (t : Tile) (sl : Slot) (as : List Nat) (n : Nat) : Prop :=
  Clear t sl as (as.map (fun a => (a, n))) ∧ ∀ a ∈ as, a < sramEnd

theorem witness_LoadResults : Ready (wState wLast) (wPart wLast) wLast always [codeG 1, codeG 0, codeV wLast 1535] ∧
    (∀ i ∈ ([.ldv always 1535 1 0, .ldvsStrided always 1535 1 0 0 3, .ldvsGathered always 1535 1 0 1535, .ldg always 31 1 12,
      .ldb always 1535 1 8 3, .ldq always 15 1 15, .ldm always 7 1 14] : List Instr), WellFormed i) ∧
    Free wLast .ld [effAddr (rg wLast 1) 0 0 4] 16 ∧ Free wLast .ld [effAddr (rg wLast 1) 12 0 2] 4 ∧
    Free wLast .ld [effAddr (rg wLast 1) 8 0 3] 8 ∧ Free wLast .ld [effAddr (rg wLast 1) 15 0 0] 1 ∧
    Free wLast .ld [effAddr (rg wLast 1) 14 0 1] 2 ∧
    Free wLast .ld ((List.range 2).map (fun (k : Nat) => effAddr (rg wLast 1) 0 (k * (rg wLast 0).toInt) 3)) 8 ∧
    Free wLast .ld ((List.range 4).map (fun k => effAddr (rg wLast 1) 0 (sgn 32 (elem 32 (vop wLast 1535) k)) 2)) 4 ∧
    effAddr (rg wLast 1) 15 0 0 = 0x27FFF :=
  ⟨wReady _ _ rfl rfl, by decide, ⟨⟨by decide, by decide⟩, by decide⟩, ⟨⟨by decide, by decide⟩, by decide⟩,
    ⟨⟨by decide, by decide⟩, by decide⟩, ⟨⟨by decide, by decide⟩, by decide⟩, ⟨⟨by decide, by decide⟩, by decide⟩,
    ⟨⟨by decide, by decide⟩, by decide⟩, ⟨⟨by decide, by decide⟩, by decide⟩, by decide⟩

/-- The banks of a store's lines are free, and its addresses fit. -/
abbrev FreeSt (t : Tile) (as : List Nat) : Prop := Clear t .st (as.map lineOfAddr) [] ∧ ∀ a ∈ as, a < sramEnd

theorem witness_StoreResults :
    Ready (wState wLast) (wPart wLast) wLast always [codeV wLast 1535, codeV wLast 0, codeG 1, codeG 31, codeQ 15, codeM 7] ∧
    wLast.watches = [] ∧ memWf wLast.sram = true ∧
    (∀ i ∈ ([.stvOffset always 1535 1 0, .stvmOffset always 1535 1 0 7, .stvScatter always 1535 1 0, .stvmScatter always 1535 1 0 7,
      .stg always 31 1 12, .stq always 15 1 15] : List Instr), WellFormed i) ∧
    FreeSt wLast [effAddr (rg wLast 1) 0 0 4] ∧ FreeSt wLast [effAddr (rg wLast 1) 12 0 2] ∧ FreeSt wLast [effAddr (rg wLast 1) 15 0 0] ∧
    FreeSt wLast ((List.range 4).map (fun k => effAddr (rg wLast 1) 0 (sgn 32 (elem 32 (vop wLast 0) k)) 2)) :=
  ⟨wReady _ _ rfl rfl, rfl, rfl, by decide, ⟨⟨by decide, by decide⟩, by decide⟩, ⟨⟨by decide, by decide⟩, by decide⟩,
    ⟨⟨by decide, by decide⟩, by decide⟩, ⟨⟨by decide, by decide⟩, by decide⟩⟩

/-- Two results for g31, of one cycle, from slots S and LD. -/
def wFlight : Tile :=
  { flight := [{ issued := 0, due := 0, slot := 4, seq := 1, dest := .g 31 7, flags := 0 },
      { issued := 0, due := 0, slot := 0, seq := 2, dest := .g 31 9, flags := 1 }] }

theorem witness_ResultsLand : tileWf wFlight = true ∧ Stands (wState wFlight) wLoc (wPart wFlight) wFlight ∧
    (∃ e f, wFlight.flight.filter (fun x => decide (x.due ≤ (wPart wFlight).gcyc)) = [e, f] ∧ (31 : Nat) ≠ 0 ∧
      e.dest = .g 31 7 ∧ f.dest = .g 31 9) ∧
    ∃ e, (wTile []).flight ++ [{ issued := 0, due := 0, slot := 0, seq := 2, dest := .sreg 0x0C 9, flags := 1 }] = [e] ∧ e.due ≤ 0 :=
  ⟨rfl, wStands _, ⟨_, _, rfl, by decide, rfl, rfl⟩, ⟨_, rfl, by decide⟩⟩

/-! ### The MX slot -/

/-- Operand blocks at the bottom and near the top of data SRAM, zero points and scales at its top. -/
def wMx : Tile := { g := [(1, 0x27F00), (2, 0x27E00)], ma := [(24, 0x27FC0)] }

theorem witness_MatrixStepsIssue :
    Ready (wState wMx) (wPart wMx) wMx always [codeG 1, codeG 2] ∧ wMx.zErr = [] ∧ msorted wMx.kc = true ∧
    (∀ i ∈ ([.mma always 3 0 3 9 8 0, .mmaq always 3 0 3 3 0 3 2 1 1 15, .scalc always 3 0 2 2 15, .zclr always 3 3] : List Instr),
      WellFormed i) ∧
    (InSram (blockAddr wMx 0 32) 32 ∧ InSram (blockAddr wMx 3 32) 32 ∧ lostRow wMx 3 (List.range 16) 6 = none ∧
      Clear wMx .mx (lineList (blockAddr wMx 0 32) 32 ++ lineList (blockAddr wMx 3 32) 32)
        [(blockAddr wMx 0 32, 32), (blockAddr wMx 3 32, 32)]) ∧
    (InSram (blockAddr wMx 0 32) 32 ∧ InSram (blockAddr wMx 3 16) 16 ∧ 0x27F00 % 256 = 0 ∧ InSram 0x27F00 256 ∧
      15 + mget 0 wMx.kc 3 / (32 * 2 ^ 2) < 16 ∧ (rg wMx 1).toNat % 2 ^ 18 = 0x27F00 ∧
      Clear wMx .mx (lineList (blockAddr wMx 0 32) 32 ++ lineList (blockAddr wMx 3 16) 16 ++ [0x27F00 + 16 * 15])
        [(blockAddr wMx 0 32, 32), (blockAddr wMx 3 16, 16), (0x27F00 + 16 * 15, 16)]) ∧
    (0x27E00 % 512 = 0 ∧ InSram 0x27E00 512 ∧ (rg wMx 2).toNat % 2 ^ 18 = 0x27E00 ∧
      Clear wMx .mx (lineList (0x27E00 + 32 * 15) 32) [(0x27E00 + 32 * 15, 32)]) ∧
    lostRow wMx 3 (List.range 16) 1 = none := by
  refine ⟨wReady _ _ rfl rfl, rfl, rfl, by decide, ⟨by decide, by decide, by decide, ⟨by decide, by decide⟩⟩,
    ⟨by decide, by decide, by decide, by decide, by decide, by decide, ⟨by decide, by decide⟩⟩,
    ⟨by decide, by decide, by decide, ⟨by decide, by decide⟩⟩, by decide⟩

/-- Six open levels, of which the second loops back. -/
def wSix : Tile :=
  { ma := [(24, 5), (26, 7)],
    loop := { levels := List.replicate 6 { start := 0, end_ := 100, d := 0, rp := false, rv := false, window := 0 }, lc := [(1, 2)] } }

theorem witness_GeneratorsAdvanceByTheDeepestLevel : msorted wSix.ma = true ∧ wSix.loop.levels.length ≤ 6 ∧
    (1 < wSix.loop.levels.length ∧ 1 < (mget 0 wSix.loop.lc 1).toNat ∧
      ∀ i, 1 < i → i < wSix.loop.levels.length → ¬ 1 < (mget 0 wSix.loop.lc i).toNat) ∧
    ∀ j, j < ({} : Tile).loop.levels.length → ¬ 1 < (mget 0 ({} : Tile).loop.lc j).toNat := by
  refine ⟨rfl, by decide, ⟨by decide, by decide, ?_⟩, ?_⟩
  · intro i h1 h2
    have h2 : i < 6 := h2
    have : ∀ i, i < 6 → 1 < i → ¬ 1 < (mget 0 wSix.loop.lc i).toNat := by decide
    exact this i h2 h1
  · intro j hj; exact absurd hj (by simp)

/-- The last places that accumulator and table lines can take. -/
def wAcc : Tile := wTile [(1, 0x27C00), (2, 0x27FF0)]

theorem witness_AccumulatorLoadsAndStoresIssue : Ready (wState wAcc) (wPart wAcc) wAcc always [codeG 31, codeG 1] ∧ wAcc.zErr = [] ∧
    (∀ i ∈ ([.zld always 3 1 0, .zst always 3 12 0 1 0, .zst always 0 11 5 1 0x200, .attld always 0xF8 7 2 0, .mxagReg always 3 6 31,
      .mxagImm always 3 6 0x3FFFF] : List Instr), WellFormed i) ∧
    (InSram (effAddr (rg wAcc 1) 0 0 6) 1024 ∧ effAddr (rg wAcc 1) 0 0 6 = 0x27C00 ∧
      Clear wAcc .mx (lineList (effAddr (rg wAcc 1) 0 0 6) 128) [(effAddr (rg wAcc 1) 0 0 6, 128)]) ∧
    (InSram (effAddr (rg wAcc 1) 0 0 6) (32 * 32) ∧ InSram (effAddr (rg wAcc 1) 0x200 0 5) (32 * 16) ∧ staleRow wAcc 3 0 = none) ∧
    (InSram (effAddr (rg wAcc 2) 0 0 4) (2 * 8) ∧
      Clear wAcc .mx [effAddr (rg wAcc 2) 0 0 4] [(effAddr (rg wAcc 2) 0 0 4, 16)]) :=
  ⟨wReady _ _ rfl rfl, rfl, by decide, ⟨by decide, by decide, ⟨by decide, by decide⟩⟩, ⟨by decide, by decide, by decide⟩,
    ⟨by decide, ⟨by decide, by decide⟩⟩⟩

/-- A list at the top of data SRAM and an array below it. -/
def wRank : Tile := wTile [(1, 0x27FD0), (2, 0x27000), (3, 0x3F800000)]

theorem witness_RankInstructionsIssue : Ready (wState wRank) (wPart wRank) wRank always [codeG 3, codeG 1, codeG 2] ∧ wRank.zErr = [] ∧
    (∀ i ∈ ([.rank always 12 1023 15 1 2, .rankThreshold always 11 1023 15 3 1 2, .rkacc always 3 15 12 15 1 2,
      .unrank always 12 15 1023 1 2] : List Instr), WellFormed i) ∧
    (InSram (regAddr wRank 2 4) (1024 * (32 / 8)) ∧ InSram (regAddr wRank 1 4) (16 * ((8 + 2 * 16 + 15) / 16)) ∧ wRank.rankBusy ≤ 0 ∧
      Clear wRank .mx (rankBlockLines 12 1024 (regAddr wRank 2 4) 0) ((rankBlockLines 12 1024 (regAddr wRank 2 4) 0).map (fun a => (a, 16)))) ∧
    (InSram (regAddr wRank 1 3) (2 * 16) ∧ wRank.termBusy ≤ 0 ∧
      Clear wRank .mx [lineOfAddr (regAddr wRank 1 3)] [(lineOfAddr (regAddr wRank 1 3), 16)]) ∧
    lostRow wRank 3 [15] 6 = none ∧ lateEntry wRank 16 (fun j => 1 + j) = none ∧
    InSram (regAddr wRank 2 4) (1024 * 32 / 8) ∧ lateEntry wRank 16 (fun _ => listLines (regAddr wRank 1 3) 16) = none :=
  ⟨wReady _ _ rfl rfl, rfl, by decide, ⟨by decide, by decide, by decide, ⟨by decide, by decide⟩⟩,
    ⟨by decide, by decide, ⟨by decide, by decide⟩⟩, by decide, by decide, by decide, by decide⟩

/-- A tile with one MX operation under way. -/
def wOp (k : MxKind) : MxOp := { id := 1, t := 0, pc := 0, kind := k }
def wRun (k : MxKind) : Tile := { mx := [wOp k] }

theorem wMxOf (k : MxKind) : mxOf (wRun k) 1 = some (wOp k) := by simp [mxOf, wRun, wOp]

theorem witness_AccumulatorChanges :
    (∀ k ∈ ([.mma 3 2 3 3 7 9, .mma 3 9 8 0 7 9, .mmaq 3 3 0 0 7 9 1 16 15, .scalc 3 3 5 0x1E0, .clr 3 3] : List MxKind),
      Stands (wState (wRun k)) wLoc (wPart (wRun k)) (wRun k) ∧ mxOf (wRun k) 1 = some (wOp k) ∧ (wOp k).dead = none ∧
        tileWf (wRun k) = true) ∧
    Quiet (wRun (.mmaq 3 3 0 0 7 9 1 0x27FF0 15)) [0x27FF0] ∧ Quiet (wRun (.scalc 3 3 5 0x27FE0)) [0x27FE0, 0x27FF0] :=
  ⟨fun _ _ => ⟨wStands _, wMxOf _, rfl, rfl⟩, ⟨rfl, by decide⟩, ⟨rfl, by decide⟩⟩

theorem witness_RowPairsAndTableEntries :
    (∀ k ∈ ([.zld 3 0x27C00, .zst 3 0x27C00 12 .rne [], .attld 0xFF 1 0x27F80] : List MxKind),
      Stands (wState (wRun k)) wLoc (wPart (wRun k)) (wRun k) ∧ mxOf (wRun k) 1 = some (wOp k) ∧ (wOp k).dead = none ∧
        tileWf (wRun k) = true) ∧
    7 < 8 ∧ Quiet (wRun (.zld 3 0x27C00)) (lineList (0x27C00 + 128 * 7) 128) ∧
    ((wRun (.zst 3 0x27C00 12 .rne [])).accs = [] ∧ 0x27C00 % 16 = 0 ∧ 4 * tyWidth 12 % 16 = 0) ∧
    (Quiet (wRun (.attld 0xFF 1 0x27F80)) [0x27F80 + 16 * 7] ∧ 0x27F80 % 16 = 0) :=
  ⟨fun _ _ => ⟨wStands _, wMxOf _, rfl, rfl⟩, by decide, ⟨rfl, by decide⟩, ⟨rfl, by decide, by decide⟩, ⟨rfl, by decide⟩, by decide⟩

/-- An accumulation whose list begins with a pair that adds nothing, and whose second term has its weight. -/
def wTerm : MxOp := { wOp (.rkacc 3 15 12 2 0x100 0x200) with buf := [(0, 0xFFFF), (weightKey 1, 0x3F800000), (entryKey 1, 0x3F80)] }
def wTermTile : Tile := { mx := [wTerm] }

theorem witness_RankUnitOrdersAndSteps :
    (∀ k ∈ ([.rank 12 1024 16 0x27FD0 0x27000 none, .rkacc 3 15 12 16 0x100 0x27000, .unrank 12 16 1024 0x100 0x27000] : List MxKind),
      Stands (wState (wRun k)) wLoc (wPart (wRun k)) (wRun k) ∧ mxOf (wRun k) 1 = some (wOp k) ∧ (wOp k).dead = none ∧
        tileWf (wRun k) = true) ∧
    (Quiet (wRun (.rank 12 1024 16 0x27FD0 0x27000 none)) (rankBlockLines 12 1024 0x27000 63) ∧ 0x27000 % 16 = 0) ∧
    ((wRun (.rank 12 1024 16 0x27FD0 0x27000 none)).accs = [] ∧ mfind (wOp (.rank 12 1024 16 0x27FD0 0x27000 none)).buf listKey = none ∧
      0x27FD0 % 16 = 0 ∧ 16 * 2 < 8 + 2 * 16) ∧
    Quiet (wRun (.rkacc 3 15 12 16 0x100 0x27000)) [lineOfAddr 0x100 + 16 * 2] ∧
    (Stands (wState wTermTile) wLoc (wPart wTermTile) wTermTile ∧ mxOf wTermTile 1 = some wTerm ∧ wTerm.dead = none ∧
      listHalf wTerm.buf (listOff 0x100) 0 = 0xFFFF ∧ mfind wTerm.buf (weightKey 1) = some 0x3F800000) ∧
    (16 * 255 < 1024 * tyWidth 12 / 8 ∧ (wRun (.unrank 12 16 1024 0x100 0x27000)).accs = []) :=
  ⟨fun _ _ => ⟨wStands _, wMxOf _, rfl, rfl⟩, ⟨⟨rfl, by decide⟩, by decide⟩, ⟨rfl, rfl, by decide, by decide⟩, ⟨rfl, by decide⟩,
    ⟨wStands _, rfl, rfl, by decide, by decide⟩, ⟨by decide, rfl⟩⟩

/-! ### The mesh and the copy engine -/

theorem standsOn (s : State) (p : Part) (t : Tile) (hs : s.parts = [(0, p)]) (h0 : p.first = 0) (hc : p.count = 1)
    (ht : mfind p.tiles 0 = some t) : Stands s wLoc p t := ⟨place_tile s p t hs hc ht, h0⟩

/-- The last 16 bytes of data SRAM as a source, a destination and a barrier; the last descriptor. -/
def wCp : Tile :=
  { g := [(1, 0x27FF0), (2, 0x27FC0)], sram := [(0x27FC0, 0x0F), (0x27FC1, 0xFB), (0x27FC2, 0x01), (0x27FC3, 0x0A)] }

theorem witness_SendsInjectFlits : Ready (wState wCp) (wPart wCp) wCp always [codeG 1, codeG 1, codeG 1, codeV wCp 1535] ∧
    InFence (wPart wCp) 0 63 783 ∧ InSram (regAddr wCp 1 4) 16 ∧ InSram (regAddr wCp 1 3) 8 ∧ Clear wCp .cp [regAddr wCp 1 4] [] ∧
    BarFits ((rg wCp 1).toNat % 2 ^ 18) ∧ (783 : BitVec 11).toInt = 783 ∧
    ∀ i ∈ ([.send always 5 63 783 true 1 1 1, .sendNb always 0 63 783 false 1 1, .sendv always 4 63 783 true 1 1 1535,
      .sendvNb always 3 63 783 false 1 1535] : List Instr), WellFormed i :=
  ⟨wReady _ _ rfl rfl, by decide, by decide, by decide, ⟨by decide, by decide⟩, by decide, by decide, by decide⟩

theorem witness_CopyEngineStarts :
    Ready (wState wCp) (wPart wCp) wCp always ([codeG 2, codeG 1, codeG 1] ++ (List.range 32).map (fun j => codeG (0 + j))) ∧
    wCp.copyBusy ≤ 0 ∧ (∀ a, optBar wCp 1 = some a → BarFits a) ∧
    (∀ i ∈ ([.cpy always 2 1, .cpg always 0 1 1 0 31 0, .rksend always 63 783 false 1 1 1 7, .rksend always 63 783 true 1 1 0 7] : List Instr),
      WellFormed i) ∧
    (InSram (regAddr wCp 2 6) 64 ∧ cpyBad (descOf wCp (regAddr wCp 2 6) 4) = none ∧
      InFence (wPart wCp) 0 (cpyDx (descOf wCp (regAddr wCp 2 6) 4)) (cpyDy (descOf wCp (regAddr wCp 2 6) 4)) ∧
      cpyLevels (descOf wCp (regAddr wCp 2 6) 4) = 6 ∧ Clear wCp .cp [0x27FC0, 0x27FC0 + 16, 0x27FC0 + 32, 0x27FC0 + 48] []) ∧
    ((∀ k, k < 32 * 1 → cpgSrc (List.replicate 32 0x27FF0) 1 k < sramEnd ∧ cpgDest 0x27E00 k < sramEnd) ∧ Clear wCp .cp [0x27FF0] []) ∧
    (InSram (regAddr wCp 1 3) (8 * 2) ∧ InFence (wPart wCp) 0 63 783 ∧ Clear wCp .cp [regAddr wCp 1 3] []) := by
  refine ⟨wReady _ _ rfl rfl, by decide, ?_, by decide, ⟨by decide, by decide +kernel, by decide +kernel, by decide +kernel, ⟨by decide, by decide⟩⟩,
    ⟨by decide, ⟨by decide, by decide⟩⟩, ⟨by decide, by decide, ⟨by decide, by decide⟩⟩⟩
  intro a h
  have : optBar wCp 1 = some 0x27FF0 := by decide
  rw [this] at h; cases h; decide

/-- A tile whose copy engine runs one operation of two units. -/
def wCopy (k : CopyKind) : Tile := { copies := [{ id := 1, t := 0, pc := 0, kind := k, units := 2, buf := [(1, (5, 0))] }] }
def wAt (t : Tile) (g : Nat) : Part := { wPart t with gcyc := g }

theorem witness_CopyEngineSteps :
    (∀ k g, Stands (wOn (wAt (wCopy k) g)) wLoc (wAt (wCopy k) g) (wCopy k) ∧ (0 < poolBase) ∧ tileWf (wCopy k) = true ∧ (wCopy k).accs = []) ∧
    (alignDown (unitBits true) (wrap18 (((0x27FE0 : Nat) : Int) + (unitOffsets [(2, 16, 16)] 1).1)) = 0x27FF0 ∧ 0x27FF0 < sramEnd ∧
      (wAt (wCopy (.cpy 5 true 63 783 0x27FE0 0x27FE0 [(2, 16, 16)] none)) 3).gcyc = 0 + 1 + 2 * 1) ∧
    ((wAt (wCopy (.cpg 0x27FE0 [0] 2 none)) 1).gcyc = 0 + 1 ∧ 1 < 2 ∧ (wAt (wCopy (.cpg 0x27FE0 [0] 2 none)) 3).gcyc = 0 + 1 + 2 ∧
      mfind (wCopy (.cpg 0x27FE0 [0] 2 none)).held (cpgDest 0x27FE0 1) = none) ∧
    ((wAt (wCopy (.rksend 63 783 0x27FE8 0x27FE8 8 none)) 1).gcyc = 0 + 1 ∧ 0x27FE8 % 8 = 0) :=
  ⟨fun _ _ => ⟨standsOn _ _ _ rfl rfl rfl rfl, by decide, rfl, rfl⟩, ⟨by decide, by decide, rfl⟩, ⟨rfl, by decide, rfl, rfl⟩, ⟨rfl, by decide⟩⟩

/-- A flit that goes a number of tiles east from tile (0, 0). -/
def wFlit (dx : Int) : Flit :=
  { src := 0, dx := dx, dy := 0, inj := 0, hop := 0, engine := false, second := false, dop := 5, wide := false, part := false, pair := 1,
    addr := 0x27FF8, bar := some 0x27FF0, payload := 7, poison := false }
def wMesh (dx : Int) (used : List (Nat × Nat)) : Part := { wPart {} with flits := [(1, wFlit dx)], linkUse := used }

theorem witness_FlitsHop : (∀ dx used, Holds (wOn (wMesh dx used)) 0 (wMesh dx used) ∧ mfind (wMesh dx used).flits 1 = some (wFlit dx)) ∧
    (tx (hopAt (wFlit 63) 0) < 64 * 1 ∧ ty (hopAt (wFlit 63) 0) < 784 ∧ hopAt (wFlit 63) 0 = 0 ∧ hopDir (wFlit 63) 0 = 1) ∧
    (0, 1) ∉ (wMesh 63 []).linkUse ∧ (0, 1) ∈ (wMesh 63 [(0, 1)]).linkUse ∧
    (tx (hopAt (wFlit (-1)) 0) = 0 ∧ hopDir (wFlit (-1)) 0 = 3) :=
  ⟨fun _ _ => ⟨wHolds _ rfl, rfl⟩, by decide, by decide, by decide, by decide⟩

theorem witness_DepositsWrite : Holds (wOn (wMesh 0 [])) 0 (wMesh 0 []) ∧ mfind (wMesh 0 []).flits 1 = some (wFlit 0) ∧ (wFlit 0).dop ≠ 4 ∧
    (wFlit 0).addr % 8 = 0 ∧ flitDest (wFlit 0) < poolBase ∧ getTile (wMesh 0 []) (flitDest (wFlit 0)) = {} ∧
    memWf ({} : Tile).sram = true ∧ ∀ e ∈ ({} : Tile).accs, e.bank ≠ bankOf (wFlit 0).addr :=
  ⟨wHolds _ rfl, rfl, by decide, by decide, by decide, by decide, rfl, by decide⟩

/-! ### DRAM -/

/-- The address of the first column of the last row of bank 63, for engine 0, in g2 and g3; a local address in g1. -/
def wDram : Tile := wTile [(1, 0x27FC0), (2, 0xFFFF8000), (3, 0xF)]

/-- A launch whose address space is the whole sheet column, with that row open or closed. -/
def wDrams (row : Option Nat) : Part :=
  { wAt wDram 100 with rec_ := { dram := [{ base := 0, limit := 0x1000000000, offset := 0 }] }, engines := [(0, { banks := [(63, { row := row })] })] }

theorem witness_DramCommands :
    (∀ row, Ready (wOn (wDrams row)) (wDrams row) wDram always (pairReads 1 ++ [codeG 1, codeG 0])) ∧
    (∀ i ∈ ([.dprea always, .dref always, .drefb always 63, .dact always 1, .dpre always 1, .drd always 1 1 0, .dwr always 1 1] : List Instr),
      WellFormed i) ∧
    wiredEngine 0 = some 0 ∧ dramXlate (wDrams none) 0 (pairOf wDram 1) = .ok (0, 32767) ∧ pairOf wDram 1 / 2 ^ 15 % 2 ^ 6 = 63 ∧
    (∀ c ∈ ([.prea, .ref, .refb 63, .act 63 32767, .pre 63] : List DCmd), dramCheck (wDrams none) 0 (getEngine (wDrams none) 0) 100 c = none) ∧
    (∀ c ∈ ([.rd 63 32767, .wr 63 32767] : List DCmd),
      dramCheck (wDrams (some 32767)) 0 (getEngine (wDrams (some 32767)) 0) 100 c = none) ∧
    InSram (regAddr wDram 1 6) 64 ∧ ∀ a, optBar wDram 0 = some a → BarFits a :=
  ⟨fun _ => place_ready _ _ _ _ rfl rfl rfl rfl rfl rfl rfl, by decide, by decide, by rfl, by decide, by decide, by decide, by decide,
    by intro a h; exact absurd h (by simp [optBar])⟩

theorem witness_RefusedDramReads : ∃ code, Ready (wOn (wDrams none)) (wDrams none) wDram always (pairReads 1 ++ [codeG 1, codeG 0]) ∧
    dramXlate (wDrams none) 0 (pairOf wDram 1) = .ok (0, 32767) ∧ InSram (regAddr wDram 1 6) 64 ∧
    (∀ a, optBar wDram 0 = some a → BarFits a) ∧
    dramCheck (wDrams none) 0 (getEngine (wDrams none) 0) 100 (.rd 63 32767) = some code ∧ WellFormed (.drd always 1 1 0) ∧
    wDram.dramMode = false :=
  ⟨0, place_ready _ _ _ _ rfl rfl rfl rfl rfl rfl rfl, by rfl, by decide, by intro a h; exact absurd h (by simp [optBar]), by decide,
    by decide, rfl⟩

theorem witness_RefusedDramReads_counted :
    let t := { wDram with dramMode := true }
    let p := { wDrams none with tiles := [(0, t)] }
    Ready (wOn p) p t always (pairReads 1 ++ [codeG 1, codeG 0]) ∧ dramXlate p 0 (pairOf t 1) = .ok (0, 32767) ∧
      dramCheck p 0 (getEngine p 0) 100 (.rd 63 32767) = some 0 ∧ t.dramMode = true :=
  ⟨place_ready _ _ _ _ rfl rfl rfl rfl rfl rfl rfl, by rfl, by decide, rfl⟩

/-- A tile with one burst under way at the top of data SRAM. -/
def wBurst (read : Bool) : Burst :=
  { id := 1, t := 0, pc := 0, read := read, sram := 0x27FC0, bar := some 0, phys := some 64, data := List.replicate 64 7, bad := [], held := true }
def wBurstTile (read : Bool) : Tile := { bursts := [wBurst read] }

theorem witness_DramBursts : (∀ r, Stands (wState (wBurstTile r)) wLoc (wPart (wBurstTile r)) (wBurstTile r) ∧ wLoc.idx < poolBase ∧
      (wBurstTile r).bursts = [wBurst r] ∧ tileWf (wBurstTile r) = true ∧ (wBurstTile r).accs = [] ∧
      memWf (wState (wBurstTile r)).dram = true ∧ (wBurst r).sram % 16 = 0 ∧ (wBurst r).data.length = 64 ∧ (wBurst r).phys = some 64) ∧
    (wBurst true).read = true :=
  ⟨fun _ => ⟨wStands _, by decide, rfl, rfl, rfl, rfl, by simp [wBurst], by simp [wBurst], rfl⟩, rfl⟩

theorem witness_RefreshSteps : (∀ p : Part, p.first = 0 → Holds (wOn p) 0 p) ∧ ({ wPart {} with ticks := 7 } : Part).ticks < 8 ∧
    (∀ k, k < 64 * 1 → ∀ b, b < 64 → owed (wPart {}) (getEngine (wPart {}) k) b < 8 ∧ (getBank (getEngine (wPart {}) k) b).row = none) ∧
    selfFrom { banks := [(63, { act := some 56 })] } 63 ≤ (wAt {} 100).gcyc ∧
    (wAt {} 100).gcyc < selfFrom { banks := [(63, { act := some 57 })] } 63 :=
  ⟨fun p h => wHolds p h, by decide, by intro k _ b _; simp [owed, wPart, getEngine, getBank, mfind], by decide, by decide⟩

/-! ### Links -/

/-- A launch whose link addresses from 0 to 2^18 are those of data SRAM of this module's tile (0, 0). -/
def wLinks (t : Tile) : Part := { wPart t with rec_ := { links := [{ base := 0, limit := 0x40000, offset := 0, bar := 0 }] } }
/-- The last line of data SRAM, as a length 16. -/
def wLk : Tile := wTile [(1, 0x27FF0), (2, 16), (4, 0x27FF0)]

theorem witness_LinkTransfersIssue :
    Ready (wOn (wLinks wLk)) (wLinks wLk) wLk always (pairReads 2 ++ [codeG 1, codeG 1, codeG 0, codeG 2]) ∧
    (wLinks wLk).rec_.replayRun = false ∧ atRim 0 1 = true ∧ linkXlate (wLinks wLk).rec_ (pairOf wLk 2) = some 0x27FF0 ∧
    (paBad 0x27FF0 (16 + maskLen 1 16) = false ∧ 16 + (wLk.puts.filter (fun u => !u.acked)).foldl (fun a u => a + u.n) 0 ≤ 65536 ∧
      InSram (regAddr wLk 1 4) 16 ∧ Clear wLk .cp [regAddr wLk 1 4] [] ∧ WellFormed (.lnkp always 1 1 2 1 2)) ∧
    (InSram (regAddr wLk 1 4) (16 + maskLen 1 16) ∧ (∀ a, optBar wLk 0 = some a → BarFits a) ∧ WellFormed (.lnkg always 1 1 2 1 0 2)) ∧
    (rg wLk 2).toNat / 16 * 16 = 16 :=
  ⟨place_ready _ _ _ _ rfl rfl rfl rfl rfl rfl rfl, rfl, by decide, by decide,
    ⟨by decide, by decide, by decide, ⟨by decide, by decide⟩, by decide⟩,
    ⟨by decide, by intro a h; exact absurd h (by simp [optBar]), by decide⟩, by decide⟩

/-- A put of two lines whose second is still to be read. -/
def wPut : Put := { id := 1, t := 0, pc := 0, port := 0, cls := 1, pa := 0, src := 0x27FE0, n := 32, data := [(0, (5, 0))], acked := false, covered := true }
def wPutTile : Tile := { puts := [wPut] }
/-- A served request of one last line of the same tile. -/
def wServe : Serve := { src := 2, xid := 1, band := 0, tile := 0, addr := 0x27FF0, left := 1, data := [] }

theorem witness_LinkSources :
    Stands { wState wPutTile with ports := [(0, { serve := [wServe] })] } wLoc (wPart wPutTile) wPutTile ∧ wLoc.idx < poolBase ∧
    (wPart wPutTile).rec_.replayRun = false ∧ wPutTile.puts = [wPut] ∧ Quiet wPutTile [wPut.src + 16 * 1] ∧
    (getPort { wState wPutTile with ports := [(0, { serve := [wServe] })] } 0).serve = [wServe] ∧ wServe.band = wLoc.band ∧
    wServe.tile = wLoc.idx ∧ wPutTile.servedDirty = [] :=
  ⟨standsOn _ _ _ rfl rfl rfl rfl, by decide, rfl, rfl, ⟨rfl, by decide⟩, rfl, rfl, rfl, rfl⟩

/-- A whole put of 16 bytes: to host memory, or to a tile. -/
def wIn (pa : BitVec 64) (cls : BitVec 2) : Inbound :=
  { kind := .put, src := 2, xid := 1, asid := 9, cls := cls, pa := pa, n := 16, issued := 0, blocks := [(0, List.replicate 16 7)], trailer := true }

theorem witness_InboundTransfers :
    (getPort State.reset 0).waiting = [] ∧ (getPort { State.reset with ports := [(0, { down := true })] } 0).down = true ∧
    (getPort { State.reset with ports := [(0, { down := true })] } 0).waiting = [] ∧ (getPort State.reset 0).down = false ∧
    ((wIn 0x80000000000 1).kind = .put ∧ paKind (wIn 0x80000000000 1).pa.toNat = 2 ∧ memWf State.reset.hostMem = true ∧
      (wIn 0x80000000000 1).blocks = [(0, List.replicate 16 7)]) ∧
    (paKind (wIn 0 1).pa.toNat = 0 ∧ portPart State.reset 0 (wIn 0 1).asid.toNat = none ∧ (wIn 0 1).cls ≠ 0) :=
  ⟨rfl, rfl, rfl, rfl, ⟨rfl, by decide, rfl, rfl⟩, by decide, rfl, by decide⟩

/-- A class 0 landing that waits for its data, begun at edge 0. -/
def wLand : LandEntry := newLand 1 (wPart {}) 0 0x27FE0 16 0 none none none 2 1 0

theorem witness_TransfersClose :
    (∀ edge, (getPort { wState wPutTile with ports := [(0, { land := [wLand] })], edge := edge } 0).land = [wLand] ∧
      Stands { wState wPutTile with ports := [(0, { land := [wLand] })], edge := edge } wLoc (wPart wPutTile) wPutTile) ∧
    wLand.closed = false ∧ wLand.coll = none ∧ wLand.cls = 0 ∧ wLand.edge0 + 10400 ≤ 10400 ∧ 10399 < wLand.edge0 + 10400 ∧
    wLoc.idx < poolBase ∧ (wPart wPutTile).mode = .running ∧ wPutTile.puts = [wPut] ∧ wLand.get = none :=
  ⟨fun _ => ⟨rfl, standsOn _ _ _ rfl rfl rfl rfl⟩, rfl, rfl, rfl, by decide, by decide, by decide, rfl, rfl, rfl⟩

/-- A closed landing of one line, on no barrier or on the record at 0x100. -/
def wLine : LandLine := { addr := 0x27FF0, bytes := List.replicate 16 (some 7) }
def wClosed (bar : Option Nat) : LandEntry := { wLand with bar := bar, closed := true, lines := [wLine] }
/-- An armed record at 0x100 that expects 17 bytes. -/
def wArmed : Tile := { sram := [(0x100, 17), (0x108, 2)] }

theorem witness_LandingsWrite :
    (∀ b, (getPort { wState wArmed with ports := [(0, { land := [wClosed b] })] } 0).land = [wClosed b] ∧
      Stands { wState wArmed with ports := [(0, { land := [wClosed b] })] } { band := (wClosed b).band, idx := (wClosed b).tile } (wPart wArmed) wArmed ∧
      (wClosed b).closed = true ∧ (wClosed b).lines = [wLine] ∧ (wClosed b).bar = b ∧ (wClosed b).win = none) ∧
    wLine.addr % 16 = 0 ∧ wLine.bytes.length = 16 ∧ memWf wArmed.sram = true ∧
    0x100 % 16 = 0 ∧ 0x100 ≠ wLine.addr ∧ mfind wArmed.held 0x100 = none ∧ 0x100 ∉ wArmed.tainted ∧
    (recOf (sramLine wArmed.sram 0x100)).rest = 0 ∧ (recOf (sramLine wArmed.sram 0x100)).armed = true ∧
    (recOf (sramLine wArmed.sram 0x100)).arrived.toNat + (wLine.bytes.filter Option.isSome).length <
      (recOf (sramLine wArmed.sram 0x100)).expected.toNat :=
  ⟨fun _ => ⟨rfl, standsOn _ _ _ rfl rfl rfl rfl, rfl, rfl, rfl, rfl⟩, by decide, by decide, by decide, by decide, by decide, by decide,
    by decide, by decide, by decide, by decide⟩

theorem witness_BarrierRecordsCount :
    let b : BRec := recOf (sramLine wArmed.sram 0x100)
    b.armed = true ∧ b.arrived.toNat + 16 < b.expected.toNat ∧ b.arrived.toNat + 17 = b.expected.toNat ∧
      b.expected.toNat < b.arrived.toNat + 18 ∧ (recOf 0).armed = false ∧ (1 : Word) ≠ 0 ∧ b.expected ≠ 0 ∧ (recOf 0).expected = 0 := by
  decide

/-! ### Collectives -/

/-- A COLL record in the last 128 bytes: class 1, one retry, two members, rank 0, one block, a wrap of 512. -/
def wCollTile : Tile := { g := [(1, 0x27F80)], sram := [(0x27F82, 0x04), (0x27F83, 0x02), (0x27F86, 0x10), (0x27F95, 0x02)] }
def wRec (cls : Nat) : CollRec :=
  { op := 0, port := 0, cls := cls, retries := 1, members := 2, rank := 0, nblk := 1, ringBase := 0, ringStep := 1, base := 0x27E00,
    wrap := 512, off0 := 0, maskBase := 0, levels := [(1, 0, 0)] }
def wColl (cls sent snap : Nat) : Coll :=
  { id := 1, ordinal := 0, band := 0, tile := 0, t := 0, pc := 0, rec_ := wRec cls, bar := none, snap := [], snapDone := snap, buf := [],
    words := [], got := [], total := 1, sent := sent, unacked := [], seen := [], partial_ := [], flags := 0, waitEdge := some 0, covered := true }
def wSent (used : Nat) : SentStep := { step := 0, used := used, data := [], words := [] }
def wPorts (p : Part) (c : Coll) : State := { wOn p with ports := [(0, { colls := [c] })] }

theorem witness_CollectivesStartAndSend :
    (Ready (wState wCollTile) (wPart wCollTile) wCollTile always [codeG 1, codeG 0] ∧ InSram (regAddr wCollTile 1 7) 128 ∧
      (∀ b, optBar wCollTile 0 = some b → BarFits b) ∧ collBad (descOf wCollTile (regAddr wCollTile 1 7) 8) = false ∧
      (collRec (descOf wCollTile (regAddr wCollTile 1 7) 8)).retries = 1 ∧ atRim 0 (collRec (descOf wCollTile (regAddr wCollTile 1 7) 8)).port = true ∧
      (getPort (wState wCollTile) 0).colls.length < 16 ∧
      Clear wCollTile .cp ((List.range 8).map (fun j => regAddr wCollTile 1 7 + 16 * j)) [] ∧ WellFormed (.coll always 1 0)) ∧
    ((getPort (wPorts (wPart {}) (wColl 1 0 32)) 0).colls = [wColl 1 0 32] ∧ getPart (wPorts (wPart {}) (wColl 1 0 32)) 0 = some (wPart {}) ∧
      (wPart {}).first = (wColl 1 0 32).band ∧ canSend (wColl 1 0 32) = true) ∧
    (∀ u, ({ wColl 1 1 32 with unacked := [wSent u] } : Coll).unacked = [wSent u] ∧ (wColl 1 1 32).rec_.cls ≠ 0 ∧
      (getPort (wPorts (wPart {}) { wColl 1 1 32 with unacked := [wSent u] }) 0).colls = [{ wColl 1 1 32 with unacked := [wSent u] }]) ∧
    (wSent 0).used < (wColl 1 1 32).rec_.retries ∧ (wColl 1 1 32).rec_.retries ≤ (wSent 1).used ∧ (wPart {}).mode = .running := by
  refine ⟨⟨wReady _ _ rfl rfl, by decide, by intro a h; exact absurd h (by simp [optBar]), by decide +kernel, by decide +kernel, by decide +kernel, by decide,
    ⟨by decide, by decide⟩, by decide⟩, ⟨rfl, rfl, rfl, by decide⟩, fun _ => ⟨rfl, by decide, rfl⟩, by decide, by decide, rfl⟩

/-- A whole chunk of the only step. -/
def wChunk : ChunkIn :=
  { src := 1, asid := 0, cls := 1, ordinal := 0, step := 0, off := 0, last := true, nblk := 1, blocks := [(0, [], 0)], trailer := true }

theorem witness_CollectivesReceive :
    (∀ cls snap, (getPort { wPorts (wPart {}) (wColl cls 0 snap) with edge := 10400 } 0).colls = [wColl cls 0 snap] ∧
      (wColl cls 0 snap).sent < (wColl cls 0 snap).total ∧ (wColl cls 0 snap).partial_ = []) ∧
    ((wColl 1 0 32).rec_.wrap / 16 ≤ (wColl 1 0 32).snapDone ∧ portPart (wPorts (wPart {}) (wColl 1 0 32)) 0 wChunk.asid.toNat = some (wPart {}) ∧
      (wColl 1 0 32).band = (wPart {}).first ∧ (wColl 1 0 32).ordinal = wChunk.ordinal ∧ (wColl 1 0 32).rec_.cls ≠ 0 ∧
      smem (wColl 1 0 32).seen wChunk.step = false ∧ stepWhole (wColl 1 0 32).rec_ wChunk = true) ∧
    ((wColl 0 0 32).rec_.cls = 0 ∧ (wColl 0 0 32).seen.length < (wColl 0 0 32).total ∧ smem (wColl 0 0 32).seen 0 = false ∧
      ∃ e, (wColl 0 0 32).waitEdge = some e ∧ e + 10400 ≤ 10400) ∧
    (Stands (wPorts (wPart {}) (wColl 1 0 31)) wLoc (wPart {}) {} ∧ wLoc.idx < poolBase ∧ 0 / 4 - (wPart {}).first < (wPart {}).count ∧
      (wPart {}).first ≤ 0 / 4 ∧ (∀ j, j ≠ 0 → (getPort (wPorts (wPart {}) (wColl 1 0 31)) j).colls = []) ∧
      Quiet {} [(wColl 1 0 31).rec_.base + 16 * 31]) := by
  refine ⟨fun _ _ => ⟨rfl, Nat.zero_lt_one, rfl⟩, ⟨by decide, by rfl, rfl, rfl, by decide, rfl, by decide⟩, ⟨rfl, by decide, rfl, 0, rfl, by decide⟩,
    ⟨standsOn _ _ _ rfl rfl rfl rfl, by decide, by decide, by decide, ?_, ⟨rfl, by decide⟩⟩⟩
  intro j hj
  simp [getPort, wPorts, wOn, mfind, Ne.symm hj]

/-! ### The SY slot -/

/-- A bundle under issue, three open regions, seven queued EVT records; the last line of data SRAM in g1 and its length in g2. -/
def wSy (regions evts : Nat) : Tile :=
  { g := [(1, 0x27FF0), (2, 16)], seq := { issue := some wIs },
    regions := List.replicate regions { handler := 0, retries := 0, reentry := 0, g := [], q := [], loop := {}, serial := 0 },
    evts := List.replicate evts { code := 0, pc := 0, gcyc := 0, wall := 0 } }

theorem witness_WaitsRegionsAndRecords :
    (∀ r e, Ready (wState (wSy r e)) (wPart (wSy r e)) (wSy r e) always (pairReads 1 ++ [codeG 1, codeG 2]) ∧ (wSy r e).seq.issue = some wIs) ∧
    wIs.sTransfer = false ∧ wIs.inDelay = false ∧ (wSy 3 7).regions.length < 4 ∧ (wSy 1 8).regions ≠ [] ∧ (wPart (wSy 3 7)).breaks = false ∧
    (wSy 3 7).evts.length < 8 ∧ 8 ≤ (wSy 1 8).evts.length ∧
    (({ wPart {} with traceOn := true, traceMask := 2 } : Part).traceOn = true ∧ (2 : Nat).testBit 1 = true ∧ (wSy 3 7).traces.length < 8 ∧
      (wSy 3 7).traceDropped = 0 ∧ (wPart (wSy 3 7)).traceOn = false) ∧
    (∀ i ∈ ([.waitcImm 0x3FFFFFF, .waitcReg 7, .halt, .cropen 0x1FFF 255, .crclose, .bkpt 0xFFFF, .evt 0xFFFF, .tmark 0xFFFF, .dscrd 1 2] : List Instr),
      WellFormed i) ∧
    ((rg (wSy 3 7) 1).toNat % 2 ^ 18 % 16 = 0 ∧ (rg (wSy 3 7) 2).toNat % 16 = 0 ∧ InSram ((rg (wSy 3 7) 1).toNat % 2 ^ 18) (rg (wSy 3 7) 2).toNat) :=
  ⟨fun _ _ => ⟨wReady _ _ rfl rfl, rfl⟩, rfl, rfl, by decide, by decide, rfl, by decide, by decide, ⟨rfl, by decide, by decide, rfl, rfl⟩,
    by decide, ⟨by decide, by decide, by decide⟩⟩

/-- Fifteen pending slots; the last record's address in g1, the least due cycle in g2 and g3. -/
def wSlots : Tile :=
  { g := [(1, 0x27FF0), (2, 864)],
    pslots := List.replicate 15
      { id := 1, t := 0, pc := 0, bar := none, ph := false, due := 0, opened := true, window := false, covers := [], hold := none } }

theorem witness_BarrierInstructionsAndSlots :
    Ready (wState wSlots) (wPart wSlots) wSlots always ([codeG 1, codeG 2] ++ pairReads 1) ∧ BarFits ((rg wSlots 1).toNat % 2 ^ 18) ∧
    wSlots.pslots.length < 16 ∧ 0 + 64 * 1 + 800 ≤ 0 + (864 : BitVec 20).toNat ∧ 0 + 64 * 1 + 800 ≤ pairOf wSlots 1 ∧
    ∀ i ∈ ([.bariImm 1 0x1FFFFF, .bariReg 1 2, .barx 1, .waitbImm 1 true 864, .waitbReg 1 true 1, .drainImm 864, .drainReg 1] : List Instr),
      WellFormed i :=
  ⟨wReady _ _ rfl rfl, by decide, by decide, by decide, by decide, by decide⟩

/-- An audit unit that is open, its record read. -/
def wUnit : Unit_ := { uid := 0xFFFF, ordinal := 0, openPc := 0, openCyc := 0, readAt := true, malformed := false }
def wAud (u : Option Unit_) : Tile := { g := [(1, 0x27FC0)], unit := u }
/-- Tile (0, 0) one cycle ahead of its neighbours. -/
def wAhead : Part := { tiles := [(0, { skew := 1 })] }

theorem witness_RealignAndAuditUnits :
    (∀ u, Ready (wState (wAud u)) (wPart (wAud u)) (wAud u) always [codeG 1]) ∧ (wState {}).cur.idx < poolBase ∧
    misaligned (wPart (wAud none)) 0 [0, 1, 2, 3] = none ∧ (∃ d, misaligned wAhead 0 [0, 1, 2, 3] = some d) ∧
    Ready (wOn wAhead) wAhead { skew := 1 } always [codeG 1] ∧
    (∀ i ∈ ([.realign 15, .audo 1 0xFFFF, .audc 0xFFFF] : List Instr), WellFormed i) ∧
    ((wAud none).unit = none ∧ InSram ((rg (wAud none) 1).toNat % 2 ^ 18 / 64 * 64) 1) ∧
    ((wAud (some wUnit)).unit = some wUnit ∧ wUnit.sampled = false ∧ unitClosed (wPart (wAud (some wUnit))) 0 wUnit = true) :=
  ⟨fun _ => wReady _ _ rfl rfl, by decide, by decide, ⟨1, by decide⟩, place_ready _ _ _ _ rfl rfl rfl rfl rfl rfl rfl, by decide,
    ⟨rfl, by decide⟩, ⟨rfl, rfl, by decide⟩⟩

/-! ### Events and checks -/

theorem witness_EventsAreTaken :
    (∀ p : Part, p.first = 0 → p.count = 1 → p.tiles = [(0, {})] → tileAt (wOn p) (wOn p).cur = some (p, {}) ∧ p.first = (wOn p).cur.band) ∧
    (wOn (wPart {})).cur.idx < poolBase ∧ (wPart {}).mode = .running ∧ (wPart {}).stop = none ∧
    ({ wPart {} with breaks := true } : Part).breaks = true ∧ (issueOf {} .sy).muted ≠ some .bkpt ∧
    (∃ st, ({ wAt {} 1 with stop := some { at_ := 864, event := true, c1 := 0 } } : Part).stop = some st ∧ st.event = true ∧ st.c1 < 1) :=
  ⟨fun p h0 hc ht => ⟨place_tile _ _ _ rfl hc (by simp [ht, mfind]), h0⟩, by decide, rfl, rfl, rfl, by decide, ⟨_, rfl, rfl, by decide⟩⟩

/-- A result for g1 that is still in flight in cycle 1. -/
def wLate (sb : Bool) : Tile :=
  { sbMode := sb, flight := [{ issued := 0, due := 2, slot := 0, seq := 0, dest := .g 1 7, flags := 0 }] }
/-- A guard on a predicate that is false. -/
def wNever : Guard := { neg := false, kind := false, idx := 15 }

theorem witness_IssueChecksComeFirst :
    (∀ sb, tileAt (wOn (wAt (wLate sb) 1)) wLoc = some (wAt (wLate sb) 1, wLate sb)) ∧ (wAt (wLate true) 1).first = 0 ∧
    ((encode (.vadd .va always 13 0 0 0 0)).isSome = true ∧ encFault (.vadd .va always 13 0 0 0 0) = some 0x000A ∧
      encFault (.vadd .va always 0 0 1536 0 0) = some 0x0009 ∧ encFault (.vadd .va always 0 0 0 768 0) = some 0x000B) ∧
    (∀ sb, (∀ c ∈ guardReads always, isLate (wLate sb) 1 c = false) ∧ WellFormed (.add always 31 1 0) ∧ guardTrue (wLate sb) always = true ∧
      isLate (wLate sb) 1 (codeG 1) = true ∧ (wLate sb).regErr = []) ∧ (wLate false).sbMode = false ∧ (wLate true).sbMode = true ∧
    ((∀ c ∈ guardReads wNever, isLate {} 0 c = false) ∧ guardTrue {} wNever = false ∧
      ∀ i ∈ ([.add wNever 31 1 0, .mul wNever 31 1 0, .sel wNever 31 1 0 15, .vadd .va wNever 0 0 0 0 0, .vfma .va wNever 12 5 0 0 0 0,
        .vsel .va wNever 0 0 0 0 0 7, .zclr wNever 3 3] : List Instr), WellFormed i) :=
  ⟨fun _ => place_tile _ _ _ rfl rfl rfl, rfl, by decide, by decide, rfl, rfl, by decide⟩

/-! ### Pending slots and freezes -/

/-- One pending slot on the record at 0x100, or a DRAIN; a record held by the barrier unit at 0x200. -/
def wSlot (bar : Option Nat) (opened : Bool) : PSlot :=
  { id := 1, t := 0, pc := 0, bar := bar, ph := true, due := 900, opened := opened, window := false, covers := [], hold := none }
def wPend (bar : Option Nat) (opened : Bool) : Tile := { wArmed with pslots := [wSlot bar opened], held := [(0x200, 7)] }
def wWin : LandEntry := wClosed (some 0x100)
def wWait (bar : Option Nat) (opened : Bool) (land : List LandEntry) : State :=
  { wState (wPend bar opened) with ports := [(3, { land := land })] }

theorem witness_PendingSlotSteps :
    (∀ b o l, Stands (wWait b o l) wLoc (wPart (wPend b o)) (wPend b o) ∧ (wPend b o).pslots = [wSlot b o] ∧
      hasHold (wPart (wPend b o)) { by_ := .slot 0 1, start := 900, pc := 0, count := 0 } = false ∧ (wPart (wPend b o)).rec_.replayRun = false ∧
      (wSlot b o).bar = b ∧ (wSlot b o).opened = o ∧ (wSlot b o).window = false ∧ memWf (wPend b o).sram = true ∧ (wPend b o).accs = []) ∧
    wLoc.idx < poolBase ∧ (∀ j, (getPort (wState (wPend (some 0x100) true)) j).land = []) ∧
    (3 ∈ bandPorts (wPart (wPend (some 0x100) true)) ∧ (∀ j, j ≠ 3 → (getPort (wWait (some 0x100) true [wWin]) j).land = []) ∧
      (getPort (wWait (some 0x100) true [wWin]) 3).land = [wWin] ∧ winTakes (wPart (wPend (some 0x100) true)) 0 0x100 wWin = true ∧
      wWin.lines = [wLine] ∧ wLine.addr % 16 = 0 ∧ (getRec (wPend (some 0x100) true) 0x100).armed = true) ∧
    (mfind (wPend none false).held 0x200 = some 7 ∧ msorted (wPend none false).held = true) := by
  refine ⟨fun _ _ _ => ⟨standsOn _ _ _ rfl rfl rfl rfl, rfl, rfl, rfl, rfl, rfl, rfl, rfl, rfl⟩, by decide, fun _ => rfl,
    ⟨by decide, ?_, rfl, by decide, rfl, by decide, by decide +kernel⟩, rfl, rfl⟩
  intro j hj
  simp [getPort, wWait, wState, wOn, mfind, Ne.symm hj]

theorem witness_FreezesAndHolds :
    (∀ p : Part, p.first = 0 → Holds (wOn p) 0 p) ∧ isFrozen { wPart {} with mode := .frozen 0 } = true ∧ (20 : Nat) ≠ 0 ∧
    Stands (wState (wPend none false)) wLoc (wPart (wPend none false)) (wPend none false) ∧ (wPend none false).pslots = [wSlot none false] ∧
    (wPart (wPend none false)).stop = none ∧ msorted ({} : Tile).ltc = true ∧ ({} : Tile).seq.halted = false :=
  ⟨fun p h => wHolds p h, rfl, by decide, wStands _, rfl, rfl, rfl, rfl⟩

/-- A launch at cadence 52 whose power leaves no cadence under the cap. -/
def wHeavy : Part := { wPart {} with k := 52, power := 36000000001 * 60 }

theorem witness_CadenceAndPower :
    (∀ p : Part, p.first = 0 → Holds (wOn p) 0 p) ∧ ({ wPart {} with kNext := [(8, 64)] } : Part).kNext = [(8, 64)] ∧
    (64 ≤ ({ wOn (wPart {}) with edge := 64 } : State).edge ∧ ({ wOn (wPart {}) with edge := 63 } : State).edge < 64) ∧
    ((wPart {}).kNext = [] ∧ (wPart {}).rec_.stretch ≤ 60 ∧ (wPart {}).k = 60 ∧ 0 * 1 + ((wPart {}).power - 0 * 1) ≤ (wPart {}).rec_.cap * 50000000) ∧
    (wHeavy.kNext = [] ∧ wHeavy.k ≠ wHeavy.rec_.stretch ∧ wHeavy.rec_.stretch ≤ wHeavy.k + 8 ∧
      ∀ j, wHeavy.rec_.stretch ≤ j → j ≤ 60 →
        wHeavy.rec_.cap * 50000000 * wHeavy.k < 0 * wHeavy.count * wHeavy.k + (wHeavy.power - 0 * wHeavy.count) * j) ∧
    ∀ x ∈ (wPart {}).tiles, x.2.skew = 0 := by
  refine ⟨fun p h => wHolds p h, rfl, ⟨by decide, by decide⟩, ⟨rfl, by decide, rfl, by decide⟩, ⟨rfl, by decide, by decide, ?_⟩, by decide⟩
  intro j h1 h2
  have : j = 60 := Nat.le_antisymm h2 h1
  subst this; decide

/-- Two queued EVT and trace records, and an injection into the last granule. -/
def wTrace : TraceRec := { ty := 2, gcyc := 0, payload := [(0x18, 4, 7)] }
def wRecs : Tile :=
  { evts := [{ code := 7, pc := 0, gcyc := 0, wall := 0 }], traces := List.replicate 7 wTrace, seq := { lastCyc := some 0 }, uncorr := [5] }
def wTraced : Part :=
  { wPart wRecs with
    traceOn := true, traceMask := 32, traceSize := 65536, tracePeriod := some 64, inject := some (0, 0x4FFF, 0), debugHold := true,
    log := [{ ty := 1, tile := 0, gcyc := 0, payload := [] }], logOpen := true, rec_ := { replayLen := 65536 } }

theorem witness_RecordsDrain : Holds (wOn wTraced) 0 wTraced ∧ msorted wTraced.tiles = true ∧ (∀ e ∈ wTraced.tiles, e.1 < poolBase) ∧
    memWf (wOn wTraced).dram = true ∧ 65536 ≤ wTraced.traceSize ∧ wTraced.traceW < wTraced.traceSize ∧ wTraced.traceOld < wTraced.traceSize ∧
    (wTraced.tiles.filter (fun e => !e.2.traces.isEmpty) = [(0, wRecs)] ∧ wRecs.traces.head? = some wTrace ∧
      (traceBytes (physCol (wOn wTraced) 0 0) 0 wTrace).length ≤ wTraced.traceSize - wTraced.traceW) ∧
    (wRecs.seq.lastCyc = some 0 ∧ wRecs.seq.halted = false ∧ wTraced.traceOn = true ∧ wTraced.traceMask.testBit 5 = true ∧
      wRecs.traces.length < 8 ∧ wRecs.traceDropped = 0) ∧
    (∃ e, wTraced.log.drop wTraced.logDone = [e] ∧ wTraced.logOpen = true ∧
      64 + logSize wTraced.log wTraced.logDone + 16 * logUnits e.ty ≤ wTraced.rec_.replayLen) ∧
    ModuleInv (wOn wTraced) ∧ wTraced.inject = some (0, 0x4FFF, 0) ∧ wTraced.debugHold = true ∧ 8 * 0x4FFF < sramEnd :=
  ⟨wHolds _ rfl, rfl, by decide, rfl, by decide, by decide, by decide, ⟨rfl, rfl, by decide +kernel⟩, by decide +kernel,
    ⟨{ ty := 1, tile := 0, gcyc := 0, payload := [] }, rfl, rfl, by decide +kernel⟩,
    ⟨⟨rfl, by intro e he; simp [wOn] at he; subst he; rfl⟩, rfl, rfl⟩, rfl, rfl, by decide⟩

/-! ### Stops -/

/-- A running tile with one region that has a number of retries left. -/
def wRegion (n : Nat) : Tile := { regions := [{ handler := 5, retries := n, reentry := 3, g := [], q := [], loop := {}, serial := 0 }] }
def wStop (event abort : Bool) (evc : Word) (why : Option StopWhy) : Stop := { at_ := 0, event := event, abort := abort, evc := evc, why := why }
def wStopped (n : Nat) (m : PMode) (st : Option Stop) : Part := { wPart (wRegion n) with mode := m, stop := st }

theorem witness_StopsAndUnwinds :
    (∀ n m st, Holds (wOn (wStopped n m st)) 0 (wStopped n m st) ∧ (wStopped n m st).mode = m ∧ (wStopped n m st).stop = st) ∧
    ((∃ e ∈ (wStopped 1 .running none).tiles, e.2.seq.halted = false) ∧
      ∀ e ∈ (wStopped 1 .running none).tiles, e.2.seq.halted = false → ∃ r ∈ e.2.regions, 0 < r.retries) ∧
    (∃ e ∈ (wStopped 0 .running none).tiles, e.2.seq.halted = false ∧ ∀ r ∈ e.2.regions, r.retries = 0) ∧
    ((wStop true false 0x0B none).event = true ∧ (wStop true false 0x0B none).abort = false ∧ (wStop true true 0 none).abort = true ∧
      (wStop false false 0 none).event = false ∧ (wStop true false 0x0B none).evc.toNat % 256 = 0x0B) ∧
    ((wStopped 1 .running none).debugHold = false ∧ (wStopped 1 .running none).audPolicyFail = false ∧
      ({ wStopped 1 .running none with debugHold := true } : Part).debugHold = true) ∧
    (preempted (wStopped 1 .armedStop (some (wStop false false 0 (some .cycleBreak)))) = false ∧
      heldPart (wOn (wStopped 1 .debugHeld (some (wStop true false 0x0B none)))) (0 : BitVec 14).toNat =
        some (wStopped 1 .debugHeld (some (wStop true false 0x0B none)))) :=
  ⟨fun _ _ _ => ⟨wHolds _ rfl, rfl, rfl⟩, by decide, by decide, by decide, ⟨rfl, rfl, rfl⟩, ⟨by decide, rfl⟩⟩

/-- A live launch of token 7. -/
def wCtx (st : LState) (saved : Option Part) : Ctx := { rec_ := { token := 7 }, queue := 0, st := st, since := 0, saved := saved }
def wOwn (m : PMode) (st : Option Stop) : Part := { wPart {} with rec_ := { token := 7 }, mode := m, stop := st }
def wWith (p : Option Part) (c : Ctx) : State := { State.reset with parts := (p.map (fun p => (0, p))).toList, ctxs := [c] }

theorem wInv (s : State) (p : Part) (h0 : p.first = 0) (hs : s.parts = [(0, p)]) (hd : s.dram = []) (hh : s.hostMem = []) : ModuleInv s := by
  refine ⟨⟨by rw [hs]; rfl, ?_⟩, by rw [hd]; rfl, by rw [hh]; rfl⟩
  intro e he
  rw [hs] at he
  simp at he; subst he; exact h0

theorem witness_ContextsSwitch :
    let pre := wOwn .armedStop (some (wStop false false 0 (some .preempt)))
    (ModuleInv (wWith (some pre) (wCtx .running none)) ∧ Holds (wWith (some pre) (wCtx .running none)) 0 pre ∧ preempted pre = true ∧
      wCtx .running none ∈ (wWith (some pre) (wCtx .running none)).ctxs ∧ (wCtx .running none).rec_.token = pre.rec_.token) ∧
    (Holds (wWith (some (wOwn .failed none)) (wCtx .running none)) 0 (wOwn .failed none) ∧ (wOwn .failed none).mode = .failed) ∧
    (ModuleInv (wWith none (wCtx .restoring (some pre))) ∧ ctxOf (wWith none (wCtx .restoring (some pre))) (7 : BitVec 64).toNat = some (wCtx .restoring (some pre)) ∧
      (∀ e ∈ (wWith none (wCtx .restoring (some pre))).parts, e.2.first + e.2.count ≤ pre.rec_.first ∨ pre.rec_.first + pre.rec_.count ≤ e.2.first)) ∧
    (Holds (wWith (some pre) (wCtx .restoring none)) 0 pre ∧ (wCtx .restoring none).st = .restoring ∧
      ∀ k, (getPort (wWith (some pre) (wCtx .restoring none)) k).colls = []) := by
  refine ⟨⟨wInv _ _ rfl rfl rfl rfl, ⟨rfl, rfl⟩, by decide, by simp [wWith], rfl⟩, ⟨⟨rfl, rfl⟩, rfl⟩,
    ⟨⟨⟨rfl, by intro e he; simp [wWith] at he⟩, rfl, rfl⟩, rfl, by intro e he; simp [wWith] at he⟩, ⟨⟨rfl, rfl⟩, rfl, fun _ => rfl⟩⟩

/-- A sampled unit of the last tile of the column. -/
def wSample (lines : List Nat) (sig rep : Option Nat) : Sample :=
  { tile := tileIdx 63 783, unit := wUnit, snap := {}, poolIdx := poolBase, todoLines := lines, copied := lines.isEmpty, sig := sig, replaySig := rep }
def wSampled (x : Sample) : Part := { wPart {} with samples := [x] }

theorem witness_AuditEngineSteps :
    (∀ x, Holds (wOn (wSampled x)) 0 (wSampled x) ∧ (wSampled x).samples = [x] ∧ (wSampled x).audit.length = 6) ∧
    (∀ l a b, (wSample l a b).tile < poolBase ∧ ty (wSample l a b).tile < 784 ∧ (wSample l a b).overtaken = false ∧
      (wSample l a b).sig = a ∧ (wSample l a b).replaySig = b) ∧
    hasLines (wSample [0] none none) = true ∧ (getTile (wSampled (wSample [0] none none)) (tileIdx 63 783)).audDirty = [] ∧
    (wSample [] none none).copied = true ∧ (wOn (wSampled (wSample [] none none))).phase = .idle ∧ (3 : Nat) = 3 ∧ (3 : Nat) ≠ 4 := by
  refine ⟨fun _ => ⟨wHolds _ rfl, rfl, rfl⟩, fun l a b => ⟨?_, ?_, rfl, rfl, rfl⟩, rfl, by decide +kernel, rfl, rfl, rfl, by decide⟩
  · simp [wSample, tileIdx, poolBase]
  · simp [wSample, tileIdx, ty]

/-! ### The hub -/

/-- Host memory with one launch record at 0x1000, of 176 bytes, and a ring at 0x2000 whose last entry names it. -/
def wHost : SMap Byte :=
  [(0x1001, 0x04), (0x1002, 0x04), (0x1005, 0x0F), (0x1006, 0x2D), (0x1008, 1), (0x1040, 0x80), (0x1044, 0x30), (0x1058, 7), (0x108C, 1),
    (0x20F1, 0x10), (0x20F8, 0xB0)]
def wQueue : Queue := { st := 1, ringBase := 0x2000, ringLog2 := 4, head := 0xFFFFFFFF, tail := 0 }
def wHub (mem : SMap Byte) : State := { State.reset with hostMem := mem, queues := [(0xFFF, wQueue)], kicks := [0xFFF] }
def wDone : Completion := { queue := 0xFFF, token := 7, status := 0 }

def wIdle : State := { wWith none (wCtx .eligible none) with status := { ready := true } }
def wImage : Image := { tx0 := 0, tx1 := 63, txs := 1, ty0 := 0, ty1 := 783, tys := 783, stage := 0, imem := [], sram := [], discard := [] }
def wLoad : Ctx := { wCtx .loading none with rec_ := { token := 7, images := [wImage] } }

theorem witness_HubRunsLaunches :
    (ModuleInv (wHub wHost) ∧ (wHub wHost).powered = true ∧ (getQueue State.reset 0).st ≠ 1) ∧
    ((getQueue (wHub wHost) 0xFFF).st = 1 ∧ ringReadable wQueue = true ∧ wQueue.head < 2 ^ 32 ∧ wQueue.tail = (wQueue.head + 1) % 2 ^ 32 ∧
      getQueue (wHub wHost) 0xFFF = wQueue) ∧
    (hostN (wHub wHost) 0x20F0 8 = 0x1000 ∧ hostN (wHub wHost) 0x20F8 4 = 0xB0 ∧ hostN (wHub wHost) 0x20FC 4 = 0 ∧
      refusalOf { wHub wHost with kicks := [] } 0x1000 0xB0 0 (readRec { wHub wHost with kicks := [] } 0x1000) = none ∧
      namesFaulted { wHub wHost with kicks := [] } (readRec { wHub wHost with kicks := [] } 0x1000) = false ∧
      (afterState { wHub wHost with kicks := [] } (readRec { wHub wHost with kicks := [] } 0x1000)).2 = false) ∧
    refusalOf { wHub [] with kicks := [] } 0 0 0 (readRec { wHub [] with kicks := [] } 0) = some 1 ∧
    (wIdle.status.ready = true ∧ wIdle.parts = [] ∧ wIdle.ctxs = [wCtx .eligible none] ∧ namesFaulted wIdle (wCtx .eligible none).rec_ = false ∧
      (wCtx .eligible none).rec_.cap ≤ wIdle.budget ∧ ctxOf wIdle (7 : BitVec 64).toNat = some (wCtx .eligible none)) ∧
    (ctxOf (wWith none wLoad) (7 : BitVec 64).toNat = some wLoad ∧ onCols (wWith none wLoad) (colsOf wLoad.rec_) = [] ∧
      wLoad.rec_.replayRun = false ∧ wLoad.rec_.images = [wImage]) ∧
    (Holds (wOn (wPart {})) 0 (wPart {}) ∧ (wPart {}).audPolicyFail = false) ∧
    ({ wHub wHost with done := [wDone] } : State).done.find? (ringRoom { wHub wHost with done := [wDone] }) = some wDone ∧
    ({ standby := true } : Status).standby = true := by
  refine ⟨⟨⟨⟨rfl, by intro e he; simp [wHub, State.reset] at he⟩, rfl, by decide +kernel⟩, rfl, by decide⟩,
    ⟨rfl, by decide, by decide, by decide, rfl⟩, ⟨by decide +kernel, by decide +kernel, by decide +kernel, by decide +kernel, by decide +kernel,
      by decide +kernel⟩, by decide +kernel, ⟨rfl, rfl, rfl, by decide, by decide, rfl⟩, ⟨rfl, by decide, rfl, rfl⟩, ⟨wHolds _ rfl, rfl⟩,
    by decide +kernel, rfl⟩

/-- A bring-up in which nothing fails, or in which a tile of column 11 and a port of column 0 fail. -/
def wBring (bad : Bool) : BringUp :=
  { railsOk := true, tileFail := if bad then [11] else [], poolFail := [], stackFail := [], portFail := if bad then [3] else [] }
/-- The machine in a stage of its bring-up, its repair map given. -/
def wStage (n : Nat) (map : SMap Nat) : State := { State.reset with status := { stage := n }, store := { State.reset.store with repair := map } }

theorem witness_HubRegisters : State.reset.powered = true ∧
    (0 < (720 : Word).toNat % 2 ^ 10 ∧ (720 : Word).toNat % 2 ^ 10 ≤ 720 ∧ (State.reset.parts.map (fun e => e.2.rec_.cap)).sum ≤ 720 ∧
      State.reset.ctxs = []) ∧
    ((1024 : Word).toNat % 2 ^ 10 = 0 ∧ 720 < (721 : Word).toNat % 2 ^ 10 ∧
      (719 : Word).toNat % 2 ^ 10 < ((wOn (wPart {})).parts.map (fun e => e.2.rec_.cap)).sum) ∧
    ((wWith none (wCtx .loading none)).parts = [] ∧ (wWith none (wCtx .loading none)).ctxs = [wCtx .loading none]) ∧
    State.reset.parts = [] ∧ (wOn (wPart {})).parts ≠ [] ∧ (∃ e ∈ ({ State.reset with retrain := [(11, 5)] } : State).retrain, e.1 = 11) ∧
    ((∀ k ∈ [43, 48], k / 4 ≠ 11) ∧ ∃ k ∈ [44], k / 4 = 11) ∧
    (∀ n m, (wStage n m).status.fail = 0 ∧ (wStage n m).status.stage = n ∧ (wStage n m).status.core = false ∧ (wStage n m).powered = true) ∧
    (wBring true).railsOk = true ∧
    ((∀ e ∈ (wStage 3 [(0, 0x3FFF), (1, 0x3FC1), (2, 65 * 128 + 63)]).store.repair, repairOk e.2 = true) ∧
      ∃ e ∈ (wStage 3 [(5, 66)]).store.repair, repairOk e.2 = false) ∧
    (2 ^ 23 ≤ 2 ^ 23 + 8 ∧ (2 ^ 23 + 8) / 2 ^ 23 - 1 = State.reset.moduleId ∧ (2 ^ 24 + 8) / 2 ^ 23 - 1 ≠ State.reset.moduleId) ∧
    ((getQueue State.reset 0).st = 0 ∧ (getQueue (wHub []) 0xFFF).st ≠ 0) ∧ 2 ^ 14 - 1 < 2 ^ 14 := by
  refine ⟨rfl, by decide, by decide, ⟨rfl, rfl⟩, rfl, by simp [wOn], ⟨(11, 5), by simp, rfl⟩, by decide, fun _ _ => ⟨rfl, rfl, rfl, rfl⟩, rfl,
    by decide +kernel, by decide, by decide, by decide⟩

/-! ### Further clauses, at the values where they meet -/

/-- A bundle under issue before two bundles of slot VA alone, or before a fold header. -/
def wFold (fold : Bool) : Tile :=
  { seq := { issue := some wIs },
    imem := if fold then [(12, BitVec.ofNat 32 (headerWord 0 1 false false))]
      else [(12, BitVec.ofNat 32 (headerWord 2 0 false false)), (15, BitVec.ofNat 32 (headerWord 2 0 false false))] }
/-- A bundle in a delay slot. -/
def wDelay : Tile := { seq := { issue := some { wIs with inDelay := true }, xfer := some { target := 0x1FFF, delay := 1, from_ := 0, closes := true } } }
def wLev (end_ : BitVec 13) (rv : Bool) : Level := { start := 4, end_ := end_, d := 1, rp := true, rv := rv, window := if rv then 512 else 0 }
/-- Open levels whose counters are given, at the last word of the innermost body. -/
def wNest (lc : SMap Word) (levels : List Level) (window : Nat) (xfer : Option Xfer) : Tile :=
  { loop := { levels := levels, lc := lc, window := window, rb := window - 1 }, seq := { issue := some wIs, xfer := xfer } }
def wXfer (delay : Nat) (closes : Bool) (target : BitVec 13) : Xfer := { target := target, delay := delay, from_ := 4, closes := closes }
/-- A transfer leaves a level's body. -/
abbrev wLeaves (x : Xfer) (lev : Level) : Prop :=
  (lev.start.toNat ≤ x.from_.toNat ∧ x.from_.toNat ≤ lev.end_.toNat) ∧ ¬ (lev.start.toNat ≤ x.target.toNat ∧ x.target.toNat ≤ lev.end_.toNat)
def wEnd : Issue := { wIs with le := true }

theorem witness_TransfersAndLoops_more :
    (Ready (wState (wFold false)) (wPart (wFold false)) (wFold false) always [] ∧ wIs.inDelay = false ∧ wIs.le = false ∧
      (headerAt (wFold false) wIs.next).mask = 2 ∧ (headerAt (wFold false) (wIs.next + BitVec.ofNat 13 (bundleWords 2))).mask = 2 ∧
      (headerAt (wFold true) wIs.next).mask = 0 ∧ 0 < (headerAt (wFold true) wIs.next).fold) ∧
    (tileAt (wState wDelay) wLoc = some (wPart wDelay, wDelay) ∧ wDelay.seq.issue = some { wIs with inDelay := true } ∧ WellFormed (.ret always 31)) ∧
    (∀ lc ls w, (wNest lc ls w none).seq.issue = some wIs ∧ wIs.nextFold = none ∧ wEnd.nextFold = none ∧ wEnd.le = true ∧
      wEnd.xfer = none ∧ wEnd.loopOpen = none ∧ (wNest lc ls w none).seq.xfer = none) ∧
    (msorted (wNest [(0, 2)] [wLev 8 true] 512 none).loop.lc = true ∧ [wLev 8 true] = [] ++ [wLev 8 true] ∧ (wLev 8 true).end_ = wEnd.pc ∧
      1 < (mget 0 (wNest [(0, 2)] [wLev 8 true] 512 none).loop.lc 0).toNat ∧ 0 < (wNest [(0, 2)] [wLev 8 true] 512 none).loop.window) ∧
    ((mget 0 (wNest [(1, 1)] [wLev 9 true, wLev 8 true] 512 none).loop.lc 1).toNat ≤ 1 ∧
      (∀ o, [wLev 9 true].getLast? = some o → o.end_ ≠ wEnd.pc) ∧ (wLev 9 true).rv = true ∧ (wLev 8 false).rv = false) ∧
    (1 < (mget 0 (wNest [(0, 2), (1, 1)] [wLev 8 true, wLev 8 true] 512 none).loop.lc (1 - 1)).toNat ∧
      (List.replicate 6 (wLev 8 false)).length ≤ 6) ∧
    (∀ n, ({ wIs with loopOpen := some { lev := wLev 8 false, trips := n, n := 0 } } : Issue).loopOpen = some { lev := wLev 8 false, trips := n, n := 0 }) ∧
    (∀ d, (wNest [] [] 0 (some (wXfer d true 4))).seq.xfer = some (wXfer d true 4) ∧ (wXfer d true 4).delay = d) ∧
    (wLeaves (wXfer 0 true 9) (wLev 8 true) ∧ ¬ wLeaves (wXfer 0 true 8) (wLev 8 true) ∧ ¬ wLeaves (wXfer 0 true 9) (wLev 9 true) ∧
      wLeaves (wXfer 0 true 3) (wLev 9 true)) ∧
    (0 < (512 : Nat) ∧ (768 : Nat) ≤ 768 ∧ (511 : Nat) < 512 ∧ (512 : Nat) < 768 ∧ (1536 : Nat) ≤ 1536) := by
  refine ⟨⟨wReady _ _ rfl rfl, rfl, rfl, by decide +kernel, by decide +kernel, by decide +kernel, by decide +kernel⟩,
    ⟨place_tile _ _ _ rfl rfl rfl, rfl, by decide⟩, fun _ _ _ => ⟨rfl, rfl, rfl, rfl, rfl, rfl, rfl⟩, by decide, by decide, by decide,
    fun _ => rfl, fun _ => ⟨rfl, rfl⟩, by decide, by decide⟩

/-- Results of one cycle for many registers, two of them for v3 and one in a special register each. -/
def wMany : Tile :=
  { flight := [(3, .v 3 5), (1, .v 3 6), (4, .g 7 1), (4, .q 15 true), (4, .m 7 9), (3, .ma 7 0x3FFFF), (0, .sreg 0x0C 0x3F), (0, .sreg 0x0D 5),
      (0, .sreg 0x0E 0xFFFFFFFF)].map (fun e => { issued := 0, due := 0, slot := e.1, seq := e.1, dest := e.2, flags := 1 }) }

theorem witness_ResultsLand_more : tileWf wMany = true ∧ Stands (wState wMany) wLoc (wPart wMany) wMany ∧
    (∀ e ∈ wMany.flight, e.due ≤ (wPart wMany).gcyc) ∧
    (∃ e, LastOf wMany.flight (fun d => ∃ x, d = .v 3 x) e ∧ e.dest = .v 3 5) ∧
    (∃ e, LastOf wMany.flight (fun d => ∃ x, d = .ma 7 x) e) ∧ (∃ e, LastOf wMany.flight (fun d => ∃ x, d = .sreg 0x0C x) e) ∧
    NoneOf wMany.flight (fun d => ∃ x, d = .g 31 x) := by
  refine ⟨by decide +kernel, wStands _, by decide, ⟨{ issued := 0, due := 0, slot := 3, seq := 3, dest := .v 3 5, flags := 1 }, ?_, rfl⟩,
    ⟨{ issued := 0, due := 0, slot := 3, seq := 3, dest := .ma 7 0x3FFFF, flags := 1 }, ?_⟩,
    ⟨{ issued := 0, due := 0, slot := 0, seq := 0, dest := .sreg 0x0C 0x3F, flags := 1 }, ?_⟩, ?_⟩ <;>
  simp [LastOf, NoneOf, wMany]

/-- Every kind of value that the statements tell apart, in the widest and the narrowest format. -/
theorem witness_VectorFloatArithmetic_more :
    (∀ y ∈ [Ty.f32, .f16, .bf16, .e5, .e4], y.isInt = false) ∧ 0xFFFFFFFF < 2 ^ 32 ∧ 0xFF < 2 ^ Ty.e4.width ∧
    ((fdecode Ty.e4.fmt 0x7E).isNum = true ∧ (fdecode Ty.e4.fmt 0x80).isNum = true ∧ (fdecode Ty.e4.fmt 0xFF).isNan = true) ∧
    (fdecode Ty.f32.fmt 0x7F800001).isNan = true ∧ fdecode Ty.f32.fmt 0xFF800000 = .inf true ∧ fdecode Ty.f32.fmt 0x7F800000 = .inf (!true) ∧
    ((fdecode Ty.f32.fmt 0x80000000).isNum = true ∧ (fdecode Ty.f32.fmt 0x80000000).num.1 = 0 ∧ (fdecode Ty.f32.fmt 1).num.1 ≠ 0) ∧
    ((∀ z, fdecode Ty.f32.fmt 1 ≠ .inf z) ∧ (fdecode Ty.f32.fmt 1).sign = false) := by
  refine ⟨by decide, by decide, by decide, ?_⟩
  decide +kernel

theorem witness_VectorFloatQuotientsAndConversions_more :
    (0 < 32 ∧ 32 ≤ 32) ∧ ((fdecode Ty.bf16.fmt 0xFF7F).sign = true ∧ (fdecode Ty.bf16.fmt 0xFF7F).num.1.natAbs ≠ 0) ∧
    (Ty.i4.isInt = true ∧ Ty.n32.isInt = true ∧ 0xF < 2 ^ Ty.i4.width) ∧ ([0x7F800000, 0xFF800000, 0x7FC00000] : List Nat) ≠ [] ∧
    ((∀ v ∈ [0x3F800000, 0].map (fdecode Ty.f32.fmt), v.isNum = true) ∧ .inf true ∈ [0xFF800000, 0].map (fdecode Ty.f32.fmt) ∧
      (∀ v ∈ [0xFF800000, 0].map (fdecode Ty.f32.fmt), v.isNan = false) ∧ ∃ v ∈ [0x7F800001, 0].map (fdecode Ty.f32.fmt), v.isNan = true) := by
  refine ⟨by decide, ?_⟩
  decide +kernel

theorem witness_BinnedRecordResults_more :
    2 ^ 128 - 1 < 2 ^ 128 ∧
    ((fdecode Ty.f32.fmt 0x7F7FFFFF).isNum = true ∧ dyLe 1 ((0 : Int) - 127) (fdecode Ty.f32.fmt 0x7F7FFFFF).num.1.natAbs (fdecode Ty.f32.fmt 0x7F7FFFFF).num.2 ∧
      ¬ dyLe 1 ((255 : Int) - 127) (fdecode Ty.f32.fmt 0x7F7FFFFF).num.1.natAbs (fdecode Ty.f32.fmt 0x7F7FFFFF).num.2) ∧
    (binOf (255 * 2 ^ 120)).anchor ≠ (binOf (254 * 2 ^ 120)).anchor ∧
    ((binOf (2 ^ 119)).nan = true ∧ (binOf (2 ^ 118)).pinf = true ∧ (binOf (2 ^ 117)).ninf = true ∧ (binOf (2 ^ 115)).ovf = true ∧
      (binOf (2 ^ 118)).ovf = false ∧ (binOf (2 ^ 118)).nan = false ∧ (binOf (2 ^ 118)).ninf = false) := by
  refine ⟨by decide, ?_⟩
  unfold dyLe
  decide +kernel

theorem witness_AccumulatorChanges_more :
    ((∀ s e, FVal.fin s 0 e ∉ [fdecode Ty.f32.fmt 0x3F800000, fdecode Ty.bf16.fmt 0x3F80, fdecode Ty.bf16.fmt 0xBF80]) ∧
      ∀ v ∈ [fdecode Ty.f32.fmt 0x3F800000, mulOf (fdecode Ty.bf16.fmt 0x3F80) (fdecode Ty.bf16.fmt 0xBF80)], v.isNum = true) ∧
    (∃ v ∈ [fdecode Ty.f32.fmt 0x7FC00000, fdecode Ty.bf16.fmt 0x3F80, fdecode Ty.bf16.fmt 0x3F80], v.isNan = true) ∧
    zeroTimesInf (fdecode Ty.bf16.fmt 0x8000) (fdecode Ty.bf16.fmt 0x7F80) = true ∧
    .inf true ∈ [fdecode Ty.f32.fmt 0x7F800000, mulOf (fdecode Ty.bf16.fmt 0xBF80) (fdecode Ty.bf16.fmt 0x7F80)] ∧
    ((fdecode Ty.f16.fmt 0x7C01).isNan = true ∧ (fdecode Ty.f16.fmt 0x7BFF).isNum = true ∧ (fdecode Ty.f16.fmt 0xFC00).isNum = false) := by
  refine ⟨⟨?_, by decide +kernel⟩, ?_⟩
  · have h1 : fdecode Ty.f32.fmt 0x3F800000 = .fin false 8388608 (-23) := by decide +kernel
    have h2 : fdecode Ty.bf16.fmt 0x3F80 = .fin false 128 (-7) := by decide +kernel
    have h3 : fdecode Ty.bf16.fmt 0xBF80 = .fin true 128 (-7) := by decide +kernel
    intro s e; simp [h1, h2, h3]
  · decide +kernel

-- The table load of 256 entries has 32 lines.
theorem witness_RowPairsAndTableEntries_more :
    Quiet (wRun (.attld 0 256 0x27E00)) [0x27E00 + 16 * 31] ∧ 0x27E00 % 16 = 0 ∧ (255 : Nat) < 256 := ⟨⟨rfl, by decide⟩, by decide, by decide⟩

theorem witness_RankUnitOrdersAndSteps_more :
    ((wRun (.rank 12 1024 1024 0x27000 0x26000 none)).accs = [] ∧ 0x27000 % 16 = 0 ∧ 16 * 128 < 8 + 2 * 1024) ∧
    (mget 0 (wOp (.rkacc 3 15 12 16 0x100 0x27F80)).buf 0 / 2 ^ 0 % 2 ^ 16 = 0 ∧ (0 : Nat) ≠ 0xFFFF ∧ 0x27F80 % 32 = 0 ∧
      (0x27F80 + 0 * (2 * tyWidth 12)) % 2 ^ 18 < sramEnd ∧ Quiet (wRun (.rkacc 3 15 12 16 0x100 0x27F80)) (lineList 0x27F80 64)) ∧
    (sramEnd ≤ (0x28000 + 0 * (2 * tyWidth 12)) % 2 ^ 18 ∧ wLoc.idx < poolBase ∧ (wPart (wRun (.rkacc 3 15 12 16 0x100 0x28000))).mode = .running) ∧
    ((1024 : Nat) ≤ 1024 ∧ tyWidth 12 = 32 ∧ tyWidth 10 = 16 ∧ (1023 : Nat) < 1024) :=
  ⟨⟨rfl, by decide, by decide⟩, ⟨by decide, by decide, by decide, by decide, ⟨rfl, by decide⟩⟩, ⟨by decide, by decide, rfl⟩, by decide⟩

theorem witness_CopyEngineStarts_more : (issueOf wCp .cp).was = [] ∧ 0x27FC0 % 64 = 0 ∧ 15 < 16 ∧ 0 < 1 := ⟨rfl, by decide, by decide, by decide⟩

/-- A gather whose line is poisoned, on a barrier or on none. -/
def wPoisoned (bar : Option Nat) : Tile :=
  { wCopy (.cpg 0x27FE0 [0] 2 bar) with copies := [{ id := 1, t := 0, pc := 0, kind := .cpg 0x27FE0 [0] 2 bar, units := 2, buf := [(1, (5, 3))] }] }

theorem witness_CopyEngineSteps_more :
    (sramEnd ≤ alignDown (unitBits true) (wrap18 (((0x27FF0 : Nat) : Int) + (unitOffsets [(2, 16, 16)] 1).1)) ∧
      (wAt (wCopy (.cpy 5 true 63 783 0x27FF0 0 [(2, 16, 16)] none)) 3).gcyc = 0 + 1 + 2 * 1) ∧
    (∀ b, (wPoisoned b).copies.map (fun c => (c.kind, c.units)) = [(.cpg 0x27FE0 [0] 2 b, 2)] ∧ (wPoisoned b).accs = [] ∧ tileWf (wPoisoned b) = true) ∧
    (mget (0, 0) [(1, ((5 : Line), 3))] 1).2.testBit 0 = true ∧ (mget (0, 0) [(1, ((5 : Line), 3))] 1).2.testBit 1 = true :=
  ⟨⟨by decide, rfl⟩, fun _ => ⟨rfl, rfl, rfl⟩, by decide⟩

/-- A binned deposit into the last line, alone or one of two. -/
def wBin (wide part : Bool) : Flit := { wFlit 0 with dop := 4, wide := wide, part := part, second := part }
def wBins (f : Flit) (waits : List DepWait) : Part := { wPart { depWait := waits } with flits := [(1, f)] }
def wFirst : DepWait := { pair := 1, due := 0, payload := 3, poison := false }

theorem witness_DepositsWrite_more :
    (∀ w q l, Holds (wOn (wBins (wBin w q) l)) 0 (wBins (wBin w q) l) ∧ mfind (wBins (wBin w q) l).flits 1 = some (wBin w q) ∧ (wBin w q).dop = 4 ∧
      (wBin w q).wide = w ∧ (wBin w q).part = q ∧ flitDest (wBin w q) < poolBase ∧ getTile (wBins (wBin w q) l) (flitDest (wBin w q)) = { depWait := l } ∧
      memWf ({ depWait := l } : Tile).sram = true ∧ ∀ e ∈ ({ depWait := l } : Tile).accs, e.bank ≠ bankOf (wBin w q).addr) ∧
    [wFirst].find? (fun w => w.pair == (wBin true true).pair) = some wFirst ∧ (∀ w ∈ ([] : List DepWait), w.pair ≠ (wBin true true).pair) := by
  refine ⟨fun w q l => ⟨wHolds _ rfl, rfl, rfl, rfl, rfl, ?_, ?_, rfl, ?_⟩, by decide, by decide⟩
  · show flitDest (wFlit 0) < poolBase
    decide
  · show getTile (wBins (wBin w q) l) (flitDest (wFlit 0)) = { depWait := l }
    have h : flitDest (wFlit 0) = 0 := by decide
    rw [h]; simp [getTile, wBins, wPart, mfind, poolBase]
  · intro e he; exact absurd he (by simp)

/-- An engine that has had commands in cycle 100 and just before. -/
def wEngine : Engine :=
  { banks := [(0, { row := some 5, act := some 77, pre := some 76, busy := some (101, none) })], rowCyc := some 100, refAll := none, acts := [(97, 4)] }

theorem witness_DramCommands_more : msorted wEngine.banks = true ∧ SecondOfKind wEngine 100 (.act 63 1) ∧ ¬ SecondOfKind wEngine 100 (.rd 0 5) ∧
    BreaksCheck (wDrams none) 0 wEngine 100 (.rd 0 5) 0 ∧ BreaksCheck (wDrams none) 0 wEngine 100 (.rd 0 5) 1 ∧
    (∀ edge, edge ≤ 45630 → edge ≤ (getBank wEngine 0).openEdge + 45630) ∧
    ((getBank wEngine 0).openEdge + 45630 < 45631 ∧ 45630 * (wDrams none).rec_.stretch < 64 * (42856 - (getBank wEngine 0).act.getD 0)) ∧
    (0 / 1024 = 0 ∧ tileIdx 63 783 / 1024 = 783 ∧ tileIdx 0 1 / 1024 ≠ 0 ∧ tileIdx 0 1 / 1024 ≠ 783 ∧ tileIdx 63 783 < poolBase) ∧
    ((wDrams none).rec_.dram.find? (fun x => decide (x.base ≤ 0xFFFFFFFFF ∧ 0xFFFFFFFFF < x.limit)) = some { base := 0, limit := 0x1000000000, offset := 0 } ∧
      (0xFFFFFFFFF + 0) % 2 ^ 48 / 2 ^ 21 ≤ 32767 ∧ 0xFFFFFFFFF / 2 ^ 10 % 32 ≠ 0 % 32 ∧ 0xFFFFF83FF / 2 ^ 10 % 32 = 0 % 32 ∧
      ∀ x ∈ (wDrams none).rec_.dram, ¬ (x.base ≤ 0x1000000000 ∧ 0x1000000000 < x.limit)) := by
  refine ⟨rfl, rfl, by simp [SecondOfKind, wEngine], .inl ⟨rfl, .inr ⟨101, none, rfl, by decide⟩⟩, .inr (.inl ⟨rfl, 77, rfl, by decide⟩), fun e h => ?_, by decide, by decide,
    by decide⟩
  exact Nat.le_trans h (Nat.le_add_left _ _)

/-- A tile that is wired to no engine, or whose address is outside every range. -/
def wUnwired : Part := { wDrams none with tiles := [(1024, wDram)] }
def wFar : Tile := wTile [(1, 0x27FC0), (2, 0), (3, 0x10)]
def wOff : Part := { wDrams none with tiles := [(0, wFar)] }

theorem witness_RefusedDramReads_more :
    (∀ c ∈ ([.act 63 32767, .pre 63, .prea, .ref, .refb 63] : List DCmd),
      dramCheck (wDrams none) 0 { rowCyc := some 100 } 100 c = some 14) ∧
    wiredEngine 1024 = none ∧ tileAt { wOn wUnwired with cur := { band := 0, idx := 1024 } } { band := 0, idx := 1024 } = some (wUnwired, wDram) ∧
    (Ready (wOn wOff) wOff wFar always (pairReads 1 ++ [codeG 1, codeG 0]) ∧ dramXlate wOff 0 (pairOf wFar 1) = .error 0x0001 ∧
      InSram (regAddr wFar 1 6) 64 ∧ ∀ a, optBar wFar 0 = some a → BarFits a) :=
  ⟨by decide, by decide, by simp [tileAt, wOn, getPart, getTile, wUnwired, wDrams, wAt, wPart, mfind, poolBase, inBand, tx, ty, pw, ph],
    ⟨place_ready _ _ _ _ rfl rfl rfl rfl rfl rfl rfl, by rfl, by decide, by intro a h; exact absurd h (by simp [optBar])⟩⟩

/-- Engine 0 has refreshed its other banks twice; bank 63 is past its deadline, or due with its row open. -/
def wRefEngine (refs : Nat) (k : Bank) : Engine := { banks := ((List.range 63).map (fun b => (b, { refs := 2 }))) ++ [(63, k)], refs := refs }
def wTicks (mode : Bool) (e : Engine) (n : Nat) : Part :=
  { wAt { dramMode := mode } 100 with ticks := n, engines := (0, e) :: (List.range 63).map (fun k => (k + 1, { refs := n })) }

theorem witness_RefreshSteps_more :
    (let past := fun (m : Bool) (k b : Nat) => 9 ≤ ((wTicks m (wRefEngine 0 {}) 8).ticks : Int) + 1 - (getEngine (wTicks m (wRefEngine 0 {}) 8) k).refs -
        (getBank (getEngine (wTicks m (wRefEngine 0 {}) 8) k) b).refs
      ∀ m ∈ [true, false], (∀ k, k < 64 * 1 → k ≠ 0 → ∀ b, b < 64 → ¬ past m k b) ∧ (List.range 64).filter (fun b => decide (past m 0 b)) = [63]) ∧
    8 ≤ (wTicks false (wRefEngine 0 {}) 8).ticks ∧ (wTicks true (wRefEngine 0 {}) 8).mode = .running ∧
    (∀ m, (getTile (wTicks m (wRefEngine 0 {}) 8) 0).dramMode = m) ∧
    (let p := wTicks false (wRefEngine 0 { row := some 7, act := some 0, openEdge := 0 }) 8;
      let e := getEngine p 0;
      8 ≤ owed p e 63 ∧ (∀ b, b < 64 → b ≠ 63 → ¬ 8 ≤ owed p e b ∧ ¬ rowStale p 45630 (getBank e b) = true) ∧
        openRow p 45630 p.gcyc (getBank e 63) ≠ none ∧ rowStale p 45630 (getBank e 63) = true ∧ e.allFrom ≤ 45630 ∧ (getBank e 63).preFrom ≤ 45630 ∧
        (getBank e 63).refFrom ≤ 45630 ∧ (getBank e 63).actFrom ≤ 45630 ∧ ∀ a ∈ e.actEdges, a.1 + 22 ≤ 45630) ∧
    (let p := wTicks false (wRefEngine 1 { row := some 7, act := some 0, openEdge := 0 }) 8;
      ¬ 8 ≤ owed p (getEngine p 0) 63 ∧ rowStale p 45630 (getBank (getEngine p 0) 63) = true) ∧
    (let p := wTicks false (wRefEngine 0 {}) 8;
      8 ≤ owed p (getEngine p 0) 63 ∧ (getBank (getEngine p 0) 63).row = none) := by
  refine ⟨by decide +kernel, by decide, rfl, fun _ => rfl, by decide +kernel, by decide +kernel, by decide +kernel⟩

/-- An address of the host's memory, of this module's DRAM, or of another module's; rows of this module that a swapped launch reserves. -/
def wReserve : Ctx := { rec_ := { asid := 5, token := 9, dram := [{ base := 0, limit := 0x200000, offset := 0 }] }, queue := 0, st := .swapped, since := 0, saved := some {} }
/-- A tile that names this module's DRAM by address 0, for 16 bytes or for none. -/
def wDramTile (n : Word) : Tile := wTile [(1, 0x27FF0), (2, n), (4, 0), (5, 0x400)]
def wDramPart (t : Tile) : Part := { wPart t with rec_ := { asid := 4, pages := [{ va := 0, pa := 0x40000000000, bits := 12 }] } }

theorem witness_LinkTransfersIssue_more :
    paModule 0x27FF0 = State.reset.moduleId ∧ paModule (0x27FF0 + 2 ^ 44) ≠ State.reset.moduleId ∧ paKind 0x40000000000 = 1 ∧
    reservedElse { State.reset with ctxs := [wReserve] } 4 (0x40000000000 % 2 ^ 42) 16 = true ∧
    reservedElse { State.reset with ctxs := [wReserve] } 5 (0x40000000000 % 2 ^ 42) 16 = false ∧
    reservedElse State.reset 4 (0x40000000000 % 2 ^ 42) 16 = false ∧ (15 : Word).toNat / 16 * 16 = 0 ∧ (16 : Word).toNat / 16 * 16 = 16 :=
  ⟨by decide, by decide, by decide, by decide +kernel, by decide +kernel, by decide, by decide, by decide⟩

/-- A put whose last line is to be read, of this module; its image in a swapped launch. -/
def wPutCtx : Ctx := { wCtx .swapped (some (wPart wPutTile)) with st := .swapped }

theorem witness_LinkSources_more : 1 + 1 = wPut.n / 16 ∧ paModule wPut.pa = State.reset.moduleId ∧
    (∀ c ∈ (wState wPutTile).ctxs, ∀ y, c.saved = some y → y.first ≠ wLoc.band) ∧
    ({ wState wPutTile with ctxs := [wPutCtx] } : State).ctxs = [wPutCtx] ∧ wPutCtx.saved = some (wPart wPutTile) ∧
    (wPart wPutTile).first = wLoc.band ∧ wServe.left ≤ 1 ∧ 1 < ({ wServe with left := 2 } : Serve).left ∧ wServe.src ≠ State.reset.moduleId ∧
    ({ wServe with src := 0 } : Serve).src = State.reset.moduleId ∧
    (let q : Port := { serve := [{ wServe with src := 0 }] };
      let s : State := { wState {} with ports := [(0, q), (1, { land := [{ wLand with get := some 1 }] })] };
      s.ports = [(0, getPort s 0), (1, { land := [{ wLand with get := some 1 }] })] ∧ ({ wLand with get := some 1 } : LandEntry).get = some wServe.xid ∧
        (getPort s 0).land = []) :=
  ⟨by decide, by decide, by decide, rfl, rfl, rfl, by decide, by decide, by decide, rfl, rfl, rfl, rfl⟩

/-- A launch of ASID 9 whose link table names the data SRAM of tile (0, 0); a put of one block to its last line. -/
def wNamed : Part := { wPart {} with rec_ := { asid := 9, links := [{ base := 0, limit := 0x40000, offset := 0, bar := 0 }] } }
def wOne : Inbound := { wIn 0x27FF0 1 with blocks := [(0, List.replicate 16 7)] }

theorem witness_InboundTransfers_more :
    (∃ n, portPart (wOn wNamed) 0 wOne.asid.toNat = some wNamed ∧ wNamed.rec_.replayRun = false ∧ inboundEntry wNamed.rec_ wOne.pa.toNat = some n ∧
      64 * wNamed.first ≤ paCol wOne.pa.toNat ∧ paCol wOne.pa.toNat < 64 * (wNamed.first + wNamed.count) ∧ paTy wOne.pa.toNat < 784 ∧
      paBad wOne.pa.toNat wOne.n = false ∧ wOne.cls ≠ 0 ∧ (getPort (wOn wNamed) 0).land = [] ∧ (getPort (wOn wNamed) 0).begun = [] ∧
      wOne.blocks = [(0, List.replicate 16 7)] ∧ (List.replicate 16 (7 : Byte)).length = wOne.n ∧ 0 < wOne.n ∧ wOne.n ≤ 512 ∧ wOne.n % 16 = 0 ∧
      wOne.src ≠ (wOn wNamed).moduleId ∧ paKind wOne.pa.toNat = 0) ∧
    (let s : State := { wState wPutTile with ports := [(0, {})] };
      putOwner s 1 = some wLoc ∧ ({ wIn 0x80000000000 1 with src := 0 } : Inbound).src = s.moduleId) :=
  ⟨⟨{ base := 0, limit := 0x40000, offset := 0, bar := 0 }, by decide +kernel, rfl, by decide +kernel, by decide, by decide, by decide, by decide, by decide, rfl, rfl, rfl, by decide, by decide, by decide,
    by decide, by decide, by decide⟩, by decide +kernel, rfl⟩

theorem witness_TransfersClose_more :
    (let s : State := { wState wPutTile with ports := [(0, { land := [{ wLand with src := 0, xid := 1 }] })] };
      putOwner s 1 = some wLoc ∧ ({ wLand with src := 0, xid := 1 } : LandEntry).src = s.moduleId ∧ ({ wLand with src := 0, xid := 1 } : LandEntry).get = none) ∧
    (wLand.get = none → wLand.src ≠ State.reset.moduleId) ∧
    (Stands { wState wPutTile with ports := [(0, { land := [wLand] })] } wLoc (wPart wPutTile) wPutTile ∧ (wPart wPutTile).mode = .running) :=
  ⟨⟨by decide +kernel, rfl, rfl⟩, by decide, ⟨standsOn _ _ _ rfl rfl rfl rfl, rfl⟩⟩

theorem witness_LandingsWrite_more : wArmed.watches = [] := rfl

/-- A collective whose only peer is another module, and not this one as that of `wColl`. -/
def wOther (cls sent snap : Nat) : Coll := { wColl cls sent snap with rec_ := { wRec cls with ringBase := 1 } }

theorem witness_CollectivesStartAndSend_more :
    ringModule (wColl 1 0 32).rec_ (walkPeer (wColl 1 0 32).rec_ 0) = State.reset.moduleId ∧ canSend (wColl 1 0 32) = true ∧
    ringModule (wOther 1 0 32).rec_ (walkPeer (wOther 1 0 32).rec_ 0) ≠ State.reset.moduleId ∧ canSend (wOther 1 0 32) = true := by
  decide +kernel

/-- A landing that fills its port's buffer with n bytes. -/
def wFull (n : Nat) : LandEntry := { wLand with n := n, cls := 1, blocks := [(0, List.replicate n 0)] }
def wPiled (c : Coll) (l : List LandEntry) : State := { wOn (wPart {}) with ports := [(0, { colls := [c], land := l })], edge := 10400 }

theorem wFull_room (n : Nat) (r : CollRec) (h : r.cls = 1) :
    roomBlocks (getPort (wPiled (wColl 1 0 32) [wFull n]) 0) r = (16777216 - n) / 512 := by
  simp [roomBlocks, bufferSize, bufferUse, landHeld, wPiled, wFull, wLand, newLand, getPort, mfind, h]

theorem witness_CollectivesReceive_more :
    (∀ l, (getPort (wPiled (wColl 0 0 31) l) 0).colls = [wColl 0 0 31] ∧ (wColl 0 0 31).snapDone < (wColl 0 0 31).rec_.wrap / 16 ∧
      (wColl 0 0 31).shut = [] ∧ (wColl 0 0 31).partial_ = []) ∧
    ((wChunk.last || (wRec 1).op == 0) = true ∧ roomBlocks (getPort (wPiled (wColl 1 0 32) [wFull 16777216]) 0) (wRec 1) < (wRec 1).nblk ∧
      ¬ roomBlocks (getPort (wPiled (wColl 1 0 32) []) 0) (wRec 1) < (wRec 1).nblk) ∧
    (wChunk.src ≠ State.reset.moduleId ∧ wChunk.trailer = true ∧ wChunk.step = (wColl 0 0 32).seen.length ∧
      (closingStep (wOther 0 0 32)).src ≠ State.reset.moduleId) ∧
    (let y : Ctx := { wCtx .swapped none with ports := [(0, getPort (wPorts (wPart {}) (wColl 1 0 32)) 0)] };
      ({ wPorts (wPart {}) (wColl 1 0 32) with ctxs := [y] } : State).ctxs = [y] ∧ y.ports = [(0, getPort (wPorts (wPart {}) (wColl 1 0 32)) 0)]) :=
  ⟨fun _ => ⟨rfl, by decide, rfl, rfl⟩, ⟨by decide, by rw [wFull_room _ _ rfl]; decide, by decide +kernel⟩,
    by decide +kernel, ⟨rfl, rfl⟩⟩

-- The tile and its east neighbour, which is the one behind.
theorem witness_RealignAndAuditUnits_more : neighbour wAhead 0 1 = some 1 ∧ (getTile wAhead 1).skew ≠ (1 : Int) ∧ WellFormed (.realign 15) := by
  decide +kernel

theorem witness_EventsAreTaken_more : (7 : Nat) < 8 ∧ (∃ st, ({ wAt {} 1 with stop := some { at_ := 864, event := true, c1 := 0 } } : Part).stop = some st) :=
  ⟨by decide, _, rfl⟩

/-- A guard on q15 that reads true or false; q15 in error or in flight. -/
def wQ : Guard := { neg := true, kind := false, idx := 7 }
def wQTile (err : Bool) (late : Bool) : Tile :=
  { regErr := if err then [codeQ 7] else [], flight := if late then [{ issued := 0, due := 2, slot := 0, seq := 0, dest := .q 7 true, flags := 0 }] else [] }

theorem witness_IssueChecksComeFirst_more :
    (∀ e l, tileAt (wOn (wAt (wQTile e l) 1)) wLoc = some (wAt (wQTile e l) 1, wQTile e l) ∧ (wAt (wQTile e l) 1).first = wLoc.band) ∧
    (∃ w, encode (.ldv wNever 1 1 0) = some (.ld, w) ∧ encFault (.ldv wNever 1 1 0) = none ∧ guardIn .ld w = wNever) ∧
    (∃ w c, encode (.stg ⟨false, false, 7⟩ 1 2 0) = some (.st, w) ∧ encFault (.stg ⟨false, false, 7⟩ 1 2 0) = none ∧
      guardReads (guardIn .st w) = [c] ∧ smem (wQTile true false).regErr c = true ∧ guardTrue (wQTile true false) (guardIn .st w) = false) ∧
    (∃ w, encode (.vadd .va always 0 0 0 1 2) = some (.va, w) ∧ guardTrue (wLate true) (guardIn .va w) = true ∧
      operandsOf {} (.vadd .va always 0 0 0 1 2) = [] ++ codeV {} 1 :: [codeV {} 2]) ∧
    (∃ w c, encode (.add ⟨false, false, 7⟩ 1 2 3) = some (.s, w) ∧ guardReads (guardIn .s w) = [c] ∧ isLate (wQTile false true) 1 c = true ∧
      (wQTile false true).sbMode = false) ∧
    ((∀ c ∈ guardReads wNever, isLate {} 0 c = false ∧ smem ({} : Tile).regErr c = false) ∧ guardTrue {} wNever = false) :=
  ⟨fun _ _ => ⟨place_tile _ _ _ rfl rfl rfl, rfl⟩, ⟨_, rfl, by decide, by decide⟩, ⟨_, _, rfl, by decide, rfl, by decide, by decide⟩,
    ⟨_, rfl, by decide, by decide⟩, ⟨_, _, rfl, rfl, by decide, rfl⟩, by decide⟩

/-- A WAITB whose read falls in this cycle, on the record of a given line at 0x100. -/
def wRead (hi lo : Byte) : Tile :=
  { sram := [(0x104, 1)] ++ (if lo = 0 then [] else [(0x108, lo)]) ++ (if hi = 0 then [] else [(0x10F, hi)]),
    pslots := [wSlot (some 0x100) false], nextAcc := [(0, 9, .waitb 0x100 1)] }

theorem witness_PendingSlotSteps_read :
    (∀ h l, Stands (wState (wRead h l)) wLoc (wPart (wRead h l)) (wRead h l) ∧ (wRead h l).pslots = [wSlot (some 0x100) false] ∧
      (wRead h l).nextAcc = [((wPart (wRead h l)).gcyc, 9, .waitb 0x100 1)] ∧ (wRead h l).held = [] ∧ (wRead h l).accs = [] ∧ (wRead h l).bursts = [] ∧
      (wRead h l).copies = [] ∧ (wRead h l).dropNext = [] ∧ (wPart (wRead h l)).flits = []) ∧
    BarFits 0x100 ∧ (wSlot (some 0x100) false).bar = some 0x100 ∧
    (sramLine (wRead 0x80 0).sram 0x100).toNat / 2 ^ 67 ≠ 0 ∧ (sramLine (wRead 0 8).sram 0x100).toNat / 2 ^ 67 ≠ 0 ∧
    (let x := fun (l : Byte) => (sramLine (wRead 0 l).sram 0x100).toNat;
      (∀ l ∈ [7, 4, 3, 2, 1, 0], x l / 2 ^ 67 = 0) ∧ (x 4).testBit 66 = true ∧ (x 7).testBit 66 = true ∧
        ((x 1).testBit 66 = false ∧ (x 1).testBit 65 = false ∧ (x 1).testBit 64 = (wSlot (some 0x100) false).ph) ∧
        ((x 0).testBit 65 = false ∧ (x 0).testBit 64 ≠ (wSlot (some 0x100) false).ph) ∧ (x 2).testBit 65 = true ∧ (x 3).testBit 65 = true) := by
  refine ⟨fun _ _ => ⟨wStands _, rfl, rfl, rfl, rfl, rfl, rfl, rfl, rfl⟩, ?_⟩
  decide +kernel

/-- A landing of nine lines, the ninth in the bank of the first, or of two in one bank. -/
def wLines (n step : Nat) : LandEntry := { wWin with lines := (List.range n).map (fun k => { wLine with addr := 0x200 + step * k }) }

theorem witness_PendingSlotSteps_window :
    hasHold (wPart (wPend (some 0x100) true)) { by_ := .slot 0 1, start := 900, pc := 0, count := 0 } = false ∧
    (∀ x ∈ (wLines 9 16).lines, x.addr % 16 = 0 ∧ x.addr < sramEnd ∧ x.bytes.length = 16) ∧
    (wLines 9 16).lines.Pairwise (fun x y => x.addr < y.addr) ∧
    (∃ g r, (wLines 9 16).lines = g ++ r ∧ g.length = 8 ∧ (g.map (fun x => bankOf x.addr)).Nodup ∧ r.length = 1) ∧
    (∃ g r, (wLines 2 256).lines = g ++ r ∧ g.length = 1 ∧ (g.map (fun x => bankOf x.addr)).Nodup ∧
      ∀ y, r.head? = some y → ∃ x ∈ g, bankOf x.addr = bankOf y.addr) ∧
    (∀ n k, (wLines n k).win = none ∧ (wLines n k).closed = true ∧ (wLines n k).band = 0 ∧ (wLines n k).tile = 0 ∧ (wLines n k).bar = some 0x100) ∧
    (wSlot (some 0x100) true).window = false ∧ (getRec { wPend (some 0x100) true with sram := [] } 0x100).armed = false ∧ (wLines 1 0).lines ≠ [] := by
  refine ⟨by decide, by decide, by decide, ⟨(wLines 8 16).lines, [{ wLine with addr := 0x280 }], by decide, by decide, by decide, rfl⟩,
    ⟨(wLines 1 256).lines, [{ wLine with addr := 0x300 }], by decide, by decide, by decide, by decide⟩, fun _ _ => ⟨rfl, rfl, rfl, rfl, rfl⟩, rfl,
    by decide +kernel, by decide⟩

/-- A hold one cycle short of the limit; a tile whose one burst is held up. -/
def wLimit (b : HoldBy) : Part := { wPart {} with rec_ := { freezeLimit := 5000 }, holds := [{ by_ := b, start := 0, pc := 0, count := 4999 }] }

theorem witness_FreezesAndHolds_more :
    (∀ b, ∀ h ∈ (wLimit b).holds, h.start ≤ (wLimit b).gcyc ∧ h.count + 1 = (wLimit b).rec_.freezeLimit ∧ h.by_ = b) ∧
    (∀ h ∈ (wPart {}).holds, h.by_ ≠ .governor) ∧ (1300 - 64 * min 20 20) * 60 / 64 / min 20 20 = 0 ∧ (1300 - 64 * min 1 20) * 60 / 64 / min 1 20 ≠ 0 ∧
    (Stands (wState (wBurstTile true)) wLoc (wPart (wBurstTile true)) (wBurstTile true) ∧ (wBurstTile true).pslots = [] ∧
      (wBurstTile true).bursts = [wBurst true] ∧ (wPart (wBurstTile true)).stop = none) :=
  ⟨fun b => by simp [wLimit, wPart], by decide, by decide, by decide, ⟨wStands _, rfl, rfl, rfl⟩⟩

/-- A launch that meets its cap at cadence 50 and at no greater one; one that meets it at none. -/
def wWarm : Part := { wPart {} with k := 52, power := 51000 * 1000000, rec_ := { cap := 1000, stretch := 8 } }
def wSaving : Ctx := { wCtx .saving none with saveFrom := 0, saveEnd := 1300 }
def wOwes : Part := { wPart {} with k := 59, ticks := 6, rec_ := { stretch := 8 } }

theorem witness_CadenceAndPower_more :
    ({ wWith (some (wOwn .running none)) wSaving with edge := 1300 } : State).ctxs = [wSaving] ∧ wSaving.st = .saving ∧
    wSaving.rec_.token = (wOwn .running none).rec_.token ∧ (∀ c ∈ (wWith (some (wOwn .running none)) (wCtx .running none)).ctxs, c.st ≠ .saving) ∧
    (let meets := fun (j : Nat) => wWarm.rec_.stretch ≤ j ∧ j ≤ 60 ∧ 0 * wWarm.k + (wWarm.power - 0) * j ≤ wWarm.rec_.cap * 50000000 * wWarm.k;
      wWarm.kNext = [] ∧ wWarm.rec_.stretch ≤ 60 ∧ meets 50 ∧ ∀ i, 50 < i → ¬ meets i) ∧
    (∃ m : Nat, wHeavy.power * wHeavy.rec_.stretch ≠ 0 ∧ m ≤ 20 ∧
      (m < 20 → (20 * (((wHeavy.power * wHeavy.rec_.stretch : Nat) : Int) - ((wHeavy.rec_.cap * 50000000 : Nat) : Int) * wHeavy.k)) ≤
        ((wHeavy.power * wHeavy.rec_.stretch : Nat) : Int) * m) ∧
      (0 < m → ((wHeavy.power * wHeavy.rec_.stretch : Nat) : Int) * (m - 1 : Nat) <
        20 * (((wHeavy.power * wHeavy.rec_.stretch : Nat) : Int) - ((wHeavy.rec_.cap * 50000000 : Nat) : Int) * wHeavy.k))) ∧
    (wOwes.k < 60 ∧ ∃ j b, j < 64 * wOwes.count ∧ b < 64 ∧ 6 ≤ (wOwes.ticks : Int) - (getEngine wOwes j).refs - (getBank (getEngine wOwes j) b).refs) ∧
    ((wPart {}).mode = .running ∧ ∀ x ∈ (wPart {}).tiles, tx x.1 < 64 * (wPart {}).count ∧ ty x.1 < 784) := by
  refine ⟨rfl, rfl, rfl, by decide, ⟨rfl, by decide, by decide, ?_⟩, ⟨20, by decide, by decide, by decide, by decide⟩, ⟨by decide, 63, 63, by decide⟩,
    rfl, by decide⟩
  rintro i h ⟨_, _, h3⟩
  have h4 : (51000000000 : Nat) * i ≤ 2600000000000 := by simpa [wWarm, wPart] using h3
  omega

/-- Two tiles with a queued EVT and trace record each; a buffer whose write pointer is 16 bytes before its end and whose one record fills the rest. -/
def wBuffers (w : Nat) (lens : List Nat) : Part :=
  { wTraced with tiles := [(0, wRecs), (1, { wRecs with traceDropped := 3, traces := [wTrace] }), (2, { wRecs with traces := List.replicate 8 wTrace })], traceW := w, traceLens := lens }
def wNear : Part := { wTraced with traceW := 65520, traceOld := 65520, traceLens := [65520] }
/-- A host buffer that is full; a module whose scrubber is at granules of two tiles. -/
def wFullLog : Part := { wTraced with rec_ := { replayLen := 64 } }
def wScrubbed : Part := { wTraced with tiles := [(0, { wRecs with corr := [5, 0x4FFF], uncorr := [15] })] }

theorem witness_RecordsDrain_more :
    (∀ w l, Holds (wOn (wBuffers w l)) 0 (wBuffers w l) ∧ msorted (wBuffers w l).tiles = true ∧ (∀ e ∈ (wBuffers w l).tiles, e.1 < poolBase)) ∧
    (let all := (wBuffers 0 []).tiles.filterMap (fun e => e.2.traces.head?.map (traceBytes (physCol (wOn (wBuffers 0 [])) 0 e.1) e.1));
      all.flatten.length ≤ 65536 - 0 ∧ (wBuffers 0 []).traceLens.sum + all.flatten.length ≤ 65536 ∧ all.length = 3) ∧
    (Holds (wOn wNear) 0 wNear ∧ wNear.traceW < wNear.traceSize ∧ wNear.traceOld < wNear.traceSize ∧
      wNear.tiles.filter (fun e => !e.2.traces.isEmpty) = [(0, wRecs)] ∧
      wNear.traceSize - wNear.traceW < (traceBytes (physCol (wOn wNear) 0 0) 0 wTrace).length) ∧
    ((∃ t, mfind (wBuffers 0 []).tiles 1 = some t ∧ t.traces.length < 8 ∧ t.traceDropped ≠ 0 ∧ t.seq.lastCyc = some 0) ∧
      ∃ t, mfind (wBuffers 0 []).tiles 2 = some t ∧ 8 ≤ t.traces.length) ∧
    (wFullLog.logOpen = true ∧ (∃ e, (wFullLog.log.drop wFullLog.logDone).head? = some e ∧
      wFullLog.rec_.replayLen < 64 + logSize wFullLog.log wFullLog.logDone + 16 * logUnits e.ty)) ∧
    (ModuleInv (wOn wScrubbed) ∧ 5 / 16 = (wOn wScrubbed).edge / 16 % 1280 ∧ 0x4FFF / 16 = 1279) := by
  refine ⟨fun _ _ => ⟨wHolds _ rfl, rfl, by simp [wBuffers, poolBase]⟩, by decide +kernel, ⟨wHolds _ rfl, by decide, by decide, rfl, by decide +kernel⟩,
    ⟨⟨_, rfl, by decide, by decide, rfl⟩, ⟨_, rfl, by decide⟩⟩, ⟨rfl, _, rfl, by decide⟩,
    ⟨⟨rfl, by intro e he; simp [wOn] at he; subst he; rfl⟩, rfl, rfl⟩, by decide, by decide⟩

/-- An event stop in a freeze, of a partition whose region has a retry left; a stop that a tile in a delay bundle raised. -/
def wFrozenStop : Part := wStopped 1 (.frozen 0) (some (wStop true false 0x0D none))
def wInDelay (precise : Bool) (delay : Nat) : Part :=
  { wStopped 1 .debugHeld (some (wStop true false 0x0B none)) with
    tiles := [(0, { wRegion 1 with raisedAt := some 0, evc := if precise then 0x10B else 0x0B, seq := { xfer := some (wXfer delay true 0) } })] }
def wIntent (c : Nat) (w : StopWhy) (b : Bool) : JEntry := { what := .stop 0 c (some w), committed := b }

theorem witness_StopsAndUnwinds_more :
    ((∃ e, wFrozenStop.mode = .frozen e) ∧ wFrozenStop.stop = some (wStop true false 0x0D none) ∧ (wStop true false 0x0D none).at_ ≤ wFrozenStop.gcyc ∧
      wFrozenStop.debugHold = false ∧ (wStop true false 0x0D none).abort = false ∧ Holds (wOn wFrozenStop) 0 wFrozenStop) ∧
    (({ wStopped 1 .running (some (wStop true true 0 none)) with audPolicyFail := true, rec_ := { auditPolicy := 2 } } : Part).rec_.auditPolicy = 2) ∧
    ((∀ j ∈ (wOn (wStopped 1 .running none)).journal, j.what = .stop 0 5 (some .cycleBreak) → j.committed = true) ∧
      ∃ j ∈ ({ wOn (wStopped 1 .running none) with journal := [wIntent 5 .cycleBreak false] } : State).journal,
        j.what = .stop (wStopped 1 .running none).rec_.token 5 (some .cycleBreak) ∧ j.committed = false) ∧
    ((wStop false false 0 (some .preempt)).why = some .preempt ∧ (∃ r ∈ ({ wStop true false 0 none with req := [(5, .cycleBreak)] } : Stop).req, r.2 = .cycleBreak ∧ r.1 = 5) ∧
      (wStop false false 0 (some .preempt)).at_ ≤ max 5 ((wStopped 1 .running none).gcyc + lead (wStopped 1 .running none)) ∧
      max 5 ((wStopped 1 .running none).gcyc + lead (wStopped 1 .running none)) < ({ wStop false false 0 (some .preempt) with at_ := 865 } : Stop).at_) ∧
    ((0 : BitVec 8) = 0 ∧ 0x11 < (0x12 : BitVec 8).toNat ∧ 0 < (0x11 : BitVec 8).toNat ∧ (0x11 : BitVec 8).toNat ≤ 0x11) ∧
    (∀ b d, heldPart (wOn (wInDelay b d)) (0 : BitVec 14).toNat = some (wInDelay b d)) ∧
    (∃ e ∈ (wInDelay true 1).tiles, e.2.raisedAt ≠ none ∧ ∃ x, e.2.seq.xfer = some x ∧ if e.2.evc.getLsbD 8 then 0 < x.delay else x.delay < 2) ∧
    (∃ e ∈ (wInDelay false 1).tiles, e.2.raisedAt ≠ none ∧ ∃ x, e.2.seq.xfer = some x ∧ if e.2.evc.getLsbD 8 then 0 < x.delay else x.delay < 2) ∧
    ¬ (∃ e ∈ (wInDelay false 2).tiles, e.2.raisedAt ≠ none ∧ ∃ x, e.2.seq.xfer = some x ∧ if e.2.evc.getLsbD 8 then 0 < x.delay else x.delay < 2) ∧
    ¬ (∃ e ∈ (wInDelay true 0).tiles, e.2.raisedAt ≠ none ∧ ∃ x, e.2.seq.xfer = some x ∧ if e.2.evc.getLsbD 8 then 0 < x.delay else x.delay < 2) := by
  refine ⟨⟨⟨0, rfl⟩, rfl, by decide, rfl, rfl, wHolds _ rfl⟩, rfl, ⟨by decide, ⟨_, List.mem_singleton.mpr rfl, rfl, rfl⟩⟩,
    ⟨rfl, ⟨_, List.mem_singleton.mpr rfl, rfl, rfl⟩, by decide, by decide⟩, by decide, ?_, ?_⟩
  · intro b d; rfl
  · simp [wInDelay, wXfer]

/-- A launch that is saved and restored, with a row open, a discardable line, an image and a page. -/
def wSaved : Part :=
  { wOwn .armedStop (some (wStop false false 0 (some .preempt))) with
    tiles := [(0, { sram := [(16, 7), (32, 8)], discard := [1], imemErr := [3] })],
    engines := [(0, { banks := [(63, { row := some 7, act := some 0 })], guard := 5 })],
    rec_ := {
      token := 7, images := [{ tx0 := 0, tx1 := 63, txs := 1, ty0 := 0, ty1 := 783, tys := 783, stage := 0, imem := [(0, 9)], sram := [], discard := [] }],
      pages := [{ va := 0x1000, pa := 0x40000000000, bits := 12 }] } }
def wFault (d : Bool) : SaveFault := { tx := 63, ty := 783, part := 5, discardable := d }

theorem witness_ContextsSwitch_more :
    (ModuleInv (wWith none (wCtx .restoring (some wSaved))) ∧ ctxOf (wWith none (wCtx .restoring (some wSaved))) (7 : BitVec 64).toNat = some (wCtx .restoring (some wSaved)) ∧
      ¬ ((wWith none (wCtx .restoring (some wSaved))).budget < wSaved.rec_.cap + ((wWith none (wCtx .restoring (some wSaved))).parts.map (fun e => e.2.rec_.cap)).sum ∨
        ∃ e ∈ (wWith none (wCtx .restoring (some wSaved))).parts, ∃ j, wSaved.rec_.first ≤ j ∧ j < wSaved.rec_.first + wSaved.rec_.count ∧
          e.2.first ≤ j ∧ j < e.2.first + e.2.count)) ∧
    (∀ d, ({ bad := some (wFault d) } : RestoreScan).bad = some (wFault d) ∧ (wFault d).discardable = d) ∧
    (wSaved.rec_.pages = [{ va := 0x1000, pa := 0x40000000000, bits := 12 }] ∧ ({ moved := [(0x1000, 0x40000003000)] } : RestoreScan).moved = [(0x1000, 0x40000003000)] ∧
      0x40000003000 % 2 ^ 12 = 0 ∧ 0x40000003001 % 2 ^ 12 ≠ 0) ∧
    ((getBank (getEngine wSaved 0) 63).row ≠ none ∧ memWf ({ sram := [(16, 7), (32, 8)] } : Tile).sram = true ∧ 31 / 16 ∈ [1] ∧ 32 / 16 ∉ [1]) ∧
    ((0 : Nat) ≤ tx 0 ∧ tx (tileIdx 63 783) ≤ 63 ∧ (ty (tileIdx 63 783) - 0) % 783 = 0) ∧
    (720 < ({ token := 7, cap := 721 } : LaunchRec).cap + (([] : List (Nat × Part)).map (fun e => e.2.rec_.cap)).sum) ∧
    (∃ e ∈ (wWith (some (wOwn .running none)) (wCtx .restoring (some wSaved))).parts, ∃ j, wSaved.rec_.first ≤ j ∧ j < wSaved.rec_.first + wSaved.rec_.count ∧
      e.2.first ≤ j ∧ j < e.2.first + e.2.count) ∧
    ((∃ e ∈ ({ wWith (some wSaved) (wCtx .running none) with journal := [{ what := .release 7, committed := false }] } : State).journal,
        e.what = .release wSaved.rec_.token ∧ e.committed = false) ∧
      ¬ ∃ e ∈ (wWith (some wSaved) (wCtx .running none)).journal, e.what = .release wSaved.rec_.token ∧ e.committed = false) ∧
    ((485 : Nat) < 486 ∧ (∃ e ∈ wSaved.engines, 490 < e.2.guard + 486) ∧ ∀ e ∈ wSaved.engines, e.2.guard + 486 ≤ 491) := by
  refine ⟨⟨⟨⟨rfl, by intro e he; simp [wWith] at he⟩, rfl, rfl⟩, rfl, by simp [wWith, wSaved, wOwn, State.reset, wPart]⟩, fun _ => ⟨rfl, rfl⟩,
    ⟨rfl, rfl, by decide, by decide⟩, by decide, by decide, by decide, ⟨_, List.mem_singleton.mpr rfl, 0, by decide, by decide, by decide, by decide⟩,
    ⟨⟨_, List.mem_singleton.mpr rfl, rfl, rfl⟩, by simp [wWith, State.reset]⟩, by decide⟩

/-- Three samples: two of one sheet row, of which the first has a line left, and one of the last row. -/
def wTrio : Part :=
  { wPart {} with samples := [{ wSample [0] none none with tile := 5 }, { wSample [16] none none with tile := 6 },
      { wSample [] none none with poolIdx := poolBase + 3 }], audit := [0, 0, 0, 0, 0, 0] }
/-- A sample of a unit whose region is open, its two signatures different. -/
def wDiffers (policy : Nat) (serial : Nat) : Part :=
  { wPart { regions := [{ handler := 5, retries := 0, reentry := 3, g := [], q := [], loop := {}, serial := 1 }] } with
    samples := [{ wSample [] (some 1) (some 2) with tile := 0, unit := { wUnit with serial := some serial } }], rec_ := { auditPolicy := policy } }

theorem witness_AuditEngineSteps_more :
    (Holds (wOn wTrio) 0 wTrio ∧ (wTrio.samples.map (fun y => (y.tile, y.unit.openCyc))).Nodup ∧
      (∀ y ∈ wTrio.samples, y.overtaken = false ∧ (getTile wTrio y.tile).audDirty = [] ∧ ty y.tile < 784) ∧
      (∀ y ∈ wTrio.samples, y.tile < poolBase ∧ poolBase ≤ y.poolIdx) ∧ (wOn wTrio).phase = .idle) ∧
    (∃ y, wTrio.samples[0]? = some y ∧ y.todoLines ≠ []) ∧ (∃ y, wTrio.samples[1]? = some y ∧ y.todoLines ≠ [] ∧ ty y.tile / 112 = 0) ∧
    (∃ y, wTrio.samples[2]? = some y ∧ y.poolIdx = poolBase + 3 ∧ y.copied = true ∧ y.replaySig = none ∧ y.loaded = false) ∧
    (({ wSample [0] none none with overtaken := true } : Sample).overtaken = true ∧ (16 : Nat) < 2 ^ 18) ∧
    (∀ n k, (wDiffers n k).samples = [] ++ { wSample [] (some 1) (some 2) with tile := 0, unit := { wUnit with serial := some k } } :: [] ∧
      (wDiffers n k).audit.length = 6 ∧ (getTile (wDiffers n k) 0).audDirty = [] ∧ (wDiffers n k).mode = .running ∧ (wDiffers n k).divergeAt = none ∧
      (wDiffers n k).stop = none ∧ (wDiffers n k).rec_.auditPolicy = n) ∧
    (∃ r ∈ (getTile (wDiffers 2 1) 0).regions, (some 1 : Option Nat) = some r.serial) ∧
    ¬ (∃ r ∈ (getTile (wDiffers 2 0) 0).regions, (some 0 : Option Nat) = some r.serial) := by
  refine ⟨⟨wHolds _ rfl, by decide, by decide, by decide, rfl⟩, ⟨_, rfl, by decide⟩, ⟨_, rfl, by decide, by decide⟩, ⟨_, rfl, by decide⟩, ⟨rfl, by decide⟩,
    fun _ _ => ⟨rfl, rfl, rfl, rfl, rfl, rfl, rfl⟩, by decide, by decide⟩

/-- The journal holds the intent of a change. -/
abbrev wIntends (s : State) (w : JWhat) : Prop := ∃ e ∈ s.journal, e.what = w ∧ e.committed = false
def wNoted (s : State) (w : JWhat) : State := { s with journal := [{ what := w, committed := false }] }
/-- A candidate of priority 7 and a launch of priority 6 on its column. -/
def wBids (st : LState) : Ctx := { rec_ := { token := 7, prio := 7, cap := 720 }, queue := 9, st := st, since := 0, saved := none }
def wRuns (prio : Nat) (expired : Bool) : Part := { wPart {} with rec_ := { token := 1, prio := prio }, expired := expired }
def wPlaces (st : LState) (p : Part) : State := { wOn p with ctxs := [wBids st], status := { ready := true } }
def wStart (l : List (Nat × Int)) : StartTest := { token := 7, skews := l }

theorem witness_HubRunsLaunches_more :
    (wIntends (wNoted (wHub wHost) (.setHead 0xFFF 0)) (.setHead 0xFFF 0) ∧
      (∀ m, wIntends (wNoted (wHub wHost) (.setHead 0xFFF 0)) (.setHead 0xFFF m) → m = 0) ∧ ∀ n, ¬ wIntends (wHub wHost) (.setHead 0xFFF n)) ∧
    (¬ (4 ≤ ({ wQueue with ringLog2 := 17 } : Queue).ringLog2 ∧ ({ wQueue with ringLog2 := 17 } : Queue).ringLog2 ≤ 16) ∧
      ({ wQueue with tail := 0xFFFFFFFF } : Queue).tail = ({ wQueue with tail := 0xFFFFFFFF } : Queue).head) ∧
    (∀ st p, (wPlaces st p).status.ready = true ∧ (wPlaces st p).ctxs = wBids st :: [] ∧ namesFaulted (wPlaces st p) (wBids st).rec_ = false ∧
      (wPlaces st p).parts = [(0, p)]) ∧
    (let eff := min 7 ((wBids .eligible).rec_.prio + ((wPlaces .eligible (wRuns 6 false)).edge - (wBids .eligible).since) / 260000000);
      ((wRuns 6 false).rec_.prio < eff ∧ (wRuns 7 true).rec_.prio = eff ∧ ¬ (wRuns 7 true).rec_.prio < eff ∧ (wRuns 7 true).expired = true ∧
        (wRuns 7 false).expired = false) ∧ (wBids .eligible).rec_.cap ≤ (wPlaces .eligible (wRuns 6 false)).budget ∧ (wRuns 6 false).stop = none ∧
        (wRuns 6 false).mode ≠ .failed) ∧
    (∃ j, 0 ≤ j ∧ j < 0 + (wBids .eligible).rec_.count ∧ (wRuns 6 false).rec_.first ≤ j ∧ j < (wRuns 6 false).rec_.first + (wRuns 6 false).rec_.count) ∧
    (720 < ({ token := 7, cap := 721 } : LaunchRec).cap) ∧
    ({ wWith none (wCtx .eligible none) with status := { ready := true }, bandFault := [0] } : State).bandFault = [0] ∧
    namesFaulted { wWith none (wCtx .eligible none) with status := { ready := true }, bandFault := [0] } (wCtx .eligible none).rec_ = true ∧
    (ctxOf (wNoted (wWith none wLoad) (.start 7 [])) (wStart []).token.toNat = some wLoad ∧ wLoad.rec_.replayRun = false ∧
      wIntends (wNoted (wWith none wLoad) (.start 7 [])) (.start wLoad.rec_.token (wStart []).skews) ∧
      ¬ wIntends (wWith none wLoad) (.start wLoad.rec_.token []) ∧
      wLoad.rec_.cap + ((wWith none wLoad).parts.map (fun e => e.2.rec_.cap)).sum ≤ (wWith none wLoad).budget) ∧
    ((wStart [(tileIdx 63 783, -1)]).skews = [(tileIdx 63 783, -1)] ∧ (-1 : Int) ≠ 0 ∧ tx (tileIdx 63 783) < 64 * wLoad.rec_.count ∧
      ty (tileIdx 63 783) < 784 ∧ wIntends (wNoted (wWith none wLoad) (.start 7 [(tileIdx 63 783, -1)])) (.start 7 (wStart [(tileIdx 63 783, -1)]).skews)) ∧
    (wIntends (wNoted (wOn (wPart {})) (.release 0)) (.release (wPart {}).rec_.token) ∧ ¬ wIntends (wOn (wPart {})) (.release (wPart {}).rec_.token)) ∧
    (∀ st, ctxOf (wWith none (wCtx st (some (wOwn .armedStop none)))) (7 : BitVec 64).toNat = some (wCtx st (some (wOwn .armedStop none)))) ∧
    (wOwn .armedStop none).rec_.token = (wCtx .swapped none).rec_.token ∧
    (wNoted { wHub wHost with done := [wDone] } (.completion wDone)).done.find? (ringRoom (wNoted { wHub wHost with done := [wDone] } (.completion wDone))) = some wDone ∧
    (({ wOn (wPart {}) with status := { standby := true } } : State).status.standby = true ∧ State.reset.status.standby = false) := by
  refine ⟨⟨⟨_, List.mem_singleton.mpr rfl, rfl, rfl⟩, ?_, ?_⟩, by decide, fun _ _ => ⟨rfl, rfl, rfl, rfl⟩, by decide, ⟨0, by decide⟩, by decide, rfl, by decide,
    ⟨rfl, rfl, ⟨_, List.mem_singleton.mpr rfl, rfl, rfl⟩, by simp [wIntends, wWith, State.reset], by decide⟩,
    ⟨rfl, by decide, by decide, by decide, ⟨_, List.mem_singleton.mpr rfl, rfl, rfl⟩⟩,
    ⟨⟨_, List.mem_singleton.mpr rfl, rfl, rfl⟩, by simp [wIntends, wOn, State.reset]⟩, fun _ => rfl, rfl, by decide +kernel, ⟨rfl, rfl⟩⟩
  · rintro m ⟨e, he, h, _⟩
    simp [wNoted] at he; subst he; simpa using h.symm
  · simp [wIntends, wHub, State.reset]

/-! ### Clauses on what an edge, a port and the hub bring in a stop, a freeze or a restore -/

/-- The descriptor's last line as a deposit of the cycle found it. -/
def wOverwritten : Tile := { wCp with accs := [{ bank := 7, line := 0x27FF0, rank := 4, bits := 0, won := true, bin := false, old := 7 }] }

theorem witness_CopyEngineStarts_third :
    wCp.accs.find? (fun e => e.line == (0x27FC0 + 4 * 15) / 16 * 16 && e.rank != 9) = none ∧
    (∃ e, wOverwritten.accs.find? (fun e => e.line == (0x27FC0 + 4 * 15) / 16 * 16 && e.rank != 9) = some e) ∧
    wOverwritten.accs.find? (fun e => e.line == (0x27FC0 + 4 * 11) / 16 * 16 && e.rank != 9) = none :=
  ⟨rfl, ⟨_, rfl⟩, by decide⟩

theorem witness_TransfersClose_third :
    let e : LandEntry := { wLand with src := 0, xid := 1 }
    let s : State := { wState wPutTile with ports := [(0, { land := [e] })], edge := 10400 }
    (getPort s 0).land = [e] ∧ e.cls = 0 ∧ e.edge0 + 10400 ≤ s.edge ∧ e.get = none ∧ e.src = s.moduleId ∧ putOwner s e.xid = some wLoc := by
  decide +kernel

/-- A chunk of class 0 that comes whole before its COLL, without its trailer or with it. -/
def wEarly (whole : Bool) : ChunkIn := { wChunk with cls := 0, trailer := whole }
/-- A port whose second collective is pending and whose first is over, or has been cancelled. -/
def wCancelled (l : List Nat) : State :=
  { wOn (wPart {}) with ports := [(0, { colls := [{ wColl 0 0 32 with ordinal := 1 }], ordinal := 2, cancelled := l })] }

/-- The record of `wCollTile` in class 0. -/
def wCollZero : Tile := { g := [(1, 0x27F80)], sram := [(0x27F82, 0x04), (0x27F86, 0x10), (0x27F95, 0x02)] }

theorem witness_CollectivesStartAndSend_third :
    (∀ b, ({ early := [wEarly b] } : Port).early.filter (fun y => y.asid.toNat == (wPart {}).rec_.asid && y.ordinal == 0) = [wEarly b] ∧
      (wEarly b).trailer = b ∧ (wEarly b).step = 0) ∧
    (Ready (wState wCollZero) (wPart wCollZero) wCollZero always [codeG 1, codeG 0] ∧ InSram (regAddr wCollZero 1 7) 128 ∧
      collBad (descOf wCollZero (regAddr wCollZero 1 7) 8) = false ∧ (collRec (descOf wCollZero (regAddr wCollZero 1 7) 8)).cls = 0 ∧
      Clear wCollZero .cp ((List.range 8).map (fun j => regAddr wCollZero 1 7 + 16 * j)) []) := by
  refine ⟨fun _ => ⟨rfl, rfl, rfl⟩, ⟨wReady _ _ rfl rfl, by decide, by decide +kernel, by decide +kernel, ⟨by decide, by decide⟩⟩⟩

theorem witness_CollectivesReceive_third :
    (∀ l, (getPort (wCancelled l) 0).colls = [{ wColl 0 0 32 with ordinal := 1 }] ∧ (wEarly true).ordinal < 2 ∧ (getPort (wCancelled l) 0).ordinal = 2 ∧
      (getPort (wCancelled l) 0).cancelled = l ∧ portPart (wCancelled l) 0 (wEarly true).asid.toNat = some (wPart {})) ∧
    ({ wColl 0 0 32 with ordinal := 1 } : Coll).ordinal ≠ (wEarly true).ordinal ∧ (wPart {}).rec_.replayRun = false ∧
    (wEarly true).src ≠ State.reset.moduleId ∧ ({ wColl 0 0 32 with ordinal := 1 } : Coll).sent < ({ wColl 0 0 32 with ordinal := 1 } : Coll).total :=
  ⟨fun _ => ⟨rfl, by decide, rfl, rfl, rfl⟩, by decide, rfl, by decide, by decide⟩

/-- A partition in which an event of the last tile, or of the hub, has been found. -/
def wFound (hub : Bool) : Found := { tile := 0, cause := 0xFF, detail := 0xFFFF, epc := some (0x1FFF, 7), hub := hub }
def wFinds (hub : Bool) : Part := { wPart {} with found := [wFound hub] }
/-- A frozen partition whose stop falls where it stands, or a cycle later. -/
def wThaw (at_ : Nat) (event : Bool) : Part := { wPart {} with mode := .frozen 0, stop := some { wStop event false 0x0D (some .preempt) with at_ := at_, frozen := true } }

theorem witness_FreezesAndHolds_third :
    (∀ b, (wFinds b).found = [wFound b] ∧ (wFinds b).misses = [] ∧ (wFinds b).stop = none ∧ (wFound b).epc = some (0x1FFF, 7) ∧
      tileAt (wOn (wFinds b)) { band := 0, idx := (wFound b).tile } = some (wFinds b, {})) ∧
    (∀ b, (wFound b).tile < poolBase ∧ (wFound b).cause < 256 ∧ (wFound b).detail < 65536) ∧
    (wPart {}).found = [] ∧
    (∃ st, (wThaw 0 true).stop = some st ∧ st.event = true ∧ st.at_ ≤ (wThaw 0 true).gcyc) ∧
    (isFrozen (wThaw 1 true) = true ∧ ∀ st, (wThaw 1 true).stop = some st → st.event = true → (wThaw 1 true).gcyc < st.at_) ∧
    ∀ st, (wThaw 0 false).stop = some st → st.event = false := by
  refine ⟨fun _ => ⟨rfl, rfl, rfl, rfl, place_tile _ _ _ rfl rfl rfl⟩, by decide, rfl, ⟨_, rfl, rfl, by decide⟩,
    ⟨rfl, ?_⟩, ?_⟩ <;> rintro st ⟨⟩ <;> decide

theorem witness_RecordsDrain_third :
    (∀ r, ({ wTraced with traceRow := r, stageRow := r } : Part).traceRow = r) ∧ 32767 + (65536 + 2 ^ 21 - 1) / 2 ^ 21 ≤ 32768 ∧
    (0xFF : Nat).testBit 6 = true ∧ (0x3F : Nat).testBit 6 = false ∧ (0xFF : Nat).testBit 7 = true ∧
    (∃ row, placeRows (wOn wTraced) wTraced 32767 65536 = some row) ∧ placeRows (wOn wTraced) wTraced 32767 (2 ^ 21 * 32769) = none := by
  refine ⟨fun _ => rfl, by decide, by decide, by decide, by decide, ⟨32767, by decide +kernel⟩, ?_⟩
  simp [placeRows, List.find?_eq_none, rowsFree, rowsOf, cdiv]

/-- A partition at a stop of an event, in the 64 cycles after it or under debug hold; one in a freeze. -/
theorem witness_StopsAndUnwinds_third :
    (∀ m st, tileAt (wOn (wStopped 1 m st)) wLoc = some (wStopped 1 m st, wRegion 1) ∧ (wStopped 1 m st).mode = m ∧ (wStopped 1 m st).stop = st) ∧
    isFrozen (wStopped 1 (.frozen 0) none) = true ∧ (wStop true false 0x0B none).event = true ∧
    (tx (tileIdx 63 783) < 64 * (wStopped 1 .running none).count ∧ ty (tileIdx 63 783) < 784 ∧ tileIdx 63 783 < poolBase) ∧
    (64 * (wStopped 1 .running none).count ≤ tx (tileIdx 64 0) ∧ 784 ≤ ty (tileIdx 0 784)) ∧
    (∀ b, (wFound b).tile < poolBase ∧ (wFound b).cause < 256 ∧ (wFound b).detail < 65536) ∧
    (wFound true).tile ≠ ({ wFound true with tile := tileIdx 63 783 } : Found).tile := by
  refine ⟨fun _ _ => ⟨place_tile _ _ _ rfl rfl rfl, rfl, rfl⟩, rfl, rfl, by decide, by decide, by decide, by decide⟩

theorem witness_ContextsSwitch_third :
    let pre := wOwn .armedStop (some (wStop false false 0 (some .preempt)))
    (∀ st, Holds (wWith (some pre) (wCtx st none)) 0 pre ∧ (wWith (some pre) (wCtx st none)).ctxs = [wCtx st none] ∧
      wCtx st none ∈ (wWith (some pre) (wCtx st none)).ctxs ∧ (wCtx st none).rec_.token = pre.rec_.token ∧ (wCtx st none).st = st ∧
      ModuleInv (wWith (some pre) (wCtx st none))) ∧
    preempted pre = true ∧ ∀ e ∈ pre.tiles, e.2.held = [] := by
  refine ⟨fun st => ⟨⟨rfl, rfl⟩, rfl, by simp [wWith], rfl, rfl, wInv _ _ rfl rfl rfl rfl⟩, by decide, by decide⟩

theorem witness_HubRunsLaunches_third :
    (∀ st p row, p.traceRow = none → p.stageRow = none → ownsRow (wPlaces st p) (wBids st) row = false) ∧
    (let c : Ctx := { wLoad with rec_ := { wLoad.rec_ with replayRun := true } };
      ctxOf (wWith none c) (wStart []).token.toNat = some c ∧ c.st = .loading ∧ c.rec_.replayRun = true) := by
  refine ⟨?_, rfl, rfl, rfl⟩
  intro st p row ht hs
  simp only [ownsRow, partOf, wBids, wPlaces, wOn, List.find?]
  split <;> simp [hubRows, ht, hs, mapsRow, savesRow]

theorem witness_HubRegisters_third :
    heldPart State.reset 0x3FFF = none ∧
    (∃ p st, heldPart (wOn (wStopped 1 .debugHeld (some (wStop true false 0x0B none)))) 0 = some p ∧ p.stop = some st) ∧
    (wOn (wStopped 1 .debugHeld (some (wStop true false 0x0B none)))).powered = true :=
  ⟨rfl, ⟨_, _, rfl, rfl⟩, rfl⟩

/-! ### Clauses on a bundle's end, the issue checks, lost steps, full logs, save areas and the clock -/

/-- A bundle with each of the notes that its instructions leave, before two open regions and a level. -/
def wNotes : Issue := { wIs with push := some (0x1FFF, 255), pop := true, waitc := some 9, halt := true }
def wLinked (a : Word) : Tile := { g := [(31, a)], seq := { issue := some wIs, xfer := some { wXfer 1 true 0x1FFF with link := some 12 } } }

theorem witness_TransfersAndLoops_fourth :
    (∃ x, (wLinked 12).seq.xfer = some x ∧ x.delay = 1 ∧ x.link = some 12 ∧ wIs.xfer = none ∧ wIs.loopOpen = none ∧ wIs.le = false ∧
      msorted (wLinked 12).g = true ∧ rg (wLinked 12) 31 = (12 : BitVec 13).zeroExtend 32 ∧ rg (wLinked 13) 31 ≠ (12 : BitVec 13).zeroExtend 32) ∧
    (msorted (wSy 4 0).ltc = true ∧ wNotes.push = some (0x1FFF, 255) ∧ wNotes.pop = true ∧ wIs.push = none ∧ wIs.pop = false ∧ wNotes.xfer = none ∧
      (wSy 4 0).seq.xfer = none ∧ (wSy 4 0).regions.drop 1 ≠ []) ∧
    (wNotes.mask.testBit 0 = true ∧ wNotes.mask.testBit 1 = false ∧ wNotes.mask.testBit 7 = true) := by
  refine ⟨⟨_, rfl, rfl, rfl, rfl, rfl, rfl, rfl, by decide, by decide⟩, by decide, by decide⟩

/-- A tile in which an engine's access has the bank of the last line. -/
def wUsed (won : Bool) : Tile := { wCp with accs := [{ bank := 7, line := 0x27F70, rank := 2, bits := 4, won := won, bin := false, old := 0 }] }
/-- A flit to the last granule of a tile. -/
def wTaken : Part := { wMesh 0 [] with tiles := [(0, wUsed true)] }

theorem witness_DepositsWrite_fourth : Holds (wOn wTaken) 0 wTaken ∧ mfind wTaken.flits 1 = some (wFlit 0) ∧ (wFlit 0).dop ≠ 4 ∧
    flitDest (wFlit 0) < poolBase ∧ getTile wTaken (flitDest (wFlit 0)) = wUsed true ∧
    ∃ e ∈ (wUsed true).accs, e.bank = bankOf (wFlit 0).addr ∧ e.won = true :=
  ⟨wHolds _ rfl, rfl, by decide, by decide, by rfl, _, List.mem_singleton.mpr rfl, by decide, rfl⟩

/-- A tile whose g1 names the last line of data SRAM, or the first past it, and g2 a granule that is poisoned. -/
def wReads (a : Word) (bad : List Nat) : Tile := { g := [(1, a), (2, 0x27FF8)], poison := bad }

theorem witness_IssueChecksComeFirst_fourth :
    (∀ a l, Ready (wState (wReads a l)) (wPart (wReads a l)) (wReads a l) always [codeG 1, codeG 0]) ∧
    (effAddr (rg (wReads 0x27FF0 []) 1) 0 0 4 < sramEnd ∧ sramEnd ≤ effAddr (rg (wReads 0x28000 []) 1) 0 0 4 ∧
      ∀ i ∈ ([.ldv always 0 1 0, .stvOffset always 0 1 0, .ldq always 0 1 0, .stq always 0 1 0, .mma always 0 0 0 0 0 0, .send always 0 0 0 false 1 2 1,
        .rksend always 0 0 true 1 2 0 0] : List Instr), WellFormed i) ∧
    ((∃ b, (localScan (wUsed true) (issueOf (wUsed true) .ld) (slotNum .ld) [0x27FF0]).2 = some b) ∧
      (localScan (wUsed true) (issueOf (wUsed true) .ld) (slotNum .ld) [0x27FE0]).2 = none ∧
      (∃ b, consumed (wReads 0x27FF0 [0x4FFF]) [(0x27FF0, 16)] = some b) ∧ consumed (wReads 0x27FF0 [0x4FFD]) [(0x27FF0, 16)] = none) ∧
    (InFence (wPart {}) (tileIdx 63 783) 0 (-783) ∧ ¬ InFence (wPart {}) (tileIdx 63 783) 1 0 ∧ ¬ InFence (wPart {}) (tileIdx 63 783) 0 1 ∧
      ¬ InFence (wPart {}) 0 (-1) 0 ∧ ¬ InFence (wPart {}) 0 0 (-1)) ∧
    ((∀ e ∈ (wUsed false).accs, ¬ (e.bank = 0x27FF0 / 16 % 8 ∧ e.won = true)) ∧
      (∃ e, (wUsed true).accs = [e] ∧ e.bank = 0x27FF0 / 16 % 8 ∧ e.won = true ∧ ¬ (true = true ∧ e.bin = true ∧ e.line = 0x27FF0 / 16 * 16)) ∧
      mfind (wUsed true).held (0x27FF0 / 16 * 16) = none) ∧
    (lostRow {} 3 (List.range 16) 6 = none ∧ (rg wRank 4).toNat % 2 ^ 18 % 512 = 0 ∧ wRank.rankBusy ≤ 0 ∧ wRank.termBusy ≤ 0 ∧ wRank.copyBusy ≤ 0) ∧
    (∃ c d, cpyBad 0x400000 = some (c, d)) ∧ wIs.loc = [] := by
  refine ⟨fun _ _ => wReady _ _ rfl rfl, by decide, ⟨⟨_, rfl⟩, by decide +kernel, ⟨_, rfl⟩, by decide +kernel⟩, by decide,
    ⟨by decide, ⟨_, rfl, by decide, rfl, by decide⟩, rfl⟩, by decide +kernel, ⟨_, _, rfl⟩, rfl⟩

/-- A collective of two steps that waits for its first, all of whose positions name module 1, or for its second, which the
walk says comes from module 1. -/
def wLost (named : Bool) : Coll :=
  let r := if named then wRec 0 else { wRec 0 with ringBase := 1, ringStep := 0 }
  { wColl 0 0 32 with rec_ := { r with levels := [(1, 1, 0)] }, total := 2, seen := if named then [0] else [] }

theorem witness_CollectivesReceive_fourth :
    (∀ b, (getPort (wPorts (wPart {}) (wLost b)) 0).colls = [wLost b] ∧ (wLost b).sent < (wLost b).total ∧
      (wLost b).seen.length ∉ (wLost b).unnamed ∧ (wLost b).seen.length < (wLost b).total ∧ (wLost b).partial_ = [] ∧ (wLost b).shut = [] ∧
      (wLost b).rec_.cls = 0 ∧ (wLost b).rec_.wrap / 16 ≤ (wLost b).snapDone ∧ (wLost b).waitEdge = some 0 ∧
      (closingStep (wLost b)).src ≠ State.reset.moduleId) ∧
    ((wLost true).rec_.ringStep ≠ 0 ∧ ringFrom (wLost true).rec_ 1 ≠ (wLost true).rec_.rank) ∧
    ¬ ((wLost false).rec_.ringStep ≠ 0 ∧ ringFrom (wLost false).rec_ 0 ≠ (wLost false).rec_.rank) :=
  ⟨fun b => ⟨rfl, by revert b; decide +kernel⟩, by decide +kernel, by decide +kernel⟩

theorem witness_RecordsDrain_fourth : wTraced.logFull = false ∧ wFullLog.logFull = false ∧ memWf (wOn wFullLog).hostMem = true ∧
    (∃ e, (wFullLog.log.drop wFullLog.logDone).head? = some e ∧
      wFullLog.rec_.replayLen < 64 + logSize wFullLog.log wFullLog.logDone + 16 * logUnits e.ty) := ⟨rfl, rfl, rfl, _, rfl, by decide⟩

/-- A tile whose CRABORT's stop, or whose own first event, falls in this cycle. -/
def wAborting (raised evRec : Bool) : Part :=
  { wPart { wRegion 1 with evRec := evRec } with stop := some { wStop true false 0x0B none with raised := raised } }

theorem witness_StopsAndUnwinds_fourth :
    ∀ r e, Holds (wOn (wAborting r e)) 0 (wAborting r e) ∧ (wAborting r e).mode = .running ∧ (wAborting r e).debugHold = false ∧
      (∃ st, (wAborting r e).stop = some st ∧ st.raised = r ∧ st.event = true ∧ st.abort = false ∧ st.at_ ≤ (wAborting r e).gcyc) ∧
      ∃ t, mfind (wAborting r e).tiles 0 = some t ∧ t.seq.halted = false ∧ t.evRec = e :=
  fun _ _ => ⟨wHolds _ rfl, rfl, rfl, ⟨_, rfl, rfl, rfl, rfl, Nat.le_refl _⟩, ⟨_, rfl, rfl, rfl⟩⟩

/-- A launch on its way off its band, its save area given. -/
def wLeaving (row : Option Nat) : Ctx := { wCtx .saving none with saveRow := row }

theorem witness_ContextsSwitch_fourth :
    let pre := wOwn .armedStop (some (wStop false false 0 (some .preempt)))
    (∀ row, Holds (wWith (some pre) (wLeaving row)) 0 pre ∧ ctxOf (wWith (some pre) (wLeaving row)) pre.rec_.token = some (wLeaving row) ∧
      memWf (wWith (some pre) (wLeaving row)).dram = true ∧ (wLeaving row).st = .saving ∧ (wLeaving row).saveRow = row) ∧
    preempted pre = true ∧
    (saveOff pre 5 (1024 * 5) = some (0, 0) ∧ saveOff pre 5 (1024 * 2455 + 1023) = some (0, 1024 * 2451 - 1) ∧
      saveOff pre 5 (1024 * 4) = none ∧ saveOff pre 5 (1024 * 2456) = none ∧ saveOff pre 5 (2 ^ 37 + 1024 * 5) = none) := by
  refine ⟨fun _ => ⟨⟨rfl, rfl⟩, rfl, rfl, rfl, rfl⟩, by decide, by decide⟩

/-- A launch on its way off its band, whose range entries take every row of its stacks. -/
def wWhole : Ctx :=
  { rec_ := { token := 9, dram := [{ base := 0, limit := 2 ^ 36, offset := 0 }] }, queue := 0, st := .saving, since := 0, saved := none }
/-- A candidate with no rows of its own, beside it. -/
def wBeside : State := { wWith none (wCtx .eligible none) with ctxs := [wCtx .eligible none, wWhole], status := { ready := true } }

theorem wWhole_row (r : Nat) (h : r < 32768) : ownsRow wBeside wWhole r = true := by
  have : (r + 2 ^ 27) % 2 ^ 27 < 32768 := by omega
  simpa [ownsRow, mapsRow, wWhole] using Or.inl (Or.inl this)

theorem witness_HubRunsLaunches_fourth :
    (∀ row, saveReady (wWith none (wLeaving (some row))) (wLeaving (some row)) = true) ∧ saveReady wBeside (wCtx .eligible none) = false := by
  refine ⟨fun _ => rfl, ?_⟩
  have hn : ∀ r, saveFits wBeside (wCtx .eligible none) false r = false := by
    intro r
    refine Bool.eq_false_iff.mpr (fun h => ?_)
    simp only [saveFits, Bool.and_eq_true, decide_eq_true_eq, List.all_eq_true] at h
    have h0 := h.2 0 (by simp [upto, saveRows])
    have hr : r + 0 < 32768 := by have := h.1; simp [saveRows] at this; omega
    have hw := wWhole_row (r + 0) hr
    simp only [Bool.false_or, Bool.not_eq_true'] at h0
    have hx := List.any_eq_false.mp h0.2 wWhole (by simp [wBeside])
    apply hx
    simp only [reservedTo, hw]
    decide
  have hp : placeSave wBeside (wCtx .eligible none) = none := by
    unfold placeSave
    rw [if_neg (by decide)]
    exact List.find?_eq_none.mpr (fun r _ => by simp [hn])
  have ha : saveFits wBeside (wCtx .eligible none) true 0 = true := by
    simp [saveFits, saveRows, mapsRow, wCtx]
  simp [saveReady, hp, ha]

/-- A partition in cycle 3 in which a REALIGN's event is to be raised in a given cycle. -/
def wLater (c : Nat) : Part := { wAt {} 3 with foundLater := [(c, wFound false)] }

theorem witness_StepsRunWhatIsDecoded_fourth :
    (∀ ph pend, ({ wOn (wPart {}) with phase := ph, pending := pend } : State).agenda = [] ∧
      ({ wOn (wPart {}) with phase := ph, pending := pend } : State).todo = [] ∧
      getPart { wOn (wPart {}) with phase := ph, pending := pend } 0 = some (wPart {})) ∧
    ((wPart {}).first = 0 ∧ (wPart {}).startEdge ≤ (wOn (wPart {})).edge ∧ (wPart {}).mode = .running ∧ (wPart {}).stop = none ∧
      (wPart {}).replay = [] ∧ (wPart {}).holds = []) ∧
    (let n := (0 : Nat) % 64 - 0 % 64 / 16; (0 : Nat) % 16 ≠ 15 ∧ n * (wPart {}).k / 60 < (n + 1) * (wPart {}).k / 60) ∧
    (let n := (62 : Nat) % 64 - 62 % 64 / 16; (62 : Nat) % 16 ≠ 15 ∧ n * (wPart {}).k / 60 < (n + 1) * (wPart {}).k / 60) ∧
    ¬ ((63 : Nat) % 16 ≠ 15) ∧
    (∀ c, (wLater c).foundLater = [(c, wFound false)] ∧ (wLater c).gcyc = 3 ∧ (wFound false).tile < poolBase ∧
      tileAt (wOn (wLater c)) { band := 0, idx := (wFound false).tile } = some (wLater c, {})) :=
  ⟨fun _ _ => ⟨rfl, rfl, rfl⟩, by decide, by decide, by decide, by decide, fun _ => ⟨rfl, rfl, by decide, place_tile _ _ _ rfl rfl rfl⟩⟩

/-! ### The whole machine -/

theorem witness_StepsKeepInv : Inv State.reset ∧ ∃ u, step State.reset = .next u :=
  ⟨⟨⟨⟨rfl, by intro e he; simp [State.reset] at he⟩, rfl, rfl⟩, rfl, by intro e he; simp [State.reset] at he,
    by intro e he; simp [State.reset] at he⟩, _, rfl⟩

/-- A launch on its band, with a tile in six levels and a region, and one that is swapped out meet the invariant too. -/
theorem witness_StepsKeepInv_more :
    let lp : LoopSt := { levels := List.replicate 6 (wLev 8 false), lc := [(5, 1)] }
    let t : Tile := { g := [(1, 5)], loop := lp, sram := [(0, 1)], regions := [{ handler := 0, retries := 1, reentry := 4, g := [(31, 1)], q := [(1, true)], loop := lp, serial := 1 }] }
    partInv { first := 0, count := 1, rec_ := {}, queue := 0, tiles := [(0, t)] } = true ∧ t.regions.length = 1 := by
  decide +kernel

/-- The last word of IMEM but one bundle: HALT placed where tile (0, 0) fetches next. -/
def wFetch : State := State.reset.withFetchWord 32 0b10010_000000000000000000000000000
/-- A machine whose tile (0, 0) issues next, its bundle under issue given. -/
def wNext (is : Option Issue) : State := { wState { seq := { issue := is } } with phase := .issue 0, todo := [wLoc] }
def wOf (is : Option Issue) : Tile := { seq := { issue := is } }

theorem witness_StepsRunWhatIsDecoded :
    ({ State.reset with agenda := [.scrub] } : State).agenda = .scrub :: [] ∧
    (∀ is, (wNext is).agenda = [] ∧ (wNext is).phase = .issue 0 ∧ (wNext is).todo = wLoc :: [] ∧
      tileAt { wNext is with cur := wLoc } wLoc = some (wPart (wOf is), wOf is) ∧ (wPart (wOf is)).first = wLoc.band ∧ (wOf is).seq.halted = false ∧
      (wOf is).seq.stopped = false ∧ (wPart (wOf is)).slotBreaks = [] ∧ (wOf is).seq.issue = is ∧ (wOf is).imemErr = [] ∧
      (wOf is).seq.resumeDone = none) ∧
    decodeSlot .sy 0b10010_000000000000000000000000000 = .ok .halt ∧ decodeSlot .sy 0b10010_000000000000000000000000001 = .error 0x0008 ∧
    ((headerAt {} 0).mask = 0 ∧ bundleFault 0 (headerAt {} 0) (bodyWords {} 0 0) = none) ∧
    (∃ p t, tileAt wFetch wFetch.cur = some (p, t) ∧ t.seq.issue = none ∧ (headerAt t t.seq.pc).mask = 0x80 ∧
      bundleFault t.seq.pc.toNat (headerAt t t.seq.pc) (bodyWords t t.seq.pc 0x80) = none ∧
      cutSlots 0x80 (bodyWords t t.seq.pc 0x80) = [(.sy, 0b10010_000000000000000000000000000)]) :=
  ⟨rfl, fun _ => ⟨rfl, rfl, rfl, place_tile _ _ _ rfl rfl rfl, rfl, rfl, rfl, rfl, rfl, rfl, rfl⟩, rfl, rfl, ⟨by decide +kernel, by decide +kernel⟩,
    ⟨_, _, place_tile _ _ _ rfl rfl rfl, rfl, by decide +kernel, by decide +kernel, by decide +kernel⟩⟩

theorem witness_DecodeInvertsEncode : WellFormed (.vfma .vb always 12 5 1535 1535 768 1535) ∧
    ∃ w, encode (.vfma .vb always 12 5 1535 1535 768 1535) = some (.vb, w) := ⟨by decide, _, rfl⟩

end Sys2Proof.Tests
end

section
/-! PROOFS. The scope family: what a step runs, and what it does where no step of the hardware and no slot is due. -/

namespace Sys2Proof.Machine

/-- Two launches in one cycle at column 0, of which the one listed there, in its cycle 1, names column 1 as its first: the
other one, in its cycle 0, is listed at column 1. `ModuleInv` excludes it by its clause `e.2.first = e.1` alone. -/
def misfiledLaunch : State :=
  { State.reset with phase := .engine 0, parts := [(0, { first := 1, gcyc := 1 }), (1, { first := 1, gcyc := 0 })] }

theorem step_misfiledLaunch : step misfiledLaunch = .next (settleCycle misfiledLaunch 0) := rfl

theorem gcyc_misfiledLaunch : (getPart misfiledLaunch 1).map Part.gcyc = some 0 := rfl

/-- The launch of column 0 is put back where it says it begins, over the launch of column 1. -/
theorem gcyc_settleCycle_misfiledLaunch : (getPart (settleCycle misfiledLaunch 0) 1).map Part.gcyc = some 1 := rfl

/-- Refutes O58: the statement is made of every state, with no hypothesis that a launch is listed under its first column
(`ModuleInv`, R280). Where one is not, settling its cycle puts it over the launch of another column, whose GCYC is then not
kept. -/
theorem not_stepsRunWhatIsDecoded : ¬ Obligations.StepsRunWhatIsDecoded := by
  unfold Obligations.StepsRunWhatIsDecoded
  intro h
  obtain ⟨u, hstep, -, -, hsettle, -⟩ := (h misfiledLaunch).2.1 rfl rfl
  obtain ⟨-, -, hsame⟩ := hsettle 0 rfl
  have hu : u = settleCycle misfiledLaunch 0 := by
    rw [step_misfiledLaunch] at hstep
    exact (Host.Outcome.next.inj hstep).symm
  obtain ⟨p, hp, hgcyc⟩ := Option.map_eq_some_iff.mp gcyc_misfiledLaunch
  obtain ⟨q, hq, hkept⟩ := hsame 1 p hp
  have hmoved := gcyc_settleCycle_misfiledLaunch
  rw [← hu, hq, Option.map_some, Option.some.injEq] at hmoved
  omega

end Sys2Proof.Machine
end

section
/-! PROOFS. The tile-state family, its short ones: barrier records, reset, and CRABORT under an error in its guard. -/

namespace Sys2Proof.Machine

/-! ## Barrier records (R36, R229) -/

theorem mergeUpdate_of_armed {b : BRec} (n : Nat) (h : b.armed = true) : mergeUpdate b n = countTo b (b.arrived.toNat + n) := by
  simp [mergeUpdate, h]

theorem mergeUpdate_of_unarmed {b : BRec} (n : Nat) (h : b.armed = false) : mergeUpdate b n = { b with ovr := true } := by
  simp [mergeUpdate, h]

theorem countTo_below {b : BRec} {m : Nat} (h : m < b.expected.toNat) : countTo b m = { b with arrived := BitVec.ofNat 32 m } := by
  simp [countTo, Nat.not_le.2 h]

theorem countTo_expected (b : BRec) :
    countTo b b.expected.toNat = { b with arrived := 0, phase := !b.phase, armed := false } := by
  simp [countTo]

theorem countTo_beyond {b : BRec} {m : Nat} (h : b.expected.toNat < m) :
    countTo b m = { b with arrived := 0, phase := !b.phase, armed := false, ovr := true } := by
  simp [countTo, h, Nat.le_of_lt h]

/-- Settles O39: an armed record counts to the sum, which lies below, at or beyond its expected count. -/
theorem barrierRecordsCount : Obligations.BarrierRecordsCount := by
  unfold Obligations.BarrierRecordsCount
  intro b n w
  refine ⟨fun ha hm => ?below, fun ha hm => ?equal, fun ha hm => ?beyond, mergeUpdate_of_unarmed n,
    fun hw => ?_, ?_, fun he => ?_, fun he => ?_⟩
  case below => rw [mergeUpdate_of_armed n ha, countTo_below hm]
  case equal => rw [mergeUpdate_of_armed n ha, hm, countTo_expected]
  case beyond => rw [mergeUpdate_of_armed n ha, countTo_beyond hm]
  · exact if_neg hw
  · exact if_pos rfl
  · exact if_neg he
  · exact if_pos he

/-! ## Reset, and a tile at GCYC 0 (R11, R22, R26) -/

theorem msorted_seedLfsr (seed : Word) (i : Nat) : msorted (seedLfsr seed i) = true := rfl

theorem tileWf_freshTile (r : LaunchRec) (i : Nat) : tileWf (freshTile r i) = true := msorted_seedLfsr r.seed i

theorem moduleInv_reset : ModuleInv State.reset := ⟨⟨rfl, List.forall_mem_nil _⟩, rfl, rfl⟩

theorem inv_reset : Inv State.reset := ⟨moduleInv_reset, rfl, List.forall_mem_nil _, List.forall_mem_nil _⟩

theorem rq_of_no_predicates {t : Tile} (h : t.q = []) (n : Nat) : rq t n = decide (n = 0) := by
  unfold rq
  split <;> simp_all [mget, mfind]

/-- Settles O56: every memory and register file of reset and of a fresh tile is the empty map. -/
theorem resetIsCanonical : Obligations.ResetIsCanonical := by
  unfold Obligations.ResetIsCanonical
  refine ⟨inv_reset, rfl, rfl, rfl, fun r i n => ⟨tileWf_freshTile r i, ?_, rq_of_no_predicates rfl n, rfl, rfl, rfl, rfl, rfl, rfl⟩⟩
  exact ite_self 0

/-! ## An error in a hard-wired predicate (R11, R354) -/

/-- A launch on band 0 whose tile (0, 0) holds an error in q0. -/
def faultyGuard : State :=
  { State.reset with parts := [(0, { tiles := [(0, { regErr := [codeQ 0] })] })] }

theorem tileAt_faultyGuard :
    tileAt faultyGuard faultyGuard.cur = some ({ tiles := [(0, { regErr := [codeQ 0] })] }, { regErr := [codeQ 0] }) := rfl

/-- CRABORT reads q0 as its guard, finds the error there, and takes an event of cause 0x09 in place of its effect. -/
theorem exec_crabort_faultyGuard :
    exec .crabort faultyGuard = .next (raisePrecise faultyGuard faultyGuard.cur .sy 0x09 (0xC000 + codeQ 0)) := rfl

theorem ring_raisePrecise_faultyGuard :
    (raisePrecise faultyGuard faultyGuard.cur .sy 0x09 (0xC000 + codeQ 0)).ring.length = 1 := rfl

/-- Refutes O45: the statement is made of every tile, with no hypothesis that its registers are free of errors
(`Ready.sound`, R354). Where q0 is in error, CRABORT raises an event, and the event ring has its record. -/
theorem not_eventsAreTaken : ¬ Obligations.EventsAreTaken := by
  unfold Obligations.EventsAreTaken
  intro h
  obtain ⟨-, hfirst, -⟩ := h faultyGuard _ _ 0 .sy 0 tileAt_faultyGuard rfl (by decide) rfl
  obtain ⟨-, -, -, u, -, -, hu, -, -, -, -, -, -, hring, -⟩ := hfirst rfl
  rw [exec_crabort_faultyGuard] at hu
  have hlen := ring_raisePrecise_faultyGuard
  rw [Host.Outcome.next.inj hu, hring] at hlen
  exact absurd hlen (by decide)

end Sys2Proof.Machine
end

section
/-! PROOFS. The tile-state family: RDS, WRS and RDCYC (R23 to R29, R117). -/

namespace Sys2Proof.Machine

/-! ## A slot's effect, one operation after another -/

theorem Entered.onTile {s u : State} {p : Part} {t : Tile} (h : Entered s u p t) (f : Tile → Tile) (hs : (f t).skew = t.skew) :
    Entered s (onTile u s.cur f) p (f t) :=
  ⟨h.shows.onTile f hs, h.only.trans (OnlyTile.onTile u s.cur f h.shows.part), (onTile_seqNo ..).trans h.seqNo,
    (onTile_freeCtr ..).trans h.freeCtr, (onTile_agenda ..).trans h.agenda, (onTile_outbox ..).trans h.outbox⟩

theorem Entered.nextSeq {s u : State} {p : Part} {t : Tile} (h : Entered s u p t) :
    Entered (nextSeq s) (nextSeq u) p t :=
  ⟨⟨h.shows.ex⟩, { h.only with }, congrArg (· + 1) h.seqNo, h.freeCtr, h.agenda, h.outbox⟩

/-- Putting a result in flight advances the issue order and changes the tile (R14, R257). -/
theorem Entered.result_eq {s u : State} {p : Part} {t : Tile} (h : Entered s u p t) (sl : Slot) (lat : Nat) (d : Dest) (f : Flags) :
    result u sl lat d f = Machine.onTile (Machine.nextSeq u) s.cur (fun _ => fly t (landingOf s p sl lat d f)) := by
  obtain ⟨q, hq, hg, -⟩ := h.shows.ex
  obtain ⟨r, hr, -, he, hp⟩ := tileAt_part hq
  have hcyc : cycOf r s.cur.idx = p.gcyc := by rw [← hg, hp]
  have hr' : getPart (Machine.nextSeq u) s.cur.band = some r := hr
  simp only [result, Machine.onTile, onPart, h.only.cur, hr, hr', modTile, ← he, hcyc, h.seqNo, landingOf]

/-- What the state is once a result has been put in flight, for an effect that puts another one. -/
theorem Entered.result {s u : State} {p : Part} {t : Tile} (h : Entered s u p t) (sl : Slot) (lat : Nat) (d : Dest) (f : Flags) :
    Entered (Machine.nextSeq s) (result u sl lat d f) p (fly t (landingOf s p sl lat d f)) := by
  rw [h.result_eq]
  exact h.nextSeq.onTile _ rfl

/-- What an instruction does before its effect touches no register, no memory and no result in flight (R169, R242). -/
theorem SameTile.enterTile (t : Tile) (r : Req) : SameTile t (enterTile t r) :=
  ⟨enterTile_flight t r, enterTile_regs t r, enterTile_event t r, enterTile_mem t r⟩

/-- The snapshot alone differs (R23). -/
theorem SameTile.setSnap {t u : Tile} (h : SameTile t u) (x : Word) : SameTile { t with snap := x } { u with snap := x } :=
  ⟨h.flight, { h.regs with snap := rfl }, { h.event with }, { h.mem with }⟩

theorem SameTile.fly {t u : Tile} (h : SameTile t u) (e : Landing) : SameTile (fly t e) (fly u e) :=
  ⟨congrArg (· ++ [e]) h.flight, { h.regs with }, { h.event with }, { h.mem with }⟩

/-- What a slot has done once its effect is over, where its tile is as that of a state that differs from the one before it
in the results in flight alone. -/
theorem Entered.after {s s0 u : State} {p : Part} {t0 t t' : Tile} {es : List Landing} (h : Entered s0 u p t')
    (hs : OnlyTile s s0 s.cur) (ht : SameTile t t') (hf : t = { t0 with flight := t0.flight ++ es }) : After s u t0 t' es := by
  have hnow := h.shows.tile
  have honly := h.only
  rw [hs.cur] at hnow honly
  subst hf
  exact ⟨hnow, ht.flight, { ht.regs with }, { ht.event with }, { ht.mem with }, hs.trans honly⟩

/-- An effect that puts one result in flight. -/
theorem Entered.after_result {s u : State} {p : Part} {t t' : Tile} (h : Entered s u p t') (ht : SameTile t t')
    (sl : Slot) (lat : Nat) (d : Dest) (f : Flags) :
    After s (Machine.result u sl lat d f) t (fly t' (landingOf s p sl lat d f)) [landingOf s p sl lat d f] :=
  (h.result sl lat d f).after (OnlyTile.nextSeq s s.cur) (ht.fly _) rfl

/-- An effect that puts two: the second is the next in issue order (R14). -/
theorem Entered.after_two_results {s u : State} {p : Part} {t t' : Tile} (h : Entered s u p t') (ht : SameTile t t')
    (sl : Slot) (lat : Nat) (d d' : Dest) (f f' : Flags) :
    let e := landingOf s p sl lat d f
    let e' := { landingOf s p sl lat d' f' with seq := s.seqNo + 1 }
    After s (Machine.result (Machine.result u sl lat d f) sl lat d' f') t (fly (fly t' e) e') [e, e'] := by
  intro e e'
  refine ((h.result sl lat d f).result sl lat d' f').after ((OnlyTile.nextSeq s s.cur).trans (OnlyTile.nextSeq _ s.cur))
    ((ht.fly e).fly e') ?_
  simp only [Machine.fly, List.append_assoc, List.singleton_append]

/-! ## What a special register reads as (R25, R26, R29) -/

theorem exec_rds (gu : Guard) (g : BitVec 5) (i : BitVec 8) (s : State) : exec (.rds gu g i) s = execRds gu g i s := rfl

theorem exec_wrs (gu : Guard) (g : BitVec 5) (i : BitVec 8) (s : State) : exec (.wrs gu g i) s = execWrs gu g i s := rfl

theorem exec_rdcyc (gu : Guard) (g : BitVec 5) (s : State) : exec (.rdcyc gu g) s = execRdcyc gu g s := rfl

/-- Of the module, a special register's value depends on the clock edge alone. -/
theorem sregRead_of_edge {s u : State} (h : u.edge = s.edge) (l : Loc) (p : Part) (t : Tile) (i : Nat) :
    sregRead u l p t i = sregRead s l p t i := by
  simp only [sregRead, h]

theorem rdsValue_of_edge {s u : State} (h : u.edge = s.edge) (l : Loc) (p : Part) (t : Tile) (i : Nat) :
    rdsValue u l p t i = rdsValue s l p t i := by
  simp only [rdsValue, sregRead_of_edge h]

theorem rdsSnap_of_edge {s u : State} (h : u.edge = s.edge) (l : Loc) (p : Part) (t : Tile) (i : Nat) :
    rdsSnap u l p t i = rdsSnap s l p t i := by
  simp only [rdsSnap, sregRead_of_edge h]

/-- The 64-bit registers by their low halves' indices, with their values. -/
theorem sreg_wide {s : State} {l : Loc} {p : Part} {t : Tile} {i x : Nat}
    (h : (i, x) ∈ [(0x00, gcycOf p l t), (0x02, s.edge * 10 / 13)] ++
      (List.range 102).map (fun k => (0x80 + k, (mget 0 t.ltc (0x80 + k)).toNat))) :
    sregKnown i = true ∧ sregWide i = true ∧ i ≠ 1 ∧ i ≠ 3 ∧ sregRead s l p t i = x := by
  simp only [List.mem_append, List.mem_cons, List.not_mem_nil, or_false, List.mem_map, List.mem_range, Prod.mk.injEq] at h
  rcases h with (⟨rfl, rfl⟩ | ⟨rfl, rfl⟩) | ⟨k, hk, rfl, rfl⟩
  · exact ⟨rfl, rfl, by decide, by decide, rfl⟩
  · exact ⟨rfl, rfl, by decide, by decide, rfl⟩
  · have hltc : ∀ n, n ≤ 0x14 → 0x80 + k ≠ n := fun n hn => by omega
    refine ⟨?_, ?_, by omega, by omega, ?_⟩
    · simp only [sregKnown, Bool.or_eq_true, Bool.and_eq_true, decide_eq_true_eq]
      omega
    · simp [sregWide]
    · simp [sregRead, hltc]

/-- The narrow ones. -/
theorem sreg_narrow {s : State} {l : Loc} {p : Part} {t : Tile} {i x : Nat}
    (h : (i, x) ∈ [(0x04, homeIdx l t % 1024), (0x05, homeIdx l t / 1024), (0x06, homeIdx l t % 1024 / 64),
      (0x07, homeIdx l t / 1024 / 112), (0x08, t.stage.toNat), (0x09, 64 * p.count), (0x0A, 784), (0x0B, p.rec_.asid),
      (0x0C, t.flg.toNat), (0x0D, t.fpm.toNat), (0x0E, (modeOf t).toNat), (0x0F, p.rec_.seed.toNat),
      (0x10, t.regions.length), (0x11, (crhOf t).toNat), (0x12, t.evc.toNat), (0x13, t.epc.toNat), (0x14, t.done.toNat)]) :
    sregKnown i = true ∧ sregWide i = false ∧ i ≠ 1 ∧ i ≠ 3 ∧ sregRead s l p t i = x := by
  simp only [List.mem_cons, List.not_mem_nil, or_false, Prod.mk.injEq] at h
  rcases h with ⟨rfl, rfl⟩ | ⟨rfl, rfl⟩ | ⟨rfl, rfl⟩ | ⟨rfl, rfl⟩ | ⟨rfl, rfl⟩ | ⟨rfl, rfl⟩ | ⟨rfl, rfl⟩ | ⟨rfl, rfl⟩ |
    ⟨rfl, rfl⟩ | ⟨rfl, rfl⟩ | ⟨rfl, rfl⟩ | ⟨rfl, rfl⟩ | ⟨rfl, rfl⟩ | ⟨rfl, rfl⟩ | ⟨rfl, rfl⟩ | ⟨rfl, rfl⟩ | ⟨rfl, rfl⟩ <;>
  exact ⟨rfl, rfl, by decide, by decide, by simp [sregRead, tx, ty, pw, ph]⟩

/-! ## The three instructions -/

/-- The checks of a plain request pass also where the instruction leaves an audit unit open (R242). -/
theorem Ready.passes_opens {i : Instr} {s : State} {p : Part} {t : Tile} {gu : Guard} {codes reads : List Nat} {sl : Slot}
    (h : Ready s p t gu codes) (he : encFault i = none) (hs : ∀ c ∈ reads, c ∈ codes) (opens : Bool) :
    Passes i p t { plainReq sl gu reads with opens := opens } :=
  { h.passes he hs with }

/-- R23, R117: an RDS of an assigned index. -/
theorem rds_lands {s : State} {p : Part} {t : Tile} {gu : Guard} (h : Ready s p t gu []) (gd : BitVec 5) {i : BitVec 8}
    (hi : sregKnown i.toNat = true) :
    Lands (.rds gu gd i) s { t with snap := rdsSnap s s.cur p t i.toNat }
      [landingOf s p .s 1 (.g gd.toNat (rdsValue s s.cur p t i.toNat)) 0] := by
  intro hwf
  have henc : encFault (.rds gu gd i) = none := wellFormed_enc hwf (fun _ _ => nofun)
  obtain ⟨u, hu, hent⟩ := runSlot_passes (i := .rds gu gd i)
    (req := fun _ _ => { sl := .s, gu := gu, check := detC (!sregKnown i.toNat), opens := sregWide i.toNat || i == 1 || i == 3 })
    (eff := fun p t s0 => result (onTile s0 s0.cur (fun u => { u with snap := rdsSnap s0 s0.cur p t i.toNat })) .s 1
      (.g gd.toNat (rdsValue s0 s0.cur p t i.toNat)) 0)
    h.here h.keyed (by simpa [hi, detC, plainReq] using h.passes_opens (reads := []) (sl := .s) henc nofun _)
  rw [exec_rds]
  rw [hent.only.cur, rdsSnap_of_edge hent.only.clock, rdsValue_of_edge hent.only.clock] at hu
  exact ⟨_, _, hu, (hent.onTile _ rfl).after_result ((SameTile.enterTile t _).setSnap _) _ _ _ _⟩

theorem wrs_gives {s : State} {p : Part} {t : Tile} {gu : Guard} {g : BitVec 5} (h : Ready s p t gu [codeG g.toNat]) {i : BitVec 8}
    (hi : sregWritable i.toNat = true) :
    Gives (.wrs gu g i) s t (landingOf s p .s 1 (.sreg i.toNat (rg t g.toNat)) 0) := by
  intro hwf
  exact plain_flies h (exec_wrs gu g i s) (by simp [hi, detC, plainReq]) (wellFormed_enc hwf (fun _ _ => nofun)) (fun _ hc => hc) rfl

theorem rdcyc_lands {s : State} {p : Part} {t : Tile} {gu : Guard} {codes : List Nat} (h : Ready s p t gu codes) (g : BitVec 5) :
    let c := gcycOf p s.cur t
    Lands (.rdcyc gu g) s t
      [landingOf s p .s 1 (.g g.toNat (BitVec.ofNat 32 c)) 0,
       { landingOf s p .s 1 (.g (g.toNat + 1) (BitVec.ofNat 32 (c / 2 ^ 32))) 0 with seq := s.seqNo + 1 }] := by
  intro c hwf
  have henc : encFault (.rdcyc gu g) = none := wellFormed_enc hwf (fun _ _ => nofun)
  obtain ⟨u, hu, hent⟩ := runSlot_passes (i := .rdcyc gu g) (req := fun _ _ => { sl := .s, gu := gu, opens := true })
    (eff := fun p t s => result (result s .s 1 (.g g.toNat (BitVec.ofNat 32 (gcycOf p s.cur t))) 0) .s 1
      (.g (g.toNat + 1) (BitVec.ofNat 32 (gcycOf p s.cur t / 2 ^ 32))) 0)
    h.here h.keyed (h.passes_opens (reads := []) (sl := .s) henc nofun true)
  rw [exec_rdcyc]
  rw [hent.only.cur] at hu
  exact ⟨_, _, hu, hent.after_two_results (SameTile.enterTile t _) _ _ _ _ _ _⟩

/-- Settles O4: RDS by what its index reads as, WRS and RDCYC by their one form each. -/
theorem specialRegisters : Obligations.SpecialRegisters := by
  unfold Obligations.SpecialRegisters
  refine ⟨fun s p t gu gd i x h => ⟨fun hx => ?wide, fun hx => ?narrow, fun hi => ?high⟩,
    fun s p t gu g i h => ⟨fun hi => wrs_gives h ?wrs, rdcyc_lands h g⟩⟩
  case wide =>
    obtain ⟨hknown, hwide, h1, h3, hread⟩ := sreg_wide (s := s) hx
    simpa [rdsSnap, rdsValue, hwide, h1, h3, hread] using rds_lands h gd hknown
  case narrow =>
    obtain ⟨hknown, hwide, h1, h3, hread⟩ := sreg_narrow (s := s) hx
    simpa [rdsSnap, rdsValue, hwide, h1, h3, hread] using rds_lands h gd hknown
  case high =>
    have hknown : sregKnown i.toNat = true := by rcases hi with hi | hi <;> rw [hi] <;> rfl
    have hwide : sregWide i.toNat = false := by rcases hi with hi | hi <;> rw [hi] <;> rfl
    simpa [rdsSnap, rdsValue, hwide, hi] using rds_lands h gd hknown
  case wrs => rcases hi with rfl | rfl | rfl <;> rfl

end Sys2Proof.Machine
end

section
/-! PROOFS. The tile-state family: results that are due land (R11, R14, R26, R27, R257, R262). -/

namespace Sys2Proof.Machine

/-! ## Registers read back (R11) -/

theorem msorted_mset {β : Type} [DecidableEq β] {d : β} {m : SMap β} (k : Nat) (v : β) (h : msorted m = true) :
    msorted (mset d m k v) = true := by
  unfold mset
  split
  · exact msorted_merase k h
  · exact msorted_mput k v h

theorem mget_mset {β : Type} [DecidableEq β] {d : β} {m : SMap β} (n k : Nat) (v : β) (h : msorted m = true) :
    mget d (mset d m n v) k = if k = n then v else mget d m k := by
  split
  · next e => rw [e, mget_mset_same n v h]
  · next e => exact mget_mset_other n k v e h

theorem rg_wg {t : Tile} (n k : Nat) (x : Word) (h : msorted t.g = true) :
    rg (wg t n x) k = if k = 0 then 0 else if k = n then x else rg t k := by
  unfold wg
  split
  · next e => subst e; simp +contextual [rg]
  · simp +contextual [rg, mget_mset n k x h]

theorem rq_wq {t : Tile} (n k : Nat) (x : Bool) (h : msorted t.q = true) :
    rq (wq t n x) k = if k = 0 then true else if k = n then x else rq t k := by
  unfold wq
  split
  · next e => subst e; simp +contextual [rq]
  · simp +contextual [rq, mget_mset n k x h]

theorem rm_wm {t : Tile} (n k : Nat) (x : BitVec 16) (h : msorted t.m = true) :
    rm (wm t n x) k = if k = 0 then 0xFFFF else if k = n then x else rm t k := by
  unfold wm
  split
  · next e => subst e; simp +contextual [rm]
  · simp +contextual [rm, mget_mset n k x h]

theorem rv_wv {t : Tile} (n k : Nat) (x : Line) (h : msorted t.v = true) :
    rv (wv t n x) k = if k = n then x else rv t k := mget_mset n k x h

theorem mget_ma_landOne {t : Tile} (n k : Nat) (x : BitVec 18) (h : msorted t.ma = true) :
    mget 0 (landOne t (.ma n x)).ma k = if k = n then x else mget 0 t.ma k := mget_mset n k x h

/-! ## What a landing leaves -/

/-- The special registers that WRS writes (R25). -/
def specials (t : Tile) : Flags × BitVec 3 × Nat × Nat × Bool × Bool := (t.flg, t.fpm, t.sbCount, t.dramCount, t.dramMode, t.sbMode)

@[simp] theorem wg_leaves (t : Tile) (n : Nat) (x : Word) :
    (wg t n x).q = t.q ∧ (wg t n x).m = t.m ∧ (wg t n x).v = t.v ∧ (wg t n x).ma = t.ma ∧ specials (wg t n x) = specials t := by
  unfold wg
  split <;> exact ⟨rfl, rfl, rfl, rfl, rfl⟩

@[simp] theorem wq_leaves (t : Tile) (n : Nat) (x : Bool) :
    (wq t n x).g = t.g ∧ (wq t n x).m = t.m ∧ (wq t n x).v = t.v ∧ (wq t n x).ma = t.ma ∧ specials (wq t n x) = specials t := by
  unfold wq
  split <;> exact ⟨rfl, rfl, rfl, rfl, rfl⟩

@[simp] theorem wm_leaves (t : Tile) (n : Nat) (x : BitVec 16) :
    (wm t n x).g = t.g ∧ (wm t n x).q = t.q ∧ (wm t n x).v = t.v ∧ (wm t n x).ma = t.ma ∧ specials (wm t n x) = specials t := by
  unfold wm
  split <;> exact ⟨rfl, rfl, rfl, rfl, rfl⟩

@[simp] theorem wv_leaves (t : Tile) (n : Nat) (x : Line) :
    (wv t n x).g = t.g ∧ (wv t n x).q = t.q ∧ (wv t n x).m = t.m ∧ (wv t n x).ma = t.ma ∧ specials (wv t n x) = specials t :=
  ⟨rfl, rfl, rfl, rfl, rfl⟩

@[simp] theorem wsreg_leaves (t : Tile) (i : Nat) (x : Word) :
    (wsreg t i x).g = t.g ∧ (wsreg t i x).q = t.q ∧ (wsreg t i x).m = t.m ∧ (wsreg t i x).v = t.v ∧ (wsreg t i x).ma = t.ma := by
  unfold wsreg
  (repeat' split) <;> exact ⟨rfl, rfl, rfl, rfl, rfl⟩

@[simp] theorem specials_ma (t : Tile) (f : SMap (BitVec 18)) : specials { t with ma := f } = specials t := rfl

theorem landOne_g {t : Tile} {d : Dest} (h : ∀ n x, d ≠ .g n x) : (landOne t d).g = t.g := by
  cases d <;> simp_all [landOne]

theorem landOne_q {t : Tile} {d : Dest} (h : ∀ n x, d ≠ .q n x) : (landOne t d).q = t.q := by
  cases d <;> simp_all [landOne]

theorem landOne_m {t : Tile} {d : Dest} (h : ∀ n x, d ≠ .m n x) : (landOne t d).m = t.m := by
  cases d <;> simp_all [landOne]

theorem landOne_v {t : Tile} {d : Dest} (h : ∀ n x, d ≠ .v n x) : (landOne t d).v = t.v := by
  cases d <;> simp_all [landOne]

theorem landOne_ma {t : Tile} {d : Dest} (h : ∀ n x, d ≠ .ma n x) : (landOne t d).ma = t.ma := by
  cases d <;> simp_all [landOne]

theorem rg_landOne {t : Tile} {d : Dest} (h : ∀ n x, d ≠ .g n x) (k : Nat) : rg (landOne t d) k = rg t k := by
  simp only [rg, landOne_g h]

theorem rq_landOne {t : Tile} {d : Dest} (h : ∀ n x, d ≠ .q n x) (k : Nat) : rq (landOne t d) k = rq t k := by
  simp only [rq, landOne_q h]

theorem rm_landOne {t : Tile} {d : Dest} (h : ∀ n x, d ≠ .m n x) (k : Nat) : rm (landOne t d) k = rm t k := by
  simp only [rm, landOne_m h]

theorem rv_landOne {t : Tile} {d : Dest} (h : ∀ n x, d ≠ .v n x) (k : Nat) : rv (landOne t d) k = rv t k := by
  simp only [rv, landOne_v h]

theorem landOne_specials {t : Tile} {d : Dest} (h : isSreg d = false) : specials (landOne t d) = specials t := by
  cases d <;> simp_all [landOne, isSreg]

/-- The files that results land in keep their keys in order, so that a register written is read back. -/
structure FilesSorted (t : Tile) : Prop where
  g : msorted t.g = true
  q : msorted t.q = true
  m : msorted t.m = true
  v : msorted t.v = true
  ma : msorted t.ma = true

theorem FilesSorted.of_tileWf {t : Tile} (h : tileWf t = true) : FilesSorted t := by
  simp only [tileWf, Bool.and_eq_true, mwf_iff] at h
  constructor <;> simp only [h]

/-! ## What a landing keeps -/

theorem FilesSorted.wg {t : Tile} (h : FilesSorted t) (n : Nat) (x : Word) : FilesSorted (wg t n x) := by
  unfold Machine.wg
  split
  · exact h
  · exact { h with g := msorted_mset n x h.g }

theorem FilesSorted.wq {t : Tile} (h : FilesSorted t) (n : Nat) (x : Bool) : FilesSorted (wq t n x) := by
  unfold Machine.wq
  split
  · exact h
  · exact { h with q := msorted_mset n x h.q }

theorem FilesSorted.wm {t : Tile} (h : FilesSorted t) (n : Nat) (x : BitVec 16) : FilesSorted (wm t n x) := by
  unfold Machine.wm
  split
  · exact h
  · exact { h with m := msorted_mset n x h.m }

theorem FilesSorted.wsreg {t : Tile} (h : FilesSorted t) (i : Nat) (x : Word) : FilesSorted (wsreg t i x) := by
  unfold Machine.wsreg
  (repeat' split) <;> exact { h with }

theorem FilesSorted.landOne {t : Tile} (h : FilesSorted t) (d : Dest) : FilesSorted (landOne t d) :=
  match d with
  | .g n x => h.wg n x
  | .q n x => h.wq n x
  | .m n x => h.wm n x
  | .v n x => { h with v := msorted_mset n x h.v }
  | .sreg i x => h.wsreg i x
  | .ma k x => { h with ma := msorted_mset k x h.ma }
  | .flags => h

/-- A tile with the registers that results name, and the marks of the errors in them, taken from another. -/
def withResults (t u : Tile) : Tile :=
  { t with
      g := u.g, q := u.q, m := u.m, v := u.v, ma := u.ma, flg := u.flg, fpm := u.fpm, sbCount := u.sbCount, dramCount := u.dramCount,
      dramMode := u.dramMode, sbMode := u.sbMode, regErr := u.regErr }

/-- What a landing leaves: all but the registers that results name (R257, R262). -/
def LandKeeps (t u : Tile) : Prop := u = withResults t u

theorem LandKeeps.trans {t u w : Tile} (h : LandKeeps t u) (k : LandKeeps u w) : LandKeeps t w :=
  calc w = withResults u w := k
    _ = withResults (withResults t u) w := congrArg (withResults · w) h
    _ = withResults t w := rfl

theorem LandKeeps.landOne (t : Tile) (d : Dest) : LandKeeps t (landOne t d) := by
  cases d with
  | g n x => show LandKeeps t (wg t n x); unfold wg; split <;> rfl
  | q n x => show LandKeeps t (wq t n x); unfold wq; split <;> rfl
  | m n x => show LandKeeps t (wm t n x); unfold wm; split <;> rfl
  | v n x => rfl
  | sreg i x => show LandKeeps t (wsreg t i x); unfold wsreg; (repeat' split) <;> rfl
  | ma k x => rfl
  | flags => rfl

/-! ## Landings one after another -/

/-- Results land in a given order. -/
def landAll (t : Tile) (es : List Landing) : Tile := es.foldl (fun a e => landOne a e.dest) t

theorem landAll_cons (t : Tile) (e : Landing) (es : List Landing) : landAll t (e :: es) = landAll (landOne t e.dest) es := rfl

theorem FilesSorted.landAll {t : Tile} (h : FilesSorted t) (es : List Landing) : FilesSorted (landAll t es) :=
  foldl_keeps FilesSorted _ (fun _ e ha => ha.landOne e.dest) es t h

theorem LandKeeps.landAll (t : Tile) (es : List Landing) : LandKeeps t (landAll t es) :=
  foldl_keeps (LandKeeps t) _ (fun a e ha => ha.trans (LandKeeps.landOne a e.dest)) es t rfl

/-- A register as landings see it: the destinations that name it, the value that one of them leaves there, and no other
destination changes it. Its destinations are all special registers or all not, so they land in one pass (R27). -/
structure Place {γ : Type} (names : Dest → Prop) (view : Tile → γ) (holds : Dest → γ → Prop) : Prop where
  write : ∀ t d, FilesSorted t → names d → holds d (view (landOne t d))
  other : ∀ t d, FilesSorted t → ¬ names d → view (landOne t d) = view t
  pass : ∀ d d', names d → names d' → isSreg d = isSreg d'
  idle : ∀ (t : Tile) fl, view { t with flight := fl } = view t

section
variable {γ : Type} {names : Dest → Prop} {view : Tile → γ} {holds : Dest → γ → Prop}

theorem Place.landAll_none (hp : Place names view holds) {es : List Landing} (h : ∀ e ∈ es, ¬ names e.dest) {t : Tile}
    (ht : FilesSorted t) : view (landAll t es) = view t := by
  induction es generalizing t with
  | nil => rfl
  | cons e es ih =>
    rw [landAll_cons, ih (fun f hf => h f (List.mem_cons_of_mem e hf)) (ht.landOne e.dest), hp.other t e.dest ht (h e List.mem_cons_self)]

/-- A register that holds what a result left there still does once others have landed, none of which names it but that result
itself, listed again. -/
theorem Place.landAll_holds (hp : Place names view holds) {e : Landing} {fs : List Landing}
    (h : ∀ f ∈ fs, names f.dest → f = e) {t : Tile} (ht : FilesSorted t) (he : holds e.dest (view t)) : holds e.dest (view (landAll t fs)) := by
  induction fs generalizing t with
  | nil => exact he
  | cons f fs ih =>
    refine ih (fun f' hf' => h f' (List.mem_cons_of_mem f hf')) (ht.landOne f.dest) ?_
    by_cases hn : names f.dest
    · rw [← h f List.mem_cons_self hn]
      exact hp.write t f.dest ht hn
    · rw [hp.other t f.dest ht hn]
      exact he

end

/-! ## The order of landings (R14) -/

theorem landLe_iff {a b : Landing} : landLe a b = true ↔ a.slot < b.slot ∨ a.slot = b.slot ∧ a.seq ≤ b.seq := by
  simp [landLe]

theorem insertBy_perm {α : Type} (le : α → α → Bool) (a : α) (l : List α) : (insertBy le a l).Perm (a :: l) := by
  induction l with
  | nil => exact List.Perm.refl [a]
  | cons b r ih =>
    rw [insertBy]
    split
    · exact List.Perm.refl _
    · exact (ih.cons b).trans (List.Perm.swap a b r)

theorem sortBy_perm {α : Type} (le : α → α → Bool) (l : List α) : (sortBy le l).Perm l := by
  induction l with
  | nil => exact List.Perm.nil
  | cons a r ih => exact (insertBy_perm le a (sortBy le r)).trans (ih.cons a)

theorem insertBy_landLe_pairwise (a : Landing) {l : List Landing} (h : l.Pairwise (fun x y => landLe x y = true)) :
    (insertBy landLe a l).Pairwise (fun x y => landLe x y = true) := by
  induction l with
  | nil => exact List.pairwise_singleton _ a
  | cons b r ih =>
    obtain ⟨hb, hr⟩ := List.pairwise_cons.1 h
    rw [insertBy]
    split
    · next hab =>
      refine List.pairwise_cons.2 ⟨fun x hx => ?_, h⟩
      rcases List.mem_cons.1 hx with rfl | hx
      · exact hab
      · have hbx := hb x hx
        rw [landLe_iff] at hab hbx ⊢
        omega
    · next hab =>
      refine List.pairwise_cons.2 ⟨fun x hx => ?_, ih hr⟩
      rcases List.mem_cons.1 ((insertBy_perm landLe a r).mem_iff.1 hx) with rfl | hx
      · rw [landLe_iff] at hab ⊢
        omega
      · exact hb x hx

theorem sortBy_landLe_pairwise (l : List Landing) : (sortBy landLe l).Pairwise (fun x y => landLe x y = true) := by
  induction l with
  | nil => exact List.Pairwise.nil
  | cons a r ih => exact insertBy_landLe_pairwise a ih

/-- The results due at a cycle. -/
def dueAt (t : Tile) (g : Nat) : List Landing := t.flight.filter (fun e => decide (e.due ≤ g))

/-- The order in which results that are due are written: special registers first (R27), then slot and issue order (R14). -/
def landOrder (due : List Landing) : List Landing :=
  (sortBy landLe due).filter (fun e => isSreg e.dest) ++ (sortBy landLe due).filter (fun e => !isSreg e.dest)

/-- The tile without the results due. -/
def clearDue (t : Tile) (g : Nat) : Tile := { t with flight := t.flight.filter (fun e => decide (g < e.due)) }

theorem FilesSorted.clearDue {t : Tile} (h : FilesSorted t) (g : Nat) : FilesSorted (clearDue t g) := { h with }

/-- The tile once the results due have been written, before their flags are ORed in. -/
def landed (t : Tile) (g : Nat) : Tile := landAll (clearDue t g) (landOrder (dueAt t g))

theorem mem_landOrder {due : List Landing} {e : Landing} : e ∈ landOrder due ↔ e ∈ due := by
  simp only [landOrder, List.mem_append, List.mem_filter, (sortBy_perm landLe due).mem_iff]
  cases isSreg e.dest <;> simp

theorem landOrder_single (e : Landing) : landOrder [e] = [e] := by
  simp only [landOrder, sortBy, insertBy, List.filter_cons, List.filter_nil]
  cases isSreg e.dest <;> rfl

/-- Flags are ORed together whatever the order (R27). -/
theorem foldl_flags_perm {es fs : List Landing} (h : es.Perm fs) :
    es.foldl (fun (f : Flags) e => f ||| e.flags) 0 = joinFlags (fs.map (fun e => e.flags)) := by
  rw [joinFlags, List.foldl_map]
  exact h.foldl_eq' (fun a _ b _ f => by rw [BitVec.or_assoc, BitVec.or_assoc, BitVec.or_comm a.flags]) 0

theorem landDue_eq (t : Tile) (g : Nat) :
    landDue t g = orFlags (landed t g) (joinFlags ((dueAt t g).map (fun e => e.flags))) := by
  rw [← foldl_flags_perm (sortBy_perm landLe (dueAt t g))]
  simp only [landDue, landed, landOrder, landAll, dueAt, clearDue, List.foldl_append]

section
variable {γ : Type} {names : Dest → Prop} {view : Tile → γ} {holds : Dest → γ → Prop}

/-- The results of one register land in slot and issue order. -/
theorem Place.landOrder_pairwise (hp : Place names view holds) (due : List Landing) :
    (landOrder due).Pairwise (fun a b => names a.dest → names b.dest → landLe a b = true) := by
  have hs := (sortBy_landLe_pairwise due).imp (S := fun a b => names a.dest → names b.dest → landLe a b = true) (fun h _ _ => h)
  refine List.pairwise_append.2 ⟨hs.filter _, hs.filter _, fun a ha b hb na nb => ?_⟩
  have hpass := hp.pass _ _ na nb
  simp_all [List.mem_filter]

/-- Of the results that are due, the last that names a register in slot and issue order decides what it holds (R14). -/
theorem Place.landed_last (hp : Place names view holds) {t : Tile} {g : Nat} {e : Landing} (ht : FilesSorted t)
    (h : LastOf (dueAt t g) names e) : holds e.dest (view (landed t g)) := by
  obtain ⟨he, hne, hlast⟩ := h
  obtain ⟨es, fs, hsplit⟩ := List.append_of_mem (mem_landOrder.2 he)
  have hafter : ∀ f ∈ fs, names f.dest → f = e := by
    intro f hf hnf
    have hord := hp.landOrder_pairwise (dueAt t g)
    rw [hsplit, List.pairwise_append] at hord
    have hle := landLe_iff.1 (List.rel_of_pairwise_cons hord.2.1 hf hne hnf)
    have hmem : f ∈ dueAt t g := mem_landOrder.1 (by rw [hsplit]; simp [hf])
    rcases hlast f hmem hnf with rfl | hlt | hlt
    · rfl
    · omega
    · omega
  have ht' := ht.clearDue g
  rw [landed, hsplit, landAll, List.foldl_append]
  exact hp.landAll_holds hafter ((ht'.landAll es).landOne e.dest) (hp.write _ _ (ht'.landAll es) hne)

theorem Place.landed_none (hp : Place names view holds) {t : Tile} {g : Nat} (ht : FilesSorted t)
    (h : NoneOf (dueAt t g) names) : view (landed t g) = view t :=
  (hp.landAll_none (fun e he => h e (mem_landOrder.1 he)) (ht.clearDue g)).trans (hp.idle t _)

end

/-! ## The registers that results name -/

/-- A register of a file that one kind of destination writes. -/
theorem Place.ofFile {α : Type} (c : Nat → α → Dest) (view : Tile → α) (k : Nat)
    (inj : ∀ n x y, c n x = c k y → n = k ∧ x = y)
    (write : ∀ t n x, FilesSorted t → view (landOne t (c n x)) = if k = n then x else view t)
    (other : ∀ t d, (∀ n x, d ≠ c n x) → view (landOne t d) = view t) (pass : ∀ n x, isSreg (c n x) = false)
    (idle : ∀ (t : Tile) fl, view { t with flight := fl } = view t) :
    Place (fun d => ∃ x, d = c k x) view (fun d y => ∀ x, d = c k x → y = x) where
  write := by
    rintro t _ ht ⟨x, rfl⟩ y hy
    rw [write t k x ht, if_pos rfl, (inj k x y hy).2]
  other t d ht hd := by
    by_cases hc : ∃ n x, d = c n x
    · obtain ⟨n, x, rfl⟩ := hc
      rw [write t n x ht, if_neg]
      rintro rfl
      exact hd ⟨x, rfl⟩
    · exact other t d (fun n x h => hc ⟨n, x, h⟩)
  pass := by
    rintro _ _ ⟨x, rfl⟩ ⟨y, rfl⟩
    rw [pass, pass]
  idle := idle

theorem place_g {k : Nat} (hk : k ≠ 0) : Place (fun d => ∃ x, d = .g k x) (fun t => rg t k) (fun d y => ∀ x, d = .g k x → y = x) :=
  Place.ofFile .g _ k (fun _ _ _ h => Dest.g.inj h) (fun _ n x ht => (rg_wg n k x ht.g).trans (if_neg hk))
    (fun _ _ h => rg_landOne h k) (fun _ _ => rfl) (fun _ _ => rfl)

theorem place_q {k : Nat} (hk : k ≠ 0) : Place (fun d => ∃ x, d = .q k x) (fun t => rq t k) (fun d y => ∀ x, d = .q k x → y = x) :=
  Place.ofFile .q _ k (fun _ _ _ h => Dest.q.inj h) (fun _ n x ht => (rq_wq n k x ht.q).trans (if_neg hk))
    (fun _ _ h => rq_landOne h k) (fun _ _ => rfl) (fun _ _ => rfl)

theorem place_m {k : Nat} (hk : k ≠ 0) : Place (fun d => ∃ x, d = .m k x) (fun t => rm t k) (fun d y => ∀ x, d = .m k x → y = x) :=
  Place.ofFile .m _ k (fun _ _ _ h => Dest.m.inj h) (fun _ n x ht => (rm_wm n k x ht.m).trans (if_neg hk))
    (fun _ _ h => rm_landOne h k) (fun _ _ => rfl) (fun _ _ => rfl)

theorem place_v (k : Nat) : Place (fun d => ∃ x, d = .v k x) (fun t => rv t k) (fun d y => ∀ x, d = .v k x → y = x) :=
  Place.ofFile .v _ k (fun _ _ _ h => Dest.v.inj h) (fun _ n x ht => rv_wv n k x ht.v)
    (fun _ _ h => rv_landOne h k) (fun _ _ => rfl) (fun _ _ => rfl)

theorem place_ma (k : Nat) :
    Place (fun d => ∃ x, d = .ma k x) (fun t => mget 0 t.ma k) (fun d y => ∀ x, d = .ma k x → y = x) :=
  Place.ofFile .ma _ k (fun _ _ _ h => Dest.ma.inj h) (fun _ n x ht => mget_ma_landOne n k x ht.ma)
    (fun _ _ h => by simp only [landOne_ma h]) (fun _ _ => rfl) (fun _ _ => rfl)

/-- A writable special register, of which `view` shows the fields and `value` what a write leaves there (R24, R26). -/
theorem Place.ofSreg {γ : Type} (i : Nat) (view : Tile → γ) (value : Word → γ) (sp : Flags × BitVec 3 × Nat × Nat × Bool × Bool → γ)
    (hview : ∀ t, view t = sp (specials t)) (write : ∀ t x, view (wsreg t i x) = value x)
    (other : ∀ t j x, j ≠ i → view (wsreg t j x) = view t) :
    Place (fun d => ∃ x, d = .sreg i x) view (fun d y => ∀ x, d = .sreg i x → y = value x) where
  write := by
    rintro t _ - ⟨x, rfl⟩ y hy
    rw [← (Dest.sreg.inj hy).2]
    exact write t x
  other t d _ hd := by
    cases hs : isSreg d with
    | false => rw [hview, hview, landOne_specials hs]
    | true =>
      cases d with
      | sreg j x => exact other t j x (fun h => hd ⟨x, h ▸ rfl⟩)
      | _ => cases hs
  pass := by
    rintro _ _ ⟨x, rfl⟩ ⟨y, rfl⟩
    rfl
  idle t fl := by rw [hview, hview]; rfl

theorem place_flg : Place (fun d => ∃ x, d = .sreg 0x0C x) Tile.flg (fun d y => ∀ x, d = .sreg 0x0C x → y = x.truncate 6) :=
  Place.ofSreg _ _ _ (fun s => s.1) (fun _ => rfl) (fun _ _ => rfl)
    (fun t j x hj => by unfold wsreg; rw [if_neg hj]; (repeat' split) <;> rfl)

theorem place_fpm :
    Place (fun d => ∃ x, d = .sreg 0x0D x) Tile.fpm
      (fun d y => ∀ x, d = .sreg 0x0D x → y = if 5 ≤ x.toNat % 8 then 0 else x.truncate 3) :=
  Place.ofSreg _ _ _ (fun s => s.2.1) (fun _ => rfl) (fun _ _ => rfl)
    (fun t j x hj => by unfold wsreg; rw [if_neg hj]; (repeat' split) <;> rfl)

/-- MODE's fields that WRS writes (R26). -/
def modeFields (t : Tile) : Nat × Nat × Bool × Bool := (t.sbCount, t.dramCount, t.dramMode, t.sbMode)

/-- What a write of MODE leaves in them. -/
def modeValue (x : Word) : Nat × Nat × Bool × Bool :=
  (x.toNat / 2 ^ 20, x.toNat / 2 ^ 8 % 2 ^ 12, x.getLsbD 1, x.getLsbD 0)

theorem modeFields_wsreg (t : Tile) (x : Word) : modeFields (wsreg t 0x0E x) = modeValue x := by
  have hsb : field x.toNat 20 12 = x.toNat / 2 ^ 20 := by
    rw [field, Nat.shiftRight_eq_div_pow]
    omega
  have hdram : field x.toNat 8 12 = x.toNat / 2 ^ 8 % 2 ^ 12 := by rw [field, Nat.shiftRight_eq_div_pow]
  rw [modeValue, ← hsb, ← hdram]
  rfl

theorem place_mode : Place (fun d => ∃ x, d = .sreg 0x0E x) modeFields (fun d y => ∀ x, d = .sreg 0x0E x → y = modeValue x) :=
  Place.ofSreg _ _ _ (fun s => s.2.2) (fun _ => rfl) modeFields_wsreg
    (fun t j x hj => by unfold wsreg; rw [if_neg hj]; (repeat' split) <;> rfl)

/-! ## The step -/

theorem exec_resultLanding (l : Loc) (s : State) : exec (.resultLanding l) s = execResultLanding l s := rfl

/-- A partition put back with one of its tiles changed, and else in nothing that a tile's view depends on. -/
theorem setPart_putTile_only {s : State} {l : Loc} {q : Part} {t : Tile} (hq : getPart s l.band = some q) (hfirst : q.first = l.band)
    (ht : tileIn q l.idx = some t) {q' : Part} (hsame : SameTiles q q') (u : Tile) :
    tileOf (setPart s (putTile q' l.idx u)) l = some u ∧ OnlyTile s (setPart s (putTile q' l.idx u)) l := by
  have hput : (putTile q' l.idx u).first = l.band := by rw [putTile_first, hsame.first, hfirst]
  have hget : getPart (setPart s (putTile q' l.idx u)) l.band = some (putTile q' l.idx u) := by
    rw [← hput]
    exact getPart_setPart_same s _
  refine ⟨?here, ?others, rfl, rfl, rfl, ⟨rfl, rfl, rfl, rfl, rfl⟩, rfl, rfl, rfl⟩
  case here =>
    rw [tileOf_eq, hget]
    exact tileIn_putTile_same ((tileIn_of_same hsame l.idx).trans ht)
  case others =>
    intro k hk
    rw [tileOf_eq, tileOf_eq]
    by_cases hb : k.band = l.band
    · have hidx : k.idx ≠ l.idx := fun hi => hk (by cases k; cases l; simp_all)
      rw [hb, hget, hq, Option.bind_some, Option.bind_some, tileIn_putTile_other _ _ _ _ hidx, tileIn_of_same hsame]
    · rw [getPart_setPart_other s _ _ (hput ▸ hb)]

/-- R257: the results due at a tile's cycle land there, and nothing outside the tile changes. -/
theorem resultLanding_steps {s : State} {l : Loc} {p : Part} {t : Tile} (h : Stands s l p t) {good : Tile → Prop}
    (hg : good (landDue t p.gcyc)) : Steps (.resultLanding l) s l good := by
  obtain ⟨q, hq, ht, rfl, rfl⟩ := tileAt_part h.here
  have hsame : SameTiles q (if poolBase ≤ l.idx then q else performed q) := by
    split
    · exact ⟨rfl, rfl, rfl, rfl, rfl⟩
    · exact sameTiles_performed q
  obtain ⟨hnow, honly⟩ := setPart_putTile_only hq h.keyed ht hsame (landDue (getTile q l.idx) (cycOf q l.idx))
  refine ⟨_, _, ?_, hnow, honly, hg⟩
  have hget : getTile (if poolBase ≤ l.idx then q else performed q) l.idx = getTile q l.idx := by
    simp only [getTile, hsame.tiles, hsame.pool, hsame.rec_]
  rw [exec_resultLanding, execResultLanding, onPart_eq hq, modTile, hget]

/-! ## One result alone, and two of one register -/

section
variable {t : Tile} {g : Nat} {e f : Landing}

theorem landOrder_pair (he : isSreg e.dest = false) (hf : isSreg f.dest = false) :
    landOrder [e, f] = if landLe e f then [e, f] else [f, e] := by
  simp only [landOrder, sortBy, insertBy]
  split <;> simp [he, hf]

theorem landDue_single (h : dueAt t g = [e]) :
    landDue t g = orFlags (landOne (clearDue t g) e.dest) e.flags := by
  rw [landDue_eq, landed, h, landOrder_single]
  simp [joinFlags, landAll]

theorem flg_landOne_sreg (i : Nat) (x : Word) : (landOne t (.sreg i x)).flg = if i = 0x0C then x.truncate 6 else t.flg := by
  show (wsreg t i x).flg = _
  unfold wsreg
  (repeat' split) <;> rfl

theorem flg_landOne {d : Dest} (h : isSreg d = false) : (landOne t d).flg = t.flg := congrArg Prod.fst (landOne_specials h)

@[simp] theorem rg_orFlags (t : Tile) (f : Flags) (n : Nat) : rg (orFlags t f) n = rg t n := rfl
@[simp] theorem rq_orFlags (t : Tile) (f : Flags) (n : Nat) : rq (orFlags t f) n = rq t n := rfl
@[simp] theorem rm_orFlags (t : Tile) (f : Flags) (n : Nat) : rm (orFlags t f) n = rm t n := rfl
@[simp] theorem rv_orFlags (t : Tile) (f : Flags) (n : Nat) : rv (orFlags t f) n = rv t n := rfl

theorem rg_landOne_g (hs : FilesSorted t) (n k : Nat) (x : Word) :
    rg (landOne t (.g k x)) n = if n = k ∧ k ≠ 0 then x else rg t n := by
  refine (rg_wg k n x hs.g).trans ?_
  by_cases hn : n = 0 <;> by_cases hk : n = k <;> simp_all [rg]

theorem rq_landOne_q (hs : FilesSorted t) (n k : Nat) (x : Bool) :
    rq (landOne t (.q k x)) n = if n = k ∧ k ≠ 0 then x else rq t n := by
  refine (rq_wq k n x hs.q).trans ?_
  by_cases hn : n = 0 <;> by_cases hk : n = k <;> simp_all [rq]

theorem rm_landOne_m (hs : FilesSorted t) (n k : Nat) (x : BitVec 16) :
    rm (landOne t (.m k x)) n = if n = k ∧ k ≠ 0 then x else rm t n := by
  refine (rm_wm k n x hs.m).trans ?_
  by_cases hn : n = 0 <;> by_cases hk : n = k <;> simp_all [rm]

theorem rg_landed_pair {k : Nat} {x y : Word} (hs : FilesSorted t) (hk : k ≠ 0) (h : dueAt t g = [e, f]) (he : e.dest = .g k x)
    (hf : f.dest = .g k y) : rg (landed t g) k = if e.slot < f.slot ∨ e.slot = f.slot ∧ e.seq ≤ f.seq then y else x := by
  have hs' := hs.clearDue g
  simp only [landed, h, landOrder_pair (congrArg isSreg he) (congrArg isSreg hf), landLe_iff]
  split
  · exact (place_g hk).write _ f.dest (hs'.landOne e.dest) ⟨y, hf⟩ y hf
  · exact (place_g hk).write _ e.dest (hs'.landOne f.dest) ⟨x, he⟩ x he

end

/-! ## The statement -/

/-- Settles O17: each register is a place that landings see, and the last result that names it decides what it holds. -/
theorem resultsLand : Obligations.ResultsLand := by
  unfold Obligations.ResultsLand
  refine ⟨fun t x b w v n k hwf => ?registers, fun s l p t hst hwf => ?landing⟩ <;> have hs := FilesSorted.of_tileWf hwf
  case registers => exact ⟨rg_wg n k x hs.g, rfl, rq_wq n k b hs.q, rfl, rm_wm n k w hs.m, rfl, rv_wv n k v hs.v⟩
  refine resultLanding_steps hst ?_
  have hkeeps : landed t p.gcyc = withResults (clearDue t p.gcyc) (landed t p.gcyc) := LandKeeps.landAll _ _
  refine ⟨?mem, ?event, ?flight, ?single, ?two, ?places⟩
  case single =>
    intro e he
    have hs' := hs.clearDue p.gcyc
    rw [landDue_single he]
    simp only [rg_orFlags, rq_orFlags, rm_orFlags, rv_orFlags]
    refine ⟨?_, ?_, ?_, ?_, ?_⟩
    · cases e.dest with
      | sreg i x => exact congrArg (· ||| e.flags) (flg_landOne_sreg i x)
      | _ => exact congrArg (· ||| e.flags) (flg_landOne rfl)
    · cases e.dest with
      | g k x => exact fun n => rg_landOne_g hs' n k x
      | _ => exact rg_landOne nofun
    · cases e.dest with
      | q k x => exact fun n => rq_landOne_q hs' n k x
      | _ => exact rq_landOne nofun
    · cases e.dest with
      | m k x => exact fun n => rm_landOne_m hs' n k x
      | _ => exact rm_landOne nofun
    · cases e.dest with
      | v k x => exact fun n => rv_wv k n x hs'.v
      | _ => exact rv_landOne nofun
  all_goals rw [landDue_eq]
  case two => exact fun e f k x y hdue hk he hf => rg_landed_pair hs hk hdue he hf
  case mem => rw [hkeeps]; exact ⟨rfl, rfl, rfl, rfl⟩
  case event => rw [hkeeps]; exact ⟨rfl, rfl, rfl⟩
  case flight => rw [hkeeps]; rfl
  case places =>
    refine ⟨fun k hk => ⟨fun e he => (place_g hk).landed_last hs he, (place_g hk).landed_none hs⟩,
      fun k hk => ⟨fun e he => (place_q hk).landed_last hs he, (place_q hk).landed_none hs⟩,
      fun k hk => ⟨fun e he => (place_m hk).landed_last hs he, (place_m hk).landed_none hs⟩,
      fun k => ⟨fun e he => (place_v k).landed_last hs he, (place_v k).landed_none hs⟩,
      fun k => ⟨fun e he => (place_ma k).landed_last hs he, (place_ma k).landed_none hs⟩,
      ⟨fun e he x hx => ?flg, fun hn => ?flgNone⟩,
      ⟨fun e he => place_fpm.landed_last hs he, place_fpm.landed_none hs⟩,
      ⟨fun e he x hx => ?mode, fun hn => ?modeNone⟩, ?kept⟩
    case flg => exact congrArg (· ||| _) (place_flg.landed_last hs he x hx)
    case flgNone => exact congrArg (· ||| _) (place_flg.landed_none hs hn)
    case mode => simpa [modeFields, modeValue] using place_mode.landed_last hs he x hx
    case modeNone => simpa [modeFields] using place_mode.landed_none hs hn
    case kept => rw [hkeeps]; exact ⟨rfl, rfl, rfl, rfl, rfl, rfl⟩

end Sys2Proof.Machine
end

section
/-! PROOFS. The encoding family: the decoder inverts the encoder (R94 to R107). -/

namespace Sys2Proof.Machine

/-! ## The fields of a word -/

/-- Every field of `fs`, the most significant first, stands in the word `x` with its value's low bits. -/
def HasFields (x : Nat) (fs : List (Nat × Nat)) : Prop :=
  match fs with
  | [] => True
  | (w, v) :: r => field x (widthSum (r.map Prod.fst)) w = v % 2 ^ w ∧ HasFields x r

theorem packF_lt (fs : List (Nat × Nat)) : packF fs < 2 ^ widthSum (fs.map Prod.fst) := by
  induction fs with
  | nil => exact Nat.one_pos
  | cons e r ih =>
    have he : e.2 % 2 ^ e.1 < 2 ^ e.1 := Nat.mod_lt _ (Nat.two_pow_pos _)
    calc e.2 % 2 ^ e.1 * 2 ^ widthSum (r.map Prod.fst) + packF r
        < (e.2 % 2 ^ e.1 + 1) * 2 ^ widthSum (r.map Prod.fst) := by rw [Nat.add_one_mul]; omega
      _ ≤ 2 ^ e.1 * 2 ^ widthSum (r.map Prod.fst) := Nat.mul_le_mul_right _ he
      _ = 2 ^ widthSum ((e :: r).map Prod.fst) := (Nat.pow_add ..).symm

theorem field_below (x y : Nat) {k lo w : Nat} (h : lo + w ≤ k) : field (x * 2 ^ k + y) lo w = field y lo w := by
  obtain ⟨d, rfl⟩ := Nat.exists_eq_add_of_le h
  have hx : x * 2 ^ (lo + w + d) = 2 ^ lo * (2 ^ w * (x * 2 ^ d)) := by simp only [Nat.pow_add]; ac_rfl
  rw [field, field, Nat.shiftRight_eq_div_pow, Nat.shiftRight_eq_div_pow, hx, Nat.mul_add_div (Nat.two_pow_pos _), Nat.mul_add_mod]

theorem field_packF_cons (w v : Nat) (r : List (Nat × Nat)) :
    field (packF ((w, v) :: r)) (widthSum (r.map Prod.fst)) w = v % 2 ^ w := by
  rw [field, packF, Nat.shiftRight_eq_div_pow, Nat.mul_comm, Nat.mul_add_div (Nat.two_pow_pos _), Nat.div_eq_of_lt (packF_lt r),
    Nat.add_zero, Nat.mod_mod]

theorem HasFields.below {y : Nat} {fs : List (Nat × Nat)} (h : HasFields y fs) (x : Nat) {k : Nat} (hk : widthSum (fs.map Prod.fst) ≤ k) :
    HasFields (x * 2 ^ k + y) fs := by
  induction fs with
  | nil => trivial
  | cons e r ih =>
    rw [List.map_cons, widthSum] at hk
    exact ⟨(field_below x y (by omega)).trans h.1, ih h.2 (by omega)⟩

theorem hasFields_packF (fs : List (Nat × Nat)) : HasFields (packF fs) fs := by
  induction fs with
  | nil => trivial
  | cons e r ih => exact ⟨field_packF_cons .., ih.below _ Nat.le.refl⟩

theorem bitN_eq_field (x i : Nat) : bitN x i = (field x i 1 == 1) := by
  rw [bitN, field, Nat.shiftRight_eq_div_pow, Nat.testBit_eq_decide_div_mod_eq]; rfl

/-! ## Operands read back -/

theorem guardNat_mod (g : Guard) : guardNat g % 2 ^ 6 = guardNat g := by
  obtain ⟨neg, kind, idx⟩ := g
  revert neg kind idx
  decide

@[simp] theorem guardOf_guardNat (g : Guard) : guardOf (guardNat g) = g := by
  obtain ⟨neg, kind, idx⟩ := g
  revert neg kind idx
  decide

theorem b2n_mod (b : Bool) : b2n b % 2 ^ 1 = b2n b := by cases b <;> rfl

@[simp] theorem b2n_beq_one (b : Bool) : (b2n b == 1) = b := by cases b <;> rfl

theorem checked_eq_ok {reserved : List Nat} {i j : Instr} (hr : reserved.any (fun r => r != 0) = false) (hj : j = i)
    (hi : encFault i = none) : checked reserved j = .ok i := by
  simp [checked, hr, hj, hi]

theorem vslot_injective {a b : VSlot} (h : vslot a = vslot b) : a = b := by cases a <;> cases b <;> cases h <;> rfl

theorem decodeSlot_vslot (sl : VSlot) (x : Nat) : decodeSlot (vslot sl) x = decodeV sl x := by cases sl <;> rfl

theorem slotWidth_vslot (sl : VSlot) : slotWidth (vslot sl) = 64 := by cases sl <;> rfl

/-! ## Words with the fields of an instruction -/

theorem decodeV_of_fields {i : Instr} {sl : VSlot} {fs : List (Nat × Nat)} {x : Nat} (h : encodeFields i = some (vslot sl, fs))
    (hi : encFault i = none) (hx : HasFields x fs) : decodeV sl x = .ok i := by
  cases i <;> try (cases sl <;> cases h; done)
  case unassignedOpcode => cases hi
  all_goals
    simp only [encodeFields, Option.some.injEq, Prod.mk.injEq] at h
    obtain ⟨hv, rfl⟩ := h
    obtain rfl := vslot_injective hv
    simp only [HasFields, List.map_cons, List.map_nil, widthSum, and_true, guardNat_mod, b2n_mod, BitVec.toNat_mod_cancel, Nat.zero_mod,
      Nat.reduceAdd] at hx
    rw [decodeV, hx.1]
  case vbcastScalar | vbinaddValue =>
    refine (if_neg (by simp [bitN_eq_field, hx])).trans (checked_eq_ok ?_ ?_ hi) <;> simp [hx, widthSum]
  case vbcastVector | vbinaddMerge =>
    refine (if_pos (by simp [bitN_eq_field, hx])).trans (checked_eq_ok ?_ ?_ hi) <;> simp [hx, widthSum]
  all_goals refine checked_eq_ok ?_ ?_ hi <;> simp [hx, widthSum]


/-- The slots but the vector slots. -/
theorem decodeSlot_of_fields_of_ne_vslot {i : Instr} {sl : Slot} {fs : List (Nat × Nat)} {x : Nat} (h : encodeFields i = some (sl, fs))
    (hi : encFault i = none) (hx : HasFields x fs) (hsl : ∀ v, sl ≠ vslot v) : decodeSlot sl x = .ok i := by
  cases i <;> cases h
  case unassignedOpcode => cases hi
  all_goals try cases hsl _ rfl
  all_goals
    simp only [HasFields, List.map_cons, List.map_nil, widthSum, and_true, guardNat_mod, b2n_mod, BitVec.toNat_mod_cancel, Nat.zero_mod,
      Nat.reduceAdd] at hx
    simp only [decodeSlot, decodeS, decodeMx, decodeLd, decodeSt, decodeCp, decodeSy, bitN_eq_field, hx, Nat.reducePow, Nat.reduceMod,
      beq_self_eq_true, reduceIte, Nat.reduceBEq, Bool.false_eq_true, dec_waitcImm, dec_waitcReg, dec_waitbImm, dec_waitbReg,
      dec_bariImm, dec_bariReg, dec_barx, dec_drainImm, dec_drainReg, dec_realign, dec_cropen, dec_crclose, dec_crabort, dec_audo,
      dec_audc, dec_trap, dec_bkpt, dec_halt, dec_evt, dec_tmark, dec_dscrd, splitF]
    refine checked_eq_ok ?_ ?_ hi <;> simp [hx, widthSum]

theorem decodeSlot_of_fields {i : Instr} {sl : Slot} {fs : List (Nat × Nat)} {x : Nat} (h : encodeFields i = some (sl, fs))
    (hi : encFault i = none) (hx : HasFields x fs) : decodeSlot sl x = .ok i := by
  by_cases hv : ∃ v, sl = vslot v
  · obtain ⟨v, rfl⟩ := hv
    exact (decodeSlot_vslot v x).trans (decodeV_of_fields h hi hx)
  · exact decodeSlot_of_fields_of_ne_vslot h hi hx (not_exists.mp hv)

theorem widthSum_encodeFields {i : Instr} {sl : Slot} {fs : List (Nat × Nat)} (h : encodeFields i = some (sl, fs)) :
    widthSum (fs.map Prod.fst) = slotWidth sl := by
  cases i <;> cases h
  case unassignedOpcode => cases sl <;> rfl
  all_goals simp only [List.map_cons, List.map_nil, widthSum, Nat.reduceAdd, ↓slotWidth_vslot, slotWidth]

/-! ## Free codes (R95 to R107) -/

theorem freeOp_lt {sl : Slot} {op : Nat} (h : freeOp sl op = true) : op < 2 ^ slotOpWidth sl := by
  cases sl <;> simp [freeOp, slotOpWidth] at h ⊢ <;> omega

theorem decodeSlot_of_freeOp {sl : Slot} {x : Nat} (h : freeOp sl (field x (slotWidth sl - slotOpWidth sl) (slotOpWidth sl)) = true) :
    decodeSlot sl x = .ok (.unassignedOpcode sl (BitVec.ofNat 8 (field x (slotWidth sl - slotOpWidth sl) (slotOpWidth sl)))) := by
  cases sl <;> simp only [slotWidth, slotOpWidth, decodeSlot, decodeS, decodeV, decodeMx, decodeLd, decodeSt, decodeCp, decodeSy, vslot,
    Nat.reduceSub] at h ⊢ <;> split <;> try rfl
  all_goals next hop => rw [hop] at h; cases h

/-! ## The statement -/

theorem hasFields_encode {i : Instr} {sl : Slot} {w : Nat} (h : encode i = some (sl, w)) :
    ∃ fs, encodeFields i = some (sl, fs) ∧ HasFields w fs ∧ w < 2 ^ slotWidth sl := by
  obtain ⟨⟨sl', fs⟩, hf, hw⟩ : ∃ e, encodeFields i = some e ∧ (e.1, packF e.2) = (sl, w) := by
    unfold encode at h
    split at h
    next e => exact ⟨_, e, Option.some.inj h⟩
    next => cases h
  obtain ⟨rfl, rfl⟩ := Prod.mk.inj hw
  exact ⟨fs, hf, hasFields_packF fs, widthSum_encodeFields hf ▸ packF_lt fs⟩

/-- Settles O60: the fields of an instruction's word are read back, and an opcode that names no instruction is a free code. -/
theorem decodeInvertsEncode : Obligations.DecodeInvertsEncode := by
  intro i sl w hwf h
  obtain ⟨fs, hf, hx, hw⟩ := hasFields_encode h
  refine ⟨hw, ?_⟩
  cases i with
  | unassignedOpcode z op =>
    cases hf
    have hop : field w (slotWidth sl - slotOpWidth sl) (slotOpWidth sl) = op.toNat := by
      simpa [widthSum, Nat.mod_eq_of_lt (freeOp_lt hwf)] using hx.1
    simpa [hop] using decodeSlot_of_freeOp (sl := sl) (x := w) (by rw [hop]; exact hwf)
  | _ => exact decodeSlot_of_fields hf (Option.isNone_iff_eq_none.mp hwf) hx

/-- Settles O59: each word is the encoding of a well-formed instruction. -/
theorem wordsDecode : Obligations.WordsDecode := by
  refine ⟨?_, ?_, ?_, ?_, ?_⟩ <;> exact (decodeInvertsEncode _ _ _ rfl rfl).2

end Sys2Proof.Machine
end

section
/-! PROOFS. The encoding family: empty bundles (R90). -/

namespace Sys2Proof.Machine

/-! ## Empty bundles (R90) -/

theorem traceAdd_seq (p : Part) (t : Tile) (r : TraceRec) : (traceAdd p t r).seq = t.seq := by
  unfold traceAdd; (repeat' split) <;> rfl

theorem SameTile.of_traces {t u : Tile} (h : SameTile t u) (tr : List TraceRec) (n : Nat) :
    SameTile t { u with traces := tr, traceDropped := n } :=
  ⟨h.flight, { h.regs with }, { h.event with }, { h.mem with }⟩

theorem SameTile.traceAdd {t u : Tile} (h : SameTile t u) (p : Part) (r : TraceRec) : SameTile t (traceAdd p u r) := by
  unfold Machine.traceAdd
  split
  · split
    · exact h.of_traces _ _
    · exact h.of_traces u.traces _
  · exact h

theorem SameTile.of_seq (t : Tile) (q : Seq) : SameTile t { t with seq := q } :=
  ⟨rfl, ⟨rfl, rfl, rfl, rfl, rfl, rfl, rfl, rfl, rfl, rfl, rfl, rfl, ⟨rfl, rfl, rfl⟩, rfl, ⟨rfl, rfl, rfl, rfl⟩, rfl, rfl⟩,
    ⟨rfl, rfl, rfl⟩, ⟨rfl, rfl, rfl, rfl⟩⟩

theorem enterTarget_pc (t : Tile) : (enterTarget t).seq.pc = t.seq.pc := by
  unfold enterTarget; (repeat' split) <;> rfl

theorem enterTarget_of_delay {t : Tile} (h : ∀ x, t.seq.xfer = some x → x.delay ≠ 0) : enterTarget t = t := by
  unfold enterTarget
  split
  next x hx => exact if_neg (h x hx)
  next => rfl

/-- An empty bundle becomes the bundle under issue, and its header is traced or not. -/
theorem exec_emptyBundle {s : State} {p : Part} {t : Tile} (h : tileAt s s.cur = some (p, t)) (fold : BitVec 12) (le tt : Bool) :
    ∃ t', exec (.emptyBundle fold le tt) s = .next (onTile s s.cur (fun _ => t')) ∧ SameTile (enterTarget t) t' ∧
      t'.seq.issue.map (fun is => (is.pc, is.mask, is.slots)) = some (t.seq.pc, 0, []) := by
  have hx : exec (.emptyBundle fold le tt) s = execEmptyBundle fold le tt s := rfl
  rw [hx, execEmptyBundle, h]
  refine ⟨_, rfl, ?_⟩
  split
  · exact ⟨(SameTile.of_seq _ _).traceAdd _ _, by rw [traceAdd_seq, ← enterTarget_pc t]; rfl⟩
  · exact ⟨SameTile.of_seq _ _, congrArg (fun a => some (a, 0, [])) (enterTarget_pc t)⟩

/-- Settles O6: the tile keeps what it held but for the bundle under issue, the trace and the target that enters. -/
theorem emptyBundleChangesNothing : Obligations.EmptyBundleChangesNothing := by
  intro s p t fold le tt hat hfirst
  refine ⟨?_, enterTarget_of_delay⟩
  obtain ⟨t', hexec, hsame, hissue⟩ := exec_emptyBundle hat fold le tt
  have hpart := (Shows.part ⟨⟨p, hat, rfl, hfirst⟩⟩ : ∀ q, getPart s s.cur.band = some q → q.first = s.cur.band)
  exact ⟨_, t', hexec, ⟨tileOf_onTile_same _ hat hfirst, by simpa using hsame.flight, hsame.regs, hsame.event, hsame.mem,
    OnlyTile.onTile s s.cur _ hpart⟩, hissue⟩

end Sys2Proof.Machine
end

section
/-! PROOFS. The encoding family: a masked store finds no collision (R164). -/

namespace Sys2Proof.Machine

/-! ## A masked store in a bank that is in use (R164, R166) -/

/-- A tile where an engine has used bank 0 in this cycle, and whose mask register m1 is 0. -/
def bankZeroUsed : Tile :=
  { accs := [{ bank := 0, line := 0, rank := 2, bits := 4, won := true, bin := false, old := 0 }] }

/-- A launch on band 0 with that tile as its tile (0, 0). -/
def maskedStore : State := { State.reset with parts := [(0, { tiles := [(0, bankZeroUsed)] })] }

theorem ready_maskedStore {codes : List Nat} (h : ∀ c ∈ codes, isLate bankZeroUsed 0 c = false) :
    Ready maskedStore { tiles := [(0, bankZeroUsed)] } bankZeroUsed always codes where
  here := rfl
  keyed := rfl
  guard := rfl
  timely := List.forall_mem_append.mpr ⟨List.forall_mem_singleton.mpr rfl, h⟩
  sound := fun _ _ => rfl

/-- Line 0 lies in the bank that is in use. -/
theorem localScan_bankZeroUsed : (localScan bankZeroUsed (issueOf bankZeroUsed .st) (slotNum .st) [0]).2 = some 0 := rfl

/-- No byte of the store is written, so it makes no access of the bank and takes its course without an event. -/
theorem exec_stvmOffset_maskedStore : ∃ u, exec (.stvmOffset always 0 0 0 1) maskedStore = .next u ∧ u.ring = [] :=
  ⟨_, rfl, rfl⟩

/-- What the statement asks for in its place: the event of the ST slot on bank 0. -/
def collidedStore : State :=
  raisePrecise
    (onTile maskedStore maskedStore.cur
      (fun t => { t with accs := t.accs.map (fun e => if e.bank = bankOf 0 then { e with won := true } else e) }))
    maskedStore.cur .st 0x03 (localBits bankZeroUsed (issueOf bankZeroUsed .st) (slotNum .st) 0)

theorem ring_collidedStore : collidedStore.ring.length = 1 := rfl

/-- Refutes O46: its clause on stores names the line of an STVM as an access whatever the mask (R164, log entry 11).
Where the mask is 0 and another engine has used the line's bank, the store makes no access and raises nothing. -/
theorem not_issueChecksComeFirst : ¬ Obligations.IssueChecksComeFirst := by
  unfold Obligations.IssueChecksComeFirst
  intro h
  obtain ⟨-, -, -, -, -, -, hstores, -⟩ := h maskedStore _ bankZeroUsed rfl rfl
  obtain ⟨-, ⟨-, hmasked⟩, -⟩ := hstores always 0 0 0 0 0 0 1
  obtain ⟨hclash, -⟩ := hmasked (List.forall_mem_singleton.mpr (by decide)) rfl (ready_maskedStore (by decide)) rfl
  have hevent : exec (.stvmOffset always 0 0 0 1) maskedStore = .next collidedStore := hclash 0 localScan_bankZeroUsed
  obtain ⟨u, hu, hring⟩ := exec_stvmOffset_maskedStore
  have hsame : u = collidedStore := Host.Outcome.next.inj (hu.symm.trans hevent)
  exact absurd (ring_collidedStore.symm.trans (congrArg List.length (hsame ▸ hring))) (by decide)

end Sys2Proof.Machine
end
